-- ==== Sys2Proof/Word.lean ====
section
/-! DEFINITION. Word types of the model: bytes, the 1,024-byte buffers, and saturating counts. -/

namespace Sys2Proof

/-- One byte of a port, a record or a sector. -/
abbrev Byte := BitVec 8

/-- The bytes of one sector buffer or sector frame: cells (address, byte), addresses strictly
rising below 1,024 and no byte 0 listed. An unlisted byte reads as 0, the content R58 and R37 give
after external reset. -/
abbrev Memory := List Host.Cell

/-- The user bytes of one sector (R3). -/
abbrev sectorBytes : Nat := 1024

/-- A counter that saturates at 65,535 (R37, R129, R186). -/
abbrev saturate (n : Nat) : Nat := min n 65535

/-- A value clamped to the nearer end of a range (R184, R185). -/
abbrev clamp (lo hi n : Nat) : Nat := max lo (min hi n)

end Sys2Proof
end

