-- ==== Sys2Proof/Syntax.lean ====
section
/-! DEFINITION. The commands of the 4320: one constructor per row of spec/opcode_table.json. -/

namespace Sys2Proof

/-- One of the two channels, or its port. -/
inductive Channel
  | A
  | B
deriving DecidableEq, Repr

/-- A port location other than DATA and PORT STATUS that a processor may write (R177–R179). -/
inductive WriteLocation
  | request
  | completion
  | transfer
deriving DecidableEq, Repr

/-- The spindle field of the state record (R128). -/
inductive Spindle
  | stopped
  | stable
deriving DecidableEq, Repr

/-- The state record of a DONE answer to REPORT STATE (R128). -/
structure StateRecord where
  mediaPresent : Bool
  writeProtected : Bool
  spindle : Spindle
  faultPresent : Bool
deriving DecidableEq, Repr

/-- The reason a RESPONSE frame gives with REFUSED (R127). -/
inductive RefusedReason
  | noMedia
  | writeProtected
  | seekError
  | badFrame
deriving DecidableEq, Repr

/-- The result a RESPONSE frame carries (R127). The record of `done` is the state record of a
REPORT STATE; for every other command it is not looked at (log 12). -/
inductive Answer
  | done (record : StateRecord)
  | refused (reason : RefusedReason)
deriving DecidableEq, Repr

/-- A sector frame as the ECC decoder finds it (R3, R5): the facts about the medium that the spec
takes as reported. `errors i` is the number of bytes in error among the bytes that interleave i
protects; `data` is the user bytes, after correction where the decoder can correct. -/
structure SectorFrame where
  erasedPattern : Bool
  track : Nat
  sector : Nat
  errors0 : Nat
  errors1 : Nat
  errors2 : Nat
  errors3 : Nat
  data : Memory
deriving DecidableEq, Repr

/-- A command: one row of the opcode table with its operands. -/
inductive Instr
  | externalReset
  | channelReset (ch : Channel) (value : Byte)
  | clearOverrun (ch : Channel) (value : Byte)
  | registerWrite (ch : Channel) (loc : WriteLocation) (value : Byte)
  | completionRead (ch : Channel)
  | dataRead (ch : Channel)
  | dataWrite (ch : Channel) (value : Byte)
  | read (ch : Channel) (tag : Byte) (lsn : BitVec 24) (count : Byte) (deadline : BitVec 16)
      (flags : Byte)
  | write (ch : Channel) (tag : Byte) (lsn : BitVec 24) (count : Byte)
  | reassign (ch : Channel) (tag : Byte) (lsn : BitVec 24)
  | reserve (ch : Channel) (tag : Byte) (lsn : BitVec 24) (count : BitVec 24) (mode : Byte)
  | release (ch : Channel) (tag : Byte) (id : Byte)
  | flushMap (ch : Channel) (tag : Byte)
  | eject (ch : Channel) (tag : Byte)
  | mount (ch : Channel) (tag : Byte)
  | status (ch : Channel) (tag : Byte) (clear : Byte)
  | reportMap (ch : Channel) (tag : Byte) (band : Byte)
  | setPolicy (ch : Channel) (tag : Byte) (verifyLimit rescueThreshold readRetries mechRetries
      insertionLimit : Byte) (urgencyWindow settleDelay : BitVec 16)
  | setChannel (ch : Channel) (tag : Byte) (queueDepth : Byte) (idleLimit : BitVec 16)
      (readAheadWindow enables : Byte)
  | abort (ch : Channel) (tag : Byte) (target : Byte)
  | unknownRequest (ch : Channel) (kind : Byte) (tag : Byte) (params : List Byte)
  | pendingNoticePost (ch : Channel)
  | slotWaitServe
  | overlapWaitRelease
  | headSchedulerChoice
  | response (number : Byte) (answer : Answer)
  | mechDataFrame (number : Byte) (sector : Nat) (frame : SectorFrame)
  | damagedFrame
  | commandTimeout
  | mediaIn (number : Byte) (writeProtected : Bool)
  | mediaOut (number : Byte)
  | button (number : Byte)
  | mechFault (number : Byte)
  | deadlineExpiry (ch : Channel) (tag : Byte)
  | dataTimeout (ch : Channel)
  | settleDelayExpiry
  | unmountDrainEnd
  | timebaseTick
deriving DecidableEq, Repr

end Sys2Proof
end

