-- ==== Sys2Proof/Decode.lean ====
section
/-! DEFINITION. Reading a command from a word of the opcode table. -/

namespace Sys2Proof

/-- The command that a word spells by the opcode table's bits. Every row of
spec/opcode_table.json has an empty list of fields and no fixed bits, so no word spells a command
(log 2). -/
def decodeTableWord (_nbits _w : Nat) : Option Instr := none

end Sys2Proof
end

