-- ==== Sys2Proof/Machine/State.lean ====
section
/-! DEFINITION. The state of the 4320 as plain data, the fault and refusal reasons, and the state
after external reset. -/

namespace Sys2Proof.Machine

/-- One thing of each channel (00_scope §5, "Channel"). -/
structure PerChannel (α : Type) where
  a : α
  b : α
deriving DecidableEq, Repr

/-! ### Policy, settings, counters (Chapter 11) -/

/-- The policy values in force (R184). -/
structure Policy where
  verifyLimit : Nat
  rescueThreshold : Nat
  readRetries : Nat
  mechRetries : Nat
  insertionLimit : Nat
  urgencyWindow : Nat
  settleDelay : Nat
deriving DecidableEq, Repr

/-- The settings of one channel (R185). -/
structure Settings where
  queueDepth : Nat
  idleLimit : Nat
  readAheadWindow : Nat
  completionEnable : Bool
  dataEnable : Bool
deriving DecidableEq, Repr

/-- The six counters of one channel (R186). -/
structure Counters where
  completed : Nat
  sectorsRead : Nat
  sectorsWritten : Nat
  corrected : Nat
  expired : Nat
  late : Nat
deriving DecidableEq, Repr

/-! ### Requests, completions, notices (Chapters 9 and 11) -/

/-- The 13 request kinds (11.6). -/
inductive RequestKind
  | read | write | reassign | reserve | release | flushMap | eject | mount
  | status | reportMap | setPolicy | setChannel | abort
deriving DecidableEq, Repr

/-- The status codes of a completion block (11.6). -/
inductive Status
  | success | unknownRequest | malformed | duplicateTag | queueFull | notReady | noCartridge
  | outOfRange | writeProtected | reserved | tableFull | noSuchReservation | noSuchTag | aborted
  | expired | dataTimeout | blank | mediumError | writeFailed | sparesExhausted | defectListFull
  | seekFailed | mechanismFault | mapNotSaved
deriving DecidableEq, Repr

/-- The notice kinds (R168). -/
inductive Notice
  | cartridgeReady | cartridgeUnreadable | cartridgeGone | ejectButton | readOnly | mapLost
  | mechanismFault | policyChanged
deriving DecidableEq, Repr

/-- The states of a request record (R153). -/
inductive RequestState
  | queued | slotWait | overlapWait | filling | active | delivering | done
deriving DecidableEq, Repr

/-- Where one sector of a READ stands (R63–R67, R157). -/
inductive ReadSectorState
  | waiting                 -- not bound yet
  | bound (slot : Nat)      -- on the binding list of a slot
  | failed (status : Status)
  | taken                   -- its last byte has been taken at the port
  | gaveUp                  -- its binding was given up
deriving DecidableEq, Repr

/-- One sector of a READ, with the correction load the READ recorded for it (R65, R157). -/
structure ReadSector where
  st : ReadSectorState
  load : Option Nat
deriving DecidableEq, Repr

/-- A request record (R153). `id` is the model's acceptance number; `started` is R158's,
`sectors` and `readAheadPassed` are R157's and R117's, `served` is R54's. -/
structure Request where
  id : Nat
  tag : Byte
  kind : RequestKind
  lsn : Nat
  count : Nat
  sequential : Bool
  deadline : Option Nat
  state : RequestState
  sectorsDone : Nat
  worstLoad : Option Nat
  firstFailing : Option Nat
  result : Option Status
  late : Bool
  corrected : Bool
  rescueQueued : Bool
  reassigned : Bool
  short : Bool
  abortMark : Bool
  reservationId : Option Nat
  started : Bool
  sectors : List ReadSector
  readAheadPassed : Bool
  served : Bool
deriving DecidableEq, Repr

/-- A completion or notice block of an outbox (R166, 11.6). -/
structure OutBlock where
  tag : Byte
  kind : Byte
  status : Byte
  flags : Byte
  result : Byte
  load : Byte
  lsn : BitVec 24
  time : BitVec 32
deriving DecidableEq, Repr

/-- The direction of a transfer (R176). -/
inductive Direction
  | outward   -- OUT: READ, STATUS, REPORT MAP
  | inward    -- IN: a WRITE fill
deriving DecidableEq, Repr

/-- A transfer record (R176, R179); `record` holds the bytes of a STATUS or REPORT MAP record. -/
structure Transfer where
  request : Nat
  tag : Byte
  dir : Direction
  length : Nat
  moved : Nat
  record : List Byte
deriving DecidableEq, Repr

/-- One channel port (R176); `busOut` is the byte the last read command of the port returned. -/
structure Port where
  partialBlock : Option (List Byte)
  outbox : List OutBlock
  headRead : Nat
  pendingNotices : List Notice
  transfers : List Transfer
  idle : Option Nat
  overrun : Bool
  settings : Settings
  counters : Counters
  busOut : Byte
deriving DecidableEq, Repr

/-- The mode of a reservation (R169). -/
inductive ReserveMode
  | shared
  | exclusive
deriving DecidableEq, Repr

/-- An entry of the reservation table (R169). -/
structure Reservation where
  id : Nat
  owner : Channel
  first : Nat
  count : Nat
  mode : ReserveMode
deriving DecidableEq, Repr

/-! ### The cartridge's map (Chapters 1 to 3) -/

/-- A band record of the header copy (R8). -/
structure BandRecord where
  firstTrack : Nat
  trackCount : Nat
  sectorsPerTrack : Nat
  spareTracks : Nat
deriving DecidableEq, Repr

/-- An entry of the replacement list (R10). -/
inductive MapEntry
  | moved (band pos spare : Nat)
  | retired (band spare : Nat)
deriving DecidableEq, Repr

/-- Settle remaining (R37, R50): absent, running with so many milliseconds left, or reached 0. -/
inductive Settle
  | absent
  | running (ms : Nat)
  | reached
deriving DecidableEq, Repr

/-- The Defect Manager's state (R37). The rescue in progress is the work of kind rescue in
`State.works`. -/
structure DefectManager where
  bands : List BandRecord
  slips : List (Nat × Nat)
  replacement : List MapEntry
  dirty : Bool
  changeCount : Nat
  generation : BitVec 32
  settle : Settle
  rescueList : List (Nat × Nat)
  staging : List Memory
  snapshot : Nat
  reassignments : Nat
  rescuesDone : Nat
  rescuesDropped : Nat
  verdictHeld : Bool
deriving DecidableEq, Repr

/-! ### The Sector Buffer Pool (Chapter 4) -/

/-- The slot states (R58). -/
inductive SlotState
  | free | filling | fetching | writing | clean
deriving DecidableEq, Repr

/-- The work that a slot, an operation or a run serves (R58, R81). A request's number is its
acceptance number; the rescue has the number it got when it became the rescue in progress. -/
inductive Work
  | read (ch : Channel) (id : Nat)
  | readAhead (ch : Channel)
  | write (id : Nat)
  | reassign (id : Nat)
  | rescue (id : Nat)
  | writeback
  | mount
deriving DecidableEq, Repr

/-- A slot's charged-to field (R58, R61). -/
inductive Charge
  | none
  | internal
  | channel (ch : Channel)
deriving DecidableEq, Repr

/-- The write stages (R58). -/
inductive WriteStage
  | queued | erased | recorded
deriving DecidableEq, Repr

/-- An entry of a binding list (R58): a READ, waiting (the slot is FILLING) or holding. -/
structure Binding where
  ch : Channel
  id : Nat
  waiting : Bool
deriving DecidableEq, Repr

/-- A slot with its record and content (R58). `fetchBegun` is R84's; `chargedFor` is the claim the
charge to a channel was made for (R61 item 3). -/
structure Slot where
  state : SlotState
  lsn : Option Nat
  stale : Bool
  work : Option Work
  bindings : List Binding
  holdCount : Nat
  charged : Charge
  chargedFor : Option Nat
  stage : Option WriteStage
  stamp : BitVec 32
  fetchBegun : Bool
  content : Memory
deriving DecidableEq, Repr

/-- The pool: 32 slots, the buffer directory and the slot-wait list (R58, R59, R76). -/
structure Pool where
  slots : List Slot
  directory : List (Nat × Nat)
  slotWait : List Nat
deriving DecidableEq, Repr

/-! ### Runs and write work (Chapters 2, 4 and 5) -/

/-- A sector of a run, with the LSN whose place it is (02, 2.6). -/
structure RunSector where
  sector : Nat
  lsn : Option Nat
deriving DecidableEq, Repr

/-- A run (02, 2.6); `serial` numbers the follow-up runs in the order they were formed (R114). -/
structure Run where
  track : Nat
  sectors : List RunSector
  serial : Nat
deriving DecidableEq, Repr

/-- The result of one sector of write work (R97). -/
inductive SectorResult
  | passed
  | failed (status : Status)
deriving DecidableEq, Repr

/-- One sector of write work: its slot, its result, whether a run has covered it, whether its run
was dropped without a result, and the spares tried for it (R43, R97). -/
structure WorkSector where
  lsn : Nat
  slot : Option Nat
  result : Option SectorResult
  covered : Bool
  dropped : Bool
  spares : Nat
deriving DecidableEq, Repr

/-- The kinds of write work (R68). -/
inductive WorkKind
  | write | reassign | rescue
deriving DecidableEq, Repr

/-- Where write work stands: waiting (R68, R76), filling (R69), its data step (R74, R75), or its
runs (R70, R95, R101). -/
inductive WorkPhase
  | overlapWait | slotWait | filling | dataStep | runs
deriving DecidableEq, Repr

/-- Unfinished write work (R68). `owner` is absent for the rescue and for work of a request that a
channel reset has discarded. `fetchLoad` and `eraseOnly` are a REASSIGN's (R49, R101 item 4). -/
structure WriteWork where
  id : Nat
  kind : WorkKind
  owner : Option Channel
  phase : WorkPhase
  sectors : List WorkSector
  followUps : List Run
  worstLoad : Option Nat
  fetchLoad : Option Nat
  reassigned : Bool
  abortMark : Bool
  eraseOnly : Bool
deriving DecidableEq, Repr

/-! ### Media Engine and Head Scheduler (Chapters 5 and 6) -/

/-- The decoder outcomes with the load and data handed on (R5, R6). -/
inductive DecoderOutcome
  | clean (data : Memory)
  | corrected (load : Nat) (data : Memory)
  | uncorrectable
  | blank
deriving DecidableEq, Repr

/-- The kinds of operation (R81). -/
inductive OperationKind
  | fetch | indexFetch | erasePass | recordPass | verifyPass
deriving DecidableEq, Repr

/-- One sector of a fetch in flight: its last outcome, whether it is settled, and the re-reads made
(R84, R85). -/
structure FetchSector where
  sector : Nat
  lsn : Option Nat
  outcome : Option DecoderOutcome
  settled : Bool
  rereads : Nat
deriving DecidableEq, Repr

/-- The operation record (R81). `reread` is absent while the command in progress is the run's
first, and else the sector being re-read with its attempt number. -/
structure Operation where
  kind : OperationKind
  work : Work
  run : Run
  reread : Option (Nat × Nat)
  outcomes : List FetchSector
deriving DecidableEq, Repr

/-- A pass of a write run (R90). -/
inductive Pass
  | erase | record | verify
deriving DecidableEq, Repr

/-- The open-run record (R106, R110); `pass` is the pass in flight or taken next. -/
structure OpenRun where
  run : Run
  work : Work
  pass : Pass
  insertions : Nat
  eraseOnly : Bool
deriving DecidableEq, Repr

/-- A read-ahead record (R106, R117). -/
structure ReadAhead where
  windowEnd : Nat
  next : Nat
deriving DecidableEq, Repr

/-- The Head Scheduler's state (R106). -/
structure Scheduler where
  openRun : Option OpenRun
  urgentMarker : Channel
  normalMarker : Channel
  prefetchMarker : Channel
  readAhead : PerChannel (Option ReadAhead)
deriving DecidableEq, Repr

/-- A condition of a sector place (R4). -/
inductive PlaceCondition
  | erased
  | recorded (data : Memory)
  | disturbed
deriving DecidableEq, Repr

/-- What the passes of this mount have left at one place: the conditions R4 allows there. A place
with no entry has not been covered, or is left unknown. -/
structure PlaceRecord where
  track : Nat
  sector : Nat
  conditions : List PlaceCondition
deriving DecidableEq, Repr

/-! ### The mechanism link (Chapter 7) -/

/-- The link states (R122). -/
inductive LinkState
  | idle | awaitingResponse | retrying
deriving DecidableEq, Repr

/-- The causes of a failed answer (R129). -/
inductive FailureCause
  | timeout | check | badFrame | seekError
deriving DecidableEq, Repr

/-- A sector frame the 4320 sends: address and user data (R3, R93). -/
structure SentSector where
  track : Nat
  sector : Nat
  data : Memory
deriving DecidableEq, Repr

/-- The six link commands with their contents (R124). -/
inductive LinkCommand
  | spinUp
  | eject
  | reportState
  | readSectors (track : Nat) (sectors : List Nat)
  | eraseSectors (track : Nat) (sectors : List Nat)
  | recordSectors (track : Nat) (frames : List SentSector)
deriving DecidableEq, Repr

/-- Who a command was sent for (R122). -/
inductive Sender
  | mediaEngine | cartridgeController
deriving DecidableEq, Repr

/-- The outstanding command (R122). -/
structure OutstandingCommand where
  number : Byte
  command : LinkCommand
  sender : Sender
deriving DecidableEq, Repr

/-- The frames the 4320 sends (R123). -/
inductive LinkFrame
  | command (number : Byte) (command : LinkCommand)
  | data (number : Byte) (sector : SentSector)
  | eventAck (number : Byte)
deriving DecidableEq, Repr

/-- The Mechanism Link Controller's state (R122); `sent` is the frames sent, oldest first. -/
structure Link where
  state : LinkState
  outstanding : Option OutstandingCommand
  remaining : Option Nat
  retryCount : Option Nat
  lastFailure : Option FailureCause
  nextNumber : Byte
  received : List (Nat × SectorFrame)
  lastEvent : Option Byte
  linkRetries : Nat
  sent : List LinkFrame
deriving DecidableEq, Repr

/-! ### The Cartridge Controller (Chapter 8) -/

/-- The cartridge states (R137). -/
inductive CartridgeState
  | empty | spinning | mounting | ready | unmounting | ejecting | unreadable | faulted
deriving DecidableEq, Repr

/-- The read-only flag (R137, R141). -/
inductive ReadOnly
  | none | writeProtected | mapDamaged | indexWriteFailed
deriving DecidableEq, Repr

/-- The unmount answer (R55, R137). -/
inductive UnmountAnswer
  | saved | notSaved
deriving DecidableEq, Repr

/-- The Cartridge Controller's state (R137). `unmountAsked` is R143's asking for the unmount
writeback; `indexWanted` is R140's asking for an INDEX FETCH, by track. -/
structure Controller where
  state : CartridgeState
  readOnly : ReadOnly
  writeProtect : Bool
  ejectRequesters : List (Channel × Byte)
  mountRequesters : List (Channel × Byte)
  unmountAnswer : Option UnmountAnswer
  recovering : Bool
  ejectPending : Bool
  startupReport : Bool
  unmountAsked : Bool
  indexWanted : Option Nat
deriving DecidableEq, Repr

/-- The whole machine. `nextId` and `raised` are the model's own (log 30); `pending` is the queue
of commands (log 1). -/
structure State where
  timebase : BitVec 32
  policy : Policy
  ports : PerChannel Port
  requests : PerChannel (List Request)
  reservations : List Reservation
  works : List WriteWork
  dm : DefectManager
  pool : Pool
  engine : Option Operation
  sched : Scheduler
  medium : List PlaceRecord
  link : Link
  ctl : Controller
  raised : List Notice
  nextId : Nat
  pending : List Instr
deriving DecidableEq, Repr

/-- Why the machine would stop with a fault. The spec gives the block no trap, so no meaning raises
one. -/
inductive Fault
  /-- Nobody raises it; safe. It only keeps the type inhabited. -/
  | neverRaised
deriving DecidableEq, Repr

/-- Why a command would be refused by the model. -/
inductive Refusal
  /-- Raised by an arm of `exec` whose command has no meaning yet; safe. No arm does. -/
  | notModelled (mnemonic : String)
deriving DecidableEq, Repr

/-! ### The values after external reset -/

/-- The default policy values (R184). -/
def Policy.reset : Policy :=
  { verifyLimit := 2, rescueThreshold := 4, readRetries := 3, mechRetries := 2,
    insertionLimit := 4, urgencyWindow := 100, settleDelay := 500 }

/-- The default channel settings (R185). -/
def Settings.reset : Settings :=
  { queueDepth := 12, idleLimit := 2000, readAheadWindow := 8,
    completionEnable := true, dataEnable := true }

/-- The channel counters after reset (R186). -/
def Counters.reset : Counters :=
  { completed := 0, sectorsRead := 0, sectorsWritten := 0, corrected := 0, expired := 0, late := 0 }

/-- A port after external or channel reset (R176). -/
def Port.reset : Port :=
  { partialBlock := none, outbox := [], headRead := 0, pendingNotices := [], transfers := [],
    idle := none, overrun := false, settings := Settings.reset, counters := Counters.reset,
    busOut := 0 }

/-- The Defect Manager after external reset and on entry to EMPTY (R37). -/
def DefectManager.reset : DefectManager :=
  { bands := [], slips := [], replacement := [], dirty := false, changeCount := 0, generation := 0,
    settle := .absent, rescueList := [], staging := List.replicate 16 [], snapshot := 0,
    reassignments := 0, rescuesDone := 0, rescuesDropped := 0, verdictHeld := false }

/-- A slot after external reset (R58). -/
def Slot.reset : Slot :=
  { state := .free, lsn := none, stale := false, work := none, bindings := [], holdCount := 0,
    charged := .none, chargedFor := none, stage := none, stamp := 0, fetchBegun := false,
    content := [] }

/-- The pool after external reset (R58). -/
def Pool.reset : Pool :=
  { slots := List.replicate 32 Slot.reset, directory := [], slotWait := [] }

/-- The Head Scheduler after external reset (R106). -/
def Scheduler.reset : Scheduler :=
  { openRun := none, urgentMarker := .B, normalMarker := .B, prefetchMarker := .B,
    readAhead := { a := none, b := none } }

/-- The link after external reset, before the start-up REPORT STATE is sent (R122). -/
def Link.reset : Link :=
  { state := .idle, outstanding := none, remaining := none, retryCount := none,
    lastFailure := none, nextNumber := 0, received := [], lastEvent := none, linkRetries := 0,
    sent := [] }

/-- The Cartridge Controller after external reset (R137). -/
def Controller.reset : Controller :=
  { state := .empty, readOnly := .none, writeProtect := false, ejectRequesters := [],
    mountRequesters := [], unmountAnswer := none, recovering := false, ejectPending := false,
    startupReport := true, unmountAsked := false, indexWanted := none }

/-- Every item at the value its rule gives it at external reset. The medium record, for which no rule
gives one, is empty (log 37). -/
def State.resetValues : State :=
  { timebase := 0, policy := Policy.reset, ports := { a := Port.reset, b := Port.reset },
    requests := { a := [], b := [] }, reservations := [], works := [], dm := DefectManager.reset,
    pool := Pool.reset, engine := none, sched := Scheduler.reset, medium := [],
    link := Link.reset, ctl := Controller.reset, raised := [], nextId := 0, pending := [] }

/-- The machine right after external reset: the reset values, with the start-up REPORT STATE that
R138 sends at once outstanding as R125 sends it (log 3). -/
def State.reset : State :=
  { State.resetValues with
    link := { Link.reset with
      state := .awaitingResponse
      outstanding :=
        some { number := 0, command := .reportState, sender := .cartridgeController }
      remaining := some 200
      retryCount := some 0
      nextNumber := 1
      sent := [.command 0 .reportState] } }

end Sys2Proof.Machine
end

