-- ==== Sys2Proof/Config.lean ====
section
/-! DEFINITION. The fixed quantities of the part and the values the spec leaves open. -/

namespace Sys2Proof

/-- The check bytes of one interleave, from the 256 user bytes it protects (R3). The spec gives no
decoding mathematics (00_scope §7): uninterpreted (log 10). -/
opaque Config.eccCheckBytes : List Byte → List Byte

/-- The fields of a link frame before its link check, as bits in the order in which they cross the
link (R123). The spec gives no wire layout: uninterpreted (log 11). -/
opaque Config.linkFrameBits : Machine.LinkFrame → List Bool

/-- Places of an outbox (R167). -/
abbrev Config.outboxPlaces : Nat := 16

/-- Slots chargeable to one channel (R61). -/
abbrev Config.channelSlots : Nat := 16

/-- Entries of the reservation table (R169). -/
abbrev Config.reservationEntries : Nat := 8

/-- Entries of the replacement list (R38). -/
abbrev Config.replacementEntries : Nat := 1024

/-- Entries of the rescue list (R44). -/
abbrev Config.rescueEntries : Nat := 16

/-- Spares tried for one sector within one piece of work (R43). -/
abbrev Config.sparesPerSector : Nat := 3

/-- The response limit of a command, in ms (R124). -/
def Config.responseLimit : Machine.LinkCommand → Nat
  | .spinUp => 8000
  | .eject => 5000
  | .reportState => 200
  | .readSectors _ _ => 500
  | .eraseSectors _ _ => 500
  | .recordSectors _ _ => 500

end Sys2Proof
end

