-- ==== Sys2Proof/Machine/Memory.lean ====
section
/-! DEFINITION. Reading and writing the 1,024-byte buffers, and multi-byte fields in them. -/

namespace Sys2Proof

/-- The byte at an address; an unlisted address reads 0 (R58, R37). -/
def Memory.readByte : Memory → Nat → Byte
  | [], _ => 0
  | (k, v) :: m, a => if k = a then v else Memory.readByte m a

/-- A buffer with one byte changed; the form stays canonical. -/
def Memory.writeByte : Memory → Nat → Byte → Memory
  | [], a, b => if b = 0 then [] else [(a, b)]
  | (k, v) :: m, a, b =>
    if a < k then (if b = 0 then (k, v) :: m else (a, b) :: (k, v) :: m)
    else if a = k then (if b = 0 then m else (a, b) :: m)
    else (k, v) :: Memory.writeByte m a b

/-- Addresses rising strictly from `lo`, no byte 0 listed, all below 1,024. -/
def Memory.wfFrom : Nat → Memory → Bool
  | _, [] => true
  | lo, (k, v) :: m => decide (lo ≤ k) && decide (k < sectorBytes) && decide (v ≠ 0) &&
      Memory.wfFrom (k + 1) m

/-- The canonical form: strictly rising addresses below 1,024, and no entry equal to what an
unlisted address reads as. -/
def Memory.wf (m : Memory) : Bool := Memory.wfFrom 0 m

/-- The canonical buffer with the bytes that the cells below address 1,024 give; of two cells with
one address the later one counts. -/
def Memory.canonical (cells : Memory) : Memory :=
  cells.foldl (fun m c => if c.1 < sectorBytes then m.writeByte c.1 c.2 else m) []

/-- A buffer with bytes written from an address upward. -/
def Memory.writeBytes (m : Memory) : Nat → List Byte → Memory
  | _, [] => m
  | a, b :: bs => Memory.writeBytes (m.writeByte a b) (a + 1) bs

/-- A byte as an unsigned value. -/
def Memory.field8 (m : Memory) (a : Nat) : Nat := (m.readByte a).toNat

/-- A two-byte field, most significant byte first (R7). -/
def Memory.field16 (m : Memory) (a : Nat) : Nat := m.field8 a * 256 + m.field8 (a + 1)

/-- A three-byte field, most significant byte first (R7). -/
def Memory.field24 (m : Memory) (a : Nat) : Nat := m.field16 a * 256 + m.field8 (a + 2)

/-- A four-byte field, most significant byte first (R7). -/
def Memory.field32 (m : Memory) (a : Nat) : Nat := m.field16 a * 65536 + m.field16 (a + 2)

/-- The bytes of a value, most significant first (R7, 11.6). -/
def bytesOf : Nat → Nat → List Byte
  | 0, _ => []
  | n + 1, v => BitVec.ofNat 8 (v / 256 ^ n) :: bytesOf n v

/-- The value of bytes taken most significant first (11.6). -/
def valueOf (bs : List Byte) : Nat := bs.foldl (fun v b => v * 256 + b.toNat) 0

/-- The record check of R7: the sum of user bytes 0–1,021 modulo 65,536. -/
def Memory.recordCheck (m : Memory) : Nat :=
  (m.foldl (fun n c => if c.1 < 1022 then n + c.2.toNat else n) 0) % 65536

/-- The record check stored in user bytes 1,022–1,023 matches the computed sum (R7). -/
def Memory.checkMatches (m : Memory) : Bool := m.field16 1022 == m.recordCheck

/-- A record with its record check stored (R7). -/
def Memory.withCheck (m : Memory) : Memory := m.writeBytes 1022 (bytesOf 2 m.recordCheck)

end Sys2Proof
end

