-- ==== Sys2Proof/Machine/Ops.lean ====
section
/-! DEFINITION. The named operations over the parts of the state: channels, requests, work, slots,
the link's sending of frames, and the medium record. -/

namespace Sys2Proof

/-- The channel that did not send the request under discussion (00_scope §5). -/
def Channel.other : Channel → Channel
  | .A => .B
  | .B => .A

namespace Machine

def PerChannel.get {α : Type} (p : PerChannel α) : Channel → α
  | .A => p.a
  | .B => p.b

def PerChannel.set {α : Type} (p : PerChannel α) (c : Channel) (x : α) : PerChannel α :=
  match c with
  | .A => { p with a := x }
  | .B => { p with b := x }

def PerChannel.modify {α : Type} (p : PerChannel α) (c : Channel) (f : α → α) : PerChannel α :=
  p.set c (f (p.get c))

/-! ### Ports and requests -/

def State.port (s : State) (c : Channel) : Port := s.ports.get c

def State.updPort (s : State) (c : Channel) (f : Port → Port) : State :=
  { s with ports := s.ports.modify c f }

/-- The outstanding requests of a channel, in acceptance order (R153). -/
def State.reqs (s : State) (c : Channel) : List Request := s.requests.get c

def State.findReq (s : State) (c : Channel) (id : Nat) : Option Request :=
  (s.reqs c).find? (fun r => r.id == id)

def State.reqByTag (s : State) (c : Channel) (tag : Byte) : Option Request :=
  (s.reqs c).find? (fun r => r.tag == tag)

def State.updReq (s : State) (c : Channel) (id : Nat) (f : Request → Request) : State :=
  { s with
    requests := s.requests.modify c (fun rs => rs.map (fun r => if r.id == id then f r else r)) }

/-- The transfers of a request leave its port's list (R179). -/
def State.dropTransfer (s : State) (c : Channel) (id : Nat) : State :=
  s.updPort c (fun p => { p with transfers := p.transfers.filter (fun t => t.request != id) })

/-- A transfer joins the tail of a port's list (R179). -/
def State.joinTransfer (s : State) (c : Channel) (t : Transfer) : State :=
  s.updPort c (fun p => { p with transfers := p.transfers ++ [t] })

/-- A request's result is settled (R167): DONE with its status; its transfer leaves the list. The
completion is posted at the end of the step (`State.flush`). -/
def State.settleReq (s : State) (c : Channel) (id : Nat) (st : Status) : State :=
  (s.updReq c id (fun r => { r with state := .done, result := some st })).dropTransfer c id

/-- A notice is raised for both ports (R168); it is posted at the end of the step. -/
def State.raise (s : State) (n : Notice) : State := { s with raised := s.raised ++ [n] }

/-! ### Write work -/

def State.findWork (s : State) (id : Nat) : Option WriteWork :=
  s.works.find? (fun w => w.id == id)

def State.updWork (s : State) (id : Nat) (f : WriteWork → WriteWork) : State :=
  { s with works := s.works.map (fun w => if w.id == id then f w else w) }

def State.dropWork (s : State) (id : Nat) : State :=
  { s with works := s.works.filter (fun w => w.id != id) }

/-- One sector of a piece of work changed. -/
def State.updWorkSector (s : State) (id lsn : Nat) (f : WorkSector → WorkSector) : State :=
  s.updWork id (fun w =>
    { w with sectors := w.sectors.map (fun x => if x.lsn == lsn then f x else x) })

/-- The rescue in progress (R46). -/
def State.rescue (s : State) : Option WriteWork := s.works.find? (fun w => w.kind == .rescue)

/-- Work that its first result is still open for: no result and not dropped (R97). -/
def WorkSector.isOpen (x : WorkSector) : Bool := x.result.isNone && !x.dropped

/-- The acceptance number a piece of work goes by. -/
def Work.id? : Work → Option Nat
  | .read _ id => some id
  | .write id => some id
  | .reassign id => some id
  | .rescue id => some id
  | .readAhead _ => none
  | .writeback => none
  | .mount => none

/-- The work that a piece of write work is named by in slots, operations and runs. -/
def WriteWork.name (w : WriteWork) : Work :=
  match w.kind with
  | .write => .write w.id
  | .reassign => .reassign w.id
  | .rescue => .rescue w.id

/-- The run of a piece of work is open. -/
def State.runOpenFor (s : State) (work : Work) : Bool :=
  match s.sched.openRun with
  | some r => r.work == work
  | none => false

/-- A writeback is in flight: its run over track 1 is open (R51, R116). -/
def State.writebackInFlight (s : State) : Bool := s.runOpenFor .writeback

/-! ### Slots -/

def State.slotAt (s : State) (i : Nat) : Slot := s.pool.slots.getD i Slot.reset

def State.setSlot (s : State) (i : Nat) (x : Slot) : State :=
  { s with pool := { s.pool with slots := s.pool.slots.set i x } }

def State.updSlot (s : State) (i : Nat) (f : Slot → Slot) : State := s.setSlot i (f (s.slotAt i))

/-- The LSN's current slot (R59). -/
def State.currentSlot (s : State) (lsn : Nat) : Option Nat :=
  (s.pool.directory.find? (fun d => d.1 == lsn)).map (fun d => d.2)

/-- The directory pair of a slot is removed (R59). -/
def State.unmapSlot (s : State) (i : Nat) : State :=
  { s with pool := { s.pool with directory := s.pool.directory.filter (fun d => d.2 != i) } }

/-- A slot becomes the LSN's current slot (R59). -/
def State.mapSlot (s : State) (lsn i : Nat) : State :=
  { s with pool := { s.pool with
      directory := s.pool.directory.filter (fun d => d.1 != lsn && d.2 != i) ++ [(lsn, i)] } }

/-- A request leaves the slot-wait list (R76). -/
def State.leaveSlotWait (s : State) (id : Nat) : State :=
  { s with pool := { s.pool with slotWait := s.pool.slotWait.filter (fun x => x != id) } }

/-- A request joins the tail of the slot-wait list, unless it is on it (R64, R76). -/
def State.joinSlotWait (s : State) (id : Nat) : State :=
  if s.pool.slotWait.contains id then s
  else { s with pool := { s.pool with slotWait := s.pool.slotWait ++ [id] } }

/-! ### The cyclic link check (R123) -/

/-- One bit of the link check: generator x^16 + x^12 + x^5 + 1. -/
def linkCheckStep (crc : BitVec 16) (bit : Bool) : BitVec 16 :=
  if crc.msb == bit then crc <<< 1 else (crc <<< 1) ^^^ 0x1021#16

/-- The link check over the bits of a frame, from the value FFFFh (R123). -/
def linkCheck (bits : List Bool) : BitVec 16 := bits.foldl linkCheckStep 0xFFFF#16

/-- The link check the 4320 stores in a frame it sends (R123). -/
def LinkFrame.check (f : LinkFrame) : BitVec 16 := linkCheck (Config.linkFrameBits f)

/-- The user bytes that interleave i (0–3) protects: the 256 whose number leaves remainder i when
divided by 4 (R3). -/
def interleave (m : Memory) (i : Nat) : List Byte :=
  (List.range 256).map (fun k => m.readByte (4 * k + i))

/-- The check bytes of a sector frame the 4320 sends: one group for each of the four interleaves
(R3). -/
def SentSector.checkBytes (f : SentSector) : List (List Byte) :=
  (List.range 4).map (fun i => Config.eccCheckBytes (interleave f.data i))

/-! ### Sending commands -/

/-- The frames of one issue of a command: the COMMAND frame and, for RECORD SECTORS, one DATA frame
per listed sector in list order (R124). -/
def OutstandingCommand.frames (c : OutstandingCommand) : List LinkFrame :=
  .command c.number c.command ::
    (match c.command with
     | .recordSectors _ fs => fs.map (fun f => .data c.number f)
     | _ => [])

/-- A command is sent (R125). It is sent only while the link is IDLE; the guard keeps law 7. -/
def State.sendCommand (s : State) (sender : Sender) (cmd : LinkCommand) : State :=
  match s.link.outstanding with
  | some _ => s
  | none =>
    let c : OutstandingCommand := { number := s.link.nextNumber, command := cmd, sender := sender }
    { s with link := { s.link with
        state := .awaitingResponse
        outstanding := some c
        remaining := some (Config.responseLimit cmd)
        retryCount := some 0
        lastFailure := none
        nextNumber := s.link.nextNumber + 1
        received := []
        sent := s.link.sent ++ c.frames } }

/-- The link returns to IDLE and holds no command (R122, R133). -/
def State.linkToIdle (s : State) : State :=
  { s with link := { s.link with
      state := .idle, outstanding := none, remaining := none, retryCount := none,
      lastFailure := none, received := [] } }

/-! ### The medium record (R4) -/

/-- A place's conditions are set. -/
def setPlace (m : List PlaceRecord) (track sector : Nat) (cs : List PlaceCondition) :
    List PlaceRecord :=
  m.filter (fun p => !(p.track == track && p.sector == sector)) ++
    [{ track := track, sector := sector, conditions := cs }]

/-- The conditions recorded for a place, when the passes have left something known. -/
def placeConditions (m : List PlaceRecord) (track sector : Nat) : Option (List PlaceCondition) :=
  (m.find? (fun p => p.track == track && p.sector == sector)).map (fun p => p.conditions)

/-- An erase pass that completed leaves its places ERASED (R4, R92). -/
def State.mediumErased (s : State) (run : Run) : State :=
  { s with
    medium := run.sectors.foldl (fun m x => setPlace m run.track x.sector [.erased]) s.medium }

/-- A record pass that completed leaves its places RECORDED with the frames sent (R4, R93). -/
def State.mediumRecorded (s : State) (frames : List SentSector) : State :=
  { s with
    medium := frames.foldl (fun m f => setPlace m f.track f.sector [.recorded f.data]) s.medium }

/-- A place that an erase pass cut off covered is as it was or ERASED (R4). -/
def cutErasePlace (m : List PlaceRecord) (track sector : Nat) : List PlaceRecord :=
  match placeConditions m track sector with
  | some cs => setPlace m track sector (.erased :: cs.filter (fun c => c != .erased))
  | none => m

/-- An erase pass cut off leaves each place as it was or ERASED (R4). -/
def State.mediumEraseCut (s : State) (track : Nat) (sectors : List Nat) : State :=
  { s with medium := sectors.foldl (fun m x => cutErasePlace m track x) s.medium }

/-- A record pass cut off leaves each place ERASED, RECORDED with the new frame, or DISTURBED
(R4). -/
def State.mediumRecordCut (s : State) (frames : List SentSector) : State :=
  { s with
    medium := frames.foldl
      (fun m f => setPlace m f.track f.sector [.erased, .recorded f.data, .disturbed]) s.medium }

/-- The command outstanding at a cut-off leaves its places as R4 gives (R83, R98, R104, R105). -/
def State.mediumCutOff (s : State) : State :=
  match s.link.outstanding with
  | some c =>
    match c.command with
    | .eraseSectors track sectors => s.mediumEraseCut track sectors
    | .recordSectors _ frames => s.mediumRecordCut frames
    | _ => s
  | none => s

end Machine

end Sys2Proof
end

