-- ==== Sys2Proof/Machine/Translate.lean ====
section
/-! DEFINITION. The Address Translator (Chapter 2) and the spare arithmetic (2.7). It holds no state:
every answer is computed from the Defect Manager's lists (R19). -/

namespace Sys2Proof.Machine

/-- A physical place: track and sector (1.1). -/
abbrev Place := Nat × Nat

/-! ### Bands and capacity (R1, R2, R20, R21) -/

def BandRecord.dataTracks (b : BandRecord) : Nat := b.trackCount - b.spareTracks

def BandRecord.dataPositions (b : BandRecord) : Nat := b.dataTracks * b.sectorsPerTrack

def BandRecord.sparePositions (b : BandRecord) : Nat := b.spareTracks * b.sectorsPerTrack

/-- The place of a data position (R27). -/
def BandRecord.dataPlace (b : BandRecord) (p : Nat) : Place :=
  (b.firstTrack + p / b.sectorsPerTrack, p % b.sectorsPerTrack)

/-- The place of a spare (R27). -/
def BandRecord.sparePlace (b : BandRecord) (s : Nat) : Place :=
  (b.firstTrack + b.dataTracks + s / b.sectorsPerTrack, s % b.sectorsPerTrack)

/-- The record of band b; an empty record where there is none. -/
def DefectManager.band (d : DefectManager) (b : Nat) : BandRecord :=
  d.bands.getD b { firstTrack := 0, trackCount := 0, sectorsPerTrack := 0, spareTracks := 0 }

/-- The positions of band b's slip entries, ascending (R9). -/
def DefectManager.slipsOf (d : DefectManager) (b : Nat) : List Nat :=
  (d.slips.filter (fun e => e.1 == b)).map (fun e => e.2)

/-- The data-area slips of band b (R9, R24, R36). -/
def DefectManager.dataSlips (d : DefectManager) (b : Nat) : List Nat :=
  (d.slipsOf b).filter (fun p => decide (p < (d.band b).dataPositions))

/-- The spare-area slips of band b (R36). -/
def DefectManager.spareSlips (d : DefectManager) (b : Nat) : List Nat :=
  (d.slipsOf b).filter (fun p => decide ((d.band b).dataPositions ≤ p))

/-- The capacity of band b (R20). -/
def DefectManager.bandCapacity (d : DefectManager) (b : Nat) : Nat :=
  (d.band b).dataPositions - (d.dataSlips b).length

/-- The capacities of the bands in band order. -/
def DefectManager.bandCapacities (d : DefectManager) : List Nat :=
  (List.range d.bands.length).map d.bandCapacity

/-- The cartridge capacity (R21). -/
def DefectManager.capacity (d : DefectManager) : Nat := d.bandCapacities.sum

/-! ### From LSN to place (R23–R27) -/

/-- The band and the offset in it, for the capacities of the bands from band b on (R23). -/
def chooseBandFrom : List Nat → Nat → Nat → Option (Nat × Nat)
  | [], _, _ => none
  | cap :: caps, b, o => if o < cap then some (b, o) else chooseBandFrom caps (b + 1) (o - cap)

/-- The band and offset of an LSN (R23). -/
def DefectManager.chooseBand (d : DefectManager) (lsn : Nat) : Option (Nat × Nat) :=
  chooseBandFrom d.bandCapacities 0 lsn

/-- The slip walk over a band's data-area slips in ascending order (R24). -/
def slipWalk : List Nat → Nat → Nat
  | [], p => p
  | e :: es, p => if e ≤ p then slipWalk es (p + 1) else p

/-- The spare that band b's data position p is MOVED to (R26). -/
def DefectManager.movedTo (d : DefectManager) (b p : Nat) : Option Nat :=
  d.replacement.findSome? (fun e =>
    match e with
    | .moved b' p' s => if b' == b && p' == p then some s else none
    | .retired _ _ => none)

/-- Where an LSN lives: its band, its data position, and its spare when it is MOVED (R23–R26). -/
structure Home where
  band : Nat
  pos : Nat
  spare : Option Nat
deriving DecidableEq, Repr

def DefectManager.home (d : DefectManager) (lsn : Nat) : Option Home :=
  (d.chooseBand lsn).map (fun bo =>
    let p := slipWalk (d.dataSlips bo.1) bo.2
    { band := bo.1, pos := p, spare := d.movedTo bo.1 p })

/-- The place of a home (R27). -/
def DefectManager.placeOf (d : DefectManager) (h : Home) : Place :=
  match h.spare with
  | none => (d.band h.band).dataPlace h.pos
  | some s => (d.band h.band).sparePlace s

/-- The place of an LSN, when it is valid (R23–R27). -/
def DefectManager.translate (d : DefectManager) (lsn : Nat) : Option Place :=
  (d.home lsn).map d.placeOf

/-! ### Runs (R31, R32, R34) -/

/-- An LSN with its place. -/
structure Placed where
  lsn : Nat
  place : Place
deriving DecidableEq, Repr

/-- The LSNs of a list with their places, in list order. -/
def DefectManager.placed (d : DefectManager) (lsns : List Nat) : List Placed :=
  lsns.filterMap (fun l => (d.translate l).map (fun p => { lsn := l, place := p }))

/-- The sector a placed LSN has in its run. -/
def Placed.runSector (p : Placed) : RunSector := { sector := p.place.2, lsn := some p.lsn }

/-- The runs of places, given the current run's track, its last sector and its sectors (R31). -/
def runsFrom (track last : Nat) (sectors : List RunSector) : List Placed → List Run
  | [] => [{ track := track, sectors := sectors, serial := 0 }]
  | p :: ps =>
    if p.place.1 = track ∧ last < p.place.2 then
      runsFrom track p.place.2 (sectors ++ [p.runSector]) ps
    else
      { track := track, sectors := sectors, serial := 0 } ::
        runsFrom p.place.1 p.place.2 [p.runSector] ps

/-- The runs of places in list order (R31). -/
def runsOf : List Placed → List Run
  | [] => []
  | p :: ps => runsFrom p.place.1 p.place.2 [p.runSector] ps

/-- The runs of an ordered list of LSNs (R31). -/
def DefectManager.formRuns (d : DefectManager) (lsns : List Nat) : List Run := runsOf (d.placed lsns)

/-- The run formed when work is taken: the first run of its remaining LSNs (R32). -/
def DefectManager.firstRun (d : DefectManager) (lsns : List Nat) : Option Run :=
  (d.formRuns lsns).head?

/-- A placed LSN put where ascending track and sector place it. -/
def insertPlaced (x : Placed) : List Placed → List Placed
  | [] => [x]
  | y :: ys =>
    if x.place.1 < y.place.1 ∨ (x.place.1 = y.place.1 ∧ x.place.2 < y.place.2) then x :: y :: ys
    else y :: insertPlaced x ys

/-- The follow-up runs of reassigned LSNs: grouped by track, each group's sectors ascending, the
groups in ascending spare order (R34). -/
def DefectManager.followUpRuns (d : DefectManager) (lsns : List Nat) : List Run :=
  runsOf ((d.placed lsns).foldr insertPlaced [])

/-- The LSNs of a run. -/
def Run.lsns (r : Run) : List Nat := r.sectors.filterMap (fun x => x.lsn)

/-- The sector numbers of a run. -/
def Run.sectorNumbers (r : Run) : List Nat := r.sectors.map (fun x => x.sector)

/-- The run of an index-track operation: sectors 0–15, no LSNs (R81, R89, R102). -/
def indexRun (track : Nat) : Run :=
  { track := track, sectors := (List.range 16).map (fun i => { sector := i, lsn := none }),
    serial := 0 }

/-! ### Spares (R35, R36) -/

/-- The MOVED targets of band b. -/
def DefectManager.movedTargets (d : DefectManager) (b : Nat) : List Nat :=
  d.replacement.filterMap (fun e =>
    match e with
    | .moved b' _ s => if b' == b then some s else none
    | .retired _ _ => none)

/-- The RETIRED spares of band b. -/
def DefectManager.retiredSpares (d : DefectManager) (b : Nat) : List Nat :=
  d.replacement.filterMap (fun e =>
    match e with
    | .moved _ _ _ => none
    | .retired b' s => if b' == b then some s else none)

/-- Spare s of band b is free (R35). -/
def DefectManager.spareFree (d : DefectManager) (b s : Nat) : Bool :=
  !(d.slipsOf b).contains ((d.band b).dataPositions + s) && !(d.movedTargets b).contains s &&
    !(d.retiredSpares b).contains s

/-- The lowest free spare of band b (R35). -/
def DefectManager.lowestFree (d : DefectManager) (b : Nat) : Option Nat :=
  (List.range (d.band b).sparePositions).find? (fun s => d.spareFree b s)

/-- The free-spare count of band b (R36). -/
def DefectManager.freeSpares (d : DefectManager) (b : Nat) : Nat :=
  (d.band b).sparePositions - (d.spareSlips b).length - (d.movedTargets b).length -
    (d.retiredSpares b).length

/-- The free spares of all bands (R36). -/
def DefectManager.totalFreeSpares (d : DefectManager) : Nat :=
  ((List.range d.bands.length).map d.freeSpares).sum

/-- The replacement entries of band b in list order (11.6). -/
def DefectManager.entriesOf (d : DefectManager) (b : Nat) : List MapEntry :=
  d.replacement.filter (fun e =>
    match e with
    | .moved b' _ _ => b' == b
    | .retired b' _ => b' == b)

/-! ### Range checks (R29, R30) -/

def DefectManager.rangeValid (d : DefectManager) (lsn count : Nat) : Bool :=
  decide (lsn + count ≤ d.capacity)

end Sys2Proof.Machine
end

