-- ==== Sys2Proof/Machine/Defects.lean ====
section
/-! DEFINITION. The Defect Manager's own operations (Chapter 3): the ordered replacement list,
reassignment, the rescue list, settle remaining and the per-mount counters. -/

namespace Sys2Proof.Machine

/-! ### The ordered list (R10, R38) -/

/-- An entry's place in the list's order: band, kind with MOVED first, key (R10, R38). -/
def MapEntry.key : MapEntry → Nat × Nat × Nat
  | .moved b p _ => (b, 0, p)
  | .retired b s => (b, 1, s)

/-- The order of keys: band, then kind, then key. -/
def keyLt (x y : Nat × Nat × Nat) : Bool :=
  decide (x.1 < y.1) || (x.1 == y.1 &&
    (decide (x.2.1 < y.2.1) || (x.2.1 == y.2.1 && decide (x.2.2 < y.2.2))))

/-- A new entry placed where list order puts it (R38). -/
def insertEntry (e : MapEntry) : List MapEntry → List MapEntry
  | [] => [e]
  | x :: xs => if keyLt e.key x.key then e :: x :: xs else x :: insertEntry e xs

/-- The target of band b's MOVED entry for p changed; the entry keeps its place (R38, R40). -/
def retarget (b p s : Nat) (es : List MapEntry) : List MapEntry :=
  es.map (fun e =>
    match e with
    | .moved b' p' s' => if b' == b && p' == p then .moved b' p' s else .moved b' p' s'
    | .retired b' s' => .retired b' s')

/-! ### Reassignment (R39–R42) -/

/-- What a change to the map does besides the list (R42): change count, dirty flag, settle
remaining and the reassignments counter. -/
def DefectManager.countChange (d : DefectManager) (settleDelay : Nat) : DefectManager :=
  { d with
    changeCount := d.changeCount + 1
    dirty := true
    settle := .running settleDelay
    reassignments := saturate (d.reassignments + 1) }

/-- The answer to a reassignment (R39–R41). -/
inductive Reassignment
  | done (d : DefectManager)
  | refused (status : Status)
  | mismatch          -- the place is neither the data position nor the MOVED target (R40)
deriving DecidableEq, Repr

/-- The list change of R39 and R40 for a home and a new spare. -/
def reassignList (h : Home) (new : Nat) (es : List MapEntry) : List MapEntry :=
  match h.spare with
  | none => insertEntry (.moved h.band h.pos new) es
  | some old => insertEntry (.retired h.band old) (retarget h.band h.pos new es)

/-- Reassign an LSN whose content failed at a place (R39, R40, R41). -/
def DefectManager.reassign (d : DefectManager) (lsn : Nat) (place : Place) (settleDelay : Nat) :
    Reassignment :=
  match d.home lsn with
  | none => .mismatch
  | some h =>
    if d.placeOf h ≠ place then .mismatch
    else
      match d.lowestFree h.band with
      | none => .refused .sparesExhausted
      | some new =>
        if Config.replacementEntries ≤ d.replacement.length then .refused .defectListFull
        else .done ({ d with replacement := reassignList h new d.replacement }.countChange
          settleDelay)

/-! ### The rescue list (R44, R45) -/

/-- What an offer to the rescue list came to (R44). -/
inductive OfferResult
  | ignored | listed | added | droppedFull
deriving DecidableEq, Repr

/-- The first row of R44's table that applies, in UNMOUNTING too (log 38). -/
def DefectManager.offerResult (d : DefectManager) (readOnlySet : Bool) (rescueLsn : Option Nat)
    (lsn : Nat) : OfferResult :=
  if readOnlySet then .ignored
  else if d.rescueList.any (fun e => e.1 == lsn) then .listed
  else if rescueLsn = some lsn then .ignored
  else if Config.rescueEntries ≤ d.rescueList.length then .droppedFull
  else .added

/-- The effect of an offer on the list and the counter (R44). -/
def DefectManager.offer (d : DefectManager) (result : OfferResult) (lsn load : Nat) :
    DefectManager :=
  match result with
  | .ignored => d
  | .listed =>
    { d with rescueList := d.rescueList.map (fun e => if e.1 == lsn then (e.1, max e.2 load) else e) }
  | .added => { d with rescueList := d.rescueList ++ [(lsn, load)] }
  | .droppedFull => { d with rescuesDropped := saturate (d.rescuesDropped + 1) }

/-- The entries that a WRITE or REASSIGN covers leave the list (R45). -/
def DefectManager.uncover (d : DefectManager) (lsn count : Nat) : DefectManager :=
  { d with
    rescueList := d.rescueList.filter
      (fun e => !(decide (lsn ≤ e.1) && decide (e.1 < lsn + count))) }

/-- A raised rescue threshold removes the entries whose load seen is below it, all of them at 7
(R45). -/
def DefectManager.raiseThreshold (d : DefectManager) (old new : Nat) : DefectManager :=
  if old < new then
    { d with
      rescueList := if new = 7 then [] else d.rescueList.filter (fun e => decide (new ≤ e.2)) }
  else d

def DefectManager.countDone (d : DefectManager) : DefectManager :=
  { d with rescuesDone := saturate (d.rescuesDone + 1) }

def DefectManager.countDropped (d : DefectManager) : DefectManager :=
  { d with rescuesDropped := saturate (d.rescuesDropped + 1) }

/-! ### Settle remaining (R50) -/

/-- Settle remaining has reached 0 (R50). -/
def Settle.atZero : Settle → Bool
  | .absent => false
  | .running ms => ms == 0
  | .reached => true

/-- The Timebase runs settle remaining down while it runs (R50). -/
def Settle.tick : Settle → Settle
  | .absent => .absent
  | .running ms => .running (ms - 1)
  | .reached => .reached

/-- A new settle delay taken while settle remaining runs (R50). -/
def Settle.shorten (st : Settle) (delay : Nat) : Settle :=
  match st with
  | .running ms => .running (min ms delay)
  | .absent => .absent
  | .reached => .reached

/-- A writeback is due, but for the one in flight (R50). -/
def DefectManager.writebackDue (d : DefectManager) (flag : ReadOnly) : Bool :=
  d.dirty && flag == .none && d.settle.atZero

/-! ### The copy over the cartridge states (R14, R17, R18, R37) -/

/-- The copy emptied at the entry to MOUNTING: header copy, slip list, replacement list,
generation 0, map clean (R18, R140). -/
def DefectManager.emptyCopy (d : DefectManager) : DefectManager :=
  { d with bands := [], slips := [], replacement := [], generation := 0, dirty := false,
           verdictHeld := false }

/-- What every track-1 verdict clears (R37). -/
def DefectManager.clearAtVerdict (d : DefectManager) : DefectManager :=
  { d with changeCount := 0, settle := .absent, reassignments := 0, rescuesDone := 0,
           rescuesDropped := 0, dirty := false, verdictHeld := true }

end Sys2Proof.Machine
end

