-- ==== Sys2Proof/Machine/Index.lean ====
section
/-! DEFINITION. The index-track records (1.3–1.5): validation at mount and the staging of a
writeback. -/

namespace Sys2Proof.Machine

/-- The data of an acceptable index sector: CLEAN or CORRECTED (R11). -/
def DecoderOutcome.data? : DecoderOutcome → Option Memory
  | .clean m => some m
  | .corrected _ m => some m
  | .uncorrectable => none
  | .blank => none

/-- The record of an index sector that is acceptable and whose record check matches (R7, R11). -/
def goodRecord (outs : List DecoderOutcome) (i : Nat) : Option Memory :=
  match outs[i]? with
  | none => none
  | some o =>
    match o.data? with
    | none => none
    | some m => if m.checkMatches then some m else none

/-! ### Track 0 (R8, R9, R12, R13) -/

/-- Band record i of a header (1.5). -/
def headerBand (m : Memory) (i : Nat) : BandRecord :=
  { firstTrack := m.field16 (2 + 6 * i), trackCount := m.field16 (4 + 6 * i),
    sectorsPerTrack := m.field8 (6 + 6 * i), spareTracks := m.field8 (7 + 6 * i) }

/-- The band records of a header (R8, 1.5). -/
def headerBands (m : Memory) : List BandRecord :=
  (List.range (m.field8 1)).map (headerBand m)

/-- The slip count of a header (1.5). -/
def headerSlipCount (m : Memory) : Nat := m.field16 98

/-- Item 4 of R12. -/
def BandRecord.inRange (b : BandRecord) : Bool :=
  decide (1 ≤ b.trackCount) && decide (b.trackCount ≤ 8192) && decide (8 ≤ b.sectorsPerTrack) &&
    decide (b.sectorsPerTrack ≤ 40) && decide (b.spareTracks ≤ 32) &&
    decide (b.spareTracks < b.trackCount)

/-- Items 5, 6 and 7 of R12 for bands that must begin at a track: contiguous, and no track above
65,535. -/
def bandsContiguous : Nat → List BandRecord → Bool
  | next, [] => decide (next ≤ 65536)
  | next, b :: bs => b.firstTrack == next && bandsContiguous (next + b.trackCount) bs

/-- A header whose record check matches is valid (R12 items 2–8). -/
def headerValid (m : Memory) : Bool :=
  m.field8 0 == 1 && decide (1 ≤ m.field8 1) && decide (m.field8 1 ≤ 16) &&
    (headerBands m).all BandRecord.inRange && bandsContiguous 2 (headerBands m) &&
    decide (headerSlipCount m ≤ 2048)

/-- The number of slip sectors in use (R9). -/
def slipSectors (n : Nat) : Nat := (n + 254) / 255

/-- Slip entry at a place of a slip sector (1.5). -/
def slipEntry (m : Memory) (i : Nat) : Nat × Nat := (m.field8 (4 * i), m.field24 (4 * i + 1))

/-- The slip entries of the n list entries that stand in slip sector k (1-based), in order (R9). -/
def slipSectorEntries (m : Memory) (n k : Nat) : List (Nat × Nat) :=
  (List.range (min 255 (n - 255 * (k - 1)))).map (slipEntry m)

/-- The records of some sectors, all of which must be good. -/
def goodRecords (outs : List DecoderOutcome) : List Nat → Option (List Memory)
  | [] => some []
  | i :: is =>
    match goodRecord outs i, goodRecords outs is with
    | some m, some ms => some (m :: ms)
    | _, _ => none

/-- Each entry comes strictly after the one before it (R13 item 3, R16 item 6). -/
def ascending {α : Type} (lt : α → α → Bool) : List α → Bool
  | [] => true
  | [_] => true
  | x :: y :: zs => lt x y && ascending lt (y :: zs)

/-- The slip order: by band, then by position (R9). -/
def slipLt (x y : Nat × Nat) : Bool :=
  decide (x.1 < y.1) || (x.1 == y.1 && decide (x.2 < y.2))

/-- A slip entry is in range for the bands (R13 items 1 and 2). -/
def slipInRange (bands : List BandRecord) (e : Nat × Nat) : Bool :=
  match bands[e.1]? with
  | none => false
  | some b => decide (e.2 < b.dataPositions + b.sparePositions)

/-- The n slip entries of slip sectors 1 to k, in list order (R9). -/
def slipEntries (ms : List Memory) (n : Nat) : List (Nat × Nat) :=
  (ms.zipIdx.map (fun mi => slipSectorEntries mi.1 n (mi.2 + 1))).flatten

/-- The verdict on track 0 (R12–R14): the header's bands and the slip list when it is VALID. -/
def track0Verdict (outs : List DecoderOutcome) : Option (List BandRecord × List (Nat × Nat)) :=
  match goodRecord outs 0 with
  | none => none
  | some h =>
    if headerValid h then
      match goodRecords outs ((List.range (slipSectors (headerSlipCount h))).map (· + 1)) with
      | none => none
      | some ms =>
        let es := slipEntries ms (headerSlipCount h)
        if es.all (slipInRange (headerBands h)) && ascending slipLt es then
          some (headerBands h, es)
        else none
    else none

/-! ### Track 1 (R10, R15, R16) -/

/-- The entries-in-sector value that R10 gives for sector i and a total count. -/
def entriesInSector (total i : Nat) : Nat := min 64 (total - 64 * i)

/-- Items 2–6 of R15 for sector i, against the generation and total count of sector 0; item 1 is
in `goodRecords`. -/
def sectorSound (gen total : Nat) (m : Memory) (i : Nat) : Bool :=
  m.field8 4 == i && m.field32 0 == gen && m.field16 6 == total &&
    m.field8 5 == entriesInSector total i

/-- Entry at a place of a replacement sector, when its kind is MOVED or RETIRED (R16 item 1). -/
def replacementEntry (m : Memory) (i : Nat) : Option MapEntry :=
  let a := 8 + 8 * i
  if m.field8 a = 1 then some (.moved (m.field8 (a + 1)) (m.field24 (a + 2)) (m.field16 (a + 5)))
  else if m.field8 a = 2 then some (.retired (m.field8 (a + 1)) (m.field16 (a + 5)))
  else none

/-- The entries of sectors in list order, when every kind is known. -/
def replacementEntries (ms : List Memory) (total : Nat) : Option (List MapEntry) :=
  let es := (ms.zipIdx.map (fun mi =>
    (List.range (entriesInSector total mi.2)).map (replacementEntry mi.1))).flatten
  if es.all Option.isSome then some (es.filterMap id) else none

/-- Items 2–5 of R16 for one entry, over the header copy and slip list of d. -/
def DefectManager.entryValid (d : DefectManager) : MapEntry → Bool
  | .moved b p s =>
    decide (b < d.bands.length) && decide (s < (d.band b).sparePositions) &&
      decide (p < (d.band b).dataPositions) && !(d.slipsOf b).contains p &&
      !(d.slipsOf b).contains ((d.band b).dataPositions + s)
  | .retired b s =>
    decide (b < d.bands.length) && decide (s < (d.band b).sparePositions) &&
      !(d.slipsOf b).contains ((d.band b).dataPositions + s)

/-- The (band, spare) an entry uses: a MOVED target or a RETIRED spare. -/
def MapEntry.spareUsed : MapEntry → Nat × Nat
  | .moved b _ s => (b, s)
  | .retired b s => (b, s)

/-- A list without repeats. -/
def noRepeats : List (Nat × Nat) → Bool
  | [] => true
  | x :: xs => !xs.contains x && noRepeats xs

/-- Items 2–8 of R16 for a list of entries. -/
def DefectManager.listValid (d : DefectManager) (es : List MapEntry) : Bool :=
  es.all d.entryValid && ascending (fun x y => keyLt x.key y.key) es &&
    noRepeats (es.map MapEntry.spareUsed)

/-- The verdict on track 1 (R15–R17): generation and entries when it is VALID. -/
def DefectManager.track1Verdict (d : DefectManager) (outs : List DecoderOutcome) :
    Option (BitVec 32 × List MapEntry) :=
  match goodRecords outs (List.range 16) with
  | none => none
  | some ms =>
    let m0 := ms.headD []
    let gen := m0.field32 0
    let total := m0.field16 6
    if decide (total ≤ 1024) && (ms.zipIdx.all (fun mi => sectorSound gen total mi.1 mi.2)) then
      match replacementEntries ms total with
      | none => none
      | some es => if d.listValid es then some (BitVec.ofNat 32 gen, es) else none
    else none

/-! ### Records (R10, R51, 11.6) -/

/-- The 8 bytes of a replacement entry (1.5). -/
def MapEntry.bytes : MapEntry → List Byte
  | .moved b p s => [0x01] ++ bytesOf 1 b ++ bytesOf 3 p ++ bytesOf 2 s ++ [0x00]
  | .retired b s => [0x02] ++ bytesOf 1 b ++ bytesOf 3 0 ++ bytesOf 2 s ++ [0x00]

/-- Replacement sector i of a list at a generation (R10, 1.5). -/
def stageSector (gen : BitVec 32) (es : List MapEntry) (i : Nat) : Memory :=
  let here := (es.drop (64 * i)).take 64
  (Memory.writeBytes [] 0
    (bytesOf 4 gen.toNat ++ bytesOf 1 i ++ bytesOf 1 here.length ++ bytesOf 2 es.length ++
      (here.map MapEntry.bytes).flatten)).withCheck

/-- Staging a writeback (R51): the 16 replacement sectors at generation g + 1, the snapshot, and
settle remaining absent. -/
def DefectManager.stage (d : DefectManager) : DefectManager :=
  { d with
    staging := (List.range 16).map (stageSector (d.generation + 1) d.replacement)
    snapshot := d.changeCount
    settle := .absent }

/-- The map after a writeback whose verify passed (R51). -/
def DefectManager.writebackPassed (d : DefectManager) (settleDelay : Nat) : DefectManager :=
  if d.changeCount = d.snapshot then
    { d with generation := d.generation + 1, dirty := false }
  else { d with generation := d.generation + 1, settle := .running settleDelay }

end Sys2Proof.Machine
end

