-- ==== Sys2Proof/Machine/Flags.lean ====
section
/-! DEFINITION. Codes, flags and blocks: the status, notice and kind codes, the completion block, the
port flags and the interrupt line. -/

namespace Sys2Proof.Machine

/-! ### Codes (11.6, R168) -/

def Status.code : Status → Byte
  | .success => 0x00
  | .unknownRequest => 0x01
  | .malformed => 0x02
  | .duplicateTag => 0x03
  | .queueFull => 0x04
  | .notReady => 0x05
  | .noCartridge => 0x06
  | .outOfRange => 0x07
  | .writeProtected => 0x08
  | .reserved => 0x09
  | .tableFull => 0x0A
  | .noSuchReservation => 0x0B
  | .noSuchTag => 0x0C
  | .aborted => 0x0D
  | .expired => 0x0E
  | .dataTimeout => 0x0F
  | .blank => 0x10
  | .mediumError => 0x11
  | .writeFailed => 0x12
  | .sparesExhausted => 0x13
  | .defectListFull => 0x14
  | .seekFailed => 0x15
  | .mechanismFault => 0x16
  | .mapNotSaved => 0x17

/-- The number of a notice kind, in code order from 80h. -/
def Notice.index : Notice → Nat
  | .cartridgeReady => 0
  | .cartridgeUnreadable => 1
  | .cartridgeGone => 2
  | .ejectButton => 3
  | .readOnly => 4
  | .mapLost => 5
  | .mechanismFault => 6
  | .policyChanged => 7

def Notice.code (n : Notice) : Byte := BitVec.ofNat 8 (0x80 + n.index)

def RequestKind.code : RequestKind → Byte
  | .read => 0x01
  | .write => 0x02
  | .reassign => 0x03
  | .reserve => 0x10
  | .release => 0x11
  | .flushMap => 0x20
  | .eject => 0x21
  | .mount => 0x22
  | .status => 0x30
  | .reportMap => 0x31
  | .setPolicy => 0x40
  | .setChannel => 0x41
  | .abort => 0x50

/-- The 13 request kinds in code order. -/
def RequestKind.all : List RequestKind :=
  [.read, .write, .reassign, .reserve, .release, .flushMap, .eject, .mount, .status, .reportMap,
   .setPolicy, .setChannel, .abort]

/-- The kind a kind code names, if it is one of the 13 (R154 check 1). -/
def RequestKind.ofCode (code : Byte) : Option RequestKind :=
  RequestKind.all.find? (fun k => k.code == code)

/-- The parameter length of a kind (11.6). -/
def RequestKind.paramLength : RequestKind → Nat
  | .read => 7
  | .write => 4
  | .reassign => 3
  | .reserve => 7
  | .release => 1
  | .flushMap => 0
  | .eject => 0
  | .mount => 0
  | .status => 1
  | .reportMap => 1
  | .setPolicy => 9
  | .setChannel => 5
  | .abort => 1

def CartridgeState.code : CartridgeState → Byte
  | .empty => 0x00
  | .spinning => 0x01
  | .mounting => 0x02
  | .ready => 0x03
  | .unmounting => 0x04
  | .ejecting => 0x05
  | .unreadable => 0x06
  | .faulted => 0x07

def ReadOnly.code : ReadOnly → Byte
  | .none => 0x00
  | .writeProtected => 0x01
  | .mapDamaged => 0x02
  | .indexWriteFailed => 0x03

/-- A flag as 0 or 1 (11.6: "A flag field carries 1 for set"). -/
def bitOf (b : Bool) : Nat := if b then 1 else 0

/-! ### Blocks of the outbox (R166, 11.6) -/

/-- The flags byte of a completion (11.6). -/
def Request.flagsByte (r : Request) : Byte :=
  BitVec.ofNat 8 (bitOf r.late + 2 * bitOf r.corrected + 4 * bitOf r.rescueQueued +
    8 * bitOf r.reassigned + 16 * bitOf r.short)

/-- The result field of a completion (R166). -/
def Request.resultByte (r : Request) : Byte :=
  match r.kind with
  | .reserve => BitVec.ofNat 8 (r.reservationId.getD 0)
  | .read => BitVec.ofNat 8 r.sectorsDone
  | .write => BitVec.ofNat 8 r.sectorsDone
  | .reassign => BitVec.ofNat 8 r.sectorsDone
  | _ => 0

/-- The completion block of an accepted request (R166). -/
def Request.completion (r : Request) (time : BitVec 32) : OutBlock :=
  { tag := r.tag, kind := r.kind.code, status := (r.result.getD .success).code,
    flags := r.flagsByte, result := r.resultByte,
    load := (r.worstLoad.map (BitVec.ofNat 8)).getD 0xFF,
    lsn := (r.firstFailing.map (BitVec.ofNat 24)).getD 0xFFFFFF, time := time }

/-- The completion block of a refusal (R166). -/
def refusalBlock (kind tag : Byte) (st : Status) (time : BitVec 32) : OutBlock :=
  { tag := tag, kind := kind, status := st.code, flags := 0, result := 0, load := 0xFF,
    lsn := 0xFFFFFF, time := time }

/-- A notice block (R166). -/
def noticeBlock (n : Notice) (time : BitVec 32) : OutBlock :=
  { tag := 0, kind := 0, status := n.code, flags := 0, result := 0, load := 0xFF,
    lsn := 0xFFFFFF, time := time }

/-- The 13 bytes of a block (11.6). -/
def OutBlock.bytes (b : OutBlock) : List Byte :=
  [b.tag, b.kind, b.status, b.flags, b.result, b.load] ++ bytesOf 3 b.lsn.toNat ++
    bytesOf 4 b.time.toNat

/-- The block is a request completion or a refusal, not a notice: its status lies below 80h
(R166). -/
def OutBlock.isCompletion (b : OutBlock) : Bool := decide (b.status.toNat < 0x80)

/-! ### Port flags (R177–R183) -/

/-- The free places of an outbox (R167). -/
def Port.freePlaces (p : Port) : Nat := Config.outboxPlaces - p.outbox.length

/-- REQUEST SPACE (R167, R177). -/
def State.requestSpace (s : State) (c : Channel) : Bool :=
  decide ((s.reqs c).length < (s.port c).freePlaces)

/-- The current transfer (R179). -/
def State.currentTransfer (s : State) (c : Channel) : Option Transfer :=
  (s.port c).transfers.head?

/-- A slot whose sector is available to the READs bound to it: CLEAN or WRITING (R63). -/
def Slot.available (x : Slot) : Bool := x.state == .clean || x.state == .writing

/-- Sector k of a READ is available: bound to a CLEAN or WRITING slot (R63). -/
def State.sectorAvailable (s : State) (r : Request) (k : Nat) : Bool :=
  match r.sectors[k]? with
  | some x =>
    match x.st with
    | .bound i => (s.slotAt i).available
    | _ => false
  | none => false

/-- The next byte of an OUT transfer is available (R180). -/
def State.outByteReady (s : State) (c : Channel) (t : Transfer) : Bool :=
  decide (t.moved < t.length) &&
    (match s.findReq c t.request with
     | some r => if r.kind == .read then s.sectorAvailable r (t.moved / sectorBytes) else true
     | none => false)

/-- DATA READY (R180). -/
def State.dataReady (s : State) (c : Channel) : Bool :=
  match s.currentTransfer c with
  | none => false
  | some t =>
    match t.dir with
    | .outward => s.outByteReady c t
    | .inward => decide (t.moved < t.length)

/-- The data side as the code of bits 3–4: 0 NONE, 1 OUT, 2 IN (R176, 11.6). -/
def State.dataSide (s : State) (c : Channel) : Nat :=
  match s.currentTransfer c with
  | none => 0
  | some t =>
    match t.dir with
    | .outward => 1
    | .inward => 2

/-- ERROR SUMMARY (R178). -/
def Port.errorSummary (p : Port) : Bool :=
  p.outbox.any (fun b => b.isCompletion && b.status != Status.success.code)

/-- What a read of PORT STATUS returns (R182, 11.6). -/
def State.portStatus (s : State) (c : Channel) : Byte :=
  BitVec.ofNat 8 (bitOf (s.requestSpace c) + 2 * bitOf (!(s.port c).outbox.isEmpty) +
    4 * bitOf (s.dataReady c) + 8 * s.dataSide c + 32 * bitOf (s.port c).overrun +
    64 * bitOf (s.port c).errorSummary)

/-- What a read of TRANSFER returns: the current transfer's tag, or 0 (R179). -/
def State.transferTag (s : State) (c : Channel) : Byte :=
  match s.currentTransfer c with
  | some t => t.tag
  | none => 0

/-- What a read of REQUEST returns; it changes nothing (R177). -/
def State.requestReadValue (_s : State) (_c : Channel) : Byte := 0

/-- The interrupt line of a port (R183). -/
def State.interruptLine (s : State) (c : Channel) : Bool :=
  ((s.port c).settings.completionEnable && !(s.port c).outbox.isEmpty) ||
    ((s.port c).settings.dataEnable && s.dataReady c)

/-- OVERRUN becomes true: a misused access (R182). -/
def State.setOverrun (s : State) (c : Channel) : State :=
  s.updPort c (fun p => { p with overrun := true })

/-- A read of a port returned a byte. -/
def State.returnByte (s : State) (c : Channel) (b : Byte) : State :=
  s.updPort c (fun p => { p with busOut := b })

/-! ### Posting (R167, R168, R186) -/

/-- A block joins the tail of an outbox (R167). -/
def State.postBlock (s : State) (c : Channel) (b : OutBlock) : State :=
  s.updPort c (fun p => { p with outbox := p.outbox ++ [b] })

/-- A READ's sectors delivered that recorded a load of 1–6 (R186). -/
def Request.correctedSectors (r : Request) : Nat :=
  (r.sectors.filter (fun x => x.st == .taken && decide (1 ≤ x.load.getD 0))).length

/-- The counters after a completion of an accepted request (R186). -/
def Counters.count (k : Counters) (r : Request) : Counters :=
  { completed := saturate (k.completed + 1)
    sectorsRead := saturate (k.sectorsRead + if r.kind == .read then r.sectorsDone else 0)
    sectorsWritten := saturate (k.sectorsWritten +
      if r.kind == .write || r.kind == .reassign then r.sectorsDone else 0)
    corrected := saturate (k.corrected + if r.kind == .read then r.correctedSectors else 0)
    expired := saturate (k.expired + bitOf (r.result == some .expired))
    late := saturate (k.late + bitOf r.late) }

/-- The completion of a settled request is posted and counted (R167, R186). -/
def State.postCompletion (s : State) (c : Channel) (r : Request) : State :=
  (s.postBlock c (r.completion s.timebase)).updPort c
    (fun p => { p with counters := p.counters.count r })

/-- The DONE requests of a channel are posted in acceptance order and leave the list (R167). -/
def State.flushChannel (s : State) (c : Channel) : State :=
  let posted := ((s.reqs c).filter (fun r => r.state == .done)).foldl
    (fun s r => s.postCompletion c r) s
  { posted with
    requests := posted.requests.modify c (fun rs => rs.filter (fun r => r.state != .done)) }

/-- A notice kind joins a pending-notice set, kept in ascending code (R168). -/
def insertNotice (n : Notice) : List Notice → List Notice
  | [] => [n]
  | m :: ms =>
    if n.index < m.index then n :: m :: ms
    else if n.index = m.index then m :: ms
    else m :: insertNotice n ms

/-- A notice finds a place beyond the owed ones, one more counted while a block is partly received
(R168). -/
def State.noticeRoom (s : State) (c : Channel) : Bool :=
  decide ((s.reqs c).length + bitOf (s.port c).partialBlock.isSome < (s.port c).freePlaces)

/-- A raised notice is posted at a port at once, or its kind joins the pending set (R168). -/
def State.postNotice (s : State) (c : Channel) (n : Notice) : State :=
  if s.noticeRoom c then s.postBlock c (noticeBlock n s.timebase)
  else s.updPort c (fun p => { p with pendingNotices := insertNotice n p.pendingNotices })

/-- The pending kinds given are posted in order while a place allows (R168). -/
def State.postPendingList (s : State) (c : Channel) : List Notice → State
  | [] => s
  | n :: ns =>
    if s.noticeRoom c then
      ((s.postBlock c (noticeBlock n s.timebase)).updPort c
        (fun p => { p with pendingNotices := p.pendingNotices.filter (fun m => m != n) })
        ).postPendingList c ns
    else s

/-- The pending notices of a port are posted in ascending code while a place allows (R168). -/
def State.postPending (s : State) (c : Channel) : State :=
  s.postPendingList c (s.port c).pendingNotices

/-- The notices raised in the step are posted at both ports in the order raised (R168). -/
def State.flushNotices (s : State) : State :=
  let t := s.raised.foldl (fun s n => (s.postNotice .A n).postNotice .B n) s
  { t with raised := [] }

/-- The end of a step's postings: the completions of each channel in acceptance order, then the
notices of the step (R164, R167, R168). That a SET POLICY's completion stands before the notice it raises
is the model's choice (log 48). -/
def State.flush (s : State) : State := ((s.flushChannel .A).flushChannel .B).flushNotices

end Sys2Proof.Machine
end

