-- ==== Sys2Proof/Machine/Pool.lean ====
section
/-! DEFINITION. The Sector Buffer Pool's operations on slots (Chapter 4): claims, charges, the choice
of a slot, binding lists, stale, dropped and abandoned slots. -/

namespace Sys2Proof.Machine

/-! ### Claims and charges (R58, R60, R61) -/

/-- The number of channels among the READs on a binding list (R60). -/
def holdCountOf (bs : List Binding) : Nat :=
  bitOf (bs.any (fun b => b.ch == .A)) + bitOf (bs.any (fun b => b.ch == .B))

/-- The binding list changed, and the hold count set again (R60). -/
def Slot.withBindings (x : Slot) (bs : List Binding) : Slot :=
  { x with bindings := bs, holdCount := holdCountOf bs }

/-- The acceptance number of the work a slot is for. -/
def Slot.workId (x : Slot) : Option Nat := x.work.bind Work.id?

/-- The work or READ of this number has a claim on the slot (R60). -/
def Slot.hasClaim (x : Slot) (id : Nat) : Bool :=
  x.workId == some id || x.bindings.any (fun b => b.id == id)

/-- The slot is claimed (R60). A dropped WRITING slot has no work left. -/
def Slot.claimed (x : Slot) : Bool :=
  x.state == .fetching || x.state == .filling || (x.state == .writing && x.work.isSome) ||
    !x.bindings.isEmpty

/-- The charge after a claim has ended (R61 item 3). The claim of a fetch in flight lasts to the
fetch's end (log 15). -/
def Slot.settleCharge (x : Slot) : Slot :=
  if !x.claimed then { x with charged := .none, chargedFor := none }
  else
    match x.charged with
    | .channel _ =>
      if x.chargedFor.any (fun id => x.hasClaim id) then x
      else { x with charged := .internal, chargedFor := none }
    | .internal => x
    | .none => x

/-- The slots charged to a channel (R61). -/
def State.chargedCount (s : State) (c : Channel) : Nat :=
  (s.pool.slots.filter (fun x => x.charged == .channel c)).length

/-- A channel may make one more slot charged to itself (R61). -/
def State.quotaFree (s : State) (c : Channel) : Bool :=
  decide (s.chargedCount c < Config.channelSlots)

/-! ### Freeing and choosing (R59, R62) -/

/-- A slot's record at its FREE values; stamp and content stay (R58, R79). -/
def Slot.freed (x : Slot) : Slot := { Slot.reset with stamp := x.stamp, content := x.content }

/-- A slot becomes FREE; its directory pair, if any, is removed (R59). -/
def State.freeSlot (s : State) (i : Nat) : State :=
  (s.unmapSlot i).setSlot i (s.slotAt i).freed

/-- A slot that R62 item 2 may take: non-stale, CLEAN and unclaimed. -/
def Slot.replaceable (x : Slot) : Bool := x.state == .clean && !x.stale && !x.claimed

/-- The FREE slot with the lowest index (R62 item 1). -/
def State.firstFree (s : State) : Option Nat :=
  (s.pool.slots.zipIdx.find? (fun xi => xi.1.state == .free)).map (fun xi => xi.2)

/-- The number of FREE slots (R118). -/
def State.freeCount (s : State) : Nat :=
  (s.pool.slots.filter (fun x => x.state == .free)).length

/-- The age of a stamp: the Timebase count less the stamp, modulo 2^32 (R62). -/
def State.stampAge (s : State) (x : Slot) : Nat := (s.timebase - x.stamp).toNat

/-- The replaceable slot of the greatest age, the lowest index winning a tie, among slots not
excluded (R62 item 2). -/
def State.oldestClean (s : State) (excluded : List Nat) : Option Nat :=
  (s.pool.slots.zipIdx.foldl
    (fun (best : Option (Nat × Nat)) xi =>
      if xi.1.replaceable && !excluded.contains xi.2 then
        match best with
        | none => some (s.stampAge xi.1, xi.2)
        | some b => if b.1 < s.stampAge xi.1 then some (s.stampAge xi.1, xi.2) else some b
      else best)
    none).map (fun b => b.2)

/-- The slot that work needing a new slot takes (R62). -/
def State.chooseSlot (s : State) (excluded : List Nat) : Option Nat :=
  match s.firstFree with
  | some i => some i
  | none => s.oldestClean excluded

/-- The slots that a WRITE may count on: FREE, or non-stale CLEAN unclaimed (R69). -/
def State.availableSlots (s : State) : Nat :=
  (s.pool.slots.filter (fun x => x.state == .free || x.replaceable)).length

/-- A slot is given an LSN for new work and becomes its current slot; its old content and pair are
lost (R59, R62). -/
def State.claimSlot (s : State) (i lsn : Nat) (st : SlotState) (work : Work) (charge : Charge)
    (forId : Option Nat) : State :=
  (s.mapSlot lsn i).setSlot i
    { Slot.reset with
      state := st, lsn := some lsn, work := some work, charged := charge, chargedFor := forId,
      stamp := (s.slotAt i).stamp }

/-! ### Stale, dropped and abandoned slots (R59, R66, R70, R72) -/

/-- After a claim has gone: a stale slot without READs and without a fetch still to end becomes
FREE; else the charge follows R61 item 3 (R59, R66). -/
def State.tidySlot (s : State) (i : Nat) : State :=
  let x := s.slotAt i
  if x.stale && x.bindings.isEmpty && !(x.state == .fetching && x.fetchBegun) then s.freeSlot i
  else s.setSlot i x.settleCharge

/-- The current slot is made stale: it loses its pair and stays for its READs or its fetch (R59). -/
def State.makeStale (s : State) (i : Nat) : State :=
  ((s.unmapSlot i).updSlot i (fun x => { x with stale := true })).tidySlot i

/-- The claim of the READ or work `id` on a slot has gone. A fetch it carries that has not begun
passes to the oldest READ bound, or is dropped; one in flight goes on (R67, R74, R75). -/
def State.afterRelease (s : State) (id i : Nat) : State :=
  let x := s.slotAt i
  if x.state == .fetching && !x.fetchBegun && x.workId == some id then
    match x.bindings with
    | [] => s.freeSlot i
    | b :: _ => s.setSlot i ({ x with work := some (.read b.ch b.id) } : Slot).settleCharge
  else s.tidySlot i

/-- A READ joins a slot's binding list; the stamp is set (R60, R62). -/
def State.bindSlot (s : State) (c : Channel) (id i : Nat) (waiting : Bool) : State :=
  s.updSlot i (fun x =>
    { x.withBindings (x.bindings ++ [{ ch := c, id := id, waiting := waiting }]) with
      stamp := s.timebase })

/-- A READ leaves a slot's binding list; the stamp is set when it took the sector's last byte
(R60, R62, R66, R67). -/
def State.releaseBinding (s : State) (id i : Nat) (taken : Bool) : State :=
  (s.updSlot i (fun x =>
    let y := x.withBindings (x.bindings.filter (fun b => b.id != id))
    if taken then { y with stamp := s.timebase } else y)).afterRelease id i

/-- A slot is dropped: its sector's write failed, or its write work ended with it WRITING (R72). The
claim of the write work on a held slot ends here (the model's choice, log 46). -/
def State.dropSlot (s : State) (i : Nat) : State :=
  let x := s.slotAt i
  if x.bindings.isEmpty then s.freeSlot i
  else (s.unmapSlot i).setSlot i ({ x with work := none, stale := true } : Slot).settleCharge

/-- A FILLING slot of an abandoned fill: FREE, or FETCHING for the oldest READ that waited on it
(R70). -/
def State.abandonSlot (s : State) (i : Nat) : State :=
  let x := s.slotAt i
  match x.bindings with
  | [] => s.freeSlot i
  | b :: _ =>
    s.setSlot i
      { x.withBindings (x.bindings.map (fun b => { b with waiting := false })) with
        state := .fetching, work := some (.read b.ch b.id), fetchBegun := false, content := [],
        charged := .internal, chargedFor := none, stage := none }

/-- Write work `id` gives up a slot of its own, by where the slot stands: WRITING is dropped,
FILLING abandoned, a FETCHING slot's fetch passed on, dropped or left to its end
(R70, R72–R75). Where a REASSIGN ends WRITE PROTECTED or a rescue is cut short before its fetch has
begun, that a READ bound takes the fetch over, or the slot becomes FREE, is the model's choice
(log 47). -/
def State.giveUpSlot (s : State) (id i : Nat) : State :=
  let x := s.slotAt i
  if x.workId == some id then
    match x.state with
    | .writing => s.dropSlot i
    | .filling => s.abandonSlot i
    | .fetching => s.afterRelease id i
    | .clean => s
    | .free => s
  else s

/-- A slot's passed sector: CLEAN, the write work's claim ended (R71). -/
def State.passSlot (s : State) (i : Nat) : State :=
  s.updSlot i (fun x =>
    ({ x with state := .clean, stage := none, work := none, stamp := s.timebase } :
      Slot).settleCharge)

/-- Every slot FREE, the directory and the slot-wait list emptied (R79). -/
def State.emptyPool (s : State) : State :=
  { s with pool := { slots := s.pool.slots.map Slot.freed, directory := [], slotWait := [] } }

end Sys2Proof.Machine
end

