-- ==== Sys2Proof/Machine/Reads.lean ====
section
/-! DEFINITION. READ requests: binding their sectors, failing, delivering and ending them, and the
read-ahead record (R63–R67, R117, R157). -/

namespace Sys2Proof.Machine

/-! ### Binding (R63, R64) -/

/-- Why a step of a waiter cannot be taken (R77). -/
inductive Barred
  | quota | slots
deriving DecidableEq, Repr

/-- The answer to binding one sector. -/
inductive BindResult
  | bound (s : State) (slot : Nat)
  | barred (why : Barred)
deriving DecidableEq, Repr

/-- One sector of a READ binds to its LSN's current slot, or to a new one (R63). -/
def State.bindSector (s : State) (c : Channel) (id lsn : Nat) : BindResult :=
  match s.currentSlot lsn with
  | some i =>
    let x := s.slotAt i
    match x.state with
    | .clean =>
      if x.claimed then .bound (s.bindSlot c id i false) i
      else if s.quotaFree c then
        .bound ((s.updSlot i (fun x => { x with charged := .channel c, chargedFor := some id })).bindSlot
          c id i false) i
      else .barred .quota
    | .writing => .bound (s.bindSlot c id i false) i
    | .fetching => .bound (s.bindSlot c id i false) i
    | .filling => .bound (s.bindSlot c id i true) i
    | .free => .barred .slots
  | none =>
    match s.chooseSlot [] with
    | none => .barred .slots
    | some i =>
      if s.quotaFree c then
        .bound ((s.claimSlot i lsn .fetching (.read c id) (.channel c) (some id)).bindSlot
          c id i false) i
      else .barred .quota

/-- The waiting sectors of a READ bind in LSN order until one cannot (R63, R64). -/
def State.bindSectors (s : State) (c : Channel) (id lsn : Nat) :
    List ReadSector → List ReadSector × State × Option Barred
  | [] => ([], s, none)
  | x :: xs =>
    if x.st == .waiting then
      match s.bindSector c id lsn with
      | .barred why => (x :: xs, s, some why)
      | .bound s' i =>
        let t := State.bindSectors s' c id (lsn + 1) xs
        ({ x with st := .bound i } :: t.1, t.2)
    else
      let t := State.bindSectors s c id (lsn + 1) xs
      (x :: t.1, t.2)

/-- A READ is served: its waiting sectors bind as far as they can; it stands on the slot-wait list
while one is left (R64, R77). -/
def State.serveRead (s : State) (c : Channel) (id : Nat) : State × Option Barred :=
  match s.findReq c id with
  | none => (s.leaveSlotWait id, none)
  | some r =>
    let t := s.bindSectors c id r.lsn r.sectors
    let u := t.2.1.updReq c id (fun r => { r with sectors := t.1 })
    match t.2.2 with
    | none => (u.leaveSlotWait id, none)
    | some why => (u.joinSlotWait id, some why)

/-! ### Giving up, failing, ending (R65–R67, R157) -/

/-- A sector's binding given up; a sector that had not bound stays unbound. -/
def ReadSector.giveUp (x : ReadSector) : ReadSector :=
  match x.st with
  | .bound _ => { x with st := .gaveUp }
  | _ => x

/-- The slot a sector is bound to. -/
def ReadSector.slot? (x : ReadSector) : Option Nat :=
  match x.st with
  | .bound i => some i
  | _ => none

/-- The slots that the sectors of a READ from number k on are bound to. -/
def Request.boundSlotsFrom (r : Request) (k : Nat) : List Nat :=
  (r.sectors.drop k).filterMap ReadSector.slot?

/-- A READ leaves the binding lists of some slots (R67). -/
def State.releaseBindings (s : State) (id : Nat) (slots : List Nat) : State :=
  slots.foldl (fun s i => s.releaseBinding id i false) s

/-- Sectors with number k failed and every later binding given up (R157). -/
def failFrom (st : Status) : Nat → List ReadSector → List ReadSector
  | _, [] => []
  | 0, _ :: xs => { st := .failed st, load := none } :: xs.map ReadSector.giveUp
  | k + 1, x :: xs => x :: failFrom st k xs

/-- A sector of a READ receives a failure outcome; the READ at once gives up its bindings on every
sector after it (R65, R157), and waits for slots no longer (R76; log 40). -/
def State.failSector (s : State) (c : Channel) (id lsn : Nat) (st : Status) : State :=
  match s.findReq c id with
  | none => s
  | some r =>
    let k := lsn - r.lsn
    ((s.updReq c id (fun r => { r with sectors := failFrom st k r.sectors })).releaseBindings id
      (r.boundSlotsFrom (k + 1))).leaveSlotWait id

/-- A READ records the correction load of a sector (R65). -/
def State.recordLoad (s : State) (c : Channel) (id lsn load : Nat) : State :=
  s.updReq c id (fun r =>
    { r with sectors := r.sectors.modify (lsn - r.lsn) (fun x => { x with load := some load }) })

/-- The larger of two loads, either of which may be absent. -/
def maxLoad : Option Nat → Option Nat → Option Nat
  | none, y => y
  | some x, none => some x
  | some x, some y => some (max x y)

/-- The largest load among the sectors counted in sectors done that recorded one (R157). -/
def Request.deliveredLoad (r : Request) : Option Nat :=
  (r.sectors.filter (fun x => x.st == .taken)).foldl (fun m x => maxLoad m x.load) none

/-- A load of 1–6 sets the CORRECTED flag (R157, R159). -/
def correctedBy (load : Option Nat) : Bool := decide (1 ≤ load.getD 0)

/-- A READ ends with a status; what it still holds is released (R67, R157). -/
def State.endRead (s : State) (c : Channel) (id : Nat) (st : Status) (short : Bool)
    (firstFailing : Option Nat) : State :=
  match s.findReq c id with
  | none => s
  | some r =>
    (((s.updReq c id (fun r =>
        { r with
          sectors := r.sectors.map ReadSector.giveUp
          worstLoad := r.deliveredLoad
          corrected := correctedBy r.deliveredLoad
          short := short
          firstFailing := firstFailing })).settleReq c id st).releaseBindings id
      (r.boundSlotsFrom 0)).leaveSlotWait id

/-- A READ ended by an event or a timeout: SHORT when sectors done is below its count, first
failing LSN absent (R164, R181). -/
def State.cutRead (s : State) (c : Channel) (id : Nat) (st : Status) : State :=
  match s.findReq c id with
  | none => s
  | some r => s.endRead c id st (decide (r.sectorsDone < r.count)) none

/-! ### Delivery (R66, R157, R180) -/

/-- The last byte of sector k of a READ is taken at the port (R66); with the last sector the READ
is settled SUCCESS (R157). -/
def State.takeSector (s : State) (c : Channel) (id k : Nat) : State :=
  match s.findReq c id with
  | none => s
  | some r =>
    let t := s.updReq c id (fun r =>
      { r with sectors := r.sectors.modify k (fun x => { x with st := .taken }),
               sectorsDone := r.sectorsDone + 1 })
    let u := match (r.sectors[k]?).bind ReadSector.slot? with
      | some i => t.releaseBinding id i true
      | none => t
    if k + 1 = r.count then u.endRead c id .success false none else u

/-- No sector of the READ is bound, and none has been (R64). -/
def Request.noneBound (r : Request) : Bool := r.sectors.all (fun x => x.st == .waiting)

/-- Where sector k of a READ stands. -/
def Request.sectorState (r : Request) (k : Nat) : Option ReadSectorState :=
  (r.sectors[k]?).map (fun x => x.st)

/-- A READ's state and settlement follow its sectors (R157): it ends at a failed sector that is the
next to be delivered; its transfer joins the list when its first sector is available. -/
def State.settleRead (s : State) (c : Channel) (id : Nat) : State :=
  match s.findReq c id with
  | none => s
  | some r =>
    if r.kind == .read && r.state != .done then
      match r.sectorState r.sectorsDone with
      | some (.failed st) => s.endRead c id st true (some (r.lsn + r.sectorsDone))
      | _ =>
        if r.state == .delivering then s
        else if s.sectorAvailable r 0 then
          (s.updReq c id (fun r => { r with state := .delivering })).joinTransfer c
            { request := id, tag := r.tag, dir := .outward, length := r.count * sectorBytes,
              moved := 0, record := [] }
        else s.updReq c id (fun r =>
          { r with state := if r.noneBound then .slotWait else .active })
    else s

/-- Every READ of a channel follows its sectors, in acceptance order (R157; log 32). -/
def State.settleReadsOf (s : State) (c : Channel) : State :=
  ((s.reqs c).map (fun r => r.id)).foldl (fun s id => s.settleRead c id) s

def State.settleReads (s : State) : State := (s.settleReadsOf .A).settleReadsOf .B

/-! ### The read-ahead record (R117) -/

/-- All sectors of a READ are bound, or were, and no slot it is bound to is FETCHING (R117). -/
def State.fetchesOver (s : State) (r : Request) : Bool :=
  r.sectors.all (fun x =>
    match x.st with
    | .waiting => false
    | .bound i => (s.slotAt i).state != .fetching
    | _ => true)

def State.setReadAhead (s : State) (c : Channel) (ra : Option ReadAhead) : State :=
  { s with sched := { s.sched with readAhead := s.sched.readAhead.set c ra } }

/-- The record a SEQUENTIAL READ sets (R117). -/
def State.readAheadOf (s : State) (c : Channel) (r : Request) : Option ReadAhead :=
  let w := (s.port c).settings.readAheadWindow
  if w = 0 then none
  else some { windowEnd := min (r.lsn + r.count + w) s.dm.capacity, next := r.lsn + r.count }

/-- The READ was outstanding up to this step: it is not settled, or it is settled in this step at a
sector that its fetch gave as BLANK or UNCORRECTABLE. The other ends miss the moment of R117. -/
def Request.reachesMoment (r : Request) : Bool :=
  r.state != .done || r.result == some .blank || r.result == some .mediumError

/-- The moment of R117 for one READ, whatever the outcomes of its sectors (log 19). -/
def State.readAheadMoment (s : State) (c : Channel) (id : Nat) : State :=
  match s.findReq c id with
  | none => s
  | some r =>
    if r.kind == .read && r.sequential && !r.readAheadPassed && r.reachesMoment &&
        s.fetchesOver r then
      (s.setReadAhead c (s.readAheadOf c r)).updReq c id
        (fun r => { r with readAheadPassed := true })
    else s

/-- The moments of R117 reached in this step, in acceptance order (log 19). -/
def State.readAheadMomentsOf (s : State) (c : Channel) : State :=
  ((s.reqs c).map (fun r => r.id)).foldl (fun s id => s.readAheadMoment c id) s

def State.readAheadMoments (s : State) : State := (s.readAheadMomentsOf .A).readAheadMomentsOf .B

/-- A channel's read-ahead is cancelled (R117). It holds no slot whose fetch has not begun (R118),
so R78 leaves its slots as they are. -/
def State.cancelReadAhead (s : State) (c : Channel) : State := s.setReadAhead c none

/-- Both channels' read-ahead is cancelled (R120). -/
def State.cancelReadAheads (s : State) : State :=
  { s with sched := { s.sched with readAhead := { a := none, b := none } } }

end Sys2Proof.Machine
end

