-- ==== Sys2Proof/Machine/WriteWork.lean ====
section
/-! DEFINITION. Write work: the overlap rule, the allocation of slots, a REASSIGN's allocation of a
spare, the rescue's data step, and the end of work (R49, R68–R75, R91, R97, R101). -/

namespace Sys2Proof.Machine

/-! ### The overlap rule (R68) -/

/-- Two pieces of write work cover a common LSN. -/
def WriteWork.overlaps (w v : WriteWork) : Bool :=
  w.sectors.any (fun x => v.sectors.any (fun y => x.lsn == y.lsn))

/-- Earlier unfinished write work covers an LSN of this work (R68). -/
def State.heldBack (s : State) (w : WriteWork) : Bool :=
  s.works.any (fun e => decide (e.id < w.id) && e.overlaps w)

/-! ### Results and ends (R97, R159) -/

/-- The lowest LSN whose result is a failure, with its status; the sectors stand in LSN order
(R97). -/
def WriteWork.firstFailure (w : WriteWork) : Option (Nat × Status) :=
  w.sectors.findSome? (fun x =>
    match x.result with
    | some (.failed st) => some (x.lsn, st)
    | _ => none)

/-- The sectors of the work with result PASSED (R97). -/
def WriteWork.sectorsDone (w : WriteWork) : Nat :=
  (w.sectors.filter (fun x => x.result == some .passed)).length

/-- The status of the work's end, with a cause of its own where one is given (R97, R159). -/
def WriteWork.endStatus (w : WriteWork) (cause : Option Status) : Status :=
  match cause with
  | some st => st
  | none => if w.abortMark then .aborted else ((w.firstFailure.map (fun f => f.2)).getD .success)

/-- The worst correction load handed over: a REASSIGN's fetch load when its fetch gave one, else
the largest load kept over the verify passes (R49, R97; log 20). -/
def WriteWork.endLoad (w : WriteWork) : Option Nat :=
  match w.fetchLoad with
  | some n => some n
  | none => w.worstLoad

/-- WRITE or REASSIGN work ends: it is unfinished no more, and its request, where it still has one,
is settled with the values of R97 (R159). -/
def State.concludeWork (s : State) (w : WriteWork) (cause : Option Status) : State :=
  let t := (s.dropWork w.id).leaveSlotWait w.id
  match w.owner with
  | none => t
  | some c =>
    (t.updReq c w.id (fun r =>
      { r with
        sectorsDone := w.sectorsDone
        firstFailing := w.firstFailure.map (fun f => f.1)
        worstLoad := w.endLoad
        corrected := correctedBy w.endLoad
        reassigned := w.reassigned })).settleReq c w.id (w.endStatus cause)

/-- The rescue in progress ends, counted as done or as dropped (R47). -/
def State.endRescue (s : State) (w : WriteWork) (done : Bool) : State :=
  let t := s.dropWork w.id
  { t with dm := if done then t.dm.countDone else t.dm.countDropped }

/-- Every sector has a result or has been dropped, and no follow-up run is to be taken (R97). -/
def WriteWork.settled (w : WriteWork) : Bool :=
  w.sectors.all (fun x => !x.isOpen) && w.followUps.isEmpty

/-- The work ends when it is settled and none of its runs is open (R97). -/
def State.checkWorkEnd (s : State) (id : Nat) : State :=
  match s.findWork id with
  | none => s
  | some w =>
    if w.settled && !s.runOpenFor w.name then
      if w.kind == .rescue then s.endRescue w (w.firstFailure.isNone)
      else s.concludeWork w none
    else s

/-- Every open sector of a piece of work, but those kept, takes a result, or is dropped without
one; the runs of those sectors are dropped and their slots given up (R72, R73, R99, R103). -/
def State.endOpenSectors (s : State) (id : Nat) (keep : List Nat) (res : Option SectorResult) :
    State :=
  match s.findWork id with
  | none => s
  | some w =>
    let ends := fun (x : WorkSector) => x.isOpen && !keep.contains x.lsn
    let slots := (w.sectors.filter ends).filterMap (fun x => x.slot)
    slots.foldl (fun s i => s.giveUpSlot id i)
      (s.updWork id (fun w =>
        { w with
          followUps := w.followUps.filter (fun r => r.lsns.any (fun l => keep.contains l))
          sectors := w.sectors.map (fun x =>
            if ends x then
              match res with
              | some r => { x with result := some r }
              | none => { x with dropped := true }
            else x) }))

/-- The LSNs of the open run, when it is this work's. -/
def State.openRunLsns (s : State) (w : WriteWork) : List Nat :=
  match s.sched.openRun with
  | some r => if r.work == w.name then r.run.lsns else []
  | none => []

/-- The LSNs of the work's follow-up runs still to be taken. -/
def WriteWork.followUpLsns (w : WriteWork) : List Nat := (w.followUps.map Run.lsns).flatten

/-- The LSNs whose runs are carried through an ABORT or a channel reset: the open run's and the
follow-up runs' (R73, R103). -/
def State.carriedLsns (s : State) (w : WriteWork) : List Nat := s.openRunLsns w ++ w.followUpLsns

/-! ### Allocation (R69, R74) -/

/-- A piece of work and its request take a phase (R156). -/
def State.setPhase (s : State) (w : WriteWork) (ph : WorkPhase) (st : RequestState) : State :=
  let t := s.updWork w.id (fun w => { w with phase := ph })
  match w.owner with
  | none => t
  | some c => t.updReq c w.id (fun r => { r with state := st })

/-- Why a WRITE of n sectors, or a REASSIGN as one of 1, cannot be served (R69, R74, R77). -/
def State.writeBar (s : State) (c : Channel) (n : Nat) : Option Barred :=
  if s.availableSlots < n then some .slots
  else if Config.channelSlots < s.chargedCount c + n then some .quota
  else none

/-- The current slots of some LSNs that a WRITE may take over: CLEAN and unheld (R69). -/
def State.takeoverSlots (s : State) (lsns : List Nat) : List Nat :=
  (lsns.filterMap (fun l => s.currentSlot l)).filter (fun i => (s.slotAt i).replaceable)

/-- A new current slot for an LSN, FILLING for a WRITE (R69). -/
def State.newFillSlot (s : State) (c : Channel) (id lsn : Nat) (excluded : List Nat) :
    State × Option Nat :=
  match s.chooseSlot excluded with
  | none => (s, none)
  | some i => (s.claimSlot i lsn .filling (.write id) (.channel c) (some id), some i)

/-- The slot a WRITE takes for one LSN: its CLEAN unheld current slot taken over, or a new one in
place of a current slot made stale (R69). -/
def State.takeWriteSlot (s : State) (c : Channel) (id lsn : Nat) (excluded : List Nat) :
    State × Option Nat :=
  match s.currentSlot lsn with
  | none => s.newFillSlot c id lsn excluded
  | some i =>
    if (s.slotAt i).replaceable then
      (s.claimSlot i lsn .filling (.write id) (.channel c) (some id), some i)
    else (s.makeStale i).newFillSlot c id lsn excluded

/-- The slots of a WRITE's sectors, in LSN order (R69). -/
def State.takeWriteSlots (s : State) (c : Channel) (id : Nat) (excluded : List Nat) :
    List WorkSector → State × List WorkSector
  | [] => (s, [])
  | x :: xs =>
    let t := s.takeWriteSlot c id x.lsn excluded
    let u := State.takeWriteSlots t.1 c id excluded xs
    (u.1, { x with slot := t.2 } :: u.2)

/-- A WRITE is served: it takes all its slots, enters FILLING, and its transfer joins the port's
list (R69, R179). -/
def State.serveWrite (s : State) (c : Channel) (w : WriteWork) : State :=
  let excluded := s.takeoverSlots (w.sectors.map (fun x => x.lsn))
  let t := s.takeWriteSlots c w.id excluded w.sectors
  let u := (t.1.updWork w.id (fun w => { w with sectors := t.2 })).setPhase w .filling .filling
  match u.findReq c w.id with
  | none => u
  | some r =>
    u.joinTransfer c
      { request := w.id, tag := r.tag, dir := .inward, length := r.count * sectorBytes, moved := 0,
        record := [] }

/-- The follow-up runs of some LSNs, numbered in the order formed (R34, R114). -/
def State.numberRuns (s : State) : List Run → State × List Run
  | [] => (s, [])
  | r :: rs =>
    let t := State.numberRuns { s with nextId := s.nextId + 1 } rs
    (t.1, { r with serial := s.nextId } :: t.2)

/-- Follow-up runs of reassigned LSNs are formed and added to the work (R34, R95, R101). -/
def State.addFollowUps (s : State) (id : Nat) (lsns : List Nat) : State :=
  let t := s.numberRuns (s.dm.followUpRuns lsns)
  t.1.updWork id (fun w => { w with followUps := w.followUps ++ t.2 })

/-- One reassignment carried out for a sector of a piece of work (R42, R43). -/
def State.noteReassigned (s : State) (w : WriteWork) (lsn : Nat) (d : DefectManager) : State :=
  let t := ({ s with dm := d }.updWorkSector w.id lsn
    (fun x => { x with spares := x.spares + 1, covered := true })).updWork w.id
      (fun w => { w with reassigned := true })
  match w.owner with
  | none => t
  | some c => t.updReq c w.id (fun r => { r with reassigned := true })

/-- The result of one sector of a piece of work (R97). -/
def State.giveResult (s : State) (id lsn : Nat) (r : SectorResult) : State :=
  s.updWorkSector id lsn (fun x => { x with result := some r })

/-- The allocation of a REASSIGN, when its data step has ended: the LSN's current place is the
failed place (R49 items 2–4, R101). -/
def State.reassignAllocate (s : State) (w : WriteWork) (lsn : Nat) (dataRead : Bool) : State :=
  match s.dm.reassign lsn ((s.dm.translate lsn).getD (0, 0)) s.policy.settleDelay with
  | .done d =>
    ((s.noteReassigned w lsn d).addFollowUps w.id [lsn]).updWork w.id
      (fun w => { w with phase := .runs, eraseOnly := !dataRead })
  | .refused st =>
    ((s.endOpenSectors w.id [] (some (.failed st)))).checkWorkEnd w.id
  | .mismatch =>
    ((s.endOpenSectors w.id [] (some (.failed .writeFailed)))).checkWorkEnd w.id

/-- A REASSIGN is served: a CLEAN unheld current slot is taken over with its content, and the
allocation made at once; else a new slot becomes current and FETCHING (R74, R101). -/
def State.serveReassign (s : State) (c : Channel) (w : WriteWork) (lsn : Nat) : State :=
  let fetchInto := fun (s : State) =>
    match s.chooseSlot [] with
    | none => s
    | some i =>
      ((s.claimSlot i lsn .fetching (.reassign w.id) (.channel c) (some w.id)).updWorkSector w.id lsn
        (fun x => { x with slot := some i })).setPhase w .dataStep .active
  match s.currentSlot lsn with
  | none => fetchInto s
  | some i =>
    if (s.slotAt i).replaceable then
      (((s.updSlot i (fun x =>
          { x with state := .writing, stage := some .queued, work := some (.reassign w.id),
                   charged := .channel c, chargedFor := some w.id })).updWorkSector w.id lsn
        (fun x => { x with slot := some i })).setPhase w .runs .active).reassignAllocate w lsn true
    else fetchInto (s.makeStale i)

/-- The LSN of one-sector work. -/
def WriteWork.firstLsn (w : WriteWork) : Nat := (w.sectors.head?.map (fun x => x.lsn)).getD 0

/-- The slots a piece of work needs at once: a WRITE one for each LSN, a REASSIGN one (R69, R74). -/
def WriteWork.slotsNeeded (w : WriteWork) : Nat :=
  match w.kind with
  | .write => w.sectors.length
  | .reassign => 1
  | .rescue => 1

/-- Work that may take slots takes them, or joins the slot-wait list (R69, R74, R76). -/
def State.allocate (s : State) (w : WriteWork) : State :=
  match w.owner with
  | none => s
  | some c =>
    match s.writeBar c w.slotsNeeded with
    | some _ => (s.setPhase w .slotWait .slotWait).joinSlotWait w.id
    | none =>
      let t := s.leaveSlotWait w.id
      match w.kind with
      | .write => t.serveWrite c w
      | .reassign => t.serveReassign c w w.firstLsn
      | .rescue => s

/-- Accepted WRITE or REASSIGN work: OVERLAP WAIT while earlier work holds it, else allocation
(R68, R156). -/
def State.startWork (s : State) (w : WriteWork) : State :=
  let t := { s with works := s.works ++ [w] }
  if t.heldBack w then t.setPhase w .overlapWait .overlapWait else t.allocate w

/-! ### The fill (R70) -/

/-- The fill of a WRITE is complete: its slots become WRITING at QUEUED, the READs waiting on them
holding, and its runs are ready (R70). -/
def State.completeFill (s : State) (w : WriteWork) : State :=
  let t := (w.sectors.filterMap (fun x => x.slot)).foldl
    (fun s i => s.updSlot i (fun x =>
      { x.withBindings (x.bindings.map (fun b => { b with waiting := false })) with
        state := .writing, stage := some .queued })) s
  t.setPhase w .runs .active

/-! ### Runs still to be taken (R32, R91, R96) -/

/-- The LSNs not yet covered by a run (R32). -/
def WriteWork.uncovered (w : WriteWork) : List Nat :=
  (w.sectors.filter (fun x => x.isOpen && !x.covered)).map (fun x => x.lsn)

/-- Some of the LSNs has a stale FETCHING slot whose fetch has not ended (R91; log 17). -/
def State.staleFetchPending (s : State) (lsns : List Nat) : Bool :=
  s.pool.slots.any (fun x => x.state == .fetching && x.stale &&
    (match x.lsn with
     | some l => lsns.contains l
     | none => false))

/-- The next run of a piece of write work, when it is ready: a follow-up run first, else the next
original run (R32, R91, R96). -/
def State.nextRun (s : State) (w : WriteWork) : Option Run :=
  if w.phase != .runs || s.runOpenFor w.name ||
      s.staleFetchPending (w.followUpLsns ++ w.uncovered) then none
  else
    match w.followUps with
    | r :: _ => some r
    | [] => s.dm.firstRun w.uncovered

/-! ### The rescue's data step (R46, R75) -/

/-- The rescue in progress takes its data step when R68 and R75 let it. A current slot that is
FETCHING for a REASSIGN already ended is made stale as one FETCHING for a READ is (log 41). -/
def State.rescueDataStep (s : State) (w : WriteWork) : State :=
  let lsn := w.firstLsn
  let fetchInto := fun (s : State) =>
    match s.chooseSlot [] with
    | none => s
    | some i =>
      (s.claimSlot i lsn .fetching (.rescue w.id) .internal none).updWorkSector w.id lsn
        (fun x => { x with slot := some i })
  let waits := !s.pool.slotWait.isEmpty || (s.chooseSlot []).isNone
  if w.phase != .dataStep || (w.sectors.any (fun x => x.slot.isSome)) || s.heldBack w then s
  else
    match s.currentSlot lsn with
    | some i =>
      if (s.slotAt i).state == .clean then
        ((s.updSlot i (fun x =>
            { x with state := .writing, stage := some .queued, work := some (.rescue w.id),
                     charged := if x.claimed then x.charged else .internal })).updWorkSector w.id lsn
          (fun x => { x with slot := some i })).updWork w.id (fun w => { w with phase := .runs })
      else if waits then s
      else fetchInto (s.makeStale i)
    | none => if waits then s else fetchInto s

/-- The rescue in progress is cut short with no run open: it ends and rescues dropped rises by 1;
its WRITING slot is dropped, a fetch in flight goes on (R48, R75). -/
def State.cutRescue (s : State) : State :=
  match s.rescue with
  | none => s
  | some w =>
    let t := s.endOpenSectors w.id [] none
    match t.findWork w.id with
    | none => t
    | some v => t.endRescue v false

end Sys2Proof.Machine
end

