-- ==== Sys2Proof/Machine/Lifecycle.lean ====
section
/-! DEFINITION. The Cartridge Controller (Chapter 8): the read-only flag, entry to FAULTED, removal,
eject, mount and recovery, and what each does to the other blocks. -/

namespace Sys2Proof.Machine

/-! ### Small operations -/

def State.updCtl (s : State) (f : Controller → Controller) : State := { s with ctl := f s.ctl }

/-- An operation on every outstanding request, channel A's and then channel B's, in acceptance
order. -/
def State.forRequests (s : State) (f : State → Channel → Request → State) : State :=
  let t := (s.reqs .A).foldl (fun s r => f s .A r) s
  (t.reqs .B).foldl (fun s r => f s .B r) t

/-- The FLUSH MAPs that a test names complete with a status (R54). -/
def State.endFlushMaps (s : State) (test : Request → Bool) (st : Status) : State :=
  s.forRequests (fun s c r =>
    if r.kind == .flushMap && r.state != .done && test r then s.settleReq c r.id st else s)

/-- The request of a requesters-list entry completes with a status. -/
def State.settleListed (s : State) (st : Status) (e : Channel × Byte) : State :=
  match s.reqByTag e.1 e.2 with
  | none => s
  | some r => s.settleReq e.1 r.id st

/-- Each EJECT on the eject-requesters list completes, and the list is emptied (R144, R146, R147). -/
def State.completeEjects (s : State) (st : Status) : State :=
  (s.ctl.ejectRequesters.foldl (fun s e => s.settleListed st e) s).updCtl
    (fun k => { k with ejectRequesters := [] })

/-- Each MOUNT on the mount-requesters list completes, and the list is emptied (R140, R146–R148). -/
def State.completeMounts (s : State) (st : Status) : State :=
  (s.ctl.mountRequesters.foldl (fun s e => s.settleListed st e) s).updCtl
    (fun k => { k with mountRequesters := [] })

/-- The unmount answer is recorded, when the writeback has been asked for and not answered (R55,
R143). -/
def State.answerUnmount (s : State) (a : UnmountAnswer) : State :=
  if s.ctl.unmountAsked && s.ctl.unmountAnswer.isNone then
    s.updCtl (fun k => { k with unmountAnswer := some a, unmountAsked := false })
  else s

/-! ### The read-only flag (R99, R141) -/

/-- One piece of write work at the setting of the read-only flag: an open run is carried through,
all else ends WRITE PROTECTED; a rescue with no run open ends (R48, R99). -/
def State.protectWork (s : State) (id : Nat) : State :=
  match s.findWork id with
  | none => s
  | some w =>
    if w.kind == .rescue then (if s.runOpenFor w.name then s else s.cutRescue)
    else (s.endOpenSectors id (s.openRunLsns w) (some (.failed .writeProtected))).checkWorkEnd id

/-- All write work at the setting of the read-only flag (R99). -/
def State.protectWorks (s : State) : State :=
  (s.works.map (fun w => w.id)).foldl (fun s id => s.protectWork id) s

/-- The read-only flag goes from NONE to set outside MOUNTING: READ-ONLY notice, write work ends,
the rescue list empties, waiting FLUSH MAPs and an asked unmount writeback are answered when no
writeback is in flight (R45, R48, R54, R99, R141). From set it does not change. -/
def State.setReadOnly (s : State) (reason : ReadOnly) : State :=
  if s.ctl.readOnly != .none then s
  else
    let t := ((({ s with dm := { s.dm with rescueList := [] } }).updCtl
      (fun k => { k with readOnly := reason })).raise .readOnly).protectWorks
    if t.writebackInFlight then t
    else (t.endFlushMaps (fun _ => true) .mapNotSaved).answerUnmount .notSaved

/-- The write-protect state takes what a MEDIA IN or a REPORT STATE says; a yes in READY,
UNMOUNTING or FAULTED sets the read-only flag (R141, R151). -/
def State.learnProtect (s : State) (wp : Bool) : State :=
  let t := s.updCtl (fun k => { k with writeProtect := wp })
  if wp && (t.ctl.state == .ready || t.ctl.state == .unmounting || t.ctl.state == .faulted) then
    t.setReadOnly .writeProtected
  else t

/-! ### Entry to FAULTED (R104, R147) -/

/-- A sector that is still to come: a waiting sector, or one bound to a slot that is not available,
before the READ's first failed sector (R147; log 22). -/
def State.sectorsPending (s : State) : List ReadSector → Bool
  | [] => false
  | x :: xs =>
    match x.st with
    | .waiting => true
    | .bound i => !(s.slotAt i).available || State.sectorsPending s xs
    | .failed _ => false
    | .taken => State.sectorsPending s xs
    | .gaveUp => State.sectorsPending s xs

/-- READs with a sector not yet available, and FLUSH MAPs, end MECHANISM FAULT (R147, R164). -/
def State.faultRequest (s : State) (c : Channel) (r : Request) : State :=
  if r.state == .done then s
  else
    match r.kind with
    | .read => if s.sectorsPending r.sectors then s.cutRead c r.id .mechanismFault else s
    | .flushMap => s.settleReq c r.id .mechanismFault
    | _ => s

/-- Write work that ends with a cause: each open sector takes the cause as its result (R104,
R105, R159). The rescue in progress is counted as dropped, or not counted at a removal (R48). -/
def State.endWorkFor (s : State) (cause : Status) (countRescue : Bool) (id : Nat) : State :=
  let t := s.endOpenSectors id [] (some (.failed cause))
  match t.findWork id with
  | none => t
  | some w =>
    if w.kind == .rescue then (if countRescue then t.endRescue w false else t.dropWork id)
    else t.concludeWork w (some cause)

def State.endWorks (s : State) (cause : Status) (countRescue : Bool) : State :=
  (s.works.map (fun w => w.id)).foldl (fun s id => s.endWorkFor cause countRescue id) s

/-- Every fetch is lost: its FETCHING slot becomes FREE (R80, R104). -/
def State.loseFetches (s : State) : State :=
  (List.range s.pool.slots.length).foldl
    (fun s i => if (s.slotAt i).state == .fetching then s.freeSlot i else s) s

/-- The operation in flight and the open run are lost (R104, R105). -/
def State.loseOperation (s : State) : State :=
  { s with engine := none, sched := { s.sched with openRun := none } }

/-- Entry to FAULTED (R147). -/
def State.enterFaulted (s : State) : State :=
  let from_ := s.ctl.state
  let t := ((s.loseOperation.forRequests State.faultRequest).endWorks .mechanismFault true).loseFetches
  let u := t.completeEjects .mechanismFault
  let v := if from_ == .spinning || from_ == .mounting then u.completeMounts .mechanismFault else u
  ((v.cancelReadAheads).updCtl
    (fun k => { k with state := .faulted, unmountAnswer := none, unmountAsked := false,
                       recovering := false, indexWanted := none })).raise .mechanismFault

/-! ### Removal and eject (R144, R146, R149) -/

/-- The entry to EMPTY: every block that holds something of the cartridge is emptied (R37, R79,
R117, R133, R137, R174), and the medium record with them (the model's choice, log 44). -/
def State.enterEmpty (s : State) : State :=
  let t := (s.loseOperation.emptyPool.cancelReadAheads)
  { t with
    works := [], dm := DefectManager.reset, reservations := [], medium := [],
    link := { t.link with linkRetries := 0 },
    ctl := { t.ctl with
      state := .empty, readOnly := .none, writeProtect := false, ejectRequesters := [],
      mountRequesters := [], unmountAnswer := none, recovering := false, ejectPending := false,
      unmountAsked := false, indexWanted := none } }

/-- The READs and REPORT MAPs of a removal, and at a forced one the FLUSH MAPs, end NO CARTRIDGE
(R144, R146, R164). -/
def State.removeRequest (s : State) (c : Channel) (r : Request) : State :=
  if r.state == .done then s
  else
    match r.kind with
    | .read => s.cutRead c r.id .noCartridge
    | .reportMap => s.settleReq c r.id .noCartridge
    | .flushMap => s.settleReq c r.id .noCartridge
    | _ => s

/-- SUCCESS when the map is clean, MAP NOT SAVED when it is dirty (R144, R146). -/
def State.ejectStatus (s : State) : Status := if s.dm.dirty then .mapNotSaved else .success

/-- A forced removal (R146). -/
def State.forcedRemoval (s : State) : State :=
  let t := (s.loseOperation.forRequests State.removeRequest).endWorks .noCartridge false
  let u := (t.completeEjects s.ejectStatus).completeMounts .noCartridge
  let v := if s.dm.dirty then u.raise .mapLost else u
  v.enterEmpty.raise .cartridgeGone

/-- The eject is done (R144). A dirty map without an unmount answer also posts MAP LOST (R57; its
place before CARTRIDGE GONE is log 24). -/
def State.ejectDone (s : State) : State :=
  let t := (s.loseOperation.forRequests State.removeRequest).endWorks .noCartridge false
  let u := (t.completeEjects s.ejectStatus).completeMounts .noCartridge
  let v := if s.dm.dirty && s.ctl.unmountAnswer.isNone then u.raise .mapLost else u
  v.enterEmpty.raise .cartridgeGone

/-- A MEDIA OUT taken, or a removal handed over by the link (R144, R146, R151). -/
def State.removal (s : State) : State :=
  match s.ctl.state with
  | .empty => s
  | .ejecting => s.ejectDone
  | _ => s.forcedRemoval

/-- EJECTING is entered and the mechanism EJECT is sent (R143, R149). -/
def State.beginEject (s : State) : State :=
  (s.updCtl (fun k => { k with state := .ejecting, ejectPending := false })).sendCommand
    .cartridgeController .eject

/-- The unmount starts (R142): UNMOUNTING, the rescue list emptied, the rescue in progress ended
unless a run of it is open or due (R48), read-ahead cancelled. -/
def State.startUnmount (s : State) : State :=
  let t := { s with dm := { s.dm with rescueList := [] } }.updCtl
    (fun k => { k with state := .unmounting, ejectPending := false })
  let u := match t.rescue with
    | none => t
    | some w => if t.runOpenFor w.name || !w.followUps.isEmpty then t else t.cutRescue
  u.cancelReadAheads

/-- A request of a kind that needs READY (R143). -/
def RequestKind.needsReady : RequestKind → Bool
  | .read | .write | .reassign | .reserve | .flushMap | .reportMap => true
  | .release | .eject | .mount | .status | .setPolicy | .setChannel | .abort => false

/-- The unmount still drains (R143). -/
def State.draining (s : State) : Bool :=
  (s.requests.a ++ s.requests.b).any (fun r => r.kind.needsReady) || s.sched.openRun.isSome ||
    s.rescue.isSome || s.works.any (fun w => w.owner.isNone)

/-- The Defect Manager's answer when the unmount writeback is asked for (R55). -/
def State.askUnmountWriteback (s : State) : State :=
  let t := s.updCtl (fun k => { k with unmountAsked := true })
  if !s.dm.dirty then t.answerUnmount .saved
  else if s.ctl.readOnly != .none then t.answerUnmount .notSaved
  else t

/-- With the unmount answer recorded and the engine FREE, the mechanism EJECT is sent; the drain has
ended by then, so no run is open (R143). -/
def State.ejectWhenAnswered (s : State) : State :=
  if s.ctl.state == .unmounting && s.ctl.unmountAnswer.isSome && s.engine.isNone &&
      s.sched.openRun.isNone then
    s.beginEject
  else s

/-! ### Mount and recovery (R138–R140, R148–R150) -/

/-- SPIN UP is sent when the link is IDLE and the start-up report has ended (R139). -/
def State.sendSpinUp (s : State) : State :=
  if s.ctl.startupReport then s else s.sendCommand .cartridgeController .spinUp

/-- SPINNING is entered (R139). -/
def State.enterSpinning (s : State) : State :=
  (s.updCtl (fun k => { k with state := .spinning })).sendSpinUp

/-- MOUNTING is entered: the flag NONE, the copy emptied, track 0 asked for (R18, R140). -/
def State.enterMounting (s : State) : State :=
  { s with dm := s.dm.emptyCopy }.updCtl
    (fun k => { k with state := .mounting, readOnly := .none, recovering := false,
                       indexWanted := some 0 })

/-- The verdict on track 0 (R14, R18, R140): a VALID one loads the header copy and the slip list; the
replacement list is not yet loaded. -/
def State.track0 (s : State) (outs : List DecoderOutcome) : State :=
  match track0Verdict outs with
  | some v =>
    { s with dm := { s.dm with bands := v.1, slips := v.2, replacement := [] } }.updCtl
      (fun k => { k with indexWanted := some 1 })
  | none =>
    let t := (({ s with dm := s.dm.emptyCopy }.updCtl
      (fun k => { k with state := .unreadable, indexWanted := none })).raise
        .cartridgeUnreadable).completeMounts .mediumError
    if t.ctl.ejectPending then t.beginEject else t

/-- The read-only flag at entry to READY from MOUNTING (R140). -/
def mountFlag (valid writeProtect : Bool) : ReadOnly :=
  if valid then (if writeProtect then .writeProtected else .none) else .mapDamaged

/-- READY entered from MOUNTING at the track-1 verdict (R37, R133, R140). -/
def State.enterReady (s : State) (valid : Bool) : State :=
  let flag := mountFlag valid s.ctl.writeProtect
  let t := ({ s with link := { s.link with linkRetries := 0 } }.updCtl
    (fun k => { k with state := .ready, readOnly := flag, indexWanted := none })).raise
      .cartridgeReady
  let u := if flag == .none then t else t.raise .readOnly
  let v := u.completeMounts .success
  if v.ctl.ejectPending then v.startUnmount else v

/-- The verdict on track 1 (R17, R140). -/
def State.track1 (s : State) (outs : List DecoderOutcome) : State :=
  match s.dm.track1Verdict outs with
  | some v =>
    ({ s with dm := { s.dm.clearAtVerdict with generation := v.1, replacement := v.2 } }).enterReady
      true
  | none =>
    ({ s with dm := { s.dm.clearAtVerdict with generation := 0, replacement := [] } }).enterReady
      false

/-- The recovery fails: the state stays FAULTED, MOUNTs complete MECHANISM FAULT, the notice goes
to both ports, and a pending eject starts (R148, R149). -/
def State.recoveryFailed (s : State) : State :=
  let t := ((s.updCtl (fun k => { k with recovering := false })).completeMounts
    .mechanismFault).raise .mechanismFault
  if t.ctl.ejectPending then t.beginEject else t

/-- The recovery ends with the spindle stable (R148): READY with the copy kept, or a full mount when
no track-1 verdict is held. -/
def State.recoveryDone (s : State) : State :=
  if s.dm.verdictHeld then
    let t := (s.updCtl (fun k => { k with state := .ready, recovering := false })).raise
      .cartridgeReady
    let u := if t.ctl.writeProtect then t.setReadOnly .writeProtected else t
    let v := u.completeMounts .success
    let w := if v.dm.dirty then
        { v with dm := { v.dm with settle := .running v.policy.settleDelay } }
      else v
    if w.ctl.ejectPending then w.startUnmount else w
  else s.enterMounting

/-- The recovery's REPORT STATE ended DONE (R141, R148; logs 28 and 42). With fault present READ-ONLY
is raised before MECHANISM FAULT (the model's choice, log 45). -/
def State.recoveryReport (s : State) (rec : StateRecord) : State :=
  if !rec.mediaPresent then s.removal
  else
    let t := s.learnProtect rec.writeProtected
    if rec.faultPresent then t.recoveryFailed
    else
      match rec.spindle with
      | .stable => t.recoveryDone
      | .stopped => t.sendCommand .cartridgeController .spinUp

/-- The start-up REPORT STATE ended DONE (R138, R141; log 42). With no media and no fault the state
stays EMPTY, where the write-protect state is no (R137). -/
def State.startupDone (s : State) (rec : StateRecord) : State :=
  match s.ctl.state with
  | .empty =>
    let t := s.updCtl (fun k => { k with writeProtect := rec.writeProtected })
    if rec.faultPresent then t.enterFaulted
    else if rec.mediaPresent then t.enterSpinning
    else s
  | .spinning =>
    let t := s.updCtl (fun k => { k with writeProtect := rec.writeProtected })
    if rec.faultPresent then t.enterFaulted else t.sendSpinUp
  | _ => s

/-- A lifecycle command ended DONE (R133, R138–R140, R144, R148). `startup` says that the command
was the start-up report. -/
def State.controllerDone (s : State) (cmd : LinkCommand) (rec : StateRecord) (startup : Bool) :
    State :=
  match cmd with
  | .reportState =>
    if startup then s.startupDone rec
    else if s.ctl.recovering then s.recoveryReport rec
    else s
  | .spinUp => if s.ctl.recovering then s.recoveryDone else s.enterMounting
  | .eject => s.ejectDone
  | .readSectors _ _ => s
  | .eraseSectors _ _ => s
  | .recordSectors _ _ => s

/-- A link fault (R130, R147, R148). -/
def State.linkFault (s : State) : State :=
  if s.ctl.recovering then s.recoveryFailed else s.enterFaulted

/-- A MECH FAULT taken (R147, R148; log 23). -/
def State.mechFaultTaken (s : State) : State :=
  match s.ctl.state with
  | .empty => s.raise .mechanismFault
  | .faulted => if s.ctl.recovering then s.recoveryFailed else s.raise .mechanismFault
  | _ => s.enterFaulted

/-- A MEDIA IN taken (R139, R151). -/
def State.mediaInTaken (s : State) (wp : Bool) : State :=
  match s.ctl.state with
  | .empty => (s.updCtl (fun k => { k with writeProtect := wp })).enterSpinning
  | _ => s.learnProtect wp

/-- A BUTTON taken (R145, R149). -/
def State.buttonTaken (s : State) : State :=
  match s.ctl.state with
  | .ready => if s.reservations.isEmpty then s.startUnmount else s.raise .ejectButton
  | .unreadable => s.beginEject
  | .faulted =>
    if s.ctl.recovering then s.updCtl (fun k => { k with ejectPending := true }) else s.beginEject
  | _ => s.raise .ejectButton

end Sys2Proof.Machine
end

