-- ==== Sys2Proof/Machine/Engine.lean ====
section
/-! DEFINITION. The Media Engine (Chapter 5): the decoder, fetches with re-reads, the passes of a
write run, the writeback's verdict, and what each final result does. -/

namespace Sys2Proof.Machine

/-! ### The decoder (R5, R6) -/

/-- The largest number of bytes in error in one interleave. -/
def worstErrors (f : SectorFrame) : Nat :=
  max (max f.errors0 f.errors1) (max f.errors2 f.errors3)

/-- The outcome for one requested sector, from the frame received for it, if any (R5, R6). -/
def decodeFrame (track sector : Nat) : Option SectorFrame → DecoderOutcome
  | none => .uncorrectable
  | some f =>
    if f.erasedPattern then .blank
    else if f.track ≠ track ∨ f.sector ≠ sector then .uncorrectable
    else if 6 < worstErrors f then .uncorrectable
    else if worstErrors f = 0 then .clean f.data
    else .corrected (worstErrors f) f.data

/-- The frame received for a sector (R126, R133). -/
def frameFor (received : List (Nat × SectorFrame)) (sector : Nat) : Option SectorFrame :=
  (received.find? (fun e => e.1 == sector)).map (fun e => e.2)

/-- The correction load handed on with an outcome (R6). -/
def DecoderOutcome.load : DecoderOutcome → Option Nat
  | .clean _ => some 0
  | .corrected n _ => some n
  | .uncorrectable => none
  | .blank => none

/-! ### Fetches (R84–R89) -/

/-- The first read of a fetch decoded (R84). -/
def decodeFirst (track : Nat) (received : List (Nat × SectorFrame)) (xs : List FetchSector) :
    List FetchSector :=
  xs.map (fun x =>
    let o := decodeFrame track x.sector (frameFor received x.sector)
    { x with outcome := some o, settled := o != .uncorrectable })

/-- The re-read of one sector decoded (R85). -/
def decodeReread (track sector : Nat) (received : List (Nat × SectorFrame))
    (xs : List FetchSector) : List FetchSector :=
  xs.map (fun x =>
    if x.sector == sector then
      let o := decodeFrame track sector (frameFor received sector)
      { x with outcome := some o, settled := o != .uncorrectable }
    else x)

/-- The first unsettled sector that may be read again, with the attempt's number; sectors before it
whose re-reads have run out are settled UNCORRECTABLE (R85). -/
def nextReread (retries : Nat) : List FetchSector → List FetchSector × Option (Nat × Nat)
  | [] => ([], none)
  | x :: xs =>
    if x.settled then
      let t := nextReread retries xs
      (x :: t.1, t.2)
    else if x.rereads < retries then
      ({ x with rereads := x.rereads + 1 } :: xs, some (x.sector, x.rereads + 1))
    else
      let t := nextReread retries xs
      ({ x with settled := true } :: t.1, t.2)

/-- The slot whose fetch is in flight for an LSN (R84). -/
def State.fetchSlot (s : State) (lsn : Nat) : Option Nat :=
  (s.pool.slots.zipIdx.find? (fun xi =>
    xi.1.state == .fetching && xi.1.fetchBegun && xi.1.lsn == some lsn)).map (fun xi => xi.2)

/-- The slot's work is a REASSIGN still outstanding or the rescue in progress (R86). -/
def State.slotForLiveWork (s : State) (x : Slot) : Bool :=
  match x.work with
  | some (.reassign id) => (s.findWork id).isSome
  | some (.rescue id) => (s.findWork id).isSome
  | _ => false

/-- A fetched sector with data: the READs bound record the load; the slot becomes WRITING for a
live REASSIGN or rescue, with its stamp as it was (R62; log 39), else CLEAN with the stamp set (R65,
R74, R75, R86). -/
def State.fetchGood (s : State) (i lsn load : Nat) (data : Memory) : State :=
  let x := s.slotAt i
  let t := x.bindings.foldl (fun s b => s.recordLoad b.ch b.id lsn load) s
  if s.slotForLiveWork x then
    t.setSlot i { x with state := .writing, stage := some .queued, content := data,
                         fetchBegun := false }
  else
    (t.setSlot i { x with state := .clean, work := none, content := data, fetchBegun := false,
                          stamp := s.timebase }).tidySlot i

/-- A fetched sector without data: the sector of each READ bound fails, and the slot becomes FREE
(R65, R87). -/
def State.fetchBad (s : State) (i lsn : Nat) (st : Status) : State :=
  ((s.slotAt i).bindings.foldl (fun s b => s.failSector b.ch b.id lsn st) s).freeSlot i

/-- A rescue offer in preparation: LSN, load, and the READs bound to its slot (R44, R86). -/
structure Offer where
  lsn : Nat
  load : Nat
  readers : List Binding
deriving DecidableEq, Repr

/-- One sector of an ended fetch handed to the pool; a sector not settled ends with no outcome
(R65, R86, R87). A sector with data gives a rescue offer's matter. -/
def State.handOver (s : State) (x : FetchSector) : State × List Offer :=
  match x.lsn with
  | none => (s, [])
  | some lsn =>
    match s.fetchSlot lsn with
    | none => (s, [])
    | some i =>
      if x.settled then
        match x.outcome with
        | some (.clean d) => (s.fetchGood i lsn 0 d, [])
        | some (.corrected n d) =>
          (s.fetchGood i lsn n d,
            [{ lsn := lsn, load := n, readers := (s.slotAt i).bindings }])
        | some .blank => (s.fetchBad i lsn .blank, [])
        | some .uncorrectable => (s.fetchBad i lsn .mediumError, [])
        | none => (s.fetchBad i lsn .mediumError, [])
      else (s.fetchBad i lsn .seekFailed, [])

/-- All sectors of an ended fetch handed to the pool, in ascending sector order (R86). -/
def State.handOverAll (s : State) (xs : List FetchSector) : State × List Offer :=
  xs.foldl (fun t x =>
    let u := t.1.handOver x
    (u.1, t.2 ++ u.2)) (s, [])

/-- One offer to the rescue list, and the RESCUE QUEUED flag of the READs bound (R44). -/
def State.offerRescue (s : State) (o : Offer) : State :=
  if s.policy.rescueThreshold ≤ o.load then
    let result := s.dm.offerResult (s.ctl.readOnly != .none) (s.rescue.map WriteWork.firstLsn) o.lsn
    let t := { s with dm := s.dm.offer result o.lsn o.load }
    if result == .added || result == .listed then
      o.readers.foldl (fun s b => s.updReq b.ch b.id (fun r => { r with rescueQueued := true })) t
    else t
  else s

/-- What a REASSIGN's or the rescue's own fetch hands to its work (R49, R86, R87). -/
def State.fetchToWork (s : State) (w : WriteWork) (x : FetchSector) : State :=
  let data := x.settled && ((x.outcome.bind DecoderOutcome.data?).isSome)
  let load := if data then x.outcome.bind DecoderOutcome.load else none
  let lsn := w.firstLsn
  let t := s.updWork w.id (fun w => { w with fetchLoad := load })
  if data then
    match w.kind with
    | .rescue => t.updWork w.id (fun w => { w with phase := .runs, fetchLoad := none })
    | _ => t.reassignAllocate w lsn true
  else
    let u := t.updWorkSector w.id lsn (fun y => { y with slot := none })
    match w.kind with
    | .rescue => u.endRescue w false
    | _ =>
      if x.settled then u.reassignAllocate w lsn false
      else (u.endOpenSectors w.id [] (some (.failed .seekFailed))).checkWorkEnd w.id

/-- The live work that an operation's fetch belongs to, if it is a REASSIGN's or the rescue's. -/
def State.fetchingWork (s : State) (work : Work) : Option WriteWork :=
  match work with
  | .reassign id => s.findWork id
  | .rescue id => s.findWork id
  | _ => none

/-- The fetch makes rescue offers: a READ's or read-ahead (R44, R86). -/
def Work.makesOffers : Work → Bool
  | .read _ _ => true
  | .readAhead _ => true
  | _ => false

/-- A fetch ends: pool, rescue offers, work, in this order; the engine is FREE (R86, R87). -/
def State.endFetch (s : State) (op : Operation) (xs : List FetchSector) : State :=
  let t := { s with engine := none }.handOverAll xs
  let u := if op.work.makesOffers then t.2.foldl (fun s o => s.offerRescue o) t.1 else t.1
  match u.fetchingWork op.work, xs with
  | some w, x :: _ => u.fetchToWork w x
  | _, _ => u

/-- The outcomes of an INDEX FETCH as handed to the Defect Manager; an unsettled sector counts as
UNCORRECTABLE (R89). -/
def indexOutcomes (xs : List FetchSector) : List DecoderOutcome :=
  xs.map (fun x => if x.settled then x.outcome.getD .uncorrectable else .uncorrectable)

/-- An INDEX FETCH ends: the Defect Manager validates the track (R89). -/
def State.endIndexFetch (s : State) (op : Operation) (xs : List FetchSector) : State :=
  let t := { s with engine := none }
  if op.run.track = 0 then t.track0 (indexOutcomes xs) else t.track1 (indexOutcomes xs)

/-- A fetch or INDEX FETCH ends with the outcomes it has. -/
def State.finishFetch (s : State) (op : Operation) (xs : List FetchSector) : State :=
  if op.kind == .indexFetch then s.endIndexFetch op xs else s.endFetch op xs

/-- After a read of a fetch: the next re-read is sent, or the fetch ends (R85, R86). -/
def State.continueFetch (s : State) (op : Operation) (xs : List FetchSector) : State :=
  let t := nextReread s.policy.readRetries xs
  match t.2 with
  | some r =>
    { s with engine := some { op with reread := some r, outcomes := t.1 } }.sendCommand .mediaEngine
      (.readSectors op.run.track [r.1])
  | none => s.finishFetch op t.1

/-- A READ SECTORS of a fetch ended DONE (R84, R85). -/
def State.fetchRead (s : State) (op : Operation) (received : List (Nat × SectorFrame)) : State :=
  match op.reread with
  | none => s.continueFetch op (decodeFirst op.run.track received op.outcomes)
  | some r => s.continueFetch op (decodeReread op.run.track r.1 received op.outcomes)

/-! ### Write runs (R90–R99) -/

/-- The run closes and the engine becomes FREE (R95, R110). -/
def State.closeRun (s : State) : State := s.loseOperation

/-- The slots of a run's sectors, of the work whose run it is. -/
def State.runSlots (s : State) (work : Work) (run : Run) : List Nat :=
  match work.id?.bind s.findWork with
  | none => []
  | some w =>
    (w.sectors.filter (fun x => run.lsns.contains x.lsn)).filterMap (fun x => x.slot)

/-- The write stage of the run's slots advances when a pass completes (R71). -/
def State.advanceStage (s : State) (r : OpenRun) (stage : WriteStage) : State :=
  (s.runSlots r.work r.run).foldl
    (fun s i => s.updSlot i (fun x => if x.workId == r.work.id? then { x with stage := some stage }
      else x)) s

/-- The pass after an ended one becomes ready; the engine is FREE (R92, R93). -/
def State.nextPass (s : State) (p : Pass) : State :=
  { s with
    engine := none
    sched := { s.sched with openRun := s.sched.openRun.map (fun r => { r with pass := p }) } }

/-- An ERASE PASS ended DONE (R92). The erase-only run of a REASSIGN whose data was not read closes
here, and the request ends MEDIUM ERROR (R49 item 4, R101 item 4). -/
def State.eraseDone (s : State) (r : OpenRun) : State :=
  let t := s.mediumErased r.run
  if r.eraseOnly then
    let id := r.work.id?.getD 0
    (t.closeRun.endOpenSectors id [] (some (.failed .mediumError))).checkWorkEnd id
  else (t.advanceStage r .erased).nextPass .record

/-- A RECORD PASS ended DONE (R93). -/
def State.recordDone (s : State) (r : OpenRun) (frames : List SentSector) : State :=
  ((s.mediumRecorded frames).advanceStage r .recorded).nextPass .verify

/-- A verified sector passes (R94): decoded, equal byte for byte, load at most the verify limit. -/
def verifyPasses (limit : Nat) (expected : Memory) (o : DecoderOutcome) : Bool :=
  match o with
  | .clean d => d == expected
  | .corrected n d => d == expected && decide (n ≤ limit)
  | .uncorrectable => false
  | .blank => false

/-- A sector's failure result at a verify end, with its slot dropped (R72, R95). -/
def State.failWorkSector (s : State) (id : Nat) (x : WorkSector) (st : Status) : State :=
  let t := s.giveResult id x.lsn (.failed st)
  match x.slot with
  | some i => t.giveUpSlot id i
  | none => t

/-- A failed sector of a verify end: reassigned, or given its failure result (R43, R95, R99). The
flag says that it was reassigned. -/
def State.verifyFail (s : State) (w : WriteWork) (x : WorkSector) (place : Place) : State × Bool :=
  if s.ctl.readOnly != .none then (s.failWorkSector w.id x .writeProtected, false)
  else if Config.sparesPerSector ≤ x.spares then (s.failWorkSector w.id x .writeFailed, false)
  else
    match s.dm.reassign x.lsn place s.policy.settleDelay with
    | .refused st => (s.failWorkSector w.id x st, false)
    | .mismatch => (s.failWorkSector w.id x .writeFailed, false)
    | .done d =>
      let t := s.noteReassigned w x.lsn d
      match x.slot with
      | some i => (t.updSlot i (fun y => { y with stage := some .queued }), true)
      | none => (t, true)

/-- A passed sector of a verify end (R71, R95). -/
def State.verifyPass (s : State) (w : WriteWork) (x : WorkSector) : State :=
  let t := s.giveResult w.id x.lsn .passed
  match x.slot with
  | some i => t.passSlot i
  | none => t

/-- One sector of a run settled at its verify end; the LSNs reassigned are gathered (R95). -/
def State.verifySector (s : State) (w : WriteWork) (track : Nat)
    (received : List (Nat × SectorFrame)) (y : RunSector) : State × List Nat :=
  match w.sectors.find? (fun x => y.lsn == some x.lsn) with
  | none => (s, [])
  | some x =>
    let o := decodeFrame track y.sector (frameFor received y.sector)
    let t := s.updWork w.id (fun v => { v with worstLoad := maxLoad v.worstLoad o.load })
    let expected := match x.slot with
      | some i => (s.slotAt i).content
      | none => []
    if verifyPasses s.policy.verifyLimit expected o then (t.verifyPass w x, [])
    else
      let u := t.verifyFail w x (track, y.sector)
      (u.1, if u.2 then [x.lsn] else [])

/-- The verify end of a channel's write run or of the rescue's (R95). -/
def State.verifyEnd (s : State) (w : WriteWork) (run : Run)
    (received : List (Nat × SectorFrame)) : State :=
  let t := run.sectors.foldl
    (fun t y =>
      let u := t.1.verifySector w run.track received y
      (u.1, t.2 ++ u.2)) (s, [])
  ((t.1.addFollowUps w.id t.2).closeRun).checkWorkEnd w.id

/-! ### The writeback's end (R51, R52, R54, R55, R102) -/

/-- The writeback's verify end verdict, PASS or FAIL (R102). -/
def State.endWriteback (s : State) (pass : Bool) : State :=
  let t := s.closeRun
  if pass then
    let u := { t with dm := t.dm.writebackPassed t.policy.settleDelay }
    let v := u.endFlushMaps (fun r => r.served) .success
    if !u.dm.dirty then (v.endFlushMaps (fun _ => true) .success).answerUnmount .saved
    else
      (if u.ctl.readOnly != .none then v.endFlushMaps (fun _ => true) .mapNotSaved else v
        ).answerUnmount .notSaved
  else
    ((t.endFlushMaps (fun _ => true) .mapNotSaved).answerUnmount .notSaved).setReadOnly
      .indexWriteFailed

/-- The verify of a writeback: every sector passes against its staged record (R94, R102). -/
def State.writebackVerified (s : State) (received : List (Nat × SectorFrame)) : Bool :=
  (List.range 16).all (fun i =>
    verifyPasses s.policy.verifyLimit (s.dm.staging.getD i [])
      (decodeFrame 1 i (frameFor received i)))

/-- A VERIFY PASS ended DONE (R95, R102). -/
def State.verifyDone (s : State) (r : OpenRun) (received : List (Nat × SectorFrame)) : State :=
  match r.work with
  | .writeback => s.endWriteback (s.writebackVerified received)
  | work =>
    match work.id?.bind s.findWork with
    | none => s.closeRun
    | some w => s.verifyEnd w r.run received

/-! ### Final results (R83, R87, R98, R99) -/

/-- A pass of the open run ended without completing: each sector of the run without a result takes
a failure, its slot dropped, and the run closes (R98, R99). -/
def State.failRun (s : State) (r : OpenRun) (st : Status) : State :=
  match r.work.id?.bind s.findWork with
  | none => s.closeRun
  | some w =>
    ((w.sectors.filter (fun x => x.isOpen && r.run.lsns.contains x.lsn)).foldl
      (fun s x => s.failWorkSector w.id x st) s).closeRun

/-- The engine's command ended DONE with the frames received (R83). -/
def State.engineDone (s : State) (cmd : LinkCommand) (received : List (Nat × SectorFrame)) :
    State :=
  match s.engine with
  | none => s
  | some op =>
    match op.kind with
    | .fetch => s.fetchRead op received
    | .indexFetch => s.fetchRead op received
    | .erasePass =>
      match s.sched.openRun with
      | none => { s with engine := none }
      | some r => s.eraseDone r
    | .recordPass =>
      match s.sched.openRun, cmd with
      | some r, .recordSectors _ frames => s.recordDone r frames
      | _, _ => { s with engine := none }
    | .verifyPass =>
      match s.sched.openRun with
      | none => { s with engine := none }
      | some r => s.verifyDone r received

/-- The engine's command ended SEEK FAILED (R87, R89, R98, R102). -/
def State.engineSeekFailed (s : State) : State :=
  match s.engine with
  | none => s
  | some op =>
    match op.kind with
    | .fetch => s.finishFetch op op.outcomes
    | .indexFetch => s.finishFetch op op.outcomes
    | _ =>
      match s.sched.openRun with
      | none => { s with engine := none }
      | some r =>
        if r.work == .writeback then s.endWriteback false
        else (s.failRun r .seekFailed).checkWorkEnd (r.work.id?.getD 0)

/-- The engine's erase or record command was refused PROTECTED: the run ends, the write-protect
state becomes yes and the read-only flag is set if it was NONE (R52, R99, R132). -/
def State.engineRefused (s : State) : State :=
  match s.engine, s.sched.openRun with
  | some _, some r =>
    let protect := fun (s : State) =>
      (s.updCtl (fun k => { k with writeProtect := true })).setReadOnly .writeProtected
    if r.work == .writeback then
      protect ((s.closeRun.endFlushMaps (fun _ => true) .mapNotSaved).answerUnmount .notSaved)
    else (protect (s.failRun r .writeProtected)).checkWorkEnd (r.work.id?.getD 0)
  | _, _ =>
    (s.updCtl (fun k => { k with writeProtect := true })).setReadOnly .writeProtected

end Sys2Proof.Machine
end

