-- ==== Sys2Proof/Machine/Scheduler.lean ====
section
/-! DEFINITION. The Head Scheduler (Chapter 6): ready work, the order of choice, and the handing of
one operation to the Media Engine. -/

namespace Sys2Proof.Machine

/-! ### Handing over an operation (R81, R84, R90) -/

/-- The outcomes of an operation that has decoded nothing yet (R81). -/
def Run.freshOutcomes (r : Run) : List FetchSector :=
  r.sectors.map (fun x =>
    { sector := x.sector, lsn := x.lsn, outcome := none, settled := false, rereads := 0 })

/-- The Media Engine becomes BUSY with an operation and sends its first command (R81). -/
def State.startOperation (s : State) (op : Operation) (cmd : LinkCommand) : State :=
  { s with engine := some op }.sendCommand .mediaEngine cmd

/-- A read of a run begins: FETCH, INDEX FETCH or VERIFY PASS (R84, R89, R94). -/
def State.startReading (s : State) (kind : OperationKind) (work : Work) (run : Run) : State :=
  s.startOperation
    { kind := kind, work := work, run := run, reread := none, outcomes := run.freshOutcomes }
    (.readSectors run.track run.sectorNumbers)

/-- An ERASE PASS begins (R92). -/
def State.startErase (s : State) (work : Work) (run : Run) : State :=
  s.startOperation { kind := .erasePass, work := work, run := run, reread := none, outcomes := [] }
    (.eraseSectors run.track run.sectorNumbers)

/-- The data a record pass takes for a sector: the staged record for the writeback, else the
content of the work's slot (R93). -/
def State.recordData (s : State) (work : Work) (x : RunSector) : Memory :=
  match work.id?.bind s.findWork with
  | none => s.dm.staging.getD x.sector []
  | some w =>
    match w.sectors.find? (fun y => x.lsn == some y.lsn) with
    | none => []
    | some y => (y.slot.map (fun i => (s.slotAt i).content)).getD []

/-- The frames of a record pass (R3, R93). -/
def State.recordFrames (s : State) (r : OpenRun) : List SentSector :=
  r.run.sectors.map (fun x =>
    { track := r.run.track, sector := x.sector, data := s.recordData r.work x })

/-- A RECORD PASS begins (R93). -/
def State.startRecord (s : State) (r : OpenRun) : State :=
  s.startOperation
    { kind := .recordPass, work := r.work, run := r.run, reread := none, outcomes := [] }
    (.recordSectors r.run.track (s.recordFrames r))

/-- The open run's next pass is taken (R109 items 1 and 3). -/
def State.startNextPass (s : State) (r : OpenRun) : State :=
  match r.pass with
  | .erase => s.startErase r.work r.run
  | .record => s.startRecord r
  | .verify => s.startReading .verifyPass r.work r.run

/-- A write run is opened by its ERASE PASS (R90, R110). -/
def State.openWriteRun (s : State) (work : Work) (run : Run) (eraseOnly : Bool) : State :=
  { s with sched := { s.sched with
      openRun := some { run := run, work := work, pass := .erase, insertions := 0,
                        eraseOnly := eraseOnly } } }.startErase work run

/-- A piece of write work's run is taken off the work: the head of its follow-up runs, or its next
original run, whose sectors are covered from now on (R32, R96). -/
def WriteWork.takeRun (w : WriteWork) (run : Run) : WriteWork :=
  match w.followUps with
  | _ :: rs => { w with followUps := rs }
  | [] =>
    { w with
      sectors := w.sectors.map (fun x =>
        if run.lsns.contains x.lsn then { x with covered := true } else x) }

/-- A piece of write work's ready run is opened (R90). -/
def State.takeWorkRun (s : State) (w : WriteWork) (run : Run) : State :=
  (s.updWork w.id (fun w => w.takeRun run)).openWriteRun w.name run w.eraseOnly

/-- A map writeback is staged and its run over track 1 opened; every FLUSH MAP that waits is served
by it (R51, R54, R116). -/
def State.takeWriteback (s : State) : State :=
  let t := s.forRequests (fun s c r =>
    if r.kind == .flushMap then s.updReq c r.id (fun r => { r with served := true }) else s)
  { t with dm := t.dm.stage }.openWriteRun .writeback (indexRun 1) false

/-! ### Fetch work (R84, R108) -/

/-- A slot whose fetch has not begun (R84). -/
def Slot.unbegun (x : Slot) : Bool := x.state == .fetching && !x.fetchBegun

/-- A number put into an ascending list. -/
def insertNat (n : Nat) : List Nat → List Nat
  | [] => [n]
  | m :: ms => if n ≤ m then n :: m :: ms else m :: insertNat n ms

/-- The LSNs of a work's slots whose fetch has not begun, in LSN order (R84). -/
def State.unbegunLsns (s : State) (work : Work) : List Nat :=
  ((s.pool.slots.filter (fun x => x.unbegun && x.work == some work)).filterMap
    (fun x => x.lsn)).foldr insertNat []

/-- A work's fetch is ready (R108). -/
def State.fetchReady (s : State) (work : Work) : Bool := !(s.unbegunLsns work).isEmpty

/-- The works that carry fetches not yet begun (R111). -/
def State.fetchWorks (s : State) : List Work :=
  s.pool.slots.foldl
    (fun ws x =>
      match x.work with
      | none => ws
      | some w => if x.unbegun && !ws.contains w then ws ++ [w] else ws) []

/-- The fetches of a run's slots of this work have begun (R84). -/
def State.markBegun (s : State) (work : Work) (run : Run) : State :=
  { s with pool := { s.pool with
      slots := s.pool.slots.map (fun x =>
        if x.unbegun && x.work == some work && run.lsns.any (fun l => x.lsn == some l) then
          { x with fetchBegun := true }
        else x) } }

/-- A work's fetch run is formed and its FETCH begins (R84). -/
def State.takeFetch (s : State) (work : Work) : State :=
  match s.dm.firstRun (s.unbegunLsns work) with
  | none => s
  | some run => (s.markBegun work run).startReading .fetch work run

/-! ### Urgent fetches (R111, R112) -/

/-- The remaining time by which a READ is urgent: 0 for a LATE READ, and at least 1 for one whose
deadline has not expired; a deadline that has reached 0 has expired (R111, R158; log 31). -/
def Request.urgency (r : Request) (window : Nat) : Option Nat :=
  if r.late then some 0
  else
    match r.deadline with
    | some n => if 1 ≤ n ∧ n ≤ window then some n else none
    | none => none

/-- An urgent fetch: its work, its urgency, its urgent READ and its urgent channel (R111). -/
structure UrgentFetch where
  work : Work
  remaining : Nat
  reader : Nat
  ch : Channel
deriving DecidableEq, Repr

/-- The order of keys compared place by place. -/
def lexLt : List Nat → List Nat → Bool
  | [], _ => false
  | _ :: _, [] => false
  | x :: xs, y :: ys => decide (x < y) || (x == y && lexLt xs ys)

/-- The element of a list whose key is least, the earlier one winning a tie. -/
def leastBy {α : Type} (key : α → List Nat) : List α → Option α
  | [] => none
  | x :: xs =>
    match leastBy key xs with
    | none => some x
    | some y => if lexLt (key y) (key x) then some y else some x

/-- One READ on the binding list of a work's slot, when it is urgent (R111). -/
def State.urgentReader (s : State) (work : Work) (b : Binding) : Option UrgentFetch :=
  match s.findReq b.ch b.id with
  | none => none
  | some r =>
    (r.urgency s.policy.urgencyWindow).map
      (fun n => { work := work, remaining := n, reader := b.id, ch := b.ch })

/-- A fetch work with its urgency, when it is urgent; the READ accepted first gives the urgent
channel (R111). -/
def State.urgentFetch (s : State) (work : Work) : Option UrgentFetch :=
  leastBy (fun u => [u.remaining, u.reader])
    (((s.pool.slots.filter (fun x => x.unbegun && x.work == some work)).map
      (fun x => x.bindings)).flatten.filterMap (s.urgentReader work))

/-- The key by which urgent fetches are ranked: urgency, the channel that the urgent marker names
last, the urgent READ's acceptance, the work's own (R112). -/
def UrgentFetch.rank (marker : Channel) (u : UrgentFetch) : List Nat :=
  [u.remaining, bitOf (u.ch == marker), u.reader, u.work.id?.getD 0]

/-- The urgent fetch that R112 selects. -/
def State.selectUrgent (s : State) : Option UrgentFetch :=
  leastBy (UrgentFetch.rank s.sched.urgentMarker) (s.fetchWorks.filterMap s.urgentFetch)

/-- The open run's insertion count rises and the urgent marker takes a channel (R110, R112). -/
def Scheduler.countUrgent (d : Scheduler) (c : Channel) : Scheduler :=
  { d with
    openRun := d.openRun.map (fun r => { r with insertions := r.insertions + 1 })
    urgentMarker := c }

/-- An urgent fetch is taken: the open run's insertion count rises, the urgent marker is set
(R109 item 2, R112). -/
def State.takeUrgent (s : State) (u : UrgentFetch) : State :=
  { s with sched := s.sched.countUrgent u.ch }.takeFetch u.work

/-! ### Carried-through work (R114) -/

/-- Work of a discarded request with a follow-up run ready: the run's number in the order formed,
the work and the run. -/
def State.carriedRun (s : State) (w : WriteWork) : Option (Nat × WriteWork × Run) :=
  if w.owner.isNone && w.kind != .rescue then
    match w.followUps with
    | [] => none
    | r :: _ => (s.nextRun w).map (fun run => (r.serial, w, run))
  else none

/-- The earliest carried-through follow-up run (R109 item 4). -/
def State.selectCarried (s : State) : Option (Nat × WriteWork × Run) :=
  leastBy (fun t => [t.1]) (s.works.filterMap s.carriedRun)

/-! ### Normal work (R113) -/

/-- An operation that a request offers as normal work. -/
inductive Offered
  | fetch (work : Work)
  | run (w : WriteWork) (run : Run)
  | writeback
deriving DecidableEq, Repr

/-- The ready run of write work, offered. -/
def State.offeredRun (s : State) (id : Nat) : Option Offered :=
  match s.findWork id with
  | none => none
  | some w => (s.nextRun w).map (fun run => .run w run)

/-- What a request offers, when it has an operation ready (R108). -/
def State.offered (s : State) (c : Channel) (r : Request) : Option Offered :=
  match r.kind with
  | .read => if s.fetchReady (.read c r.id) then some (.fetch (.read c r.id)) else none
  | .write => s.offeredRun r.id
  | .reassign =>
    if s.fetchReady (.reassign r.id) then some (.fetch (.reassign r.id)) else s.offeredRun r.id
  | .flushMap => if s.dm.dirty && !s.writebackInFlight then some .writeback else none
  | _ => none

/-- The operation of a channel's earliest request that has one ready (R113 item 2). -/
def State.channelWork (s : State) (c : Channel) : Option Offered :=
  (s.reqs c).findSome? (s.offered c)

/-- The channel that goes first where both may: the one a marker does not name (R113, R118). -/
def chooseChannel (marker : Channel) (a b : Bool) : Option Channel :=
  if a && b then some marker.other
  else if a then some .A
  else if b then some .B
  else none

/-- An offered operation is handed to the engine. -/
def State.takeOffered (s : State) : Offered → State
  | .fetch work => s.takeFetch work
  | .run w run => s.takeWorkRun w run
  | .writeback => s.takeWriteback

/-- The normal work that R113 selects, with its channel. -/
def State.selectNormal (s : State) : Option (Channel × Offered) :=
  match chooseChannel s.sched.normalMarker (s.channelWork .A).isSome (s.channelWork .B).isSome with
  | none => none
  | some c => (s.channelWork c).map (fun o => (c, o))

def State.takeNormal (s : State) (c : Channel) (o : Offered) : State :=
  { s with sched := { s.sched with normalMarker := c } }.takeOffered o

/-! ### Rescue (R115) -/

/-- Rescue work for one LSN (R46). -/
def rescueWork (id lsn : Nat) : WriteWork :=
  { id := id, kind := .rescue, owner := none, phase := .dataStep,
    sectors := [{ lsn := lsn, slot := none, result := none, covered := false, dropped := false,
                  spares := 0 }],
    followUps := [], worstLoad := none, fetchLoad := none, reassigned := false,
    abortMark := false, eraseOnly := false }

/-- With no rescue in progress, the list's head becomes it in READY (R46, R115). -/
def State.beginRescue (s : State) : State :=
  if s.rescue.isSome || s.ctl.state != .ready then s
  else
    match s.dm.rescueList with
    | [] => s
    | e :: es =>
      { s with
        dm := { s.dm with rescueList := es }
        works := s.works ++ [rescueWork s.nextId e.1]
        nextId := s.nextId + 1 }

/-- The rescue in progress takes its data step when that can be taken now (R75). -/
def State.examineRescue (s : State) : State :=
  match s.rescue with
  | none => s
  | some w => s.rescueDataStep w

/-- The rescue's ready operation (R115). -/
def State.rescueOffered (s : State) : Option Offered :=
  match s.rescue with
  | none => none
  | some w =>
    if s.fetchReady (.rescue w.id) then some (.fetch (.rescue w.id))
    else (s.nextRun w).map (fun run => .run w run)

/-! ### Read-ahead (R117, R118) -/

/-- A channel's read-ahead is ready (R118). -/
def State.readAheadReady (s : State) (c : Channel) : Bool :=
  s.ctl.state == .ready && s.pool.slotWait.isEmpty && decide (0 < s.freeCount) &&
    (match s.sched.readAhead.get c with
     | none => false
     | some r => decide (r.next < r.windowEnd))

/-- The candidates of a read-ahead record (R118 item 1). -/
def State.readAheadCandidates (s : State) (r : ReadAhead) : List Nat :=
  (((List.range (r.windowEnd - r.next)).map (· + r.next)).filter
    (fun l => (s.currentSlot l).isNone)).take s.freeCount

/-- A FREE slot is taken for one LSN of a read-ahead run that has no current slot, its fetch begun
(R78, R118 items 1 and 3). -/
def State.takeReadAheadSlot (s : State) (c : Channel) (lsn : Nat) : State :=
  match s.currentSlot lsn, s.firstFree with
  | none, some i =>
    (s.claimSlot i lsn .fetching (.readAhead c) .internal none).updSlot i
      (fun x => { x with fetchBegun := true })
  | _, _ => s

/-- A read-ahead run is handed to the engine (R118 items 3 to 5). -/
def State.takeReadAhead (s : State) (c : Channel) (r : ReadAhead) (run : Run) : State :=
  let t := run.lsns.foldl (fun s l => s.takeReadAheadSlot c l) s
  let u := t.setReadAhead c (some { r with next := run.lsns.getLastD r.next + 1 })
  { u with sched := { u.sched with prefetchMarker := c } }.startReading .fetch (.readAhead c) run

/-- Read-ahead of one channel (R118); the flag says that an operation was taken. -/
def State.tryReadAhead (s : State) (c : Channel) : State × Bool :=
  match s.sched.readAhead.get c with
  | none => (s, false)
  | some r =>
    match s.dm.firstRun (s.readAheadCandidates r) with
    | none => (s.setReadAhead c (some { r with next := r.windowEnd }), false)
    | some run => (s.takeReadAhead c r run, true)

/-- Item 8 of R109: the channel chosen by the prefetch marker, then, when it had no candidate, the
other one (R118). -/
def State.chooseReadAhead (s : State) : State :=
  match chooseChannel s.sched.prefetchMarker (s.readAheadReady .A) (s.readAheadReady .B) with
  | none => s
  | some c =>
    let t := s.tryReadAhead c
    if t.2 then t.1
    else if t.1.readAheadReady c.other then (t.1.tryReadAhead c.other).1
    else t.1

/-! ### The order of choice (R107, R109) -/

/-- A writeback is due, or the unmount writeback has been asked for (R109 item 7). -/
def State.writebackWanted (s : State) : Bool :=
  !s.writebackInFlight && (s.dm.writebackDue s.ctl.readOnly || s.ctl.unmountAsked)

/-- Items 7 and 8 of R109. -/
def State.chooseBackground (s : State) : State :=
  if s.writebackWanted then s.takeWriteback else s.chooseReadAhead

/-- Items 6 to 8 of R109. -/
def State.chooseRescue (s : State) : State :=
  let t := s.beginRescue.examineRescue
  match t.rescueOffered with
  | some o => t.takeOffered o
  | none => t.chooseBackground

/-- Items 4 to 8 of R109, with no run open. -/
def State.chooseWithoutRun (s : State) : State :=
  match s.selectCarried with
  | some t => s.takeWorkRun t.2.1 t.2.2
  | none =>
    match s.selectNormal with
    | some t => s.takeNormal t.1 t.2
    | none => s.chooseRescue

/-- The order of choice in READY and UNMOUNTING (R109). -/
def State.chooseInOrder (s : State) : State :=
  match s.sched.openRun, s.selectUrgent with
  | some r, some u =>
    if s.policy.insertionLimit ≤ r.insertions then s.startNextPass r else s.takeUrgent u
  | some r, none => s.startNextPass r
  | none, some u => s.takeUrgent u
  | none, none => s.chooseWithoutRun

/-- The INDEX FETCH that the mount has asked for (R89, R107). -/
def State.chooseIndex (s : State) : State :=
  match s.ctl.indexWanted with
  | none => s
  | some t =>
    (s.updCtl (fun k => { k with indexWanted := none })).startReading .indexFetch .mount (indexRun t)

/-- A choice of the Head Scheduler (R107): none while the engine is BUSY or a command is
outstanding, and none in the states without media work. -/
def State.choose (s : State) : State :=
  if s.engine.isSome || s.link.outstanding.isSome then s
  else
    match s.ctl.state with
    | .ready => s.chooseInOrder
    | .unmounting => s.chooseInOrder
    | .mounting => s.chooseIndex
    | .empty => s
    | .spinning => s
    | .ejecting => s
    | .unreadable => s
    | .faulted => s

end Sys2Proof.Machine
end

