-- ==== Sys2Proof/Machine/Link.lean ====
section
/-! DEFINITION. The Mechanism Link Controller (Chapter 7): arriving frames, failed answers, reissues,
final results and event frames. -/

namespace Sys2Proof.Machine

/-! ### Failed answers (R129, R130) -/

def State.updLink (s : State) (f : Link → Link) : State := { s with link := f s.link }

/-- The command is sent again with the same number and the same contents (R129). -/
def Link.reissue (l : Link) (c : OutstandingCommand) : Link :=
  { l with
    state := .awaitingResponse
    retryCount := some (l.retryCount.getD 0 + 1)
    linkRetries := saturate (l.linkRetries + 1)
    received := []
    remaining := some (Config.responseLimit c.command)
    sent := l.sent ++ c.frames }

/-- The outstanding command ends with no result of its own: its places are left as R4 gives, the link
returns to IDLE, and a start-up report has ended (R131, R133, R136, R138). -/
def State.endCommand (s : State) : State :=
  ((s.mediumCutOff).linkToIdle).updCtl (fun k => { k with startupReport := false })

/-- The retries have run out: SEEK FAILED to the Media Engine, or a link fault (R130). -/
def State.finalFailure (s : State) (cause : FailureCause) : State :=
  match cause with
  | .seekError => s.endCommand.engineSeekFailed
  | .timeout => s.endCommand.linkFault
  | .check => s.endCommand.linkFault
  | .badFrame => s.endCommand.linkFault

/-- A failed answer to the outstanding command (R129). -/
def State.failedAnswer (s : State) (cause : FailureCause) : State :=
  match s.link.outstanding with
  | none => s
  | some c =>
    let t := s.updLink (fun l => { l with lastFailure := some cause })
    if s.link.retryCount.getD 0 < s.policy.mechRetries then t.updLink (fun l => l.reissue c)
    else t.finalFailure cause

/-! ### RESPONSE frames (R126, R127, R131–R133) -/

def LinkCommand.isSector : LinkCommand → Bool
  | .readSectors _ _ => true
  | .eraseSectors _ _ => true
  | .recordSectors _ _ => true
  | .spinUp => false
  | .eject => false
  | .reportState => false

def LinkCommand.isWrite : LinkCommand → Bool
  | .eraseSectors _ _ => true
  | .recordSectors _ _ => true
  | .readSectors _ _ => false
  | .spinUp => false
  | .eject => false
  | .reportState => false

/-- The table of accepted answers (R127). -/
def LinkCommand.accepts (c : LinkCommand) : Answer → Bool
  | .done _ => true
  | .refused .badFrame => true
  | .refused .noMedia => c != .reportState
  | .refused .writeProtected => c.isWrite
  | .refused .seekError => c.isSector

/-- A command ended DONE: its result goes to its sender in the step of the return to IDLE (R133). -/
def State.commandDone (s : State) (c : OutstandingCommand) (rec : StateRecord) : State :=
  let startup := s.ctl.startupReport && c.command == .reportState
  let t := s.linkToIdle
  match c.sender with
  | .mediaEngine => t.engineDone c.command s.link.received
  | .cartridgeController =>
    (if startup then t.updCtl (fun k => { k with startupReport := false }) else t).controllerDone
      c.command rec startup

/-- An accepted answer is acted on (R127). -/
def State.acceptAnswer (s : State) (c : OutstandingCommand) : Answer → State
  | .done rec => s.commandDone c rec
  | .refused .noMedia => s.endCommand.removal
  | .refused .writeProtected => s.linkToIdle.engineRefused
  | .refused .seekError => s.failedAnswer .seekError
  | .refused .badFrame => s.failedAnswer .badFrame

/-- A RESPONSE frame arrives with a matching check (R126, R127). The number alone tells whose answer
it is, so also for a late frame of a command that EXTERNAL_RESET forgot (R122; log 43). -/
def State.responseTaken (s : State) (number : Byte) (a : Answer) : State :=
  match s.link.outstanding with
  | none => s
  | some c =>
    if c.number ≠ number then s
    else if c.command.accepts a then s.acceptAnswer c a
    else s.failedAnswer .check

/-! ### DATA frames and damaged frames (R126) -/

/-- A DATA frame's sector is well placed in a READ SECTORS (R126). -/
def wellPlaced (sectors : List Nat) (received : List (Nat × SectorFrame)) (sector : Nat) : Bool :=
  sectors.contains sector && received.all (fun e => decide (e.1 < sector))

/-- A DATA frame arrives with a matching check (R126). Its data is kept as the canonical buffer of
the bytes it gives. -/
def State.dataFrameTaken (s : State) (number : Byte) (sector : Nat) (f : SectorFrame) : State :=
  match s.link.outstanding with
  | none => s
  | some c =>
    if c.number ≠ number then s
    else
      match c.command with
      | .readSectors _ sectors =>
        if wellPlaced sectors s.link.received sector then
          s.updLink (fun l =>
            { l with
              received := l.received ++ [(sector, { f with data := Memory.canonical f.data })] })
        else s.failedAnswer .check
      | _ => s.failedAnswer .check

/-- A frame arrives whose link check fails: a damaged answer while a command is outstanding
(R126). -/
def State.damagedTaken (s : State) : State :=
  match s.link.state with
  | .awaitingResponse => s.failedAnswer .check
  | .idle => s
  | .retrying => s

/-- The outstanding command times out (R125). -/
def State.commandTimesOut (s : State) : State :=
  match s.link.state, s.link.remaining with
  | .awaitingResponse, some 0 => s.failedAnswer .timeout
  | _, _ => s

/-! ### Event frames (R134–R136) -/

/-- An EVENT frame: it is acknowledged, and acted on when its number is new (R134). -/
def State.eventTaken (s : State) (number : Byte) (act : State → State) : State :=
  let t := s.updLink (fun l => { l with sent := l.sent ++ [.eventAck number] })
  if s.link.lastEvent = some number then t
  else act (t.updLink (fun l => { l with lastEvent := some number }))

/-- An event that cancels the outstanding command, if there is one (R136). -/
def State.cancelCommand (s : State) : State :=
  match s.link.outstanding with
  | none => s
  | some _ => s.endCommand

end Sys2Proof.Machine
end

