-- ==== Sys2Proof/Machine/Finish.lean ====
section
/-! DEFINITION. What ends every step: the READs follow their sectors, the read-ahead moments are
taken, an answered unmount goes on to its eject, completions and notices are posted, and the data
idle limit is set again. -/

namespace Sys2Proof.Machine

/-- The current transfer is the one that was current, with as many bytes moved (R181). -/
def sameTransfer : Option Transfer → Transfer → Bool
  | none, _ => false
  | some u, t => u.request == t.request && u.moved == t.moved

/-- A data idle limit as a running count; 0 is off (R181). -/
def idleCount (limit : Nat) : Option Nat := if limit = 0 then none else some limit

/-- Idle remaining is set to the limit when a transfer becomes current, a byte of it moves, or DATA
READY goes from false to true; it is absent without a transfer (R181). -/
def State.refreshIdle (old new : State) (c : Channel) : State :=
  match new.currentTransfer c with
  | none => new.updPort c (fun p => { p with idle := none })
  | some t =>
    if sameTransfer (old.currentTransfer c) t && (old.dataReady c || !new.dataReady c) then new
    else new.updPort c (fun p => { p with idle := idleCount p.settings.idleLimit })

/-- The end of a step that began in `old` and has come to `new`. -/
def State.finish (old new : State) : State :=
  let t := new.settleReads.readAheadMoments.ejectWhenAnswered.flush
  State.refreshIdle old (State.refreshIdle old t .A) .B

end Sys2Proof.Machine
end

