-- ==== Sys2Proof/Machine/Operands.lean ====
section
/-! DEFINITION. Operand forms: request blocks and their parameters, the form check (check 2 of
R154), and the clamped values of SET POLICY and SET CHANNEL. -/

namespace Sys2Proof.Machine

/-- A complete request block: kind code, tag and parameter bytes, the declared length being the
number of parameter bytes (R177, 11.6). -/
structure RequestBlock where
  kind : Byte
  tag : Byte
  params : List Byte
deriving DecidableEq, Repr

/-- The block that received bytes make up, once 3 + the declared length of them have arrived
(R177). -/
def RequestBlock.ofBytes : List Byte → Option RequestBlock
  | k :: n :: t :: ps =>
    if ps.length = n.toNat then some { kind := k, tag := t, params := ps } else none
  | _ => none

/-- The bytes of a block as they are written to REQUEST (11.6). -/
def RequestBlock.bytes (b : RequestBlock) : List Byte :=
  b.kind :: BitVec.ofNat 8 b.params.length :: b.tag :: b.params

/-- A parameter of n bytes at a place, most significant byte first (11.6). -/
def RequestBlock.field (b : RequestBlock) (at_ n : Nat) : Nat :=
  valueOf ((b.params.drop at_).take n)

/-- Start LSN, for the kinds that carry one (11.6). -/
def RequestBlock.lsn (b : RequestBlock) : Nat := b.field 0 3

/-- Count of a READ or WRITE (11.6). -/
def RequestBlock.count (b : RequestBlock) : Nat := b.field 3 1

/-- Deadline of a READ in ms, 0 for none (11.6). -/
def RequestBlock.deadline (b : RequestBlock) : Nat := b.field 4 2

/-- Flags of a READ (11.6). -/
def RequestBlock.readFlags (b : RequestBlock) : Nat := b.field 6 1

/-- Count of a RESERVE (11.6). -/
def RequestBlock.reserveCount (b : RequestBlock) : Nat := b.field 3 3

/-- Mode code of a RESERVE (11.6). -/
def RequestBlock.reserveMode (b : RequestBlock) : Nat := b.field 6 1

/-- The one-byte parameter of RELEASE (id), STATUS (clear flag), REPORT MAP (band) and ABORT (tag)
(11.6). -/
def RequestBlock.byteParam (b : RequestBlock) : Nat := b.field 0 1

/-- The mode a mode code names (11.6). -/
def ReserveMode.ofCode (n : Nat) : Option ReserveMode :=
  if n = 1 then some .shared else if n = 2 then some .exclusive else none

/-- A mode, flags, clear-flag or count value that 11.6 and R154 do not allow. -/
def RequestBlock.badValue (b : RequestBlock) : RequestKind → Bool
  | .read => !(decide (1 ≤ b.count) && decide (b.count ≤ 16)) || decide (1 < b.readFlags)
  | .write => !(decide (1 ≤ b.count) && decide (b.count ≤ 16))
  | .reserve => b.reserveCount == 0 || (ReserveMode.ofCode b.reserveMode).isNone
  | .status => decide (1 < b.byteParam)
  | .reassign => false
  | .release => false
  | .flushMap => false
  | .eject => false
  | .mount => false
  | .reportMap => false
  | .setPolicy => false
  | .setChannel => false
  | .abort => false

/-- Check 2 of R154: the block is MALFORMED. -/
def RequestBlock.malformed (b : RequestBlock) (k : RequestKind) : Bool :=
  b.params.length != k.paramLength || b.tag == 0 || b.badValue k

/-- The seven policy values of a SET POLICY, clamped, the verify limit first (R184). -/
def RequestBlock.policy (b : RequestBlock) : Policy :=
  let v := clamp 0 6 (b.field 0 1)
  { verifyLimit := v
    rescueThreshold := clamp (max 2 (v + 1)) 7 (b.field 1 1)
    readRetries := clamp 0 7 (b.field 2 1)
    mechRetries := clamp 0 3 (b.field 3 1)
    insertionLimit := clamp 0 8 (b.field 4 1)
    urgencyWindow := clamp 0 1000 (b.field 5 2)
    settleDelay := clamp 0 10000 (b.field 7 2) }

/-- The four settings of a SET CHANNEL, clamped (R185); enable bits other than 0 and 1 are ignored
(11.6). -/
def RequestBlock.settings (b : RequestBlock) : Settings :=
  { queueDepth := clamp 1 12 (b.field 0 1)
    idleLimit := clamp 0 10000 (b.field 1 2)
    readAheadWindow := clamp 0 16 (b.field 3 1)
    completionEnable := (b.field 4 1).testBit 0
    dataEnable := (b.field 4 1).testBit 1 }

/-! ### The blocks that the request commands stand for (log 4) -/

def readBlock (tag : Byte) (lsn : BitVec 24) (count : Byte) (deadline : BitVec 16) (flags : Byte) :
    RequestBlock :=
  { kind := RequestKind.code .read, tag := tag,
    params := bytesOf 3 lsn.toNat ++ [count] ++ bytesOf 2 deadline.toNat ++ [flags] }

def writeBlock (tag : Byte) (lsn : BitVec 24) (count : Byte) : RequestBlock :=
  { kind := RequestKind.code .write, tag := tag, params := bytesOf 3 lsn.toNat ++ [count] }

def reassignBlock (tag : Byte) (lsn : BitVec 24) : RequestBlock :=
  { kind := RequestKind.code .reassign, tag := tag, params := bytesOf 3 lsn.toNat }

def reserveBlock (tag : Byte) (lsn count : BitVec 24) (mode : Byte) : RequestBlock :=
  { kind := RequestKind.code .reserve, tag := tag,
    params := bytesOf 3 lsn.toNat ++ bytesOf 3 count.toNat ++ [mode] }

def releaseBlock (tag id : Byte) : RequestBlock :=
  { kind := RequestKind.code .release, tag := tag, params := [id] }

/-- A block without parameters: FLUSH MAP, EJECT or MOUNT. -/
def bareBlock (k : RequestKind) (tag : Byte) : RequestBlock :=
  { kind := k.code, tag := tag, params := [] }

def statusBlock (tag clear : Byte) : RequestBlock :=
  { kind := RequestKind.code .status, tag := tag, params := [clear] }

def reportMapBlock (tag band : Byte) : RequestBlock :=
  { kind := RequestKind.code .reportMap, tag := tag, params := [band] }

def setPolicyBlock (tag verifyLimit rescueThreshold readRetries mechRetries insertionLimit : Byte)
    (urgencyWindow settleDelay : BitVec 16) : RequestBlock :=
  { kind := RequestKind.code .setPolicy, tag := tag,
    params := [verifyLimit, rescueThreshold, readRetries, mechRetries, insertionLimit] ++
      bytesOf 2 urgencyWindow.toNat ++ bytesOf 2 settleDelay.toNat }

def setChannelBlock (tag queueDepth : Byte) (idleLimit : BitVec 16)
    (readAheadWindow enables : Byte) : RequestBlock :=
  { kind := RequestKind.code .setChannel, tag := tag,
    params := [queueDepth] ++ bytesOf 2 idleLimit.toNat ++ [readAheadWindow, enables] }

def abortBlock (tag target : Byte) : RequestBlock :=
  { kind := RequestKind.code .abort, tag := tag, params := [target] }

end Sys2Proof.Machine
end

