-- ==== Sys2Proof/Machine/Intake.lean ====
section
/-! DEFINITION. The Request Unit's intake (Chapters 9 and 10): the checks, the reservation table, the
records of STATUS and REPORT MAP, and what each accepted kind does. -/

namespace Sys2Proof.Machine

/-! ### The reservation table (R169–R172) -/

/-- A range of LSNs overlaps an entry (R169). -/
def Reservation.overlaps (e : Reservation) (lsn n : Nat) : Bool :=
  decide (lsn < e.first + e.count) && decide (e.first < lsn + n)

/-- Some entry of the other channel overlaps a range (R170). -/
def State.otherOverlaps (s : State) (c : Channel) (lsn n : Nat) : Bool :=
  s.reservations.any (fun e => e.owner == c.other && e.overlaps lsn n)

/-- Some EXCLUSIVE entry of the other channel overlaps a range (R170). -/
def State.otherExclusive (s : State) (c : Channel) (lsn n : Nat) : Bool :=
  s.reservations.any (fun e =>
    e.owner == c.other && e.mode == .exclusive && e.overlaps lsn n)

/-- The clamped count of a RESERVE (R30, R171). -/
def State.reserveCount (s : State) (b : RequestBlock) : Nat :=
  min b.reserveCount (s.dm.capacity - b.lsn)

/-- Check 8: the block is refused RESERVED (R170, R171). -/
def State.reservationConflict (s : State) (c : Channel) (b : RequestBlock) : RequestKind → Bool
  | .write => s.otherOverlaps c b.lsn b.count
  | .reassign => s.otherOverlaps c b.lsn 1
  | .read => s.otherExclusive c b.lsn b.count
  | .reserve =>
    if b.reserveMode = 2 then s.otherOverlaps c b.lsn (s.reserveCount b)
    else s.otherExclusive c b.lsn (s.reserveCount b)
  | .eject => s.reservations.any (fun e => e.owner == c.other)
  | _ => false

/-- The lowest id from 1 upward that no entry holds (R169, R171). -/
def freeReservationId (es : List Reservation) : Option Nat :=
  ((List.range Config.reservationEntries).map (· + 1)).find?
    (fun i => !es.any (fun e => e.id == i))

/-- An entry put where ascending id places it (R169). -/
def insertReservation (e : Reservation) : List Reservation → List Reservation
  | [] => [e]
  | x :: xs => if e.id ≤ x.id then e :: x :: xs else x :: insertReservation e xs

/-! ### Checks (R154, R155) -/

/-- Check 5: the cartridge state admits the kind (R155). -/
def State.admits (s : State) (c : Channel) : RequestKind → Bool
  | .eject =>
    match s.ctl.state with
    | .ready => true
    | .unreadable => true
    | .unmounting => !s.ctl.ejectRequesters.any (fun e => e.1 == c)
    | .faulted => !s.ctl.ejectRequesters.any (fun e => e.1 == c)
    | _ => false
  | .mount => s.ctl.state == .unreadable || s.ctl.state == .faulted
  | k => if k.needsReady then s.ctl.state == .ready else true

/-- Check 6: the range check passes (R29, R30). -/
def State.rangePasses (s : State) (b : RequestBlock) : RequestKind → Bool
  | .read => s.dm.rangeValid b.lsn b.count
  | .write => s.dm.rangeValid b.lsn b.count
  | .reassign => decide (b.lsn < s.dm.capacity)
  | .reserve => decide (b.lsn < s.dm.capacity)
  | .reportMap => decide (b.byteParam < s.dm.bands.length)
  | _ => true

/-- The kinds that check 7 refuses while the read-only flag is set (R154). -/
def RequestKind.writesMedium : RequestKind → Bool
  | .write => true
  | .reassign => true
  | .flushMap => true
  | _ => false

/-- The refusal status of the first check that fails, from check 2 on (R154). -/
def State.refusalOf (s : State) (c : Channel) (b : RequestBlock) (k : RequestKind) :
    Option Status :=
  if b.malformed k then some .malformed
  else if (s.reqByTag c b.tag).isSome then some .duplicateTag
  else if (s.port c).settings.queueDepth ≤ (s.reqs c).length then some .queueFull
  else if !s.admits c k then some (if s.ctl.state == .empty then .noCartridge else .notReady)
  else if !s.rangePasses b k then some .outOfRange
  else if k.writesMedium && s.ctl.readOnly != .none then some .writeProtected
  else if s.reservationConflict c b k then some .reserved
  else none

/-! ### Records (11.6) -/

def Policy.bytes (p : Policy) : List Byte :=
  bytesOf 1 p.verifyLimit ++ bytesOf 1 p.rescueThreshold ++ bytesOf 1 p.readRetries ++
    bytesOf 1 p.mechRetries ++ bytesOf 1 p.insertionLimit ++ bytesOf 2 p.urgencyWindow ++
    bytesOf 2 p.settleDelay

def Settings.bytes (p : Settings) : List Byte :=
  bytesOf 1 p.queueDepth ++ bytesOf 2 p.idleLimit ++ bytesOf 1 p.readAheadWindow ++
    bytesOf 1 (bitOf p.completionEnable + 2 * bitOf p.dataEnable)

def Counters.bytes (k : Counters) : List Byte :=
  bytesOf 2 k.completed ++ bytesOf 2 k.sectorsRead ++ bytesOf 2 k.sectorsWritten ++
    bytesOf 2 k.corrected ++ bytesOf 2 k.expired ++ bytesOf 2 k.late

/-- The STATUS record, 53 bytes (R161, 11.6). -/
def State.statusRecord (s : State) (c : Channel) : List Byte :=
  [s.ctl.state.code, s.ctl.readOnly.code] ++ bytesOf 1 (bitOf s.ctl.writeProtect) ++
    bytesOf 1 (bitOf s.dm.dirty) ++ bytesOf 3 s.dm.capacity ++ bytesOf 1 s.dm.bands.length ++
    bytesOf 2 s.dm.totalFreeSpares ++ bytesOf 2 s.dm.slips.length ++
    bytesOf 2 s.dm.replacement.length ++ bytesOf 4 s.dm.generation.toNat ++
    bytesOf 1 s.dm.rescueList.length ++ s.policy.bytes ++ (s.port c).settings.bytes ++
    (s.port c).counters.bytes ++ bytesOf 2 s.dm.reassignments ++ bytesOf 2 s.dm.rescuesDone ++
    bytesOf 2 s.dm.rescuesDropped ++ bytesOf 2 s.link.linkRetries

/-- The REPORT MAP record of band b, 22 + 8 × E bytes (R36, R161, 11.6). -/
def State.mapRecord (s : State) (b : Nat) : List Byte :=
  let r := s.dm.band b
  bytesOf 1 b ++ bytesOf 2 r.firstTrack ++ bytesOf 2 r.trackCount ++
    bytesOf 1 r.sectorsPerTrack ++ bytesOf 1 r.spareTracks ++ bytesOf 3 (s.dm.bandCapacity b) ++
    bytesOf 2 (s.dm.dataSlips b).length ++ bytesOf 2 (s.dm.spareSlips b).length ++
    bytesOf 2 (s.dm.movedTargets b).length ++ bytesOf 2 (s.dm.retiredSpares b).length ++
    bytesOf 2 (s.dm.freeSpares b) ++ bytesOf 2 (s.dm.entriesOf b).length ++
    ((s.dm.entriesOf b).map MapEntry.bytes).flatten

/-! ### The request record (R153) -/

/-- The LSN field: for the kinds that carry one. -/
def RequestBlock.lsnOf (b : RequestBlock) : RequestKind → Nat
  | .read => b.lsn
  | .write => b.lsn
  | .reassign => b.lsn
  | .reserve => b.lsn
  | _ => 0

/-- The count field: for the kinds that carry one; a REASSIGN covers one LSN, and a RESERVE's count
is the clamped one. -/
def State.countOf (s : State) (b : RequestBlock) : RequestKind → Nat
  | .read => b.count
  | .write => b.count
  | .reassign => 1
  | .reserve => s.reserveCount b
  | _ => 0

/-- The record of an accepted request (R153); its first state is set by what its kind does. -/
def State.newRequest (s : State) (b : RequestBlock) (k : RequestKind) : Request :=
  { id := s.nextId, tag := b.tag, kind := k, lsn := b.lsnOf k, count := s.countOf b k,
    sequential := k == .read && b.readFlags == 1,
    deadline := if k == .read && b.deadline != 0 then some b.deadline else none,
    state := .queued, sectorsDone := 0, worstLoad := none, firstFailing := none, result := none,
    late := false, corrected := false, rescueQueued := false, reassigned := false, short := false,
    abortMark := false, reservationId := none, started := false,
    sectors := if k == .read then List.replicate b.count { st := .waiting, load := none } else [],
    readAheadPassed := false, served := false }

/-- The record is made and joins the channel's list (R153). -/
def State.addRequest (s : State) (c : Channel) (b : RequestBlock) (k : RequestKind) : State :=
  { s with
    requests := s.requests.modify c (fun rs => rs ++ [s.newRequest b k])
    nextId := s.nextId + 1 }

/-! ### What each kind does at acceptance (R156) -/

/-- READ: its sectors bind; without SEQUENTIAL the channel's read-ahead is cancelled (R63, R117). -/
def State.acceptRead (s : State) (c : Channel) (id : Nat) (b : RequestBlock) : State :=
  ((if b.readFlags = 1 then s else s.cancelReadAhead c).serveRead c id).1

/-- Write work for n LSNs from one on (R68). -/
def newWork (id : Nat) (c : Channel) (k : WorkKind) (lsn n : Nat) : WriteWork :=
  { id := id, kind := k, owner := some c, phase := .overlapWait,
    sectors := (List.range n).map (fun i =>
      { lsn := lsn + i, slot := none, result := none, covered := false, dropped := false,
        spares := 0 }),
    followUps := [], worstLoad := none, fetchLoad := none, reassigned := false,
    abortMark := false, eraseOnly := false }

/-- WRITE and REASSIGN: covered rescue-list entries leave; the overlap test; the slots (R45, R68,
R69, R74). -/
def State.acceptWork (s : State) (c : Channel) (id : Nat) (k : WorkKind) (lsn n : Nat) : State :=
  { s with dm := s.dm.uncover lsn n }.startWork (newWork id c k lsn n)

/-- RESERVE (R171). -/
def State.acceptReserve (s : State) (c : Channel) (id : Nat) (b : RequestBlock) : State :=
  match freeReservationId s.reservations with
  | none => s.settleReq c id .tableFull
  | some i =>
    let mode := (ReserveMode.ofCode b.reserveMode).getD .shared
    ({ s with
        reservations := insertReservation
          { id := i, owner := c, first := b.lsn, count := s.reserveCount b, mode := mode }
          s.reservations }.updReq c id (fun r => { r with reservationId := some i })).settleReq c id
      .success

/-- The entry is this channel's, with this id (R172). -/
def Reservation.isFor (e : Reservation) (c : Channel) (id : Nat) : Bool :=
  e.id == id && e.owner == c

/-- RELEASE (R172). -/
def State.acceptRelease (s : State) (c : Channel) (id : Nat) (b : RequestBlock) : State :=
  if s.reservations.any (fun e => e.isFor c b.byteParam) then
    { s with
      reservations := s.reservations.filter (fun e => !e.isFor c b.byteParam) }.settleReq c id
        .success
  else s.settleReq c id .noSuchReservation

/-- FLUSH MAP (R54). -/
def State.acceptFlushMap (s : State) (c : Channel) (id : Nat) : State :=
  if !s.dm.dirty && !s.writebackInFlight then s.settleReq c id .success else s

/-- EJECT (R142, R149). -/
def State.acceptEject (s : State) (c : Channel) (tag : Byte) : State :=
  let t := s.updCtl (fun k => { k with ejectRequesters := k.ejectRequesters ++ [(c, tag)] })
  match t.ctl.state with
  | .ready => t.startUnmount
  | .unreadable => t.beginEject
  | .faulted =>
    if t.ctl.recovering then t.updCtl (fun k => { k with ejectPending := true }) else t.beginEject
  | _ => t

/-- MOUNT (R148, R150). -/
def State.acceptMount (s : State) (c : Channel) (tag : Byte) : State :=
  let t := s.updCtl (fun k => { k with mountRequesters := k.mountRequesters ++ [(c, tag)] })
  match t.ctl.state with
  | .unreadable => t.enterSpinning
  | .faulted =>
    if t.ctl.recovering then t
    else (t.updCtl (fun k => { k with recovering := true })).sendCommand .cartridgeController
      .reportState
  | _ => t

/-- A record's transfer joins the list, and the request is DELIVERING (R161). -/
def State.deliverRecord (s : State) (c : Channel) (id : Nat) (tag : Byte) (record : List Byte) :
    State :=
  (s.updReq c id (fun r => { r with state := .delivering })).joinTransfer c
    { request := id, tag := tag, dir := .outward, length := record.length, moved := 0,
      record := record }

/-- STATUS: with the clear flag the channel's counters are cleared after the record is built
(R161). -/
def State.acceptStatus (s : State) (c : Channel) (id : Nat) (b : RequestBlock) : State :=
  let t := s.deliverRecord c id b.tag (s.statusRecord c)
  if b.byteParam = 1 then t.updPort c (fun p => { p with counters := Counters.reset }) else t

/-- REPORT MAP (R161). -/
def State.acceptReportMap (s : State) (c : Channel) (id : Nat) (b : RequestBlock) : State :=
  s.deliverRecord c id b.tag (s.mapRecord b.byteParam)

/-- SET POLICY (R45, R50, R162, R184). -/
def State.acceptSetPolicy (s : State) (c : Channel) (id : Nat) (b : RequestBlock) : State :=
  let p := b.policy
  let d := s.dm.raiseThreshold s.policy.rescueThreshold p.rescueThreshold
  ({ s with
      policy := p
      dm := { d with settle := d.settle.shorten p.settleDelay } }.raise .policyChanged).settleReq c id
    .success

/-- The data idle limit 0 makes idle remaining absent at once (R181). -/
def Port.takeSettings (p : Port) (t : Settings) : Port :=
  { p with settings := t, idle := if t.idleLimit = 0 then none else p.idle }

/-- SET CHANNEL (R117, R162, R181, R185). -/
def State.acceptSetChannel (s : State) (c : Channel) (id : Nat) (b : RequestBlock) : State :=
  let t := s.updPort c (fun p => p.takeSettings b.settings)
  (if b.settings.readAheadWindow = 0 then t.cancelReadAhead c else t).settleReq c id .success

/-! ### ABORT (R163) -/

/-- Write work's runs are open or still due: a run of it open, a follow-up run or a spare write due
(R163). -/
def State.carriesOn (s : State) (w : WriteWork) : Bool :=
  s.runOpenFor w.name || !w.followUps.isEmpty

/-- An ABORT of a WRITE or REASSIGN (R73, R103, R163). -/
def State.abortWork (s : State) (c : Channel) (w : WriteWork) : State :=
  if s.carriesOn w then
    (((s.updWork w.id (fun w => { w with abortMark := true })).updReq c w.id
      (fun r => { r with abortMark := true })).endOpenSectors w.id (s.carriedLsns w) none)
  else
    let t := s.endOpenSectors w.id [] none
    match t.findWork w.id with
    | none => t
    | some v => t.concludeWork v (some .aborted)

/-- The entry of a request leaves both requesters lists (R152, R163). -/
def State.unlist (s : State) (c : Channel) (tag : Byte) : State :=
  s.updCtl (fun k =>
    { k with
      ejectRequesters := k.ejectRequesters.filter (fun e => e != (c, tag))
      mountRequesters := k.mountRequesters.filter (fun e => e != (c, tag)) })

/-- The effect of an ABORT on its target (R163). -/
def State.abortTarget (s : State) (c : Channel) (r : Request) : State :=
  if r.abortMark then s
  else
    match r.kind with
    | .read => s.endRead c r.id .aborted false none
    | .write | .reassign =>
      match s.findWork r.id with
      | none => s.settleReq c r.id .aborted
      | some w => s.abortWork c w
    | .eject | .mount => (s.unlist c r.tag).settleReq c r.id .aborted
    | .flushMap | .status | .reportMap => s.settleReq c r.id .aborted
    | .reserve | .release | .setPolicy | .setChannel | .abort => s

/-- The request an ABORT names, which is never the ABORT itself (R163). -/
def State.abortedRequest (s : State) (c : Channel) (id tag : Nat) : Option Request :=
  (s.reqs c).find? (fun r => r.tag.toNat == tag && r.id != id)

/-- ABORT (R163). -/
def State.acceptAbort (s : State) (c : Channel) (id : Nat) (b : RequestBlock) : State :=
  match s.abortedRequest c id b.byteParam with
  | none => s.settleReq c id .noSuchTag
  | some r => (s.abortTarget c r).settleReq c id .success

/-! ### Intake (R154, R156) -/

/-- An accepted block is handed to the blocks that act on it (R156). -/
def State.accept (s : State) (c : Channel) (b : RequestBlock) (k : RequestKind) : State :=
  let id := s.nextId
  let t := s.addRequest c b k
  match k with
  | .read => t.acceptRead c id b
  | .write => t.acceptWork c id .write b.lsn b.count
  | .reassign => t.acceptWork c id .reassign b.lsn 1
  | .reserve => t.acceptReserve c id b
  | .release => t.acceptRelease c id b
  | .flushMap => t.acceptFlushMap c id
  | .eject => t.acceptEject c b.tag
  | .mount => t.acceptMount c b.tag
  | .status => t.acceptStatus c id b
  | .reportMap => t.acceptReportMap c id b
  | .setPolicy => t.acceptSetPolicy c id b
  | .setChannel => t.acceptSetChannel c id b
  | .abort => t.acceptAbort c id b

/-- A block that fails a check: its refusal is posted at once (R154, R167). -/
def State.refuse (s : State) (c : Channel) (b : RequestBlock) (st : Status) : State :=
  s.postBlock c (refusalBlock b.kind b.tag st s.timebase)

/-- A complete block is checked, and accepted or refused (R154). -/
def State.intake (s : State) (c : Channel) (b : RequestBlock) : State :=
  match RequestKind.ofCode b.kind with
  | none => s.refuse c b .unknownRequest
  | some k =>
    match s.refusalOf c b k with
    | some st => s.refuse c b st
    | none => s.accept c b k

/-- A complete block arrives at a port (R177; log 4): ignored with OVERRUN while REQUEST SPACE is
false; else handed to the Request Unit, the partial block absent. -/
def State.takeBlock (s : State) (c : Channel) (b : RequestBlock) : State :=
  if s.requestSpace c then
    (s.updPort c (fun p => { p with partialBlock := none })).intake c b
  else s.setOverrun c

end Sys2Proof.Machine
end

