-- ==== Sys2Proof/Machine/InternalCommands.lean ====
section
/-! DEFINITION. The meanings of the 4320's own steps: notices that waited, the slot-wait list, the
overlap rule, the scheduler's choice and the end of the unmount drain (log 6). -/

namespace Sys2Proof.Machine

/-- PENDING_NOTICE_POST (R168). -/
def execPendingNoticePost (c : Channel) (s : State) : Host.Outcome State Fault Refusal :=
  .next (State.finish s (s.postPending c))

/-- The channel of the READ with an acceptance number, if it is one. -/
def State.readChannel (s : State) (id : Nat) : Option Channel :=
  if (s.reqs .A).any (fun r => r.id == id && r.kind == .read) then some .A
  else if (s.reqs .B).any (fun r => r.id == id && r.kind == .read) then some .B
  else none

/-- The sectors of a READ that wait to be bound. -/
def State.waitingSectors (s : State) (c : Channel) (id : Nat) : Nat :=
  match s.findReq c id with
  | none => 0
  | some r => (r.sectors.filter (fun x => x.st == .waiting)).length

/-- A READ's turn: its sectors bind as far as they can, and its transfer joins the list if its first
sector is now available; a turn in which a sector bound is a step taken (R77, R157, R179). -/
def State.serveWaitingRead (s : State) (c : Channel) (id : Nat) : State × Option Barred :=
  let t := s.serveRead c id
  (t.1.settleRead c id,
    if t.1.waitingSectors c id < s.waitingSectors c id then none else t.2)

/-- One waiter's step, when it can be taken; else why it cannot (R77). -/
def State.serveWaiter (s : State) (id : Nat) : State × Option Barred :=
  match s.readChannel id with
  | some c => s.serveWaitingRead c id
  | none =>
    match s.findWork id with
    | none => (s.leaveSlotWait id, none)
    | some w =>
      match w.owner.bind (fun c => s.writeBar c w.slotsNeeded) with
      | some why => (s, some why)
      | none => (s.allocate w, none)

/-- The slot-wait list is served from its head; a waiter barred for want of slots ends the pass
(R77). -/
def State.serveWaiters (s : State) : List Nat → State
  | [] => s
  | id :: ids =>
    let t := s.serveWaiter id
    if t.2 = some .slots then t.1 else t.1.serveWaiters ids

/-- SLOT_WAIT_SERVE (R77). -/
def execSlotWaitServe (s : State) : Host.Outcome State Fault Refusal :=
  .next (State.finish s (s.serveWaiters s.pool.slotWait))

/-- One piece of waiting work is examined again (R68). -/
def State.examineWaiting (s : State) (id : Nat) : State :=
  match s.findWork id with
  | none => s
  | some w =>
    if w.kind == .rescue then s.rescueDataStep w
    else if w.phase == .overlapWait && !s.heldBack w then s.allocate w
    else s

/-- OVERLAP_WAIT_RELEASE (R68): the waiting works in the order in which they were accepted. -/
def execOverlapWaitRelease (s : State) : Host.Outcome State Fault Refusal :=
  .next (State.finish s ((s.works.map (fun w => w.id)).foldl State.examineWaiting s))

/-- HEAD_SCHEDULER_CHOICE (R107, R109). -/
def execHeadSchedulerChoice (s : State) : Host.Outcome State Fault Refusal :=
  .next (State.finish s s.choose)

/-- The unmount has drained and the writeback has not been asked for (R143). -/
def State.drainEnded (s : State) : Bool :=
  s.ctl.state == .unmounting && s.ctl.unmountAnswer.isNone && !s.ctl.unmountAsked && !s.draining

/-- UNMOUNT_DRAIN_END (R143, R55). -/
def execUnmountDrainEnd (s : State) : Host.Outcome State Fault Refusal :=
  .next (State.finish s (if s.drainEnded then s.askUnmountWriteback else s))

end Sys2Proof.Machine
end

