-- ==== Sys2Proof/Machine/LinkCommands.lean ====
section
/-! DEFINITION. The meanings of the frames from the mechanism and of the command timeout
(Chapter 7). -/

namespace Sys2Proof.Machine

/-- RESPONSE (R127). -/
def execResponse (number : Byte) (answer : Answer) (s : State) :
    Host.Outcome State Fault Refusal :=
  .next (State.finish s (s.responseTaken number answer))

/-- MECH_DATA_FRAME (R126). -/
def execMechDataFrame (number : Byte) (sector : Nat) (frame : SectorFrame) (s : State) :
    Host.Outcome State Fault Refusal :=
  .next (State.finish s (s.dataFrameTaken number sector frame))

/-- DAMAGED_FRAME (R126). -/
def execDamagedFrame (s : State) : Host.Outcome State Fault Refusal :=
  .next (State.finish s s.damagedTaken)

/-- COMMAND_TIMEOUT (R125). -/
def execCommandTimeout (s : State) : Host.Outcome State Fault Refusal :=
  .next (State.finish s s.commandTimesOut)

/-- MEDIA_IN (R134, R135, R139, R151). -/
def execMediaIn (number : Byte) (writeProtected : Bool) (s : State) :
    Host.Outcome State Fault Refusal :=
  .next (State.finish s (s.eventTaken number (fun t => t.mediaInTaken writeProtected)))

/-- MEDIA_OUT (R134, R136, R146). -/
def execMediaOut (number : Byte) (s : State) : Host.Outcome State Fault Refusal :=
  .next (State.finish s (s.eventTaken number (fun t => t.cancelCommand.removal)))

/-- BUTTON (R134, R135, R145). -/
def execButton (number : Byte) (s : State) : Host.Outcome State Fault Refusal :=
  .next (State.finish s (s.eventTaken number State.buttonTaken))

/-- MECH_FAULT (R134, R136, R147). -/
def execMechFault (number : Byte) (s : State) : Host.Outcome State Fault Refusal :=
  .next (State.finish s (s.eventTaken number (fun t => t.cancelCommand.mechFaultTaken)))

end Sys2Proof.Machine
end

