-- ==== Sys2Proof/Machine/PortCommands.lean ====
section
/-! DEFINITION. The meanings of the resets and the port accesses (Chapter 11). -/

namespace Sys2Proof.Machine

/-! ### Resets (R137, R165, R176, R182) -/

/-- EXTERNAL_RESET (R137, R138): every block at its reset values, the start-up REPORT STATE sent.
The commands still to come stay in the queue (log 36). -/
def execExternalReset (s : State) : Host.Outcome State Fault Refusal :=
  .next { State.reset with pending := s.pending }

/-- A READ is discarded: it leaves its binding lists and the slot-wait list (R67, R165). -/
def State.discardRead (s : State) (r : Request) : State :=
  (s.releaseBindings r.id (r.boundSlotsFrom 0)).leaveSlotWait r.id

/-- A slot that carries discarded work has its charge become internal (R73). -/
def Slot.chargeInternal (x : Slot) (id : Nat) : Slot :=
  if x.workId == some id && x.charged != .none then
    { x with charged := .internal, chargedFor := none }
  else x

/-- Write work of a discarded request: waits and fills end, unbegun runs are dropped, and a run that
is open or due is carried through as work of no channel (R73, R103, R165). -/
def State.discardWork (s : State) (w : WriteWork) : State :=
  if s.carriesOn w then
    let t := (s.updWork w.id (fun w => { w with owner := none })).endOpenSectors w.id
      (s.carriedLsns w) none
    { t with pool := { t.pool with slots := t.pool.slots.map (fun x => x.chargeInternal w.id) } }
  else ((s.endOpenSectors w.id [] none).dropWork w.id).leaveSlotWait w.id

/-- A request is discarded by a channel reset (R165). -/
def State.discardRequest (s : State) (r : Request) : State :=
  match r.kind with
  | .read => s.discardRead r
  | .write | .reassign =>
    match s.findWork r.id with
    | none => s
    | some w => s.discardWork w
  | _ => s

/-- A channel reset (R121, R152, R165, R174, R176). -/
def State.channelReset (s : State) (c : Channel) : State :=
  let t := (((s.reqs c).foldl State.discardRequest s).cancelReadAhead c).updCtl (fun k =>
    { k with
      ejectRequesters := k.ejectRequesters.filter (fun e => e.1 != c)
      mountRequesters := k.mountRequesters.filter (fun e => e.1 != c) })
  { t with
    requests := t.requests.set c []
    reservations := t.reservations.filter (fun e => e.owner != c)
    ports := t.ports.set c Port.reset }

/-- Port control: a write to PORT STATUS (R182). -/
def State.portControl (s : State) (c : Channel) (value : Byte) : State :=
  if value.getLsbD 7 then s.channelReset c
  else if value.getLsbD 0 then s.updPort c (fun p => { p with overrun := false })
  else s

/-- CHANNEL_RESET (R182): port control with the byte written (log 9). -/
def execChannelReset (c : Channel) (value : Byte) (s : State) : Host.Outcome State Fault Refusal :=
  .next (State.finish s (s.portControl c value))

/-- CLEAR_OVERRUN (R182): port control with the byte written (log 9). -/
def execClearOverrun (c : Channel) (value : Byte) (s : State) : Host.Outcome State Fault Refusal :=
  .next (State.finish s (s.portControl c value))

/-! ### REQUEST, COMPLETION, TRANSFER (R177–R179) -/

/-- A byte written to REQUEST (R177). -/
def State.requestByte (s : State) (c : Channel) (value : Byte) : State :=
  if s.requestSpace c then
    let bytes := (s.port c).partialBlock.getD [] ++ [value]
    match RequestBlock.ofBytes bytes with
    | none => s.updPort c (fun p => { p with partialBlock := some bytes })
    | some b => (s.updPort c (fun p => { p with partialBlock := none })).intake c b
  else s.setOverrun c

/-- REGISTER_WRITE (R177–R179): writes to COMPLETION and TRANSFER are ignored with OVERRUN. -/
def execRegisterWrite (c : Channel) (loc : WriteLocation) (value : Byte) (s : State) :
    Host.Outcome State Fault Refusal :=
  .next (State.finish s
    (match loc with
     | .request => s.requestByte c value
     | .completion => s.setOverrun c
     | .transfer => s.setOverrun c))

/-- The head block's next byte is read; with its 13th the block leaves (R178). -/
def Port.readHead (p : Port) (n : Nat) : Port :=
  if n + 1 < 13 then { p with headRead := n + 1 }
  else { p with outbox := p.outbox.tail, headRead := 0 }

/-- A read of COMPLETION (R178, R168). -/
def State.readCompletion (s : State) (c : Channel) : State :=
  match (s.port c).outbox with
  | [] => (s.returnByte c 0).setOverrun c
  | b :: _ =>
    let n := (s.port c).headRead
    let t := (s.returnByte c (b.bytes.getD n 0)).updPort c (fun p => p.readHead n)
    if n + 1 < 13 then t else t.postPending c

/-- COMPLETION_READ (R178). -/
def execCompletionRead (c : Channel) (s : State) : Host.Outcome State Fault Refusal :=
  .next (State.finish s (s.readCompletion c))

/-! ### DATA (R180) -/

/-- A misused read of DATA: 0 is returned and OVERRUN set (R180). -/
def State.misusedRead (s : State) (c : Channel) : State := (s.returnByte c 0).setOverrun c

/-- The current transfer has one more byte moved, and its request's transfer has started (R180). -/
def State.countByte (s : State) (c : Channel) (t : Transfer) : State :=
  (s.updPort c (fun p =>
    { p with transfers := { t with moved := t.moved + 1 } :: p.transfers.tail })).updReq c t.request
      (fun r => { r with started := true })

/-- The content of the slot that sector k of a READ is bound to (R63). -/
def State.sectorContent (s : State) (r : Request) (k : Nat) : Memory :=
  match (r.sectors[k]?).bind ReadSector.slot? with
  | some i => (s.slotAt i).content
  | none => []

/-- The next byte of an OUT transfer (R179). -/
def State.outByte (s : State) (r : Request) (t : Transfer) : Byte :=
  if r.kind == .read then
    (s.sectorContent r (t.moved / sectorBytes)).readByte (t.moved % sectorBytes)
  else t.record.getD t.moved 0

/-- What the last byte of a sector or of a record does (R66, R157, R161). -/
def State.afterOutByte (s : State) (c : Channel) (r : Request) (t : Transfer) : State :=
  if r.kind == .read then
    if (t.moved + 1) % sectorBytes = 0 then s.takeSector c r.id (t.moved / sectorBytes) else s
  else if t.moved + 1 = t.length then s.settleReq c r.id .success
  else s

/-- A read of DATA (R180). -/
def State.readData (s : State) (c : Channel) : State :=
  match s.currentTransfer c with
  | none => s.misusedRead c
  | some t =>
    if t.dir == .outward && s.outByteReady c t then
      match s.findReq c t.request with
      | none => s.misusedRead c
      | some r =>
        ((s.returnByte c (s.outByte r t)).countByte c t).afterOutByte c r t
    else s.misusedRead c

/-- DATA_READ (R180). -/
def execDataRead (c : Channel) (s : State) : Host.Outcome State Fault Refusal :=
  .next (State.finish s (s.readData c))

/-- The slot that takes a byte of a WRITE's fill (R179). -/
def WriteWork.fillSlot (w : WriteWork) (moved : Nat) : Option Nat :=
  (w.sectors[moved / sectorBytes]?).bind (fun x => x.slot)

/-- A byte stored as the next byte of the fill; the last one completes it (R70, R179, R180). -/
def State.storeByte (s : State) (c : Channel) (w : WriteWork) (t : Transfer) (value : Byte) :
    State :=
  let u := match w.fillSlot t.moved with
    | none => s
    | some i =>
      s.updSlot i (fun x => { x with content := x.content.writeByte (t.moved % sectorBytes) value })
  let v := u.countByte c t
  if t.moved + 1 = t.length then (v.completeFill w).dropTransfer c t.request else v

/-- A write of DATA (R180). -/
def State.writeData (s : State) (c : Channel) (value : Byte) : State :=
  match s.currentTransfer c with
  | none => s.setOverrun c
  | some t =>
    if t.dir == .inward then
      match s.findWork t.request with
      | none => s.setOverrun c
      | some w => s.storeByte c w t value
    else s.setOverrun c

/-- DATA_WRITE (R180). -/
def execDataWrite (c : Channel) (value : Byte) (s : State) : Host.Outcome State Fault Refusal :=
  .next (State.finish s (s.writeData c value))

end Sys2Proof.Machine
end

