-- ==== Sys2Proof/Machine/RequestCommands.lean ====
section
/-! DEFINITION. The meanings of the request blocks (Chapters 9 and 10): each is the arrival of the
complete block at its port (log 4). -/

namespace Sys2Proof.Machine

/-- The step of a request block (R154, R156, R177). -/
def State.blockStep (s : State) (c : Channel) (b : RequestBlock) :
    Host.Outcome State Fault Refusal :=
  .next (State.finish s (s.takeBlock c b))

/-- READ (R157). -/
def execRead (c : Channel) (tag : Byte) (lsn : BitVec 24) (count : Byte) (deadline : BitVec 16)
    (flags : Byte) (s : State) : Host.Outcome State Fault Refusal :=
  s.blockStep c (readBlock tag lsn count deadline flags)

/-- WRITE (R69). -/
def execWrite (c : Channel) (tag : Byte) (lsn : BitVec 24) (count : Byte) (s : State) :
    Host.Outcome State Fault Refusal :=
  s.blockStep c (writeBlock tag lsn count)

/-- REASSIGN (R49). -/
def execReassign (c : Channel) (tag : Byte) (lsn : BitVec 24) (s : State) :
    Host.Outcome State Fault Refusal :=
  s.blockStep c (reassignBlock tag lsn)

/-- RESERVE (R171). -/
def execReserve (c : Channel) (tag : Byte) (lsn count : BitVec 24) (mode : Byte) (s : State) :
    Host.Outcome State Fault Refusal :=
  s.blockStep c (reserveBlock tag lsn count mode)

/-- RELEASE (R172). -/
def execRelease (c : Channel) (tag id : Byte) (s : State) : Host.Outcome State Fault Refusal :=
  s.blockStep c (releaseBlock tag id)

/-- FLUSH_MAP (R54). -/
def execFlushMap (c : Channel) (tag : Byte) (s : State) : Host.Outcome State Fault Refusal :=
  s.blockStep c (bareBlock .flushMap tag)

/-- EJECT (R142, R149). -/
def execEject (c : Channel) (tag : Byte) (s : State) : Host.Outcome State Fault Refusal :=
  s.blockStep c (bareBlock .eject tag)

/-- MOUNT (R148, R150). -/
def execMount (c : Channel) (tag : Byte) (s : State) : Host.Outcome State Fault Refusal :=
  s.blockStep c (bareBlock .mount tag)

/-- STATUS (R161). -/
def execStatus (c : Channel) (tag clear : Byte) (s : State) : Host.Outcome State Fault Refusal :=
  s.blockStep c (statusBlock tag clear)

/-- REPORT_MAP (R161). -/
def execReportMap (c : Channel) (tag band : Byte) (s : State) : Host.Outcome State Fault Refusal :=
  s.blockStep c (reportMapBlock tag band)

/-- SET_POLICY (R162, R184). -/
def execSetPolicy (c : Channel)
    (tag verifyLimit rescueThreshold readRetries mechRetries insertionLimit : Byte)
    (urgencyWindow settleDelay : BitVec 16) (s : State) : Host.Outcome State Fault Refusal :=
  s.blockStep c (setPolicyBlock tag verifyLimit rescueThreshold readRetries mechRetries
    insertionLimit urgencyWindow settleDelay)

/-- SET_CHANNEL (R162, R185). -/
def execSetChannel (c : Channel) (tag queueDepth : Byte) (idleLimit : BitVec 16)
    (readAheadWindow enables : Byte) (s : State) : Host.Outcome State Fault Refusal :=
  s.blockStep c (setChannelBlock tag queueDepth idleLimit readAheadWindow enables)

/-- ABORT (R163). -/
def execAbort (c : Channel) (tag target : Byte) (s : State) : Host.Outcome State Fault Refusal :=
  s.blockStep c (abortBlock tag target)

/-- UNKNOWN_REQUEST (R154 check 1): a block whose kind code is not one of the 13 kinds. -/
def execUnknownRequest (c : Channel) (kind tag : Byte) (params : List Byte) (s : State) :
    Host.Outcome State Fault Refusal :=
  s.blockStep c { kind := kind, tag := tag, params := params }

end Sys2Proof.Machine
end

