-- ==== Sys2Proof/Machine/TimeCommands.lean ====
section
/-! DEFINITION. The meanings of the Timebase's tick and of the expiries (log 7). -/

namespace Sys2Proof.Machine

/-- A remaining-time count runs down by 1 and stays at 0 (log 7). -/
def countDown (n : Option Nat) : Option Nat := n.map (· - 1)

/-- Deadlines run down while their READs are outstanding (R158). -/
def tickRequests (rs : List Request) : List Request :=
  rs.map (fun r => { r with deadline := countDown r.deadline })

/-- Idle remaining runs down while DATA READY is true (R181). -/
def State.tickPort (s : State) (c : Channel) : Port :=
  if s.dataReady c then { s.port c with idle := countDown (s.port c).idle } else s.port c

/-- Response remaining runs down while the link is AWAITING RESPONSE (R125). -/
def Link.tick (l : Link) : Link :=
  match l.state with
  | .awaitingResponse => { l with remaining := countDown l.remaining }
  | .idle => l
  | .retrying => l

/-- A tick of the Timebase: the count rises and every remaining-time count runs down
(00_scope §2). -/
def State.tick (s : State) : State :=
  { s with
    timebase := s.timebase + 1
    requests := { a := tickRequests s.requests.a, b := tickRequests s.requests.b }
    ports := { a := s.tickPort .A, b := s.tickPort .B }
    dm := { s.dm with settle := s.dm.settle.tick }
    link := s.link.tick }

/-- TIMEBASE_TICK. -/
def execTimebaseTick (s : State) : Host.Outcome State Fault Refusal :=
  .next s.tick

/-- A READ's deadline expires (R158): one not started ends EXPIRED with sectors done 0. -/
def State.expireRead (s : State) (c : Channel) (r : Request) : State :=
  if r.started then s.updReq c r.id (fun r => { r with deadline := none, late := true })
  else (s.updReq c r.id (fun r => { r with deadline := none, sectorsDone := 0 })).endRead c r.id
    .expired false none

/-- DEADLINE_EXPIRY (R158): for the request with this tag, when its deadline has reached 0. -/
def execDeadlineExpiry (c : Channel) (tag : Byte) (s : State) : Host.Outcome State Fault Refusal :=
  .next (State.finish s
    (match s.reqByTag c tag with
     | none => s
     | some r => if r.deadline = some 0 then s.expireRead c r else s))

/-- A WRITE in FILLING ends DATA TIMEOUT: its fill is abandoned (R70, R159, R181). -/
def State.timeOutFill (s : State) (id : Nat) : State :=
  let t := s.endOpenSectors id [] none
  match t.findWork id with
  | none => t
  | some w => t.concludeWork w (some .dataTimeout)

/-- The current transfer's request ends DATA TIMEOUT (R181). -/
def State.timeOutTransfer (s : State) (c : Channel) (t : Transfer) : State :=
  match s.findReq c t.request with
  | none => s
  | some r =>
    match r.kind with
    | .read => s.cutRead c r.id .dataTimeout
    | .write => s.timeOutFill r.id
    | _ => s.settleReq c r.id .dataTimeout

/-- DATA_TIMEOUT (R181): when idle remaining has reached 0. -/
def execDataTimeout (c : Channel) (s : State) : Host.Outcome State Fault Refusal :=
  .next (State.finish s
    (match s.currentTransfer c with
     | none => s
     | some t => if (s.port c).idle = some 0 then s.timeOutTransfer c t else s))

/-- SETTLE_DELAY_EXPIRY (R50): when settle remaining has run down. -/
def execSettleDelayExpiry (s : State) : Host.Outcome State Fault Refusal :=
  .next (if s.dm.settle = .running 0 then { s with dm := { s.dm with settle := .reached } } else s)

end Sys2Proof.Machine
end

