-- ==== Sys2Proof/Machine/Dispatch.lean ====
section
/-! DEFINITION. The meaning of every command, one arm per row of the opcode table. -/

namespace Sys2Proof.Machine

/-- The effect of a command on everything but the queue. -/
def exec (i : Instr) (s : State) : Host.Outcome State Fault Refusal :=
  match i with
  | .externalReset => Sys2Proof.Machine.execExternalReset s
  | .channelReset ch value => Sys2Proof.Machine.execChannelReset ch value s
  | .clearOverrun ch value => Sys2Proof.Machine.execClearOverrun ch value s
  | .registerWrite ch loc value => Sys2Proof.Machine.execRegisterWrite ch loc value s
  | .completionRead ch => Sys2Proof.Machine.execCompletionRead ch s
  | .dataRead ch => Sys2Proof.Machine.execDataRead ch s
  | .dataWrite ch value => Sys2Proof.Machine.execDataWrite ch value s
  | .read ch tag lsn count deadline flags => Sys2Proof.Machine.execRead ch tag lsn count deadline flags s
  | .write ch tag lsn count => Sys2Proof.Machine.execWrite ch tag lsn count s
  | .reassign ch tag lsn => Sys2Proof.Machine.execReassign ch tag lsn s
  | .reserve ch tag lsn count mode => Sys2Proof.Machine.execReserve ch tag lsn count mode s
  | .release ch tag id => Sys2Proof.Machine.execRelease ch tag id s
  | .flushMap ch tag => Sys2Proof.Machine.execFlushMap ch tag s
  | .eject ch tag => Sys2Proof.Machine.execEject ch tag s
  | .mount ch tag => Sys2Proof.Machine.execMount ch tag s
  | .status ch tag clear => Sys2Proof.Machine.execStatus ch tag clear s
  | .reportMap ch tag band => Sys2Proof.Machine.execReportMap ch tag band s
  | .setPolicy ch tag v r n m k u d => Sys2Proof.Machine.execSetPolicy ch tag v r n m k u d s
  | .setChannel ch tag depth limit window enables => Sys2Proof.Machine.execSetChannel ch tag depth limit window enables s
  | .abort ch tag target => Sys2Proof.Machine.execAbort ch tag target s
  | .unknownRequest ch kind tag params => Sys2Proof.Machine.execUnknownRequest ch kind tag params s
  | .pendingNoticePost ch => Sys2Proof.Machine.execPendingNoticePost ch s
  | .slotWaitServe => Sys2Proof.Machine.execSlotWaitServe s
  | .overlapWaitRelease => Sys2Proof.Machine.execOverlapWaitRelease s
  | .headSchedulerChoice => Sys2Proof.Machine.execHeadSchedulerChoice s
  | .response number answer => Sys2Proof.Machine.execResponse number answer s
  | .mechDataFrame number sector frame => Sys2Proof.Machine.execMechDataFrame number sector frame s
  | .damagedFrame => Sys2Proof.Machine.execDamagedFrame s
  | .commandTimeout => Sys2Proof.Machine.execCommandTimeout s
  | .mediaIn number wp => Sys2Proof.Machine.execMediaIn number wp s
  | .mediaOut number => Sys2Proof.Machine.execMediaOut number s
  | .button number => Sys2Proof.Machine.execButton number s
  | .mechFault number => Sys2Proof.Machine.execMechFault number s
  | .deadlineExpiry ch tag => Sys2Proof.Machine.execDeadlineExpiry ch tag s
  | .dataTimeout ch => Sys2Proof.Machine.execDataTimeout ch s
  | .settleDelayExpiry => Sys2Proof.Machine.execSettleDelayExpiry s
  | .unmountDrainEnd => Sys2Proof.Machine.execUnmountDrainEnd s
  | .timebaseTick => Sys2Proof.Machine.execTimebaseTick s

end Sys2Proof.Machine
end

