-- ==== Sys2Proof/Safety.lean ====
section
/-! DEFINITION. What a good state of the 4320 is: the laws of the device that the spec names, as
decidable tests of one state (law 2 speaks of the blocks of a whole run and is no test of a state), and
what the statements say of the requests that an event ends. -/

namespace Sys2Proof.Machine

/-- No value stands twice in a list. -/
def distinct {α : Type} [DecidableEq α] : List α → Bool
  | [] => true
  | x :: xs => decide (x ∉ xs) && distinct xs

/-- Something holds of both channels. -/
def bothChannels (p : Channel → Bool) : Bool := p .A && p .B

/-- Law 1: at most 12 outstanding requests in each channel (R154). -/
def State.law1 (s : State) : Bool := bothChannels (fun c => decide ((s.reqs c).length ≤ 12))

/-- Law 3: blocks in the outbox plus requests not yet posted are at most 16 (R167). -/
def State.law3 (s : State) : Bool :=
  bothChannels (fun c => decide ((s.port c).outbox.length + (s.reqs c).length ≤ 16))

/-- Law 4: at most one non-stale slot holds any given LSN (R59). -/
def State.law4 (s : State) : Bool :=
  distinct ((s.pool.slots.filter (fun x => !x.stale)).filterMap (fun x => x.lsn))

/-- Law 5: at most 16 slots are charged to one channel (R61). -/
def State.law5 (s : State) : Bool := bothChannels (fun c => decide (s.chargedCount c ≤ 16))

/-- Law 6: a run is open only in READY or UNMOUNTING, with an insertion count of at most 8
(R110). -/
def State.law6 (s : State) : Bool :=
  match s.sched.openRun with
  | none => true
  | some r =>
    (s.ctl.state == .ready || s.ctl.state == .unmounting) && decide (r.insertions ≤ 8)

/-- Law 7: the link holds a command exactly while it is not IDLE, with its response remaining and its
retry count (R122, R125). RETRYING lasts a moment inside a step and is never seen between steps. -/
def Link.law7 (l : Link) : Bool :=
  match l.outstanding with
  | none => l.state == .idle && l.remaining.isNone && l.retryCount.isNone && l.received.isEmpty
  | some _ => l.state == .awaitingResponse && l.remaining.isSome && l.retryCount.isSome

/-- Law 8 for one band: the MOVED targets and RETIRED spares are all different, and no MOVED target
is slipped (R38). -/
def DefectManager.law8Band (d : DefectManager) (b : Nat) : Bool :=
  distinct (d.movedTargets b ++ d.retiredSpares b) &&
    (d.movedTargets b).all (fun t => !(d.slipsOf b).contains ((d.band b).dataPositions + t))

/-- Law 8 (R38). -/
def DefectManager.law8 (d : DefectManager) : Bool :=
  (List.range d.bands.length).all d.law8Band

/-- Law 9: the rescue list holds at most 16 entries and no LSN twice (R44). -/
def DefectManager.law9 (d : DefectManager) : Bool :=
  decide (d.rescueList.length ≤ 16) && distinct (d.rescueList.map (fun e => e.1))

/-- Two entries may stand together: one owner, no overlap, or both SHARED (R169). -/
def Reservation.compatible (e f : Reservation) : Bool :=
  e.owner == f.owner || !e.overlaps f.first f.count || (e.mode == .shared && f.mode == .shared)

/-- Law 10: reservations of different channels overlap only if both are SHARED (R169). -/
def law10 (es : List Reservation) : Bool := es.all (fun e => es.all (fun f => e.compatible f))

/-- The table: at most 8 entries, ids 1 to 8, ascending (R169). -/
def tableForm (es : List Reservation) : Bool :=
  es.all (fun e => decide (1 ≤ e.id) && decide (e.id ≤ 8)) &&
    ascending (fun e f => decide (e.id < f.id)) es

/-- Law 11: the map is clean in EMPTY (R37). -/
def State.law11 (s : State) : Bool := !(s.ctl.state == .empty && s.dm.dirty)

/-- The replacement list stands as it should: law 8, and the list's order (R10, R38). -/
def DefectManager.mapForm (d : DefectManager) : Bool :=
  d.law8 && ascending (fun x y => keyLt x.key y.key) d.replacement

/-- The lists of the map stand as a VALID track 0 and track 1 give them: the bands in range and
contiguous from track 2 (R12), the slip list in order (R13), and the replacement list valid over them
(R16). -/
def DefectManager.mapSound (d : DefectManager) : Bool :=
  d.bands.all BandRecord.inRange && bandsContiguous 2 d.bands && ascending slipLt d.slips &&
    d.listValid d.replacement

/-- The directory gives each LSN one slot, has a pair for every non-stale slot with an LSN, and each
of its pairs names a non-stale slot with that LSN (R59). -/
def Pool.placed (p : Pool) : Bool :=
  distinct (p.directory.map (fun d => d.1)) &&
    p.slots.zipIdx.all (fun xi => xi.1.stale ||
      (match xi.1.lsn with
       | none => true
       | some l => p.directory.contains (l, xi.2))) &&
    p.directory.all (fun d =>
      match p.slots[d.2]? with
      | none => false
      | some x => !x.stale && x.lsn == some d.1)

/-- What goes with law 6 and law 11 in every state that a run reaches: in EMPTY no write work stands
and the map is clean; a recovery runs in FAULTED; an INDEX FETCH runs in MOUNTING; and while a command
of the Cartridge Controller is outstanding no run is open (R107, R110, R137, R140, R148). -/
def State.phased (s : State) : Bool :=
  s.law6 && s.law11 && (s.ctl.state != .empty || s.works.isEmpty) &&
    (!s.ctl.recovering || s.ctl.state == .faulted) &&
    (match s.engine with
     | none => true
     | some op => op.kind != .indexFetch || s.ctl.state == .mounting) &&
    (match s.link.outstanding with
     | none => true
     | some c => c.sender != .cartridgeController || s.sched.openRun.isNone)

/-- The policy values lie in their ranges (R184). -/
def Policy.inRange (p : Policy) : Bool :=
  decide (p.verifyLimit ≤ 6) && decide (max 2 (p.verifyLimit + 1) ≤ p.rescueThreshold) &&
    decide (p.rescueThreshold ≤ 7) && decide (p.readRetries ≤ 7) && decide (p.mechRetries ≤ 3) &&
    decide (p.insertionLimit ≤ 8) && decide (p.urgencyWindow ≤ 1000) &&
    decide (p.settleDelay ≤ 10000)

/-- The settings of a channel lie in their ranges (R185). -/
def Settings.inRange (t : Settings) : Bool :=
  decide (1 ≤ t.queueDepth) && decide (t.queueDepth ≤ 12) && decide (t.idleLimit ≤ 10000) &&
    decide (t.readAheadWindow ≤ 16)

/-- Every settings record lies in its ranges (R185). -/
def State.settingsInRange (s : State) : Bool := bothChannels (fun c => (s.port c).settings.inRange)

/-- Every slot's content is a canonical buffer. -/
def Pool.contentsWf (p : Pool) : Bool := p.slots.all (fun x => x.content.wf)

/-- Every sector frame received by the link is a canonical buffer. -/
def Link.receivedWf (l : Link) : Bool := l.received.all (fun e => e.2.data.wf)

/-- A decoder outcome's data, where it has some, is a canonical buffer. -/
def DecoderOutcome.dataWf (o : DecoderOutcome) : Bool :=
  match o.data? with
  | none => true
  | some d => d.wf

/-- The outcomes a fetch has so far carry canonical buffers. -/
def outcomesWf (xs : List FetchSector) : Bool :=
  xs.all (fun x =>
    match x.outcome with
    | none => true
    | some o => o.dataWf)

/-- The outcomes of the operation in flight carry canonical buffers. -/
def engineWf : Option Operation → Bool
  | none => true
  | some op => outcomesWf op.outcomes

/-- Every buffer of the machine is canonical: the slots' contents, the sector frames received, the
outcomes of the operation in flight, and the map staging area. -/
def State.memoryWf (s : State) : Bool :=
  s.pool.contentsWf && s.link.receivedWf && engineWf s.engine && s.dm.staging.all Memory.wf

/-- The Defect Manager's lists and counters keep their sizes: law 9, at most 1,024 replacement
entries, counters of at most 65,535 (R37, R38, R44). -/
def DefectManager.bounded (d : DefectManager) : Bool :=
  d.law9 && decide (d.replacement.length ≤ 1024) && decide (d.reassignments ≤ 65535) &&
    decide (d.rescuesDone ≤ 65535) && decide (d.rescuesDropped ≤ 65535)

/-- The pool holds 32 slots (R58). -/
def Pool.sized (p : Pool) : Bool := decide (p.slots.length = 32)

/-- The acceptance numbers of a channel's requests rise in list order and are below the next one
(R153: the list is in acceptance order). -/
def State.idsOf (s : State) (c : Channel) : Bool :=
  ascending (fun x y => decide (x < y)) ((s.reqs c).map (fun r => r.id)) &&
    (s.reqs c).all (fun r => decide (r.id < s.nextId))

/-- Acceptance numbers: ascending in each channel, below the next one, and none used twice. -/
def State.idsInOrder (s : State) : Bool :=
  bothChannels s.idsOf && distinct ((s.reqs .A ++ s.reqs .B).map (fun r => r.id))

/-- No two outstanding requests of a channel carry one tag (R154 check 3). -/
def State.tagsDistinct (s : State) : Bool :=
  bothChannels (fun c => distinct ((s.reqs c).map (fun r => r.tag)))

/-- The counters of a channel are at most 65,535 (R186). -/
def Counters.inRange (k : Counters) : Bool :=
  decide (k.completed ≤ 65535) && decide (k.sectorsRead ≤ 65535) &&
    decide (k.sectorsWritten ≤ 65535) && decide (k.corrected ≤ 65535) &&
    decide (k.expired ≤ 65535) && decide (k.late ≤ 65535)

/-- A port's record: at most 12 bytes of the head block have been read (R176), and the counters are in
range (R186). -/
def Port.formed (p : Port) : Bool := decide (p.headRead ≤ 12) && p.counters.inRange

/-- Both ports' records are formed. -/
def State.portsFormed (s : State) : Bool := bothChannels (fun c => (s.port c).formed)

/-- Pending notices stand in ascending code, each kind once (R168). -/
def noticesAscend (ns : List Notice) : Bool :=
  ascending (fun m n => decide (m.index < n.index)) ns

/-- Both ports' pending notices stand in ascending code (R168). -/
def State.noticesOrdered (s : State) : Bool :=
  bothChannels (fun c => noticesAscend (s.port c).pendingNotices)

/-- Every transfer belongs to a request accepted before now (R179). -/
def State.transfersOwned (s : State) : Bool :=
  bothChannels (fun c => (s.port c).transfers.all (fun t => decide (t.request < s.nextId)))

/-- Every piece of write work goes by a number given before now (R68). -/
def State.worksOwned (s : State) : Bool := s.works.all (fun w => decide (w.id < s.nextId))

/-- The next sector of a READ to be delivered has not failed (R157). -/
def Request.nextNotFailed (r : Request) : Bool :=
  match r.sectorState r.sectorsDone with
  | some (.failed _) => false
  | _ => true

/-- A READ's state agrees with its sectors (R157): its next sector has not failed, and it is
DELIVERING, or its first sector is not yet available and it is in SLOT WAIT with no sector bound or
else ACTIVE. -/
def State.readFollowed (s : State) (r : Request) : Bool :=
  r.nextNotFailed &&
    (r.state == .delivering || (!s.sectorAvailable r 0 &&
      r.state == (if r.noneBound then RequestState.slotWait else RequestState.active)))

/-- The read-ahead moment of a READ is not owed (R117). -/
def State.momentTaken (s : State) (r : Request) : Bool :=
  !(r.sequential && !r.readAheadPassed && s.fetchesOver r)

/-- A request as it stands between steps: it is not DONE (R167), and a READ agrees with its
sectors. -/
def State.requestQuiet (s : State) (r : Request) : Bool :=
  r.state != .done && (r.kind != .read || (s.readFollowed r && s.momentTaken r))

/-- A state as it stands between steps: no notice and no completion is still to be posted, every READ
agrees with its sectors, an answered unmount with the engine FREE has gone on to its eject, and
without a transfer idle remaining is absent (R143, R157, R167, R168, R181). -/
def State.quiet (s : State) : Bool :=
  s.raised.isEmpty && bothChannels (fun c => (s.reqs c).all s.requestQuiet) &&
    !(s.ctl.state == .unmounting && s.ctl.unmountAnswer.isSome && s.engine.isNone &&
      s.sched.openRun.isNone) &&
    bothChannels (fun c => !(s.port c).transfers.isEmpty || (s.port c).idle.isNone)

/-- The request block that a request command stands for, with its channel (log 4). -/
def requestOf : Instr → Option (Channel × RequestBlock)
  | .read ch tag lsn count deadline flags => some (ch, readBlock tag lsn count deadline flags)
  | .write ch tag lsn count => some (ch, writeBlock tag lsn count)
  | .reassign ch tag lsn => some (ch, reassignBlock tag lsn)
  | .reserve ch tag lsn count mode => some (ch, reserveBlock tag lsn count mode)
  | .release ch tag id => some (ch, releaseBlock tag id)
  | .flushMap ch tag => some (ch, bareBlock .flushMap tag)
  | .eject ch tag => some (ch, bareBlock .eject tag)
  | .mount ch tag => some (ch, bareBlock .mount tag)
  | .status ch tag clear => some (ch, statusBlock tag clear)
  | .reportMap ch tag band => some (ch, reportMapBlock tag band)
  | .setPolicy ch tag v r n m i u d => some (ch, setPolicyBlock tag v r n m i u d)
  | .setChannel ch tag q l w e => some (ch, setChannelBlock tag q l w e)
  | .abort ch tag target => some (ch, abortBlock tag target)
  | .unknownRequest ch kind tag params => some (ch, { kind := kind, tag := tag, params := params })
  | _ => none

/-- A block passes intake: REQUEST SPACE is true, its kind is one of the 13, and no check refuses it
(R154, R177). -/
def State.accepts (s : State) (c : Channel) (b : RequestBlock) : Bool :=
  s.requestSpace c &&
    (match RequestKind.ofCode b.kind with
     | none => false
     | some k => (s.refusalOf c b k).isNone)

/-- The status with which intake refuses a block, if it does (R154). -/
def State.refusalStatus (s : State) (c : Channel) (b : RequestBlock) : Option Status :=
  match RequestKind.ofCode b.kind with
  | none => some .unknownRequest
  | some k => s.refusalOf c b k

/-- A port whose partial block has gone to the Request Unit, with one block more in its outbox (R167,
R177). -/
def Port.posted1 (p : Port) (b : OutBlock) : Port :=
  { p with partialBlock := none, outbox := p.outbox ++ [b] }

/-- A port with the completion of an accepted request that delivered and wrote no sector (R167,
R186). -/
def Port.completed1 (p : Port) (b : OutBlock) : Port :=
  { p.posted1 b with
    counters := { p.counters with completed := saturate (p.counters.completed + 1) } }

/-- The completion block of a request that read and wrote nothing: every flag clear, no load, no failing
LSN (R166, 11.6). -/
def plainCompletion (tag kind status result : Byte) (time : BitVec 32) : OutBlock :=
  { tag := tag, kind := kind, status := status, flags := 0, result := result, load := 0xFF,
    lsn := 0xFFFFFF, time := time }

/-- The record of a request just accepted that waits for another block, with no LSN, count, sectors or
deadline: QUEUED (R153, R156). -/
def queuedRequest (id : Nat) (tag : Byte) (k : RequestKind) : Request :=
  { id := id, tag := tag, kind := k, lsn := 0, count := 0, sequential := false, deadline := none,
    state := .queued, sectorsDone := 0, worstLoad := none, firstFailing := none, result := none,
    late := false, corrected := false, rescueQueued := false, reassigned := false, short := false,
    abortMark := false, reservationId := none, started := false, sectors := [],
    readAheadPassed := false, served := false }

/-! ### The requests that end at a removal and at the entry to FAULTED (R146, R147, R164) -/

/-- From s to u the request has left its channel's list, and among the blocks that joined the tail of
the outbox is its completion now, with a status, of which more holds. -/
def State.endsAs (s u : State) (c : Channel) (q : Request) (status : Byte) (more : OutBlock → Prop) :
    Prop :=
  (∀ x ∈ u.reqs c, x.id ≠ q.id) ∧ ∃ bs, (u.port c).outbox = (s.port c).outbox ++ bs ∧
    ∃ b ∈ bs, b.tag = q.tag ∧ b.kind = q.kind.code ∧ b.status = status ∧ b.time = s.timebase ∧
      more b

/-- A READ ended by an event keeps sectors done; SHORT is set below its count, and the first failing LSN
is absent (R164). -/
def State.readEndsAs (s u : State) (c : Channel) (q : Request) (status : Byte) : Prop :=
  s.endsAs u c q status (fun b => b.result = BitVec.ofNat 8 q.sectorsDone ∧ b.lsn = 0xFFFFFF ∧
    b.flags.getLsbD 4 = decide (q.sectorsDone < q.count))

/-- A WRITE or REASSIGN ended by an event: sectors done is those that passed, the first failing LSN the
lowest that failed or had no result (R97, R104). -/
def State.workEndsAs (s u : State) (c : Channel) (q : Request) (w : WriteWork) (status : Byte) : Prop :=
  s.endsAs u c q status (fun b =>
    b.result = BitVec.ofNat 8 (w.sectors.filter (fun x => x.result == some .passed)).length ∧
    b.lsn = ((w.sectors.find? (fun x => match x.result with
      | some (.failed _) => true
      | some .passed => false
      | none => !x.dropped)).map (fun x => BitVec.ofNat 24 x.lsn)).getD 0xFFFFFF)

/-- A WRITE or REASSIGN whose work w has come to its end, from s to u: SUCCESS, or the status of the lowest
LSN that failed, or ABORTED with an abort mark; sectors done those that passed; that LSN; the load of its
fetch, else the worst of its verify passes (log 20), with CORRECTED from 1 on; and REASSIGNED (R97,
R159). -/
def State.workCompletes (s u : State) (c : Channel) (q : Request) (w : WriteWork) : Prop :=
  let failed := w.sectors.find? (fun x => match x.result with
    | some (.failed _) => true
    | _ => false)
  let status := if w.abortMark then Status.aborted
    else match failed.bind (fun x => x.result) with
      | some (.failed st) => st
      | _ => .success
  let load := match w.fetchLoad with
    | some n => some n
    | none => w.worstLoad
  s.endsAs u c q status.code (fun b =>
    b.result = BitVec.ofNat 8 (w.sectors.filter (fun x => x.result == some .passed)).length ∧
    b.lsn = (failed.map (fun x => BitVec.ofNat 24 x.lsn)).getD 0xFFFFFF ∧
    b.load = (load.map (BitVec.ofNat 8)).getD 0xFF ∧
    b.flags.getLsbD 1 = decide (1 ≤ load.getD 0) ∧ b.flags.getLsbD 3 = w.reassigned)

/-- A WRITE or REASSIGN that the setting of the read-only flag ends, from s to u: the status of its lowest
LSN that failed, a sector without a result failing WRITE PROTECTED, or ABORTED with an abort mark (R99,
R159). -/
def State.protectEnds (s u : State) (c : Channel) (q : Request) (w : WriteWork) : Prop :=
  w.owner = some c → w.kind ≠ .rescue → (q.kind = .write ∨ q.kind = .reassign) →
    s.workEndsAs u c q w (if w.abortMark then 0x0D
      else match w.sectors.find? (fun x => match x.result with
        | some (.failed _) => true
        | some .passed => false
        | none => !x.dropped) with
        | none => 0x00
        | some x => match x.result with
          | some (.failed st) => st.code
          | _ => 0x08)

/-- From s to u a notice has gone to both ports: posted at the outbox's tail, or pending (R168). -/
def State.notifies (s u : State) (n : Notice) : Prop :=
  ∀ c, (∃ bs, (u.port c).outbox = (s.port c).outbox ++ bs ∧ noticeBlock n s.timebase ∈ bs) ∨
    n ∈ (u.port c).pendingNotices

/-- No requesters list names the request. -/
def State.unlisted (s : State) (c : Channel) (q : Request) : Prop :=
  (c, q.tag) ∉ s.ctl.ejectRequesters ∧ (c, q.tag) ∉ s.ctl.mountRequesters

/-- A sector of the READ is not yet available: one that waits or is bound to a slot neither CLEAN nor
WRITING, none before it having failed (R63, R147; log 22). -/
def State.stillToCome (s : State) (q : Request) : Prop :=
  ∃ (k : Nat) (x : ReadSector), q.sectors[k]? = some x ∧
    (∀ j < k, ∀ (y : ReadSector) (st : Status), q.sectors[j]? = some y → y.st ≠ .failed st) ∧
    (x.st = .waiting ∨ ∃ i, x.st = .bound i ∧ (s.slotAt i).state ≠ .clean ∧
      (s.slotAt i).state ≠ .writing)

/-- The entry to FAULTED from s to u ends MECHANISM FAULT: each READ with a sector not yet available,
each WRITE and REASSIGN, each FLUSH MAP, each listed EJECT, and from SPINNING or MOUNTING each listed
MOUNT. Every other request stays as it stands. The notice goes to both ports (R147, R164). -/
def State.faultEnds (s u : State) : Prop :=
  s.notifies u .mechanismFault ∧
  ∀ c, ∀ q ∈ s.reqs c,
    (s.unlisted c q → s.findWork q.id = none →
      (q.kind = .read → s.stillToCome q → s.readEndsAs u c q 0x16) ∧
      (q.kind = .read → ¬s.stillToCome q → ∃ b, { q with readAheadPassed := b } ∈ u.reqs c) ∧
      (q.kind = .flushMap → s.endsAs u c q 0x16 (fun _ => True)) ∧
      (q.kind ≠ .read → q.kind ≠ .flushMap → q ∈ u.reqs c)) ∧
    (∀ w, s.unlisted c q → s.findWork q.id = some w → w.owner = some c → w.kind ≠ .rescue →
      (q.kind = .write ∨ q.kind = .reassign) → s.workEndsAs u c q w 0x16) ∧
    (q.kind = .eject → (c, q.tag) ∈ s.ctl.ejectRequesters → s.reqByTag c q.tag = some q →
      s.endsAs u c q 0x16 (fun _ => True)) ∧
    (q.kind = .mount → (c, q.tag) ∈ s.ctl.mountRequesters → s.reqByTag c q.tag = some q →
      (c, q.tag) ∉ s.ctl.ejectRequesters → s.findWork q.id = none →
      (s.ctl.state = .spinning ∨ s.ctl.state = .mounting →
        s.endsAs u c q 0x16 (fun _ => True)) ∧
      (s.ctl.state ≠ .spinning → s.ctl.state ≠ .mounting → q ∈ u.reqs c))

/-- From s to u the cartridge has become FAULTED: the read-only flag stays, the link is IDLE, the engine
FREE with no open run, a channel's read-ahead absent (where no READ that goes on has its read-ahead moment
still to come), no eject listed, and the map, the rescue list, the reservations and the policy stay. The
requests end, or go on, as `State.faultEnds` says (R104, R147). -/
def State.becomesFaulted (s u : State) : Prop :=
  u.ctl.state = .faulted ∧ u.ctl.readOnly = s.ctl.readOnly ∧ u.ctl.ejectRequesters = [] ∧
  u.ctl.unmountAnswer = none ∧ u.link.state = .idle ∧ u.link.outstanding = none ∧
  u.engine = none ∧ u.sched.openRun = none ∧
  (∀ c, (∀ r ∈ s.reqs c, r.sequential = true → r.readAheadPassed = true ∨
      s.sectorsPending r.sectors = true) → u.sched.readAhead.get c = none) ∧
  u.dm.replacement = s.dm.replacement ∧ u.dm.dirty = s.dm.dirty ∧
  u.dm.rescueList = s.dm.rescueList ∧ u.reservations = s.reservations ∧ u.policy = s.policy ∧
  u.timebase = s.timebase ∧ s.faultEnds u

/-- From s to u each MOUNT on the mount-requesters list has ended with a status (R140, R148). -/
def State.mountsEnd (s u : State) (status : Byte) : Prop :=
  ∀ c, ∀ q ∈ s.reqs c, (c, q.tag) ∈ s.ctl.mountRequesters → s.reqByTag c q.tag = some q →
    s.endsAs u c q status (fun _ => True)

/-- A new event with a command outstanding that it cancels: the event is acknowledged and its number kept,
the link is IDLE, the start-up report has ended if it was it, and the places of a write command are left as
R4 gives (R134, R136, R138). -/
def State.eventCancels (s : State) (n : Byte) : State :=
  { s with
    medium := s.mediumCutOff.medium
    link := { s.link with
      sent := s.link.sent ++ [.eventAck n], lastEvent := some n, state := .idle
      outstanding := none, remaining := none, retryCount := none, lastFailure := none
      received := [] }
    ctl := { s.ctl with startupReport := false } }

/-- From s to u a recovery has failed: FAULTED, or EJECTING with EJECT sent where an eject was pending.
Each listed MOUNT ends MECHANISM FAULT, every other request stays, the notice goes to both ports, and
beside the link and the record of the medium nothing else changes (R148, R149). -/
def State.recoveryFails (s u : State) : Prop :=
  s.notifies u .mechanismFault ∧ s.mountsEnd u 0x16 ∧
  (∀ c, ∀ q ∈ s.reqs c, (c, q.tag) ∉ s.ctl.mountRequesters → q ∈ u.reqs c) ∧
  u.ctl = { s.ctl with
    state := if s.ctl.ejectPending then .ejecting else .faulted
    recovering := false, mountRequesters := [], ejectPending := false
    startupReport := u.ctl.startupReport } ∧
  u.link.outstanding.map (fun c => (c.command, c.sender)) =
    (if s.ctl.ejectPending then some (.eject, .cartridgeController) else none) ∧
  u = { s with ctl := u.ctl, link := u.link, ports := u.ports, requests := u.requests,
               medium := u.medium }

/-- A removal or an eject done, from s to u, ends NO CARTRIDGE: each READ, WRITE, REASSIGN, FLUSH MAP and
REPORT MAP, and each listed MOUNT. Each listed EJECT ends SUCCESS with the map clean and MAP NOT SAVED
with it dirty. Every other request stays as it stands. The notice CARTRIDGE GONE goes to both ports; with
the map dirty and no unmount answer so does MAP LOST, and with the map clean, or an answer in EJECTING, it
does not (R57, R144, R146, R164). -/
def State.removalEnds (s u : State) : Prop :=
  s.notifies u .cartridgeGone ∧
  (s.dm.dirty = true → s.ctl.unmountAnswer = none → s.notifies u .mapLost) ∧
  (s.dm.dirty = false ∨ (s.ctl.state = .ejecting ∧ s.ctl.unmountAnswer ≠ none) →
    ∀ c bs, (u.port c).outbox = (s.port c).outbox ++ bs → noticeBlock .mapLost s.timebase ∉ bs) ∧
  ∀ c, ∀ q ∈ s.reqs c,
    (s.unlisted c q → s.findWork q.id = none →
      (q.kind = .read → s.readEndsAs u c q 0x06) ∧
      (q.kind = .flushMap ∨ q.kind = .reportMap → s.endsAs u c q 0x06 (fun _ => True)) ∧
      (q.kind ≠ .read → q.kind ≠ .flushMap → q.kind ≠ .reportMap → q ∈ u.reqs c)) ∧
    (∀ w, s.unlisted c q → s.findWork q.id = some w → w.owner = some c → w.kind ≠ .rescue →
      (q.kind = .write ∨ q.kind = .reassign) → s.workEndsAs u c q w 0x06) ∧
    (q.kind = .eject → (c, q.tag) ∈ s.ctl.ejectRequesters → s.reqByTag c q.tag = some q →
      (c, q.tag) ∉ s.ctl.mountRequesters →
        s.endsAs u c q (if s.dm.dirty then 0x17 else 0x00) (fun _ => True)) ∧
    (q.kind = .mount → (c, q.tag) ∈ s.ctl.mountRequesters → s.reqByTag c q.tag = some q →
      s.endsAs u c q 0x06 (fun _ => True))

/-- What every statement about a command may take of the state it finds: the invariants that every step
keeps. -/
def State.between (s : State) : Bool :=
  s.quiet && s.idsInOrder && s.portsFormed && s.transfersOwned

end Sys2Proof.Machine
end

