-- ==== Sys2Proof/WellFormed.lean ====
section
/-! DEFINITION. Which commands are well formed: their operands are ones that the row of the opcode
table and its rule give. The meanings are total; an ill-formed command also has one. -/

namespace Sys2Proof

/-- The row of a byte written to PORT STATUS: CHANNEL_RESET when bit 7 is set (R182, log 9). -/
def resetByte (value : Byte) : Bool := value.getLsbD 7

/-- The row of a byte written to PORT STATUS: CLEAR_OVERRUN when bit 7 is clear and bit 0 set
(R182, log 9). -/
def clearByte (value : Byte) : Bool := !value.getLsbD 7 && value.getLsbD 0

/-- An UNKNOWN_REQUEST: the kind code is not one of the 13 kinds, and the declared length is one
byte (R154, R177). -/
def unknownBlock (kind : Byte) (params : List Byte) : Bool :=
  (Machine.RequestKind.ofCode kind).isNone && decide (params.length ≤ 255)

/-- A sector frame: its data is a canonical buffer of 1,024 bytes, and its address is one that a
cartridge can have (R1, R2). -/
def SectorFrame.wf (f : SectorFrame) : Bool :=
  f.data.wf && decide (f.track ≤ 65535) && decide (f.sector ≤ 39)

/-- A state record: write-protected is no when media present is no (R128). -/
def StateRecord.wf (r : StateRecord) : Bool := r.mediaPresent || !r.writeProtected

def Answer.wf : Answer → Bool
  | .done r => r.wf
  | .refused _ => true

/-- The command is well formed. -/
def Instr.wf : Instr → Bool
  | .channelReset _ value => resetByte value
  | .clearOverrun _ value => clearByte value
  | .unknownRequest _ kind _ params => unknownBlock kind params
  | .response _ answer => answer.wf
  | .mechDataFrame _ sector frame => frame.wf && decide (sector ≤ 39)
  | _ => true

end Sys2Proof
end

