-- ==== Sys2Proof/Certificates/Slice0/Obligations.lean ====
section
/-! DEFINITION. The statements for the provers. Where a statement speaks of a state between steps it
takes `State.between`, which the statements about invariants say every step keeps. -/

open Sys2Proof Sys2Proof.Machine


/-! ### The step -/

/-- A step takes the command at the front of the queue and runs it on the queue's rest.

On an empty queue the block idles (the model's choice, log 1). -/
def Obligations.StepRunsFrontCommand : Prop :=
  (∀ (i : Instr) (rest : List Instr) (s : State),
      step { s with pending := i :: rest } = exec i { s with pending := rest }) ∧
  (∀ s : State, s.pending = [] → step s = .next s)

/-! ### The resets and port control (R137, R138, R165, R176, R182) -/

/-- EXTERNAL_RESET: what each block holds after it. The queue of commands stays (log 36), the medium record
is empty (log 37), and the model's own fields take the values of log 30: the next number, the byte last
returned and the kept change count 0, the marks false or absent, and on the link the COMMAND frame of the
start-up report alone sent. -/
def Obligations.ExternalResetValues : Prop :=
  ∀ s : State, ∃ t, exec .externalReset s = .next t ∧ t.pending = s.pending ∧ t.timebase = 0 ∧
    t.policy = { verifyLimit := 2, rescueThreshold := 4, readRetries := 3, mechRetries := 2,
                 insertionLimit := 4, urgencyWindow := 100, settleDelay := 500 } ∧
    (∀ c, t.reqs c = [] ∧ (t.port c).partialBlock = none ∧ (t.port c).outbox = [] ∧
      (t.port c).pendingNotices = [] ∧ (t.port c).transfers = [] ∧ (t.port c).idle = none ∧
      (t.port c).overrun = false ∧ (t.port c).headRead = 0 ∧ (t.port c).busOut = 0 ∧
      (t.port c).settings = { queueDepth := 12, idleLimit := 2000, readAheadWindow := 8,
                              completionEnable := true, dataEnable := true } ∧
      (t.port c).counters = { completed := 0, sectorsRead := 0, sectorsWritten := 0, corrected := 0,
                              expired := 0, late := 0 } ∧
      t.sched.readAhead.get c = none) ∧
    t.reservations = [] ∧ t.works = [] ∧
    t.dm.bands = [] ∧ t.dm.slips = [] ∧ t.dm.replacement = [] ∧ t.dm.dirty = false ∧
    t.dm.changeCount = 0 ∧ t.dm.generation = 0 ∧ t.dm.settle = .absent ∧ t.dm.rescueList = [] ∧
    (∀ i a, (t.dm.staging.getD i []).readByte a = 0) ∧ t.dm.reassignments = 0 ∧
    t.dm.rescuesDone = 0 ∧ t.dm.rescuesDropped = 0 ∧
    t.pool.slots.length = 32 ∧
    (∀ x ∈ t.pool.slots, x.state = .free ∧ x.lsn = none ∧ x.stale = false ∧ x.work = none ∧
      x.bindings = [] ∧ x.holdCount = 0 ∧ x.charged = .none ∧ x.stage = none ∧ x.stamp = 0 ∧
      x.fetchBegun = false ∧ x.chargedFor = none ∧ ∀ a, x.content.readByte a = 0) ∧
    t.pool.directory = [] ∧ t.pool.slotWait = [] ∧ t.engine = none ∧ t.sched.openRun = none ∧
    t.sched.urgentMarker = .B ∧ t.sched.normalMarker = .B ∧ t.sched.prefetchMarker = .B ∧
    t.link.state = .awaitingResponse ∧
    t.link.outstanding =
      some { number := 0, command := .reportState, sender := .cartridgeController } ∧
    t.link.remaining = some 200 ∧ t.link.retryCount = some 0 ∧ t.link.lastFailure = none ∧
    t.link.nextNumber = 1 ∧ t.link.received = [] ∧ t.link.lastEvent = none ∧
    t.link.linkRetries = 0 ∧
    t.ctl.state = .empty ∧ t.ctl.readOnly = .none ∧ t.ctl.writeProtect = false ∧
    t.ctl.ejectRequesters = [] ∧ t.ctl.mountRequesters = [] ∧ t.ctl.unmountAnswer = none ∧
    t.ctl.recovering = false ∧ t.ctl.ejectPending = false ∧ t.ctl.startupReport = true ∧
    t.nextId = 0 ∧ t.raised = [] ∧ t.medium = [] ∧ t.dm.snapshot = 0 ∧ t.dm.verdictHeld = false ∧
    t.ctl.unmountAsked = false ∧ t.ctl.indexWanted = none ∧ t.link.sent = [.command 0 .reportState]

/-- A write to PORT STATUS with bit 7 clear: with bit 0 set OVERRUN becomes false and nothing else
changes; with neither bit set nothing changes. Both rows that write PORT STATUS act by the byte
(log 9).

A write to PORT STATUS with bit 7 set, whatever its other bits, is a channel reset: the port takes
the values of R176, the channel's requests are discarded with no completion, its reservations, its
read-ahead and its entries on the requesters lists go, and it leaves the other channel's outbox, settings,
counters, notices and request list, and the policy, the map, the link and the medium, as they stand. (The
byte last returned, a field of the model's own, is 0: log 30.)

The requests are discarded one by one in acceptance order. A READ leaves its slots and the slot-wait list.
A WRITE or REASSIGN with no run open and none due ends: each of its sectors without a result gives up its
slot, and its work and its place on the slot-wait list go. One with a run open or due is carried through
as work of no channel: its sectors outside those runs are dropped and give up their slots, and the slots it
keeps are charged to internal. A request of another kind leaves nothing behind (R67, R70, R73, R103, R114,
R165). (Its sectors stand in slots of their own: a premise. A run due that holds no sector, which no run of
the machine forms, goes.)

A slot given up: a WRITING one becomes FREE, or stale for the READs that hold it; a FILLING one becomes
FREE, or FETCHING for the oldest READ that waits on it; a FETCHING one whose fetch has not begun becomes
FREE, or its fetch passes to the oldest READ bound; one whose fetch has begun stays to its end (R67, R70,
R72; that a WRITING slot's claim ends there, and what becomes of a fetch not begun, are the model's choice
where no rule names them, logs 46 and 47). A READ that leaves a slot does the like: its own fetch not begun
passes on or ends, and a stale slot without READs and without a fetch in flight becomes FREE (R59, R66, R67).

The charge after a claim has gone: none with the slot unclaimed, internal where a channel's claim has gone
and others stay, else as it was; a fetch in flight is a claim to its end (R60, R61; the model's reading,
log 15). -/
def Obligations.PortControl : Prop :=
  (∀ (c : Channel) (v : Byte) (s : State), s.between = true → v.getLsbD 7 = false →
      exec (.clearOverrun c v) s = exec (.channelReset c v) s ∧
        exec (.clearOverrun c v) s =
          .next (if v.getLsbD 0 then
              { s with ports := s.ports.set c { s.port c with overrun := false } }
            else s)) ∧
  (∀ (c : Channel) (v : Byte) (s : State), s.between = true → v.getLsbD 7 = true →
      exec (.clearOverrun c v) s = exec (.channelReset c v) s ∧
      ∃ t, exec (.channelReset c v) s = .next t ∧
        t.port c = { partialBlock := none, outbox := [], headRead := 0, pendingNotices := [],
                     transfers := [], idle := none, overrun := false,
                     settings := { queueDepth := 12, idleLimit := 2000, readAheadWindow := 8,
                                   completionEnable := true, dataEnable := true },
                     counters := { completed := 0, sectorsRead := 0, sectorsWritten := 0,
                                   corrected := 0, expired := 0, late := 0 },
                     busOut := 0 } ∧
        t.reqs c = [] ∧ t.reservations = s.reservations.filter (fun e => e.owner != c) ∧
        t.sched.readAhead.get c = none ∧
        t.ctl = { s.ctl with
          ejectRequesters := s.ctl.ejectRequesters.filter (fun e => e.1 != c)
          mountRequesters := s.ctl.mountRequesters.filter (fun e => e.1 != c) } ∧
        (t.port c.other).outbox = (s.port c.other).outbox ∧
        (t.port c.other).settings = (s.port c.other).settings ∧
        (t.port c.other).counters = (s.port c.other).counters ∧
        (t.port c.other).pendingNotices = (s.port c.other).pendingNotices ∧
        (t.reqs c.other).map (fun r => (r.id, r.tag)) =
          (s.reqs c.other).map (fun r => (r.id, r.tag)) ∧
        t.timebase = s.timebase ∧ t.policy = s.policy ∧ t.dm = s.dm ∧ t.link = s.link ∧
        t.engine = s.engine ∧ t.sched.openRun = s.sched.openRun ∧ t.medium = s.medium ∧
        t.pending = s.pending) ∧
  (∀ (c : Channel) (v : Byte) (s : State), v.getLsbD 7 = true →
      let t := (s.reqs c).foldl State.discardRequest s
      exec (.channelReset c v) s = .next (State.finish s { t with
        requests := t.requests.set c []
        reservations := t.reservations.filter (fun e => e.owner != c)
        ports := t.ports.set c Port.reset
        sched := { t.sched with readAhead := t.sched.readAhead.set c none }
        ctl := { t.ctl with
          ejectRequesters := t.ctl.ejectRequesters.filter (fun e => e.1 != c)
          mountRequesters := t.ctl.mountRequesters.filter (fun e => e.1 != c) } })) ∧
  (∀ (s : State) (r : Request), r.kind = .read →
      let u := s.discardRequest r
      let bound := fun (i : Nat) => ∃ x ∈ r.sectors, x.st = .bound i
      u = { s with pool := u.pool } ∧
        u.pool.slotWait = s.pool.slotWait.filter (fun x => x != r.id) ∧
        ((r.sectors.filterMap ReadSector.slot?).Nodup → ∀ i < s.pool.slots.length,
          (bound i → u.slotAt i = (s.releaseBinding r.id i false).slotAt i) ∧
          (¬bound i → u.slotAt i = s.slotAt i))) ∧
  (∀ (s : State) (r : Request), r.kind ≠ .read → r.kind ≠ .write → r.kind ≠ .reassign →
      s.discardRequest r = s) ∧
  (∀ (s : State) (r : Request) (w : WriteWork), (r.kind = .write ∨ r.kind = .reassign) →
      s.findWork r.id = some w → (w.sectors.filterMap (fun x => x.slot)).Nodup →
      let u := s.discardRequest r
      let carried := (∃ o, s.sched.openRun = some o ∧ o.work = w.name) ∨ w.followUps ≠ []
      let drops := fun (x : WorkSector) => x.result = none ∧ x.dropped = false ∧
        x.lsn ∉ w.followUpLsns ∧
        ∀ o, s.sched.openRun = some o → o.work = w.name → x.lsn ∉ o.run.lsns
      let given := fun (i : Nat) => ∃ x ∈ w.sectors, drops x ∧ x.slot = some i
      u = { s with pool := u.pool, works := u.works } ∧
        (¬carried → u.works = s.works.filter (fun v => v.id != r.id) ∧
          u.pool.slotWait = s.pool.slotWait.filter (fun x => x != r.id) ∧
          ∀ i < s.pool.slots.length,
            (given i → u.slotAt i = (s.giveUpSlot r.id i).slotAt i) ∧
            (¬given i → u.slotAt i = s.slotAt i)) ∧
        (carried → u.findWork r.id = some { w with
            owner := none
            followUps := w.followUps.filter (fun q => !q.lsns.isEmpty)
            sectors := w.sectors.map (fun x => if drops x then { x with dropped := true } else x) } ∧
          (∀ x, x.id ≠ r.id → (x ∈ u.works ↔ x ∈ s.works)) ∧ u.pool.slotWait = s.pool.slotWait ∧
          let kept := fun (x : Slot) => if x.workId = some r.id ∧ x.charged ≠ .none then
            { x with charged := .internal, chargedFor := none } else x
          ∀ i < s.pool.slots.length,
            (given i → u.slotAt i = kept ((s.giveUpSlot r.id i).slotAt i)) ∧
            (¬given i → u.slotAt i = kept (s.slotAt i)))) ∧
  (∀ (s : State) (id i : Nat), i < s.pool.slots.length →
      let x := s.slotAt i
      let u := s.giveUpSlot id i
      let gone := u.pool.directory = s.pool.directory.filter (fun d => d.2 != i)
      let freed := gone ∧
        u.slotAt i = { Slot.reset with stamp := x.stamp, content := x.content }
      let passed := fun (b : Binding) => u.pool.directory = s.pool.directory ∧
        u.slotAt i = ({ x with work := some (.read b.ch b.id) } : Slot).settleCharge
      u = { s with pool := u.pool } ∧ u.pool.slotWait = s.pool.slotWait ∧
        (∀ j, j ≠ i → u.slotAt j = s.slotAt j) ∧
        ((x.workId ≠ some id ∨ x.state = .clean ∨ x.state = .free) → u = s) ∧
        (x.workId = some id →
          (x.state = .writing → (x.bindings = [] → freed) ∧ (x.bindings ≠ [] → gone ∧
            u.slotAt i = ({ x with work := none, stale := true } : Slot).settleCharge)) ∧
          (x.state = .filling → (x.bindings = [] → freed) ∧ ∀ b bs, x.bindings = b :: bs →
            u.pool.directory = s.pool.directory ∧ u.slotAt i = { x with
              bindings := x.bindings.map (fun b => { b with waiting := false })
              holdCount := (u.slotAt i).holdCount, state := .fetching
              work := some (.read b.ch b.id), fetchBegun := false, content := []
              charged := .internal, chargedFor := none, stage := none }) ∧
          (x.state = .fetching → x.fetchBegun = false → (x.bindings = [] → freed) ∧
            ∀ b bs, x.bindings = b :: bs → passed b) ∧
          (x.state = .fetching → x.fetchBegun = true →
            u.pool.directory = s.pool.directory ∧ u.slotAt i = x.settleCharge))) ∧
  (∀ (s : State) (id i : Nat), i < s.pool.slots.length →
      let x := s.slotAt i
      let u := s.releaseBinding id i false
      let y := { x with bindings := x.bindings.filter (fun b => b.id != id)
                        holdCount := holdCountOf (x.bindings.filter (fun b => b.id != id)) }
      let freed := u.pool.directory = s.pool.directory.filter (fun d => d.2 != i) ∧
        u.slotAt i = { Slot.reset with stamp := x.stamp, content := x.content }
      let mine := x.state = .fetching ∧ x.fetchBegun = false ∧ x.workId = some id
      let atEnd := x.stale = true ∧ y.bindings = [] ∧ ¬(x.state = .fetching ∧ x.fetchBegun = true)
      u = { s with pool := u.pool } ∧ u.pool.slotWait = s.pool.slotWait ∧
        (∀ j, j ≠ i → u.slotAt j = s.slotAt j) ∧
        (mine → (y.bindings = [] → freed) ∧ ∀ b bs, y.bindings = b :: bs →
          u.pool.directory = s.pool.directory ∧
          u.slotAt i = ({ y with work := some (.read b.ch b.id) } : Slot).settleCharge) ∧
        (¬mine → atEnd → freed) ∧
        (¬mine → ¬atEnd → u.pool.directory = s.pool.directory ∧ u.slotAt i = y.settleCharge)) ∧
  (∀ x : Slot, let claimed := x.state = .fetching ∨ x.state = .filling ∨
        (x.state = .writing ∧ x.work ≠ none) ∨ x.bindings ≠ []
      let claimGone := (∃ c, x.charged = .channel c) ∧ ∀ id, x.chargedFor = some id →
        x.workId ≠ some id ∧ ∀ b ∈ x.bindings, b.id ≠ id
      (x.claimed = true ↔ claimed) ∧
        (¬claimed → x.settleCharge = { x with charged := .none, chargedFor := none }) ∧
        (claimed → claimGone → x.settleCharge = { x with charged := .internal, chargedFor := none }) ∧
        (claimed → ¬claimGone → x.settleCharge = x))

/-! ### REQUEST and COMPLETION (R177, R178) -/

/-- A write to COMPLETION or TRANSFER, and a byte written to REQUEST while REQUEST SPACE is false, is
ignored and sets OVERRUN; nothing else changes.

A byte written to REQUEST while REQUEST SPACE is true, which does not complete a block, joins the
partial block; nothing else changes.

The byte that completes a block's bytes in REQUEST does what the command of that block does (the
model's reading of the two rows, logs 4 and 5). -/
def Obligations.RegisterWrites : Prop :=
  (∀ (c : Channel) (loc : WriteLocation) (v : Byte) (s : State), s.between = true →
      (loc = .request → s.requestSpace c = false) →
        exec (.registerWrite c loc v) s =
          .next { s with ports := s.ports.set c { s.port c with overrun := true } }) ∧
  (∀ (c : Channel) (v : Byte) (s : State), s.between = true → s.requestSpace c = true →
      RequestBlock.ofBytes ((s.port c).partialBlock.getD [] ++ [v]) = none →
        exec (.registerWrite c .request v) s =
          .next { s with ports := s.ports.set c { s.port c with
            partialBlock := some ((s.port c).partialBlock.getD [] ++ [v]) } }) ∧
  (∀ (i : Instr) (c : Channel) (b : RequestBlock) (v : Byte) (s : State), i.wf = true →
      requestOf i = some (c, b) → s.requestSpace c = true →
      (s.port c).partialBlock.getD [] ++ [v] = b.bytes →
        exec (.registerWrite c .request v) s = exec i s)

/-- The bytes of a request block, as they are written to REQUEST, make up that block again, for every
block whose parameter length fits the length byte.

No bytes short of the declared length make up a block. -/
def Obligations.RequestBytesMakeUpTheirBlock : Prop :=
  (∀ b : RequestBlock, b.params.length ≤ 255 → RequestBlock.ofBytes b.bytes = some b) ∧
  (∀ (b : RequestBlock) (n : Nat), b.params.length ≤ 255 → n < b.bytes.length →
      RequestBlock.ofBytes (b.bytes.take n) = none)

/-- A read of COMPLETION returns the next byte of the head block; before the 13th byte the block stays,
and nothing but the count of bytes read changes.

With the 13th byte the head block leaves the outbox, and the pending notices are posted in their order
behind what stays while a place beyond the owed ones is free, each leaving the set; where one is left, no
place is free for it. Nothing else changes: not the port's settings, counters, partial block, transfers,
idle remaining or OVERRUN, nor anything beside that port.

A read of COMPLETION with the outbox empty returns 0 and sets OVERRUN; nothing else changes.

The 13 bytes of a block: tag, kind, status, flags, result, worst load, the first failing LSN in three
bytes and the time tag in four, most significant byte first (11.6).

A request's completion: its tag, kind code and status code; LATE, CORRECTED, RESCUE QUEUED, REASSIGNED and
SHORT as bits 0 to 4 of the flags; the reservation id of a RESERVE, the sectors done of a READ, WRITE or
REASSIGN, else 0; FFh and FFFFFFh for an absent load and LSN; the time of posting (R166). The status codes
go from 00h to 17h in the order of 11.6. -/
def Obligations.CompletionReads : Prop :=
  (∀ (c : Channel) (s : State) (b : OutBlock) (bs : List OutBlock), s.between = true →
      (s.port c).outbox = b :: bs → (s.port c).headRead < 12 →
        exec (.completionRead c) s =
          .next { s with ports := s.ports.set c { s.port c with
            busOut := b.bytes.getD (s.port c).headRead 0, headRead := (s.port c).headRead + 1 } }) ∧
  (∀ (c : Channel) (s : State) (b : OutBlock) (bs : List OutBlock), s.between = true →
      (s.port c).pendingNotices.Nodup →
      (s.port c).outbox = b :: bs → (s.port c).headRead = 12 →
        ∃ (t : State) (ns ms : List Notice), exec (.completionRead c) s = .next t ∧
          (s.port c).pendingNotices = ns ++ ms ∧ (ms = [] ∨ t.noticeRoom c = false) ∧
          (ns = [] ∨ (s.reqs c).length + bitOf (s.port c).partialBlock.isSome + bs.length +
            ns.length ≤ 16) ∧
          t = { s with ports := s.ports.set c { s.port c with
            busOut := b.bytes.getD 12 0
            headRead := 0
            outbox := bs ++ ns.map (fun n => noticeBlock n s.timebase)
            pendingNotices := ms } }) ∧
  (∀ (c : Channel) (s : State), s.between = true → (s.port c).outbox = [] →
      exec (.completionRead c) s =
        .next { s with ports := s.ports.set c { s.port c with busOut := 0, overrun := true } }) ∧
  (∀ b : OutBlock, b.bytes =
    [b.tag, b.kind, b.status, b.flags, b.result, b.load, b.lsn.extractLsb' 16 8,
      b.lsn.extractLsb' 8 8, b.lsn.extractLsb' 0 8, b.time.extractLsb' 24 8,
      b.time.extractLsb' 16 8, b.time.extractLsb' 8 8, b.time.extractLsb' 0 8]) ∧
  (∀ (r : Request) (time : BitVec 32),
    let b := r.completion time
    b.tag = r.tag ∧ b.kind = r.kind.code ∧ b.status = (r.result.getD .success).code ∧
      b.time = time ∧ b.flags.getLsbD 0 = r.late ∧ b.flags.getLsbD 1 = r.corrected ∧
      b.flags.getLsbD 2 = r.rescueQueued ∧ b.flags.getLsbD 3 = r.reassigned ∧
      b.flags.getLsbD 4 = r.short ∧ (∀ i, 5 ≤ i → b.flags.getLsbD i = false) ∧
      b.result = (match r.kind with
        | .reserve => BitVec.ofNat 8 (r.reservationId.getD 0)
        | .read | .write | .reassign => BitVec.ofNat 8 r.sectorsDone
        | .release | .flushMap | .eject | .mount | .status | .reportMap | .setPolicy | .setChannel
        | .abort => 0) ∧
      b.load = (match r.worstLoad with
        | none => 0xFF
        | some n => BitVec.ofNat 8 n) ∧
      b.lsn = (match r.firstFailing with
        | none => 0xFFFFFF
        | some l => BitVec.ofNat 24 l)) ∧
  [Status.success, .unknownRequest, .malformed, .duplicateTag, .queueFull, .notReady, .noCartridge,
    .outOfRange, .writeProtected, .reserved, .tableFull, .noSuchReservation, .noSuchTag, .aborted,
    .expired, .dataTimeout, .blank, .mediumError, .writeFailed, .sparesExhausted, .defectListFull,
    .seekFailed, .mechanismFault, .mapNotSaved].map Status.code =
      (List.range 24).map (BitVec.ofNat 8)

/-! ### DATA (R179, R180) -/

/-- A read of DATA that does not end a sector or a record returns the next byte of the current OUT
transfer, counts it, marks the transfer as started, and sets idle remaining again; nothing else changes.
For a READ the byte is byte moved modulo 1,024 of the slot its sector moved / 1,024 is bound to; for a
STATUS or REPORT MAP it is the record's next byte.

The last byte of a STATUS or REPORT MAP record: the byte is returned, the transfer leaves, and the
request completes SUCCESS; nothing else changes. -/
def Obligations.DataReadReturnsNextByte : Prop :=
  (∀ (c : Channel) (s : State) (t : Transfer) (r : Request), s.between = true →
      s.currentTransfer c = some t → t.dir = .outward → s.dataReady c = true →
      s.findReq c t.request = some r →
      (if r.kind = .read then (t.moved + 1) % 1024 ≠ 0 else t.moved + 1 ≠ t.length) →
        exec (.dataRead c) s = .next { s with
          ports := s.ports.set c { s.port c with
            busOut := s.outByte r t
            transfers := { t with moved := t.moved + 1 } :: (s.port c).transfers.tail
            idle := idleCount (s.port c).settings.idleLimit }
          requests := s.requests.set c ((s.reqs c).map
            (fun x => if x.id == t.request then { x with started := true } else x)) } ∧
        (r.kind = .read → ∀ (x : ReadSector) (i : Nat), r.sectors[t.moved / 1024]? = some x →
          x.st = .bound i → s.outByte r t = (s.slotAt i).content.readByte (t.moved % 1024)) ∧
        (r.kind ≠ .read → s.outByte r t = t.record.getD t.moved 0)) ∧
  (∀ (c : Channel) (s : State) (t : Transfer) (r : Request), s.between = true →
      s.currentTransfer c = some t → t.dir = .outward → s.dataReady c = true →
      s.findReq c t.request = some r → r.kind ≠ .read → t.moved + 1 = t.length →
        exec (.dataRead c) s = .next { s with
          ports := s.ports.set c { s.port c with
            busOut := t.record.getD t.moved 0
            transfers := (s.port c).transfers.tail.filter (fun x => x.request != t.request)
            outbox := (s.port c).outbox ++
              [({ r with result := some .success } : Request).completion s.timebase]
            counters := (s.port c).counters.count { r with result := some .success }
            idle := if (s.port c).transfers.tail.all (fun x => x.request == t.request) then none
              else idleCount (s.port c).settings.idleLimit }
          requests := s.requests.set c ((s.reqs c).filter (fun x => x.id != t.request)) })

/-- The last byte of a READ's last sector completes the READ with SUCCESS: its completion, with the
sectors done, joins the outbox's tail, and the READ and its transfer leave. The other port, the map, the
link, the engine, the write work, the medium and the cartridge state stay.

The last byte of a sector of a READ that is not its last: the byte is returned, the sector counts as
taken, the READ leaves the binding list of its slot, whose stamp is set, and idle remaining is set again.
Where the READ's next sector has not failed the READ goes on and nothing else changes.

Where the next sector has failed the READ ends there with that sector's status, SHORT, its first failing
LSN the sector's, with the sectors done; its completion joins the outbox's tail, and the READ and its
transfer leave. -/
def Obligations.ReadsLastByteCompletes : Prop :=
  (∀ (c : Channel) (s : State) (t : Transfer) (r : Request), s.between = true →
    s.currentTransfer c = some t → t.dir = .outward → s.dataReady c = true →
    s.findReq c t.request = some r → r.kind = .read → (t.moved + 1) % 1024 = 0 →
    t.moved / 1024 + 1 = r.count →
      ∃ (u : State) (b : OutBlock), exec (.dataRead c) s = .next u ∧
        (u.port c).busOut = s.outByte r t ∧ (u.port c).outbox = (s.port c).outbox ++ [b] ∧
        b.tag = r.tag ∧ b.kind = 0x01 ∧ b.status = 0x00 ∧
        b.result = BitVec.ofNat 8 (r.sectorsDone + 1) ∧ b.lsn = 0xFFFFFF ∧ b.time = s.timebase ∧
        (u.reqs c).map (fun x => (x.id, x.tag)) =
          ((s.reqs c).filter (fun x => x.id != r.id)).map (fun x => (x.id, x.tag)) ∧
        (u.port c).transfers =
          (s.port c).transfers.tail.filter (fun x => x.request != t.request) ∧
        u.port c.other = s.port c.other ∧
        u = { s with ports := u.ports, requests := u.requests, pool := u.pool, sched := u.sched } ∧
        u.sched = { s.sched with readAhead := u.sched.readAhead }) ∧
  (∀ (c : Channel) (s : State) (t : Transfer) (r : Request) (x : ReadSector) (i : Nat),
    s.between = true → s.currentTransfer c = some t → t.dir = .outward → s.dataReady c = true →
    s.findReq c t.request = some r → r.kind = .read → (t.moved + 1) % 1024 = 0 →
    t.moved / 1024 + 1 ≠ r.count → r.sectors[t.moved / 1024]? = some x → x.st = .bound i →
      let took := fun (q : Request) =>
        { q with
          started := true
          sectors := q.sectors.modify (t.moved / 1024) (fun y => { y with st := .taken })
          sectorsDone := q.sectorsDone + 1 }
      ((∀ st, (took r).sectorState (r.sectorsDone + 1) ≠ some (.failed st)) →
        exec (.dataRead c) s = .next { s with
          ports := s.ports.set c { s.port c with
            busOut := s.outByte r t
            transfers := { t with moved := t.moved + 1 } :: (s.port c).transfers.tail
            idle := idleCount (s.port c).settings.idleLimit }
          requests := s.requests.set c
            ((s.reqs c).map (fun q => if q.id == t.request then took q else q))
          pool := (s.releaseBinding r.id i true).pool }) ∧
      (∀ st, (took r).sectorState (r.sectorsDone + 1) = some (.failed st) →
        ∃ (u : State) (b : OutBlock), exec (.dataRead c) s = .next u ∧
          (u.port c).busOut = s.outByte r t ∧ (u.port c).outbox = (s.port c).outbox ++ [b] ∧
          b.tag = r.tag ∧ b.kind = 0x01 ∧ b.status = st.code ∧ b.flags.getLsbD 4 = true ∧
          b.result = BitVec.ofNat 8 (r.sectorsDone + 1) ∧
          b.lsn = BitVec.ofNat 24 (r.lsn + (r.sectorsDone + 1)) ∧ b.time = s.timebase ∧
          (u.reqs c).map (fun q => (q.id, q.tag)) =
            ((s.reqs c).filter (fun q => q.id != r.id)).map (fun q => (q.id, q.tag)) ∧
          (u.port c).transfers =
            (s.port c).transfers.tail.filter (fun q => q.request != t.request) ∧
          u.port c.other = s.port c.other ∧
          u = { s with ports := u.ports, requests := u.requests, pool := u.pool,
                       sched := u.sched } ∧
          u.sched = { s.sched with readAhead := u.sched.readAhead })) ∧
  (∀ (s : State) (id i : Nat), i < s.pool.slots.length →
    ((s.slotAt i).stale = false ∨ ∃ b ∈ (s.slotAt i).bindings, b.id ≠ id) →
    ((s.slotAt i).state = .fetching → (s.slotAt i).fetchBegun = true) →
      ((s.releaseBinding id i true).slotAt i).bindings =
          (s.slotAt i).bindings.filter (fun b => b.id != id) ∧
        ((s.releaseBinding id i true).slotAt i).state = (s.slotAt i).state ∧
        ((s.releaseBinding id i true).slotAt i).content = (s.slotAt i).content ∧
        ((s.releaseBinding id i true).slotAt i).stamp = s.timebase ∧
        (s.releaseBinding id i true).pool.directory = s.pool.directory ∧
        ∀ j, j ≠ i → (s.releaseBinding id i true).slotAt j = s.slotAt j) ∧
  (∀ (s : State) (id i : Nat), i < s.pool.slots.length → (s.slotAt i).stale = true →
    (∀ b ∈ (s.slotAt i).bindings, b.id = id) → (s.slotAt i).state ≠ .fetching →
      ((s.releaseBinding id i true).slotAt i).state = .free)

/-- A byte written to DATA is stored as the next byte of the fill: byte moved modulo 1,024 of the slot
that sector moved / 1,024 of the WRITE takes. No other byte of any slot changes, and nothing else but the
count, the started mark and idle remaining. (The byte that completes the fill is the next statement.) The
buffers are in their canonical form, which every step keeps. -/
def Obligations.DataWriteStoresNextByte : Prop :=
  ∀ (c : Channel) (v : Byte) (s : State) (t : Transfer) (w : WriteWork) (i : Nat),
    s.between = true → s.memoryWf = true →
    s.currentTransfer c = some t → t.dir = .inward → t.moved + 1 < t.length →
    s.findWork t.request = some w → w.fillSlot t.moved = some i → i < s.pool.slots.length →
      ∃ u, exec (.dataWrite c v) s = .next u ∧
        (u.slotAt i).content.readByte (t.moved % 1024) = v ∧
        (∀ j a, j ≠ i ∨ a ≠ t.moved % 1024 →
          (u.slotAt j).content.readByte a = (s.slotAt j).content.readByte a) ∧
        (∀ j, { u.slotAt j with content := [] } = { s.slotAt j with content := [] }) ∧
        u = { s with
          pool := { s.pool with slots := u.pool.slots }
          ports := s.ports.set c { s.port c with
            transfers := { t with moved := t.moved + 1 } :: (s.port c).transfers.tail
            idle := idleCount (s.port c).settings.idleLimit }
          requests := s.requests.set c ((s.reqs c).map
            (fun x => if x.id == t.request then { x with started := true } else x)) }

/-- The last byte of a fill completes it: the work's runs are ready, each of its slots is WRITING at
QUEUED, the READs that waited on it hold it, the WRITE is ACTIVE, and the transfer leaves. No byte of a
slot but the one stored changes; the map, the link, the engine, the reservations, the medium and the
cartridge state stay, and nothing is posted. The buffers are in their canonical form, which every step
keeps. -/
def Obligations.DataWriteCompletesFill : Prop :=
  ∀ (c : Channel) (v : Byte) (s : State) (t : Transfer) (w : WriteWork) (i : Nat),
    s.between = true → s.memoryWf = true →
    s.currentTransfer c = some t → t.dir = .inward → t.moved + 1 = t.length →
    s.findWork t.request = some w → w.fillSlot t.moved = some i →
    (∀ x ∈ w.sectors, ∀ j, x.slot = some j → j < s.pool.slots.length) →
      ∃ u, exec (.dataWrite c v) s = .next u ∧
        (u.slotAt i).content.readByte (t.moved % 1024) = v ∧
        (∀ j a, j ≠ i ∨ a ≠ t.moved % 1024 →
          (u.slotAt j).content.readByte a = (s.slotAt j).content.readByte a) ∧
        (∀ x ∈ w.sectors, ∀ j, x.slot = some j →
          (u.slotAt j).state = .writing ∧ (u.slotAt j).stage = some .queued ∧
          (u.slotAt j).bindings =
            (s.slotAt j).bindings.map (fun b => { b with waiting := false })) ∧
        (∀ r, w.owner = some c → s.findReq c w.id = some r → r.kind = .write →
          u.findReq c w.id = some { r with state := .active, started := true }) ∧
        u.works = s.works.map (fun x => if x.id == w.id then { x with phase := .runs } else x) ∧
        (∀ x ∈ (u.port c).transfers, x.dir = .inward → x ∈ (s.port c).transfers.tail) ∧
        (∀ d, (u.port d).outbox = (s.port d).outbox) ∧
        u = { s with ports := u.ports, requests := u.requests, pool := u.pool, sched := u.sched,
                     works := u.works }

/-- Misuse of DATA: a read while the data side is not OUT, or DATA READY is false, returns 0, and a write
while the data side is not IN is ignored; each sets OVERRUN and changes nothing else. -/
def Obligations.MisusedDataAccessSetsOverrun : Prop :=
  ∀ (c : Channel) (v : Byte) (s : State), s.between = true →
    ((s.dataSide c ≠ 1 ∨ s.dataReady c = false) → exec (.dataRead c) s = .next { s with
      ports := s.ports.set c { s.port c with busOut := 0, overrun := true } }) ∧
    (s.dataSide c ≠ 2 → exec (.dataWrite c v) s = .next { s with
      ports := s.ports.set c { s.port c with overrun := true } })

/-! ### Intake (R154, R155, R166, R167) -/

/-- A complete block that a check refuses: its refusal is posted at once, with the tag and the kind code
as received, no flags, result 0, FFh, FFFFFFh and the Timebase count; the partial block is absent, and
nothing else changes. It holds for each of the 14 request commands.

A block of a kind code that is none of the 13 is refused UNKNOWN REQUEST, before its tag or its length
is looked at.

A block that comes while REQUEST SPACE is false is ignored and sets OVERRUN. -/
def Obligations.BlocksTurnedAway : Prop :=
  (∀ (i : Instr) (c : Channel) (b : RequestBlock) (st : Status) (s : State), s.between = true →
      requestOf i = some (c, b) → s.requestSpace c = true → s.refusalStatus c b = some st →
        exec i s = .next { s with ports := s.ports.set c { s.port c with
          partialBlock := none
          outbox := (s.port c).outbox ++
            [{ tag := b.tag, kind := b.kind, status := st.code, flags := 0, result := 0, load := 0xFF,
               lsn := 0xFFFFFF, time := s.timebase }] } }) ∧
  (∀ (c : Channel) (kind tag : Byte) (params : List Byte) (s : State), s.between = true →
      (Instr.unknownRequest c kind tag params).wf = true → s.requestSpace c = true →
        exec (.unknownRequest c kind tag params) s = .next { s with
          ports := s.ports.set c { s.port c with
            partialBlock := none
            outbox := (s.port c).outbox ++
              [{ tag := tag, kind := kind, status := 0x01, flags := 0, result := 0, load := 0xFF,
                 lsn := 0xFFFFFF, time := s.timebase }] } }) ∧
  (∀ (i : Instr) (c : Channel) (b : RequestBlock) (s : State), s.between = true →
      requestOf i = some (c, b) → s.requestSpace c = false →
        exec i s = .next { s with ports := s.ports.set c { s.port c with overrun := true } })

/-- The checks are made in order, and the first that fails gives the status (R154).

The 13 kinds with their codes and parameter lengths (11.6).

The values that are not defined, by the parameter bytes: a READ's or WRITE's count outside 1 to 16, a
READ's flags above 1, a RESERVE's count 0 or its mode other than 1 and 2, a STATUS's clear flag above 1;
no other kind has one (R154, 11.6). Multi-byte parameters have their most significant byte first. -/
def Obligations.ChecksAreMadeInOrder : Prop :=
  (∀ (s : State) (c : Channel) (b : RequestBlock),
    (RequestKind.ofCode b.kind = none → s.refusalStatus c b = some .unknownRequest) ∧
    ∀ k, RequestKind.ofCode b.kind = some k →
      let bad := b.params.length ≠ k.paramLength ∨ b.tag = 0 ∨ b.badValue k = true
      let dup := ∃ r ∈ s.reqs c, r.tag = b.tag
      let full := (s.port c).settings.queueDepth ≤ (s.reqs c).length
      (bad → s.refusalStatus c b = some .malformed) ∧
      (¬bad → dup → s.refusalStatus c b = some .duplicateTag) ∧
      (¬bad → ¬dup → full → s.refusalStatus c b = some .queueFull) ∧
      (¬bad → ¬dup → ¬full → s.admits c k = false →
        s.refusalStatus c b = some (if s.ctl.state = .empty then .noCartridge else .notReady)) ∧
      (¬bad → ¬dup → ¬full → s.admits c k = true → s.rangePasses b k = false →
        s.refusalStatus c b = some .outOfRange) ∧
      (¬bad → ¬dup → ¬full → s.admits c k = true → s.rangePasses b k = true →
        (k = .write ∨ k = .reassign ∨ k = .flushMap) → s.ctl.readOnly ≠ .none →
        s.refusalStatus c b = some .writeProtected) ∧
      (¬bad → ¬dup → ¬full → s.admits c k = true → s.rangePasses b k = true →
        ¬((k = .write ∨ k = .reassign ∨ k = .flushMap) ∧ s.ctl.readOnly ≠ .none) →
        s.refusalStatus c b = if s.reservationConflict c b k then some .reserved else none)) ∧
  ([RequestKind.read, .write, .reassign, .reserve, .release, .flushMap, .eject, .mount, .status,
      .reportMap, .setPolicy, .setChannel, .abort].map (fun k => (k.code, k.paramLength)) =
    [(0x01, 7), (0x02, 4), (0x03, 3), (0x10, 7), (0x11, 1), (0x20, 0), (0x21, 0), (0x22, 0),
      (0x30, 1), (0x31, 1), (0x40, 9), (0x41, 5), (0x50, 1)] ∧
    ∀ (v : Byte) (k : RequestKind), RequestKind.ofCode v = some k ↔ v = k.code) ∧
  (∀ (kind tag l0 l1 l2 n d0 d1 f : Byte),
    let b : RequestBlock := { kind := kind, tag := tag, params := [l0, l1, l2, n, d0, d1, f] }
    b.lsn = l0.toNat * 65536 + l1.toNat * 256 + l2.toNat ∧ b.count = n.toNat ∧
      b.deadline = d0.toNat * 256 + d1.toNat ∧ b.readFlags = f.toNat ∧
      (b.badValue .read = true ↔ n = 0 ∨ 16 < n.toNat ∨ 1 < f.toNat)) ∧
  (∀ (kind tag l0 l1 l2 n : Byte),
    let b : RequestBlock := { kind := kind, tag := tag, params := [l0, l1, l2, n] }
    b.lsn = l0.toNat * 65536 + l1.toNat * 256 + l2.toNat ∧ b.count = n.toNat ∧
      (b.badValue .write = true ↔ n = 0 ∨ 16 < n.toNat)) ∧
  (∀ (kind tag l0 l1 l2 : Byte),
    ({ kind := kind, tag := tag, params := [l0, l1, l2] } : RequestBlock).lsn =
      l0.toNat * 65536 + l1.toNat * 256 + l2.toNat) ∧
  (∀ (kind tag l0 l1 l2 n0 n1 n2 m : Byte),
    let b : RequestBlock := { kind := kind, tag := tag, params := [l0, l1, l2, n0, n1, n2, m] }
    b.lsn = l0.toNat * 65536 + l1.toNat * 256 + l2.toNat ∧
      b.reserveCount = n0.toNat * 65536 + n1.toNat * 256 + n2.toNat ∧ b.reserveMode = m.toNat ∧
      (b.badValue .reserve = true ↔ (n0 = 0 ∧ n1 = 0 ∧ n2 = 0) ∨ (m ≠ 1 ∧ m ≠ 2))) ∧
  (∀ (kind tag v : Byte),
    let b : RequestBlock := { kind := kind, tag := tag, params := [v] }
    b.byteParam = v.toNat ∧ (b.badValue .status = true ↔ 1 < v.toNat)) ∧
  (∀ (b : RequestBlock) (k : RequestKind), k ≠ .read → k ≠ .write → k ≠ .reserve → k ≠ .status →
    b.badValue k = false)

/-- The table of check 5 (R155). -/
def Obligations.CartridgeStatesAdmitKinds : Prop :=
  ∀ (s : State) (c : Channel),
    (∀ k, k = RequestKind.read ∨ k = .write ∨ k = .reassign ∨ k = .reserve ∨ k = .flushMap ∨
      k = .reportMap → (s.admits c k = true ↔ s.ctl.state = .ready)) ∧
    (s.admits c .eject = true ↔ s.ctl.state = .ready ∨ s.ctl.state = .unreadable ∨
      ((s.ctl.state = .unmounting ∨ s.ctl.state = .faulted) ∧
        ∀ e ∈ s.ctl.ejectRequesters, e.1 ≠ c)) ∧
    (s.admits c .mount = true ↔ s.ctl.state = .unreadable ∨ s.ctl.state = .faulted) ∧
    (∀ k, k = RequestKind.status ∨ k = .setPolicy ∨ k = .setChannel ∨ k = .release ∨ k = .abort →
      s.admits c k = true)

/-- Check 8 (R170, R171): against the entries of the other channel alone. A range from L of n LSNs
overlaps an entry when L < first + count and first < L + n. -/
def Obligations.ReservationCheck : Prop :=
  ∀ (s : State) (c : Channel) (b : RequestBlock),
    let meets := fun (n : Nat) (e : Reservation) =>
      e.owner = c.other ∧ b.lsn < e.first + e.count ∧ e.first < b.lsn + n
    let taken := min b.reserveCount (s.dm.capacity - b.lsn)
    (s.reservationConflict c b .write = true ↔ ∃ e ∈ s.reservations, meets b.count e) ∧
    (s.reservationConflict c b .reassign = true ↔ ∃ e ∈ s.reservations, meets 1 e) ∧
    (s.reservationConflict c b .read = true ↔
      ∃ e ∈ s.reservations, meets b.count e ∧ e.mode = .exclusive) ∧
    (s.reservationConflict c b .reserve = true ↔
      ∃ e ∈ s.reservations, meets taken e ∧ (b.reserveMode = 2 ∨ e.mode = .exclusive)) ∧
    (s.reservationConflict c b .eject = true ↔ ∃ e ∈ s.reservations, e.owner = c.other) ∧
    ∀ k, k ≠ .write → k ≠ .reassign → k ≠ .read → k ≠ .reserve → k ≠ .eject →
      s.reservationConflict c b k = false

/-! ### The kinds (R156) -/

/-- READ accepted: its record joins the list with its fields, in SLOT WAIT, ACTIVE or DELIVERING, and no
other request changes; without SEQUENTIAL the channel's read-ahead is cancelled. Nothing is posted, and
only a FREE slot or one that R62 lets a new sector take changes its content. The READ is served at once,
also where others wait (the model's reading, log 18): its sectors bind.

A sector binds to its LSN's current slot: it joins the slot's binding list, waiting where the slot is
FILLING, and holding where it is CLEAN, WRITING or FETCHING. A CLEAN unclaimed slot is charged to the
READ's channel; where that channel has 16 slots charged the sector does not bind.

With no current slot it takes a new one, which becomes FETCHING for the LSN with the READ as its work,
charged to the READ's channel; where there is none, or the channel has 16 slots charged, it does not bind.
Until its fetch has written it the slot's content is 0 (the model's choice, log 14).

The new slot is the FREE one with the lowest index; with none FREE, among the non-stale CLEAN unclaimed
slots, those left out set aside, the one whose stamp has the greatest age, the lowest index winning a
tie; with none of these there is no slot.

The sectors bind in LSN order until one cannot: that one and every later one stays as it is, and the READ
joins the slot-wait list; once none is left to bind it is not on the list. -/
def Obligations.ReadAccepted : Prop :=
  (∀ (c : Channel) (tag : Byte) (lsn : BitVec 24) (count : Byte) (deadline : BitVec 16)
    (flags : Byte) (s : State), s.between = true →
    s.accepts c (readBlock tag lsn count deadline flags) = true →
      ∃ (u : State) (r : Request), exec (.read c tag lsn count deadline flags) s = .next u ∧
        u.reqs c = s.reqs c ++ [r] ∧ u.reqs c.other = s.reqs c.other ∧
        r.id = s.nextId ∧ r.tag = tag ∧ r.kind = .read ∧ r.lsn = lsn.toNat ∧
        r.count = count.toNat ∧ r.sequential = (flags == 1) ∧
        r.deadline = (if deadline = 0 then none else some deadline.toNat) ∧
        r.sectorsDone = 0 ∧ r.worstLoad = none ∧ r.firstFailing = none ∧ r.late = false ∧
        r.sectors.length = count.toNat ∧
        (r.state = .slotWait ∨ r.state = .active ∨ r.state = .delivering) ∧
        (flags = 0 → u.sched.readAhead.get c = none) ∧
        u.sched.readAhead.get c.other = s.sched.readAhead.get c.other ∧
        (∀ j, (s.slotAt j).state ≠ .free → (s.slotAt j).replaceable = false →
          (u.slotAt j).content = (s.slotAt j).content) ∧
        (∀ d, (u.port d).outbox = (s.port d).outbox) ∧
        u = { s with ports := u.ports, requests := u.requests, pool := u.pool, sched := u.sched,
                     nextId := s.nextId + 1 } ∧
        u.sched = { s.sched with readAhead := u.sched.readAhead }) ∧
  (∀ (c : Channel) (tag : Byte) (lsn : BitVec 24) (count : Byte) (deadline : BitVec 16)
    (flags : Byte) (s : State),
    s.accepts c (readBlock tag lsn count deadline flags) = true →
      let b := readBlock tag lsn count deadline flags
      let t : State := { s with
        ports := s.ports.set c { s.port c with partialBlock := none }
        requests := s.requests.set c (s.reqs c ++ [s.newRequest b .read])
        sched := if flags = 1 then s.sched
          else { s.sched with readAhead := s.sched.readAhead.set c none }
        nextId := s.nextId + 1 }
      (s.newRequest b .read).sectors =
          List.replicate count.toNat { st := .waiting, load := none } ∧
        exec (.read c tag lsn count deadline flags) s =
          .next (State.finish s (t.serveRead c s.nextId).1)) ∧
  (∀ (s : State) (c : Channel) (id lsn i : Nat), s.currentSlot lsn = some i →
      let joins := fun (t : State) => BindResult.bound (t.setSlot i
        { t.slotAt i with
          bindings := (t.slotAt i).bindings ++
            [{ ch := c, id := id, waiting := (t.slotAt i).state == .filling }]
          holdCount := holdCountOf ((t.slotAt i).bindings ++
            [{ ch := c, id := id, waiting := (t.slotAt i).state == .filling }])
          stamp := s.timebase }) i
      let charged := (s.pool.slots.filter (fun x => x.charged == .channel c)).length
      let unclaimed := (s.slotAt i).state = .clean ∧ (s.slotAt i).claimed = false
      ((s.slotAt i).state ≠ .free → ¬unclaimed → s.bindSector c id lsn = joins s) ∧
      (unclaimed → charged < 16 → i < s.pool.slots.length → s.bindSector c id lsn =
        joins (s.setSlot i { s.slotAt i with charged := .channel c, chargedFor := some id })) ∧
      (unclaimed → 16 ≤ charged → s.bindSector c id lsn = .barred .quota)) ∧
  (∀ (s : State) (c : Channel) (id lsn : Nat), s.currentSlot lsn = none →
      let charged := (s.pool.slots.filter (fun x => x.charged == .channel c)).length
      (s.chooseSlot [] = none → s.bindSector c id lsn = .barred .slots) ∧
      ∀ i, s.chooseSlot [] = some i → i < s.pool.slots.length →
        (16 ≤ charged → s.bindSector c id lsn = .barred .quota) ∧
        (charged < 16 → ∃ u, s.bindSector c id lsn = .bound u i ∧ u.currentSlot lsn = some i ∧
          u.slotAt i =
            { state := .fetching, lsn := some lsn, stale := false, work := some (.read c id),
              bindings := [{ ch := c, id := id, waiting := false }], holdCount := 1,
              charged := .channel c, chargedFor := some id, stage := none, stamp := s.timebase,
              fetchBegun := false, content := [] } ∧
          (∀ j, j ≠ i → u.slotAt j = s.slotAt j) ∧ u = { s with pool := u.pool })) ∧
  (∀ (s : State) (out : List Nat) (i : Nat), s.chooseSlot out = some i ↔
      i < s.pool.slots.length ∧
        (((s.slotAt i).state = .free ∧ ∀ j < i, (s.slotAt j).state ≠ .free) ∨
          ((∀ j < s.pool.slots.length, (s.slotAt j).state ≠ .free) ∧
            (s.slotAt i).replaceable = true ∧ i ∉ out ∧
            ∀ j < s.pool.slots.length, (s.slotAt j).replaceable = true → j ∉ out →
              (s.timebase - (s.slotAt j).stamp).toNat < (s.timebase - (s.slotAt i).stamp).toNat ∨
                ((s.timebase - (s.slotAt j).stamp).toNat =
                  (s.timebase - (s.slotAt i).stamp).toNat ∧ i ≤ j)))) ∧
  (∀ x : Slot, x.replaceable = true ↔ x.state = .clean ∧ x.stale = false ∧ x.claimed = false) ∧
  (∀ (s : State) (c : Channel) (id lsn : Nat), s.bindSectors c id lsn [] = ([], s, none) ∧
      ∀ (x : ReadSector) (xs : List ReadSector),
        (x.st ≠ .waiting → s.bindSectors c id lsn (x :: xs) =
          (x :: (s.bindSectors c id (lsn + 1) xs).1, (s.bindSectors c id (lsn + 1) xs).2)) ∧
        (∀ why, x.st = .waiting → s.bindSector c id lsn = .barred why →
          s.bindSectors c id lsn (x :: xs) = (x :: xs, s, some why)) ∧
        (∀ t i, x.st = .waiting → s.bindSector c id lsn = .bound t i →
          s.bindSectors c id lsn (x :: xs) =
            ({ x with st := .bound i } :: (t.bindSectors c id (lsn + 1) xs).1,
              (t.bindSectors c id (lsn + 1) xs).2))) ∧
  (∀ (s : State) (c : Channel) (id : Nat) (r : Request), s.findReq c id = some r →
      let t := s.bindSectors c id r.lsn r.sectors
      let u : State := t.2.1.updReq c id (fun q => { q with sectors := t.1 })
      (t.2.2 = none → s.serveRead c id = (u.leaveSlotWait id, none)) ∧
      ∀ why, t.2.2 = some why → s.serveRead c id = (u.joinSlotWait id, some why))

/-- WRITE accepted: its record joins the list, the rescue-list entries it covers leave, and its work
covers its LSNs in order. Nothing is posted. Its slots are taken at once where they can be had, also where
others wait (the model's reading, log 18).

Where earlier unfinished write work covers one of its LSNs it is held in OVERLAP WAIT: it takes no slot,
no slot changes and no transfer joins.

Otherwise, where fewer slots than its count are FREE or non-stale CLEAN unclaimed, or its count and the
slots charged to its channel come to more than 16, it is in SLOT WAIT, at the tail of the slot-wait list:
it takes no slot, no slot changes and no transfer joins.

Otherwise it is FILLING: each of its sectors has a slot, which is FILLING for that LSN with the WRITE as
its work, charged to its channel; and its transfer, of 1,024 bytes a sector, none moved, joins the tail of
the port's list. The request's state says the same as its work. An LSN's current slot that is CLEAN and
unclaimed is taken over; another one is made stale: it keeps its state, content, fetch and READs where a
READ or a fetch in flight keeps it, is current no more, and the sector has another slot (R59, R69). -/
def Obligations.WriteAccepted : Prop :=
  ∀ (c : Channel) (tag : Byte) (lsn : BitVec 24) (count : Byte) (s : State), s.between = true →
    s.worksOwned = true → s.pool.placed = true →
    s.accepts c (writeBlock tag lsn count) = true →
      ∃ (u : State) (w : WriteWork), exec (.write c tag lsn count) s = .next u ∧
        (u.reqs c).map (fun x => (x.id, x.tag)) =
          (s.reqs c).map (fun x => (x.id, x.tag)) ++ [(s.nextId, tag)] ∧
        (u.reqs c.other).map (fun x => (x.id, x.tag)) =
          (s.reqs c.other).map (fun x => (x.id, x.tag)) ∧
        u.works = s.works ++ [w] ∧ w.id = s.nextId ∧ w.kind = .write ∧ w.owner = some c ∧
        w.sectors.map (fun x => x.lsn) = (List.range count.toNat).map (lsn.toNat + ·) ∧
        (∀ r ∈ u.reqs c, r.id = s.nextId → r.kind = .write ∧ r.sectorsDone = 0 ∧
          ((w.phase = .overlapWait ∧ r.state = .overlapWait) ∨
            (w.phase = .slotWait ∧ r.state = .slotWait) ∨
              (w.phase = .filling ∧ r.state = .filling))) ∧
        u.dm = { s.dm with
          rescueList := s.dm.rescueList.filter
            (fun e => !(decide (lsn.toNat ≤ e.1) && decide (e.1 < lsn.toNat + count.toNat))) } ∧
        (∀ d, (u.port d).outbox = (s.port d).outbox) ∧
        u = { s with ports := u.ports, requests := u.requests, pool := u.pool, sched := u.sched,
                     dm := u.dm, works := u.works, nextId := s.nextId + 1 } ∧
        let held := ∃ e ∈ s.works, ∃ x ∈ e.sectors,
          lsn.toNat ≤ x.lsn ∧ x.lsn < lsn.toNat + count.toNat
        let barred :=
          (s.pool.slots.filter (fun x => x.state == .free ||
            (x.state == .clean && !x.stale && !x.claimed))).length < count.toNat ∨
          16 < (s.pool.slots.filter (fun x => x.charged == .channel c)).length + count.toNat
        (held → w.phase = .overlapWait ∧ (∀ x ∈ w.sectors, x.slot = none) ∧ u.pool = s.pool ∧
          (u.port c).transfers = (s.port c).transfers) ∧
        (¬held → barred → w.phase = .slotWait ∧ (∀ x ∈ w.sectors, x.slot = none) ∧
          u.pool = (s.joinSlotWait s.nextId).pool ∧ s.nextId ∈ u.pool.slotWait ∧
          (u.port c).transfers = (s.port c).transfers) ∧
        (¬held → ¬barred → w.phase = .filling ∧
          (∀ x ∈ w.sectors, ∃ i, x.slot = some i ∧ i < u.pool.slots.length ∧
            (u.slotAt i).state = .filling ∧ (u.slotAt i).lsn = some x.lsn ∧
            (u.slotAt i).stale = false ∧ (u.slotAt i).work = some (.write s.nextId) ∧
            (u.slotAt i).charged = .channel c ∧ u.currentSlot x.lsn = some i ∧
            ∀ j, s.currentSlot x.lsn = some j →
              let y := s.slotAt j
              let free := y.state = .clean ∧ y.stale = false ∧ y.claimed = false
              (free → i = j) ∧
              (¬free → ((y.state = .clean ∨ y.state = .fetching) ∧ y.bindings ≠ [] ∨
                  y.state = .fetching ∧ y.fetchBegun = true) → i ≠ j ∧
                u.slotAt j = { y with stale := true, charged := (u.slotAt j).charged
                                      chargedFor := (u.slotAt j).chargedFor })) ∧
          (u.port c).transfers = (s.port c).transfers ++
            [{ request := s.nextId, tag := tag, dir := .inward, length := count.toNat * 1024,
               moved := 0, record := [] }])

/-- REASSIGN accepted: the rescue-list entry for its LSN leaves, and its record joins the list with its
work, or, where its allocation is refused at once, its completion is posted. It is served at once, also
where others wait (the model's reading, log 18).

Where earlier unfinished write work covers its LSN it is held in OVERLAP WAIT, and no slot changes.
Otherwise, where no slot is FREE or non-stale CLEAN unclaimed, or 16 are charged to its channel, it is in
SLOT WAIT at the tail of the slot-wait list, and no slot changes (R68, R74).

Otherwise a CLEAN unclaimed current slot is taken over: WRITING at QUEUED for it with its content, charged
to its channel, and the allocation is made at once. Done, the LSN is reassigned from its current place and
the request is ACTIVE with its follow-up run to be taken. Refused, it completes with the refusal's status,
sectors done 0 and first failing LSN its LSN, and the slot is FREE (R49, R72, R74).

With no such slot it is ACTIVE in its data step: a slot FETCHING for it is its LSN's current one, charged to
its channel (R74). -/
def Obligations.ReassignAccepted : Prop :=
  ∀ (c : Channel) (tag : Byte) (lsn : BitVec 24) (s : State), s.between = true →
    s.worksOwned = true → s.accepts c (reassignBlock tag lsn) = true →
      ∃ u : State, exec (.reassign c tag lsn) s = .next u ∧
        (u.reqs c.other).map (fun x => (x.id, x.tag)) =
          (s.reqs c.other).map (fun x => (x.id, x.tag)) ∧
        u.dm.rescueList = s.dm.rescueList.filter (fun e => e.1 != lsn.toNat) ∧
        (u.port c.other).outbox = (s.port c.other).outbox ∧
        u = { s with ports := u.ports, requests := u.requests, pool := u.pool, sched := u.sched,
                     dm := u.dm, works := u.works, nextId := u.nextId } ∧
        let held := ∃ e ∈ s.works, ∃ x ∈ e.sectors, x.lsn = lsn.toNat
        let barred :=
          (∀ x ∈ s.pool.slots, x.state ≠ .free ∧ x.replaceable = false) ∨
          16 ≤ (s.pool.slots.filter (fun x => x.charged == .channel c)).length
        let answer := s.dm.reassign lsn.toNat ((s.dm.translate lsn.toNat).getD (0, 0))
          s.policy.settleDelay
        let kept := u.dm = { s.dm with rescueList := u.dm.rescueList }
        let outstanding := fun (ph : WorkPhase) (st : RequestState) (more : WriteWork → Prop) =>
          (u.reqs c).map (fun x => (x.id, x.tag)) =
            (s.reqs c).map (fun x => (x.id, x.tag)) ++ [(s.nextId, tag)] ∧
          (∃ r ∈ u.reqs c, r.id = s.nextId ∧ r.kind = .reassign ∧ r.state = st ∧
            r.sectorsDone = 0) ∧
          (u.port c).outbox = (s.port c).outbox ∧
          ∃ w, u.works = s.works ++ [w] ∧ w.id = s.nextId ∧ w.kind = .reassign ∧
            w.owner = some c ∧ w.phase = ph ∧ w.sectors.map (fun x => x.lsn) = [lsn.toNat] ∧ more w
        answer ≠ .mismatch ∧ (held → kept ∧ u.pool = s.pool ∧
          outstanding .overlapWait .overlapWait (fun w => ∀ x ∈ w.sectors, x.slot = none)) ∧
        (¬held → barred → kept ∧ u.pool = (s.joinSlotWait s.nextId).pool ∧
          s.nextId ∈ u.pool.slotWait ∧
          outstanding .slotWait .slotWait (fun w => ∀ x ∈ w.sectors, x.slot = none)) ∧
        (¬held → ¬barred → ∀ i, s.currentSlot lsn.toNat = some i → (s.slotAt i).replaceable = true →
          (∀ d, answer = .done d → u.dm = { d with rescueList := u.dm.rescueList } ∧
            u.slotAt i = { s.slotAt i with
              state := .writing, stage := some .queued, work := some (.reassign s.nextId),
              charged := .channel c, chargedFor := some s.nextId } ∧
            outstanding .runs .active (fun w => (∀ x ∈ w.sectors, x.slot = some i) ∧
              w.reassigned = true ∧ w.eraseOnly = false ∧
              w.followUps.map (fun r => (r.track, r.sectors)) =
                (d.followUpRuns [lsn.toNat]).map (fun r => (r.track, r.sectors)))) ∧
          ∀ st, answer = .refused st → kept ∧ u.works = s.works ∧ (u.slotAt i).state = .free ∧
            (u.reqs c).map (fun x => (x.id, x.tag)) = (s.reqs c).map (fun x => (x.id, x.tag)) ∧
            ∃ b : OutBlock, (u.port c).outbox = (s.port c).outbox ++ [b] ∧ b.tag = tag ∧
              b.kind = 0x03 ∧ b.status = st.code ∧ b.status ≠ 0x00 ∧ b.result = 0 ∧ b.lsn = lsn ∧
              b.time = s.timebase) ∧
        (¬held → ¬barred → (∀ i, s.currentSlot lsn.toNat = some i →
            (s.slotAt i).replaceable = false) →
          kept ∧ outstanding .dataStep .active (fun w => ∀ x ∈ w.sectors, ∃ i, x.slot = some i ∧
            i < u.pool.slots.length ∧ (u.slotAt i).state = .fetching ∧
            (u.slotAt i).lsn = some lsn.toNat ∧ (u.slotAt i).stale = false ∧
            (u.slotAt i).work = some (.reassign s.nextId) ∧ (u.slotAt i).fetchBegun = false ∧
            (u.slotAt i).charged = .channel c ∧ u.currentSlot lsn.toNat = some i))

/-- RESERVE accepted (R171): with the table full the completion is TABLE FULL; otherwise the entry stands
in its place by id, with the lowest free id and the count clamped to capacity, and the completion carries
the id. Nothing else changes.

The id a RESERVE takes is the lowest from 1 upward that no entry holds, and there is none exactly when
the table holds 8 entries. -/
def Obligations.ReserveAccepted : Prop :=
  (∀ (c : Channel) (tag : Byte) (lsn count : BitVec 24) (mode : Byte) (s : State),
      s.between = true → s.accepts c (reserveBlock tag lsn count mode) = true →
        exec (.reserve c tag lsn count mode) s = .next
          (match freeReservationId s.reservations with
          | none => { s with
              nextId := s.nextId + 1
              ports := s.ports.set c ((s.port c).completed1
                (plainCompletion tag 0x10 0x0A 0 s.timebase)) }
          | some i => { s with
              nextId := s.nextId + 1
              ports := s.ports.set c ((s.port c).completed1
                (plainCompletion tag 0x10 0x00 (BitVec.ofNat 8 i) s.timebase))
              reservations := insertReservation
                { id := i, owner := c, first := lsn.toNat,
                  count := min count.toNat (s.dm.capacity - lsn.toNat),
                  mode := if mode = 0x02 then .exclusive else .shared } s.reservations })) ∧
  (∀ es : List Reservation, tableForm es = true →
      (freeReservationId es = none ↔ es.length = 8) ∧
      ∀ i, freeReservationId es = some i → 1 ≤ i ∧ i ≤ 8 ∧ (∀ e ∈ es, e.id ≠ i) ∧
        ∀ j, 1 ≤ j → j < i → ∃ e ∈ es, e.id = j)

/-- RELEASE accepted (R172): the entry with that id, when the channel owns it, leaves, and the completion
is SUCCESS; otherwise it is NO SUCH RESERVATION and the table stays. No other entry, no request, no slot and
nothing else changes. -/
def Obligations.ReleaseAccepted : Prop :=
  ∀ (c : Channel) (tag id : Byte) (s : State), s.between = true →
    s.accepts c (releaseBlock tag id) = true →
      exec (.release c tag id) s = .next
        (if ∃ e ∈ s.reservations, e.id = id.toNat ∧ e.owner = c then { s with
          nextId := s.nextId + 1
          ports := s.ports.set c ((s.port c).completed1
            (plainCompletion tag 0x11 0x00 0 s.timebase))
          reservations := s.reservations.filter (fun e => !(e.id == id.toNat && e.owner == c)) }
        else { s with
          nextId := s.nextId + 1
          ports := s.ports.set c ((s.port c).completed1
            (plainCompletion tag 0x11 0x0B 0 s.timebase)) })

/-- FLUSH MAP accepted: with the map clean and no writeback in flight it completes SUCCESS at once;
otherwise it waits, QUEUED, at the end of its channel's list. Nothing else changes. -/
def Obligations.FlushMapAccepted : Prop :=
  ∀ (c : Channel) (tag : Byte) (s : State), s.between = true →
    s.accepts c (bareBlock .flushMap tag) = true →
      exec (.flushMap c tag) s = .next
        (if s.dm.dirty = false ∧ s.writebackInFlight = false then { s with
          nextId := s.nextId + 1
          ports := s.ports.set c ((s.port c).completed1
            (plainCompletion tag 0x20 0x00 0 s.timebase)) }
        else { s with
          nextId := s.nextId + 1
          ports := s.ports.set c { s.port c with partialBlock := none }
          requests := s.requests.set c
            (s.reqs c ++ [queuedRequest s.nextId tag .flushMap]) })

/-- EJECT accepted (R142, R149): the request waits, QUEUED, on the eject-requesters list. In READY the unmount
starts: UNMOUNTING, the rescue list empty, both read-aheads cancelled. In UNMOUNTING it only joins the
list. In UNREADABLE, and in FAULTED without a recovery, the mechanism EJECT is sent and the state is
EJECTING; during a recovery eject pending is set. Nothing is posted. (In READY no unmount answer is
held; the clause on read-ahead leaves out a rescue cut short beside a READ whose read-ahead moment is
still to come.) -/
def Obligations.EjectAccepted : Prop :=
  ∀ (c : Channel) (tag : Byte) (s : State), s.between = true →
    s.accepts c (bareBlock .eject tag) = true →
    (s.ctl.state = .ready → s.ctl.unmountAnswer = none) →
      ∃ u : State, exec (.eject c tag) s = .next u ∧
        (u.reqs c).map (fun x => (x.id, x.tag)) =
          (s.reqs c).map (fun x => (x.id, x.tag)) ++ [(s.nextId, tag)] ∧
        queuedRequest s.nextId tag .eject ∈ u.reqs c ∧
        (∀ d, (u.port d).outbox = (s.port d).outbox) ∧
        u.ctl.ejectRequesters = s.ctl.ejectRequesters ++ [(c, tag)] ∧
        u.reservations = s.reservations ∧ u.engine = s.engine ∧ u.medium = s.medium ∧
        (s.ctl.state = .ready → u.ctl.state = .unmounting ∧ u.dm.rescueList = [] ∧
          (∀ d, (s.rescue = none ∨ ∀ r ∈ s.reqs d, r.sequential = true →
            r.readAheadPassed = true) → u.sched.readAhead.get d = none) ∧ u.link = s.link) ∧
        (s.ctl.state = .unmounting → u.ctl.state = .unmounting ∧ u.dm = s.dm ∧ u.link = s.link) ∧
        (s.ctl.state = .unreadable ∨ s.ctl.state = .faulted ∧ s.ctl.recovering = false →
          u.ctl.state = .ejecting ∧ u.dm = s.dm ∧
            u.link = (s.sendCommand .cartridgeController .eject).link) ∧
        (s.ctl.state = .faulted → s.ctl.recovering = true →
          u.ctl.state = .faulted ∧ u.ctl.ejectPending = true ∧ u.dm = s.dm ∧ u.link = s.link)

/-- MOUNT accepted (R139, R148, R150): the request waits, QUEUED, on the mount-requesters list. In
UNREADABLE the state is SPINNING, and SPIN UP is sent once the start-up report has ended; in FAULTED without
a recovery the recovery starts and REPORT STATE is sent. Nothing else changes. -/
def Obligations.MountAccepted : Prop :=
  ∀ (c : Channel) (tag : Byte) (s : State), s.between = true →
    s.accepts c (bareBlock .mount tag) = true →
      let t := { s with
        nextId := s.nextId + 1
        ports := s.ports.set c { s.port c with partialBlock := none }
        requests := s.requests.set c (s.reqs c ++ [queuedRequest s.nextId tag .mount])
        ctl := { s.ctl with
          mountRequesters := s.ctl.mountRequesters ++ [(c, tag)]
          state := if s.ctl.state = .unreadable then .spinning else s.ctl.state
          recovering := if s.ctl.state = .unreadable then s.ctl.recovering else true } }
      exec (.mount c tag) s = .next
        (if s.ctl.state = .unreadable then
          (if s.ctl.startupReport then t else t.sendCommand .cartridgeController .spinUp)
        else if s.ctl.recovering then t else t.sendCommand .cartridgeController .reportState)

/-- STATUS and REPORT MAP accepted (R161): the record is built from the state at that moment, its transfer
joins the list's tail, and the request is DELIVERING; a STATUS with the clear flag then clears the
channel's counters. Nothing else changes, but that idle remaining starts where no transfer stood.

The STATUS record has 53 bytes, each field in its place, most significant byte first (11.6).

The REPORT MAP record of a band has 22 bytes and 8 for each of the band's replacement entries, in list
order (11.6). -/
def Obligations.RecordRequestsAccepted : Prop :=
  (∀ (c : Channel) (tag : Byte) (s : State), s.between = true →
    let after := fun (b : RequestBlock) (k : RequestKind) (record : List Byte)
        (n : Counters) => Host.Outcome.next (φ := Fault) (ρ := Refusal) { s with
      nextId := s.nextId + 1
      requests := s.requests.set c
        (s.reqs c ++ [{ s.newRequest b k with state := .delivering }])
      ports := s.ports.set c { s.port c with
        partialBlock := none
        transfers := (s.port c).transfers ++
          [{ request := s.nextId, tag := tag, dir := .outward, length := record.length, moved := 0,
             record := record }]
        counters := n
        idle := if (s.port c).transfers.isEmpty then idleCount (s.port c).settings.idleLimit
          else (s.port c).idle } }
    (∀ clear, s.accepts c (statusBlock tag clear) = true → exec (.status c tag clear) s =
      after (statusBlock tag clear) .status (s.statusRecord c)
        (if clear = 1 then Counters.reset else (s.port c).counters)) ∧
    (∀ band, s.accepts c (reportMapBlock tag band) = true → exec (.reportMap c tag band) s =
      after (reportMapBlock tag band) .reportMap (s.mapRecord band.toNat) (s.port c).counters)) ∧
  (∀ n v : Nat, (bytesOf n v).length = n ∧
    ∀ k < n, (bytesOf n v)[k]? = some (BitVec.ofNat 8 (v / 256 ^ (n - 1 - k)))) ∧
  (∀ (s : State) (c : Channel),
    let part := fun (k n : Nat) => ((s.statusRecord c).drop k).take n
    let flag := fun (b : Bool) => if b then 1 else 0
    let p := s.policy
    let t := (s.port c).settings
    let n := (s.port c).counters
    (s.statusRecord c).length = 53 ∧
      part 0 1 = [match s.ctl.state with
        | .empty => 0 | .spinning => 1 | .mounting => 2 | .ready => 3
        | .unmounting => 4 | .ejecting => 5 | .unreadable => 6 | .faulted => 7] ∧
      part 1 1 = [match s.ctl.readOnly with
        | .none => 0 | .writeProtected => 1 | .mapDamaged => 2 | .indexWriteFailed => 3] ∧
      part 2 1 = bytesOf 1 (flag s.ctl.writeProtect) ∧ part 3 1 = bytesOf 1 (flag s.dm.dirty) ∧
      part 4 3 = bytesOf 3 s.dm.capacity ∧ part 7 1 = bytesOf 1 s.dm.bands.length ∧
      part 8 2 = bytesOf 2 s.dm.totalFreeSpares ∧ part 10 2 = bytesOf 2 s.dm.slips.length ∧
      part 12 2 = bytesOf 2 s.dm.replacement.length ∧
      part 14 4 = bytesOf 4 s.dm.generation.toNat ∧
      part 18 1 = bytesOf 1 s.dm.rescueList.length ∧
      part 19 1 = bytesOf 1 p.verifyLimit ∧ part 20 1 = bytesOf 1 p.rescueThreshold ∧
      part 21 1 = bytesOf 1 p.readRetries ∧ part 22 1 = bytesOf 1 p.mechRetries ∧
      part 23 1 = bytesOf 1 p.insertionLimit ∧ part 24 2 = bytesOf 2 p.urgencyWindow ∧
      part 26 2 = bytesOf 2 p.settleDelay ∧
      part 28 1 = bytesOf 1 t.queueDepth ∧ part 29 2 = bytesOf 2 t.idleLimit ∧
      part 31 1 = bytesOf 1 t.readAheadWindow ∧
      part 32 1 = bytesOf 1 (flag t.completionEnable + 2 * flag t.dataEnable) ∧
      part 33 2 = bytesOf 2 n.completed ∧ part 35 2 = bytesOf 2 n.sectorsRead ∧
      part 37 2 = bytesOf 2 n.sectorsWritten ∧ part 39 2 = bytesOf 2 n.corrected ∧
      part 41 2 = bytesOf 2 n.expired ∧ part 43 2 = bytesOf 2 n.late ∧
      part 45 2 = bytesOf 2 s.dm.reassignments ∧ part 47 2 = bytesOf 2 s.dm.rescuesDone ∧
      part 49 2 = bytesOf 2 s.dm.rescuesDropped ∧ part 51 2 = bytesOf 2 s.link.linkRetries) ∧
  (∀ (s : State) (b : Nat),
    let part := fun (k n : Nat) => ((s.mapRecord b).drop k).take n
    let entries := s.dm.replacement.filter (fun e => match e with
      | .moved x _ _ => x == b
      | .retired x _ => x == b)
    (s.mapRecord b).length = 22 + 8 * entries.length ∧
      part 0 1 = bytesOf 1 b ∧ part 1 2 = bytesOf 2 (s.dm.band b).firstTrack ∧
      part 3 2 = bytesOf 2 (s.dm.band b).trackCount ∧
      part 5 1 = bytesOf 1 (s.dm.band b).sectorsPerTrack ∧
      part 6 1 = bytesOf 1 (s.dm.band b).spareTracks ∧
      part 7 3 = bytesOf 3 (s.dm.bandCapacity b) ∧
      part 10 2 = bytesOf 2 (s.dm.dataSlips b).length ∧
      part 12 2 = bytesOf 2 (s.dm.spareSlips b).length ∧
      part 14 2 = bytesOf 2 (s.dm.movedTargets b).length ∧
      part 16 2 = bytesOf 2 (s.dm.retiredSpares b).length ∧
      part 18 2 = bytesOf 2 (s.dm.freeSpares b) ∧ part 20 2 = bytesOf 2 entries.length ∧
      ∀ k e, entries[k]? = some e → part (22 + 8 * k) 8 = match e with
        | .moved x q y => [0x01] ++ bytesOf 1 x ++ bytesOf 3 q ++ bytesOf 2 y ++ [0x00]
        | .retired x y => [0x02] ++ bytesOf 1 x ++ bytesOf 3 0 ++ bytesOf 2 y ++ [0x00])

/-- SET POLICY accepted: all seven values are taken, each clamped to its range, the verify limit first and
the rescue threshold against it (R184); a raised threshold acts on the rescue list (R45) and a new settle
delay on a running settle remaining (R50); the completion is SUCCESS, and POLICY CHANGED goes to both
ports, after the completion at the request's own (the model's choice, log 48). Nothing else changes. -/
def Obligations.SetPolicyAccepted : Prop :=
  ∀ (c : Channel) (tag v r n m i : Byte) (u d : BitVec 16) (s : State), s.between = true →
    s.accepts c (setPolicyBlock tag v r n m i u d) = true →
      let verify := min v.toNat 6
      let p : Policy :=
        { verifyLimit := verify
          rescueThreshold := max (max 2 (verify + 1)) (min r.toNat 7)
          readRetries := min n.toNat 7
          mechRetries := min m.toNat 3
          insertionLimit := min i.toNat 8
          urgencyWindow := min u.toNat 1000
          settleDelay := min d.toNat 10000 }
      exec (.setPolicy c tag v r n m i u d) s = .next
        ((({ s with
          nextId := s.nextId + 1
          policy := p
          dm := { s.dm with
            rescueList := if s.policy.rescueThreshold < p.rescueThreshold then
                (if p.rescueThreshold = 7 then []
                  else s.dm.rescueList.filter (fun e => decide (p.rescueThreshold ≤ e.2)))
              else s.dm.rescueList
            settle := match s.dm.settle with
              | .running k => .running (min k p.settleDelay)
              | .absent => .absent
              | .reached => .reached }
          ports := s.ports.set c ((s.port c).completed1
            (plainCompletion tag 0x40 0x00 0 s.timebase)) } : State).postNotice .A
              .policyChanged).postNotice .B .policyChanged)

/-- SET CHANNEL accepted: the four settings of the channel are taken, each clamped to its range (R185); a
read-ahead window of 0 cancels the channel's read-ahead, and a data idle limit of 0 makes idle remaining
absent; the completion is SUCCESS. Nothing else changes. -/
def Obligations.SetChannelAccepted : Prop :=
  ∀ (c : Channel) (tag depth : Byte) (limit : BitVec 16) (window enables : Byte) (s : State),
    s.between = true → s.accepts c (setChannelBlock tag depth limit window enables) = true →
      exec (.setChannel c tag depth limit window enables) s = .next { s with
        nextId := s.nextId + 1
        sched := { s.sched with readAhead :=
          if window = 0 then s.sched.readAhead.set c none else s.sched.readAhead }
        ports := s.ports.set c
          { ((s.port c).completed1 (plainCompletion tag 0x41 0x00 0 s.timebase)) with
            settings :=
              { queueDepth := max 1 (min depth.toNat 12)
                idleLimit := min limit.toNat 10000
                readAheadWindow := min window.toNat 16
                completionEnable := enables.getLsbD 0
                dataEnable := enables.getLsbD 1 }
            idle := if limit = 0 then none else (s.port c).idle } }

/-- An ABORT that names no outstanding request of its channel, or itself, completes NO SUCH TAG; nothing
else changes (R163).

An ABORT of a request without media work completes both at once: the target ABORTED, then the ABORT
SUCCESS; the target leaves its requesters list and its transfer leaves. At the port the counters count
both completions, and idle remaining restarts where another transfer is current now and is absent where
there is none; everything else stays but for the ABORT's own acceptance (R163, R181, R186).

An ABORT of a READ ends it at once: its completion is ABORTED with the sectors done as taken, posted
before the ABORT's own; its transfer leaves. The other port's outbox, the map, the link, the engine, the
write work, the medium and the cartridge state stay (R67, R163).

An ABORT of a request whose abort mark is set already changes nothing but its own completion, SUCCESS
(R163).

An ABORT of a WRITE or REASSIGN with no run open and none due ends it at once: its unfinished work goes,
its transfer leaves, and its completion is ABORTED with the sectors that passed and the lowest LSN that
failed, posted before the ABORT's own (R73, R97, R103, R163).

An ABORT of a WRITE or REASSIGN with a run open or due sets the abort mark of the request and of its
work; the request stays outstanding, the open run and the runs due stay (a due run that holds no sector,
which no run of the machine forms, goes), and every other sector without a result is dropped; the ABORT
completes SUCCESS (R73, R103, R163). -/
def Obligations.Aborts : Prop :=
  (∀ (c : Channel) (tag target : Byte) (s : State), s.between = true →
      s.accepts c (abortBlock tag target) = true → (∀ r ∈ s.reqs c, r.tag ≠ target) →
        exec (.abort c tag target) s = .next { s with
          nextId := s.nextId + 1
          ports := s.ports.set c ((s.port c).completed1
            (plainCompletion tag 0x50 0x0C 0 s.timebase)) }) ∧
  (∀ (c : Channel) (tag target : Byte) (r : Request) (s : State), s.between = true →
      s.accepts c (abortBlock tag target) = true → (s.reqs c).filter (fun x => x.tag == target) = [r] →
      r.abortMark = false → (r.kind = .flushMap ∨ r.kind = .eject ∨ r.kind = .mount ∨
        r.kind = .status ∨ r.kind = .reportMap) →
        ∃ u : State, exec (.abort c tag target) s = .next u ∧
          (u.port c).outbox = (s.port c).outbox ++
            [({ r with result := some .aborted } : Request).completion s.timebase,
              plainCompletion tag 0x50 0x00 0 s.timebase] ∧
          u.reqs c = (s.reqs c).filter (fun x => x.id != r.id) ∧
          (u.port c).transfers = (s.port c).transfers.filter (fun x => x.request != r.id) ∧
          u.port c = { s.port c with
            partialBlock := none, outbox := (u.port c).outbox, transfers := (u.port c).transfers
            counters := { (s.port c).counters with
              completed := min ((s.port c).counters.completed + 2) 65535
              late := min ((s.port c).counters.late + if r.late then 1 else 0) 65535 }
            idle := match (u.port c).transfers.head? with
              | none => none
              | some t =>
                if (s.port c).transfers.head? = some t then (s.port c).idle
                else if (s.port c).settings.idleLimit = 0 then none
                else some (s.port c).settings.idleLimit } ∧
          u.port c.other = s.port c.other ∧ u.reqs c.other = s.reqs c.other ∧
          u.ctl = (if r.kind = .eject ∨ r.kind = .mount then { s.ctl with
              ejectRequesters := s.ctl.ejectRequesters.filter (fun e => e != (c, target))
              mountRequesters := s.ctl.mountRequesters.filter (fun e => e != (c, target)) }
            else s.ctl) ∧
          u = { s with ports := u.ports, requests := u.requests, ctl := u.ctl,
                       nextId := s.nextId + 1 }) ∧
  (∀ (c : Channel) (tag target : Byte) (r : Request) (s : State), s.between = true →
      s.accepts c (abortBlock tag target) = true → (s.reqs c).filter (fun x => x.tag == target) = [r] →
      r.abortMark = false → r.kind = .read →
        ∃ (u : State) (b : OutBlock), exec (.abort c tag target) s = .next u ∧
          (u.port c).outbox = (s.port c).outbox ++ [b, plainCompletion tag 0x50 0x00 0 s.timebase] ∧
          b.tag = target ∧ b.kind = 0x01 ∧ b.status = 0x0D ∧
          b.result = BitVec.ofNat 8 r.sectorsDone ∧ b.lsn = 0xFFFFFF ∧ b.time = s.timebase ∧
          (u.reqs c).map (fun x => (x.id, x.tag)) =
            ((s.reqs c).filter (fun x => x.id != r.id)).map (fun x => (x.id, x.tag)) ∧
          (u.port c).transfers = (s.port c).transfers.filter (fun x => x.request != r.id) ∧
          u.port c.other = s.port c.other ∧
          u = { s with ports := u.ports, requests := u.requests, pool := u.pool, sched := u.sched,
                       nextId := s.nextId + 1 } ∧
          u.sched = { s.sched with readAhead := u.sched.readAhead }) ∧
  (∀ (c : Channel) (tag target : Byte) (r : Request) (s : State), s.between = true →
      s.accepts c (abortBlock tag target) = true → (s.reqs c).filter (fun x => x.tag == target) = [r] →
      r.abortMark = true →
        exec (.abort c tag target) s = .next { s with
          nextId := s.nextId + 1
          ports := s.ports.set c ((s.port c).completed1
            (plainCompletion tag 0x50 0x00 0 s.timebase)) }) ∧
  (∀ (c : Channel) (tag target : Byte) (r : Request) (w : WriteWork) (s : State),
      s.between = true → s.accepts c (abortBlock tag target) = true →
      (s.reqs c).filter (fun x => x.tag == target) = [r] → r.abortMark = false →
      (r.kind = .write ∨ r.kind = .reassign) → s.findWork r.id = some w → w.owner = some c →
      (∀ o, s.sched.openRun = some o → o.work ≠ w.name) → w.followUps = [] →
        ∃ (u : State) (b : OutBlock), exec (.abort c tag target) s = .next u ∧
          (u.port c).outbox = (s.port c).outbox ++ [b, plainCompletion tag 0x50 0x00 0 s.timebase] ∧
          b.tag = target ∧ b.kind = r.kind.code ∧ b.status = 0x0D ∧
          b.result = BitVec.ofNat 8 (w.sectors.filter (fun x => x.result == some .passed)).length ∧
          b.lsn = ((w.sectors.find? (fun x => match x.result with
            | some (.failed _) => true
            | _ => false)).map (fun x => BitVec.ofNat 24 x.lsn)).getD 0xFFFFFF ∧
          b.time = s.timebase ∧ u.works = s.works.filter (fun x => x.id != r.id) ∧
          (u.reqs c).map (fun x => (x.id, x.tag)) =
            ((s.reqs c).filter (fun x => x.id != r.id)).map (fun x => (x.id, x.tag)) ∧
          (u.port c).transfers = (s.port c).transfers.filter (fun x => x.request != r.id) ∧
          u.port c.other = s.port c.other ∧
          u = { s with ports := u.ports, requests := u.requests, pool := u.pool, sched := u.sched,
                       works := u.works, nextId := s.nextId + 1 } ∧
          u.sched = { s.sched with readAhead := u.sched.readAhead }) ∧
  (∀ (c : Channel) (tag target : Byte) (r : Request) (w : WriteWork) (s : State),
      s.between = true → s.accepts c (abortBlock tag target) = true →
      (s.reqs c).filter (fun x => x.tag == target) = [r] → r.abortMark = false →
      (r.kind = .write ∨ r.kind = .reassign) → s.findWork r.id = some w →
      ((∃ o, s.sched.openRun = some o ∧ o.work = w.name) ∨ w.followUps ≠ []) →
        ∃ (u : State) (v : WriteWork), exec (.abort c tag target) s = .next u ∧
          (u.port c).outbox = (s.port c).outbox ++ [plainCompletion tag 0x50 0x00 0 s.timebase] ∧
          (u.reqs c).map (fun x => (x.id, x.tag, x.abortMark)) =
            (s.reqs c).map (fun x => (x.id, x.tag, x.abortMark || x.id == r.id)) ∧
          u.findWork r.id = some v ∧
          v = { w with abortMark := true, sectors := v.sectors, followUps := v.followUps } ∧
          v.followUps = w.followUps.filter (fun q => !q.lsns.isEmpty) ∧
          v.sectors = w.sectors.map (fun x =>
            if x.result = none ∧ x.dropped = false ∧ x.lsn ∉ w.followUpLsns ∧
              (∀ o, s.sched.openRun = some o → o.work = w.name → x.lsn ∉ o.run.lsns) then
              { x with dropped := true } else x) ∧
          (∀ x, x.id ≠ r.id → (x ∈ u.works ↔ x ∈ s.works)) ∧
          (u.port c).transfers = (s.port c).transfers ∧ u.port c.other = s.port c.other ∧
          u = { s with ports := u.ports, requests := u.requests, pool := u.pool, sched := u.sched,
                       works := u.works, nextId := s.nextId + 1 } ∧
          u.sched = { s.sched with readAhead := u.sched.readAhead })

/-! ### The 4320's own steps -/

/-- Pending notices are posted in their order while a place beyond the owed ones is free, one more counted
while a block is partly received: no more than those places hold, and where one is left no place is free
for it. What is posted leaves the set, and nothing but that port changes (R168).

A notice raised is posted at once at a port that has such a place, and joins the port's set where it has
none; the notices raised in a step are posted in the order raised, each at both ports. A notice's block
has tag 0, kind 0, the notice's code, no flags, result 0, FFh, FFFFFFh and the time of posting (R166,
R168).

The notice set of a port is kept in ascending code, each kind once, and a notice raised with no place
free joins it (R168).

At the end of a step a channel's settled requests have their completions posted in acceptance order, each
counted, and leave the list (R167, R186).

A READ at the end of a step: at its next sector failed it ends with that sector's status, SHORT, its first
failing LSN the sector's; else, once its first sector is available, it is DELIVERING and its transfer
joins; until then it is ACTIVE, or in SLOT WAIT with no sector bound (R157, R179).

The end of a step leaves no notice to be posted and no settled request, and changes nothing but the ports,
the requests, the pool and the read-ahead records, each outbox growing at its tail: by completions of
requests of the channel, in acceptance order, and after them by notices of those raised, in the order
raised (R164; for the notice of a SET POLICY the model's choice, log 48). Only an unmount that is answered,
with the engine FREE and no run open, then goes on to its eject: EJECTING, with EJECT sent (R143). -/
def Obligations.PendingNoticesArePosted : Prop :=
  (∀ (c : Channel) (s : State), s.between = true → (s.port c).pendingNotices.Nodup →
      ∃ (u : State) (ns ms : List Notice), exec (.pendingNoticePost c) s = .next u ∧
        (s.port c).pendingNotices = ns ++ ms ∧ (ms = [] ∨ u.noticeRoom c = false) ∧
        (ns = [] ∨ (s.reqs c).length + bitOf (s.port c).partialBlock.isSome +
          (s.port c).outbox.length + ns.length ≤ 16) ∧
        u = { s with ports := s.ports.set c { s.port c with
          outbox := (s.port c).outbox ++ ns.map (fun n => noticeBlock n s.timebase)
          pendingNotices := ms } }) ∧
  (∀ (n : Notice) (ns : List Notice), ns.Pairwise (fun a b => a.index < b.index) →
      (insertNotice n ns).Pairwise (fun a b => a.index < b.index) ∧
        ∀ m, m ∈ insertNotice n ns ↔ m = n ∨ m ∈ ns) ∧
  (∀ (s : State) (c : Channel) (n : Notice),
      (s.noticeRoom c = true ↔ (s.reqs c).length + bitOf (s.port c).partialBlock.isSome <
        16 - (s.port c).outbox.length) ∧
      (s.noticeRoom c = true → s.postNotice c n = { s with ports := s.ports.set c { s.port c with
        outbox := (s.port c).outbox ++ [noticeBlock n s.timebase] } }) ∧
      (s.noticeRoom c = false → s.postNotice c n = { s with ports := s.ports.set c { s.port c with
        pendingNotices := insertNotice n (s.port c).pendingNotices } })) ∧
  (∀ s : State, (s.raised = [] → s.flushNotices = s) ∧ ∀ n ns, s.raised = n :: ns →
      s.flushNotices =
        ({ (s.postNotice .A n).postNotice .B n with raised := ns } : State).flushNotices) ∧
  (∀ (n : Notice) (time : BitVec 32), noticeBlock n time =
      { tag := 0, kind := 0, flags := 0, result := 0, load := 0xFF, lsn := 0xFFFFFF, time := time,
        status := match n with
          | .cartridgeReady => 0x80 | .cartridgeUnreadable => 0x81 | .cartridgeGone => 0x82
          | .ejectButton => 0x83 | .readOnly => 0x84 | .mapLost => 0x85
          | .mechanismFault => 0x86 | .policyChanged => 0x87 }) ∧
  (∀ (s : State) (c : Channel),
      let done := (s.reqs c).filter (fun r => r.state == .done)
      s.flushChannel c = { s with
        ports := s.ports.set c { s.port c with
          outbox := (s.port c).outbox ++ done.map (fun r => r.completion s.timebase)
          counters := done.foldl Counters.count (s.port c).counters }
        requests := s.requests.set c ((s.reqs c).filter (fun r => r.state != .done)) }) ∧
  (∀ (s : State) (c : Channel) (r : Request), s.findReq c r.id = some r → r.kind = .read →
      r.state ≠ .done →
        (∀ st, r.sectorState r.sectorsDone = some (.failed st) → s.settleRead c r.id =
          s.endRead c r.id st true (some (r.lsn + r.sectorsDone))) ∧
        ((∀ st, r.sectorState r.sectorsDone ≠ some (.failed st)) →
          (r.state = .delivering → s.settleRead c r.id = s) ∧
          (r.state ≠ .delivering → s.sectorAvailable r 0 = true → s.settleRead c r.id = { s with
            requests := s.requests.set c ((s.reqs c).map
              (fun q => if q.id == r.id then { q with state := .delivering } else q))
            ports := s.ports.set c { s.port c with
              transfers := (s.port c).transfers ++
                [{ request := r.id, tag := r.tag, dir := .outward, length := r.count * 1024,
                   moved := 0, record := [] }] } }) ∧
          (r.state ≠ .delivering → s.sectorAvailable r 0 = false → s.settleRead c r.id = { s with
            requests := s.requests.set c ((s.reqs c).map (fun q => if q.id == r.id then
              { q with state := if q.sectors.all (fun x => x.st == .waiting) then .slotWait
                  else .active } else q)) }))) ∧
  (∀ s t : State, ∃ u : State, State.finish s t = u ∧ u.raised = [] ∧
      (∀ c, ∀ r ∈ u.reqs c, r.state ≠ .done) ∧
      (∀ c, (u.port c).settings = (t.port c).settings ∧
        (u.port c).partialBlock = (t.port c).partialBlock ∧
        (u.port c).overrun = (t.port c).overrun ∧ (u.port c).busOut = (t.port c).busOut ∧
        ∃ (bs : List OutBlock) (ns : List Notice),
          (u.port c).outbox =
            (t.port c).outbox ++ (bs ++ ns.map (fun n => noticeBlock n t.timebase)) ∧
          (∀ b ∈ bs, b.status.toNat < 0x80 ∧ b.time = t.timebase) ∧
          (bs.map (fun b => (b.tag, b.kind))).Sublist
            ((t.reqs c).map (fun r => (r.tag, r.kind.code))) ∧ ns.Sublist t.raised) ∧
      u = { t with ports := u.ports, requests := u.requests, pool := u.pool, sched := u.sched,
                   ctl := u.ctl, link := u.link, raised := [] } ∧
      u.sched = { t.sched with readAhead := u.sched.readAhead } ∧
      let answered := t.ctl.state = .unmounting ∧ t.ctl.unmountAnswer ≠ none ∧ t.engine = none ∧
        t.sched.openRun = none
      (¬answered → u.ctl = t.ctl ∧ u.link = t.link) ∧
      (answered → u.ctl = { t.ctl with state := .ejecting, ejectPending := false } ∧
        u.link = (t.sendCommand .cartridgeController .eject).link))

/-- The slot-wait list is served (R77): no request joins it, and with the list empty nothing changes. The
policy, the reservations, the link, the engine, the open run, the medium and the cartridge state stay, and
an outbox only grows at its tail (by the completion of a REASSIGN whose allocation is refused). (That the
command takes one pass over the list, and a release one examination of the waiting works, is log 6.)

A READ alone on the slot-wait list with one sector left to bind, whose LSN has a current slot that
admits it, binds it: the READ leaves the list and joins the slot's binding list (R63, R77).

The list is served from its head: a waiter that is served, or barred by its channel's charge alone,
gives way to the next; one barred for want of slots ends the pass. A READ's turn binds its sectors, and
its transfer joins where its first sector is now available; a turn in which a sector bound is a step
taken (R64, R77, R179).

A WRITE's or a REASSIGN's turn: with fewer slots FREE or non-stale CLEAN unclaimed than it has sectors it
is barred for want of slots, and with more than 16 slots then charged to its channel by its charge;
neither changes anything. Else it leaves the list. A WRITE then has a slot for each sector, FILLING for
its LSN and charged to its channel; its request is FILLING and its transfer joins (R69, R77). A REASSIGN
takes over a CLEAN unclaimed current slot with its content, and its allocation is made; else a new slot
is its LSN's current one and FETCHING for it (R74, R77).

A REASSIGN's allocation: the LSN is reassigned from its current place and the follow-up run added, an
erase-only one where its data was not read; a refusal ends its sector with the refusal's status, and a
place that is not the LSN's with WRITE FAILED (R40, R49, R101).

Work in OVERLAP WAIT is examined (R68): while earlier work holds it nothing changes; held no more, a
WRITE or REASSIGN joins the slot-wait list where it is barred, and else takes its slots as at its turn.

The rescue in progress is examined (R68, R75): while earlier work holds it, and once it has its slot,
nothing changes; a CLEAN current slot becomes WRITING at QUEUED with its content and its READs, charged
to internal where it was unclaimed; else, with a request on the slot-wait list or no slot to be had,
nothing changes, and otherwise a new slot is the LSN's current one, FETCHING for the rescue and charged
to internal, a current FETCHING slot having been made stale (one that a REASSIGN now ended left is so by
the model's choice, log 41).

A new slot's content is 0 until its fetch has written it (the model's choice, log 14); that a READ's
transfer joins at its turn is the model's reading (log 32). -/
def Obligations.WaitsEnd : Prop :=
  (∀ s : State, s.between = true → ∃ u : State, exec .slotWaitServe s = .next u ∧
      (∀ id ∈ u.pool.slotWait, id ∈ s.pool.slotWait) ∧
      (s.pool.slotWait = [] → u = s) ∧
      (∀ c, ∃ bs, (u.port c).outbox = (s.port c).outbox ++ bs) ∧
      u.timebase = s.timebase ∧ u.policy = s.policy ∧ u.reservations = s.reservations ∧
      u.medium = s.medium ∧ u.link = s.link ∧ u.engine = s.engine ∧ u.ctl = s.ctl ∧
      u.sched.openRun = s.sched.openRun ∧ u.pending = s.pending) ∧
  (∀ (s : State) (c : Channel) (r : Request) (x : ReadSector) (i : Nat), s.between = true →
      s.pool.slotWait = [r.id] → r ∈ s.reqs c → r.kind = .read → r.sectors = [x] → x.st = .waiting →
      s.currentSlot r.lsn = some i → i < s.pool.slots.length → (s.slotAt i).state ≠ .free →
      ((s.slotAt i).state = .clean → (s.slotAt i).claimed = true) →
        ∃ u : State, exec .slotWaitServe s = .next u ∧ u.pool.slotWait = [] ∧
          (u.slotAt i).bindings = (s.slotAt i).bindings ++
            [{ ch := c, id := r.id, waiting := (s.slotAt i).state == .filling }] ∧
          (u.slotAt i).stamp = s.timebase ∧ (u.slotAt i).state = (s.slotAt i).state ∧
          (∀ j, (u.slotAt j).content = (s.slotAt j).content) ∧
          (∀ j, j ≠ i → u.slotAt j = s.slotAt j)) ∧
  (∀ s : State,
      exec .slotWaitServe s = .next (State.finish s (s.serveWaiters s.pool.slotWait)) ∧
      s.serveWaiters [] = s ∧
      ∀ (id : Nat) (ids : List Nat),
        ((s.serveWaiter id).2 = some .slots → s.serveWaiters (id :: ids) = (s.serveWaiter id).1) ∧
        ((s.serveWaiter id).2 ≠ some .slots →
          s.serveWaiters (id :: ids) = (s.serveWaiter id).1.serveWaiters ids)) ∧
  (∀ (s : State) (c : Channel) (r : Request), s.readChannel r.id = some c →
      s.findReq c r.id = some r →
      let t := s.serveRead c r.id
      (s.serveWaiter r.id).1 = t.1.settleRead c r.id ∧
        ∀ q, t.1.findReq c r.id = some q →
          (s.serveWaiter r.id).2 =
            if (q.sectors.filter (fun x => x.st == .waiting)).length <
              (r.sectors.filter (fun x => x.st == .waiting)).length then none else t.2) ∧
  (∀ (s : State) (c : Channel) (w : WriteWork), s.readChannel w.id = none →
      s.findWork w.id = some w → w.owner = some c → w.kind ≠ .rescue →
      (w.kind = .reassign → ∃ x, w.sectors = [x]) →
      let n := w.sectors.length
      let free := (s.pool.slots.filter (fun x => x.state == .free || x.replaceable)).length
      let charged := (s.pool.slots.filter (fun x => x.charged == .channel c)).length
      (free < n → s.serveWaiter w.id = (s, some .slots)) ∧
      (n ≤ free → 16 < charged + n → s.serveWaiter w.id = (s, some .quota)) ∧
      (n ≤ free → charged + n ≤ 16 →
        (w.kind = .write → s.serveWaiter w.id = ((s.leaveSlotWait w.id).serveWrite c w, none)) ∧
        (∀ x, w.kind = .reassign → w.sectors = [x] → s.serveWaiter w.id =
          ((s.leaveSlotWait w.id).serveReassign c w x.lsn, none)))) ∧
  (∀ (s : State) (c : Channel) (w : WriteWork) (r : Request), s.pool.placed = true →
      s.findWork w.id = some w → w.owner = some c → w.kind = .write →
      (w.sectors.map (fun x => x.lsn)).Nodup → s.findReq c w.id = some r →
      w.sectors.length ≤
        (s.pool.slots.filter (fun x => x.state == .free || x.replaceable)).length →
      ∃ (u : State) (v : WriteWork), s.serveWrite c w = u ∧ u.findWork w.id = some v ∧
        v = { w with phase := .filling, sectors := v.sectors } ∧
        v.sectors.map (fun x => { x with slot := none }) =
          w.sectors.map (fun x => { x with slot := none }) ∧
        (∀ x ∈ v.sectors, ∃ i, x.slot = some i ∧ i < u.pool.slots.length ∧
          (u.slotAt i).state = .filling ∧ (u.slotAt i).lsn = some x.lsn ∧
          (u.slotAt i).stale = false ∧ (u.slotAt i).work = some (.write w.id) ∧
          (u.slotAt i).charged = .channel c ∧ u.currentSlot x.lsn = some i) ∧
        u.findReq c w.id = some { r with state := .filling } ∧
        (u.port c).transfers = (s.port c).transfers ++
          [{ request := w.id, tag := r.tag, dir := .inward, length := r.count * 1024, moved := 0,
             record := [] }] ∧
        u = { s with ports := u.ports, requests := u.requests, pool := u.pool,
                     works := u.works }) ∧
  (∀ (s : State) (c : Channel) (w : WriteWork) (x : WorkSector),
      w.owner = some c → w.kind = .reassign → s.findWork w.id = some w → w.sectors = [x] →
      (∀ i, s.currentSlot x.lsn = some i → (s.slotAt i).replaceable = true →
        s.serveReassign c w x.lsn =
          ((({ s with
            pool := { s.pool with slots := s.pool.slots.set i { s.slotAt i with
              state := .writing, stage := some .queued, work := some (.reassign w.id),
              charged := .channel c, chargedFor := some w.id } } }.updWorkSector w.id x.lsn
            (fun y => { y with slot := some i })).setPhase w .runs .active).reassignAllocate w x.lsn
              true)) ∧
      (∀ t, (s.currentSlot x.lsn = none ∧ t = s ∨
          ∃ j, s.currentSlot x.lsn = some j ∧ (s.slotAt j).replaceable = false ∧
            t = s.makeStale j) → ∀ i, t.chooseSlot [] = some i →
        ∃ u : State, s.serveReassign c w x.lsn = u ∧
          u.slotAt i = { Slot.reset with
            state := .fetching, lsn := some x.lsn, work := some (.reassign w.id),
            charged := .channel c, chargedFor := some w.id, stamp := (t.slotAt i).stamp } ∧
          u.currentSlot x.lsn = some i ∧ (∀ j, j ≠ i → u.slotAt j = t.slotAt j) ∧
          u.findWork w.id =
            some { w with phase := .dataStep, sectors := [{ x with slot := some i }] } ∧
          u = { s with requests := u.requests, pool := u.pool, works := u.works })) ∧
  (∀ (s : State) (w v : WriteWork) (lsn : Nat) (read : Bool), s.findWork w.id = some v →
      let answer := s.dm.reassign lsn ((s.dm.translate lsn).getD (0, 0)) s.policy.settleDelay
      (∀ d, answer = .done d → ∃ (u : State) (x : WriteWork) (rs : List Run),
        s.reassignAllocate w lsn read = u ∧ u.dm = d ∧ u.findWork w.id = some x ∧
          x.phase = .runs ∧ x.eraseOnly = !read ∧ x.reassigned = true ∧
          x.followUps = v.followUps ++ rs ∧
          rs.map (fun r => (r.track, r.sectors)) =
            (d.followUpRuns [lsn]).map (fun r => (r.track, r.sectors)) ∧
          u = { s with dm := d, works := u.works, requests := u.requests, nextId := u.nextId }) ∧
      (∀ st, answer = .refused st → s.reassignAllocate w lsn read =
        (s.endOpenSectors w.id [] (some (.failed st))).checkWorkEnd w.id) ∧
      (answer = .mismatch → s.reassignAllocate w lsn read =
        (s.endOpenSectors w.id [] (some (.failed .writeFailed))).checkWorkEnd w.id)) ∧
  (∀ s : State, s.between = true → ∃ u : State, exec .overlapWaitRelease s = .next u ∧
      (∀ (w : WriteWork) (c : Channel), s.findWork w.id = some w → w.kind = .write →
        w.owner = some c → w.phase = .overlapWait → s.heldBack w = false →
        ∀ v, u.findWork w.id = some v → v.phase ≠ .overlapWait) ∧
      ((∀ w ∈ s.works, w.phase ≠ .overlapWait ∧ w.kind ≠ .rescue) → u = s) ∧
      (∀ c, ∃ bs, (u.port c).outbox = (s.port c).outbox ++ bs) ∧
      u.timebase = s.timebase ∧ u.policy = s.policy ∧ u.reservations = s.reservations ∧
      u.medium = s.medium ∧ u.link = s.link ∧ u.engine = s.engine ∧ u.ctl = s.ctl ∧
      u.sched.openRun = s.sched.openRun ∧ u.pending = s.pending) ∧
  (∀ s : State,
      exec .overlapWaitRelease s = .next (State.finish s
        ((s.works.map (fun w => w.id)).foldl State.examineWaiting s)) ∧
      ∀ w, s.findWork w.id = some w →
        (w.kind = .rescue → s.examineWaiting w.id = s.rescueDataStep w) ∧
        (w.kind ≠ .rescue → (w.phase ≠ .overlapWait ∨ s.heldBack w = true) →
          s.examineWaiting w.id = s) ∧
        ∀ c, w.kind ≠ .rescue → w.owner = some c → w.phase = .overlapWait →
          s.heldBack w = false → (w.kind = .reassign → ∃ x, w.sectors = [x]) →
          let n := w.sectors.length
          let free := (s.pool.slots.filter (fun x => x.state == .free || x.replaceable)).length
          let charged := (s.pool.slots.filter (fun x => x.charged == .channel c)).length
          (free < n ∨ 16 < charged + n → ∃ u : State, s.examineWaiting w.id = u ∧
            u.findWork w.id = some { w with phase := .slotWait } ∧ w.id ∈ u.pool.slotWait ∧
            (∀ r, s.findReq c w.id = some r →
              u.findReq c w.id = some { r with state := .slotWait }) ∧
            u = { s with requests := u.requests, works := u.works,
                         pool := (s.joinSlotWait w.id).pool }) ∧
          (n ≤ free → charged + n ≤ 16 →
            (w.kind = .write → s.examineWaiting w.id =
              (s.leaveSlotWait w.id).serveWrite c w) ∧
            (∀ x, w.kind = .reassign → w.sectors = [x] → s.examineWaiting w.id =
              (s.leaveSlotWait w.id).serveReassign c w x.lsn))) ∧
  (∀ (s : State) (w : WriteWork),
      s.heldBack w = true ↔ ∃ e ∈ s.works, e.id < w.id ∧
        ∃ x ∈ e.sectors, ∃ y ∈ w.sectors, x.lsn = y.lsn) ∧
  (∀ (s : State) (w : WriteWork) (x : WorkSector), s.findWork w.id = some w →
      w.kind = .rescue → w.phase = .dataStep → w.sectors = [x] →
      ((s.heldBack w = true ∨ x.slot ≠ none) → s.rescueDataStep w = s) ∧
      (s.heldBack w = false → x.slot = none →
        (∀ i, s.currentSlot x.lsn = some i → (s.slotAt i).state = .clean →
          ∃ u : State, s.rescueDataStep w = u ∧
            u.slotAt i = { s.slotAt i with
              state := .writing, stage := some .queued, work := some (.rescue w.id),
              charged := if (s.slotAt i).claimed then (s.slotAt i).charged else .internal } ∧
            (∀ j, j ≠ i → u.slotAt j = s.slotAt j) ∧
            u.findWork w.id =
              some { w with phase := .runs, sectors := [{ x with slot := some i }] } ∧
            u = { s with works := u.works, pool := { s.pool with slots := u.pool.slots } }) ∧
        ((∀ i, s.currentSlot x.lsn = some i → (s.slotAt i).state ≠ .clean) →
          ((s.pool.slotWait ≠ [] ∨ s.chooseSlot [] = none) → s.rescueDataStep w = s) ∧
          ∀ t, (s.currentSlot x.lsn = none ∧ t = s ∨
              ∃ j, s.currentSlot x.lsn = some j ∧ t = s.makeStale j) →
            ∀ i, s.pool.slotWait = [] → s.chooseSlot [] ≠ none → t.chooseSlot [] = some i →
              ∃ u : State, s.rescueDataStep w = u ∧
                u.slotAt i = { Slot.reset with
                  state := .fetching, lsn := some x.lsn, work := some (.rescue w.id),
                  charged := .internal, stamp := (t.slotAt i).stamp } ∧
                u.currentSlot x.lsn = some i ∧ (∀ j, j ≠ i → u.slotAt j = t.slotAt j) ∧
                u.findWork w.id = some { w with sectors := [{ x with slot := some i }] } ∧
                u = { s with works := u.works, pool := u.pool })))

/-- The Head Scheduler makes no choice while the engine is BUSY and in the states without media work
(R107), nor while a command is outstanding: that is the model's guard (log 36).

With a run open, no urgent fetch ready (or the insertion limit reached) and the engine FREE, the open
run's next pass is taken: the engine is BUSY with it and its command is outstanding; nothing else changes
(R90, R92–R94, R109).

In MOUNTING the asked-for INDEX FETCH is taken: READ SECTORS of sectors 0 to 15 of the track; nothing
else changes (R89, R107, R140).

With an urgent fetch ready, and no run open or its insertion count below the limit, the urgent fetch that
R112 selects is taken: its first run's slots have begun, the engine is BUSY with its FETCH, the open run's
insertion count rises by 1, the urgent marker takes its channel, and nothing else changes (R84, R109,
R112).

With no run open and no urgent fetch ready: the earliest carried-through follow-up run is opened by its
ERASE PASS, no marker changing (R114); else the normal work that R113 selects is taken, the normal marker
taking its channel; else rescue, writeback and read-ahead follow in this order (R109, R115, R116, R118).

Which urgent fetch: of the works with a fetch not begun, and an urgent READ bound to one of those slots,
the one of least remaining time, then the one whose channel the marker does not name, then the one whose
READ was accepted first, then the one accepted first itself (R111, R112).

A READ is urgent when it is LATE, at 0, or when its deadline has 1 ms or more left and no more than the
urgency window (R111); with its expiry due and not yet taken it is not (the model's reading, log 31).

Which normal work: the channel that alone has some, else the one that the normal marker does not name;
in it the first request, in acceptance order, with an operation ready (R113). Of one piece of work the
follow-up runs come first, in the order formed, and none while a stale slot still fetches one of their LSNs
(R91, R96; the model's reading, logs 16 and 17).

A writeback taken is staged, every FLUSH MAP that waits is served by it, and its run over track 1 is
opened by its ERASE PASS (R51, R54, R102, R116).

With no rescue in progress and the cartridge READY the head of the rescue list becomes it (R46, R115).
The rescue's ready operation is its fetch, begun like another with no marker changing, or its next run,
opened by its ERASE PASS (R84, R90, R115). A run taken off a work is the head of its follow-up runs, or,
where it has none, covers the work's sectors of its LSNs (R32, R96).

Read-ahead is ready in READY with its record's next LSN below its window end, no request on the slot-wait
list and a FREE slot. Its candidates have no current slot and are at most the FREE slots; with none the
next LSN becomes the window end; else their first run is read, the next LSN is one past its last, and the
prefetch marker takes the channel (R118).

What a RECORD PASS sends: a frame for each sector of the run, with the run's track, the sector's number and
the content of the work's slot for it, or for the writeback the staged record (R93). Its check bytes are
four groups, each over the 256 user bytes whose number leaves its remainder when divided by 4 (R3; the
code itself is uninterpreted, log 10).

A SEQUENTIAL READ all of whose sectors have bound, none to a slot still FETCHING, sets its channel's
record once: the next LSN one past its range, the window end that and the read-ahead window further, at
most the capacity; with window 0 the record becomes absent (R117). This is taken at the end of each step,
in acceptance order, of the READs that are outstanding or end in it BLANK or MEDIUM ERROR (the model's
reading, log 19). -/
def Obligations.HeadSchedulerChoice : Prop :=
  (∀ s : State, s.between = true →
      (s.engine.isSome ∨ s.link.outstanding.isSome ∨ s.ctl.state = .empty ∨ s.ctl.state = .spinning ∨
        s.ctl.state = .ejecting ∨ s.ctl.state = .unreadable ∨ s.ctl.state = .faulted ∨
        (s.ctl.state = .mounting ∧ s.ctl.indexWanted = none)) →
        exec .headSchedulerChoice s = .next s) ∧
  (∀ (s : State) (r : OpenRun), s.between = true → s.engine = none → s.link.outstanding = none →
      (s.ctl.state = .ready ∨ s.ctl.state = .unmounting) → s.sched.openRun = some r →
      (s.selectUrgent = none ∨ s.policy.insertionLimit ≤ r.insertions) →
        let sectors := r.run.sectors.map (fun x => x.sector)
        let begun := fun (k : OperationKind) (outs : List FetchSector) (cmd : LinkCommand) =>
          { s with
            engine := some { kind := k, work := r.work, run := r.run, reread := none, outcomes := outs }
            link := (s.sendCommand .mediaEngine cmd).link }
        exec .headSchedulerChoice s = .next
          (match r.pass with
          | .erase => begun .erasePass [] (.eraseSectors r.run.track sectors)
          | .record => begun .recordPass [] (.recordSectors r.run.track (s.recordFrames r))
          | .verify => begun .verifyPass
              (r.run.sectors.map (fun x => { sector := x.sector, lsn := x.lsn, outcome := none,
                                             settled := false, rereads := 0 }))
              (.readSectors r.run.track sectors))) ∧
  (∀ (s : State) (track : Nat), s.between = true → s.engine = none → s.link.outstanding = none →
      s.ctl.state = .mounting → s.ctl.indexWanted = some track →
        exec .headSchedulerChoice s = .next { s with
          ctl := { s.ctl with indexWanted := none }
          engine := some { kind := .indexFetch, work := .mount, run := indexRun track, reread := none,
                           outcomes := (List.range 16).map (fun i =>
                             { sector := i, lsn := none, outcome := none, settled := false,
                               rereads := 0 }) }
          link := (s.sendCommand .mediaEngine (.readSectors track (List.range 16))).link }) ∧
  (∀ s : State, s.between = true → s.engine = none → s.link.outstanding = none →
      (s.ctl.state = .ready ∨ s.ctl.state = .unmounting) →
      let fetching := fun (t : Scheduler) (work : Work) (run : Run) =>
        Host.Outcome.next (φ := Fault) (ρ := Refusal) { s with
          sched := t
          pool := { s.pool with slots := s.pool.slots.map (fun x =>
            if x.state == .fetching && !x.fetchBegun && x.work == some work &&
                run.lsns.any (fun l => x.lsn == some l) then { x with fetchBegun := true } else x) }
          engine := some { kind := .fetch, work := work, run := run, reread := none,
                           outcomes := run.sectors.map (fun x =>
                             { sector := x.sector, lsn := x.lsn, outcome := none, settled := false,
                               rereads := 0 }) }
          link := (s.sendCommand .mediaEngine
            (.readSectors run.track (run.sectors.map (fun x => x.sector)))).link }
      let opening := fun (t : Scheduler) (w : WriteWork) (run : Run) =>
        Host.Outcome.next (φ := Fault) (ρ := Refusal) { s with
          sched := { t with openRun := some { run := run, work := w.name, pass := .erase,
                                              insertions := 0, eraseOnly := w.eraseOnly } }
          works := s.works.map (fun v => if v.id == w.id then v.takeRun run else v)
          engine := some { kind := .erasePass, work := w.name, run := run, reread := none,
                           outcomes := [] }
          link := (s.sendCommand .mediaEngine
            (.eraseSectors run.track (run.sectors.map (fun x => x.sector)))).link }
      (∀ (v : UrgentFetch) (run : Run), s.selectUrgent = some v →
        (∀ r, s.sched.openRun = some r → r.insertions < s.policy.insertionLimit) →
        s.dm.firstRun (s.unbegunLsns v.work) = some run →
          exec .headSchedulerChoice s = fetching { s.sched with
            openRun := s.sched.openRun.map (fun r => { r with insertions := r.insertions + 1 })
            urgentMarker := v.ch } v.work run) ∧
      (s.sched.openRun = none → s.selectUrgent = none →
        (∀ n w run, s.selectCarried = some (n, w, run) →
          exec .headSchedulerChoice s = opening s.sched w run) ∧
        (s.selectCarried = none →
          (∀ c work run, s.selectNormal = some (c, .fetch work) →
            s.dm.firstRun (s.unbegunLsns work) = some run →
              exec .headSchedulerChoice s = fetching { s.sched with normalMarker := c } work run) ∧
          (∀ c w run, s.selectNormal = some (c, .run w run) →
            exec .headSchedulerChoice s = opening { s.sched with normalMarker := c } w run) ∧
          (∀ c, s.selectNormal = some (c, .writeback) →
            exec .headSchedulerChoice s = .next
              ({ s with sched := { s.sched with normalMarker := c } } : State).takeWriteback) ∧
          (s.selectNormal = none →
            let t := s.beginRescue.examineRescue
            (∀ o, t.rescueOffered = some o →
              exec .headSchedulerChoice s = .next (State.finish s (t.takeOffered o))) ∧
            (t.rescueOffered = none →
              (t.writebackWanted = true →
                exec .headSchedulerChoice s = .next (State.finish s t.takeWriteback)) ∧
              (t.writebackWanted = false →
                exec .headSchedulerChoice s = .next (State.finish s t.chooseReadAhead))))))) ∧
  (∀ (s : State) (u : UrgentFetch), s.selectUrgent = some u →
      (∃ x ∈ s.pool.slots, x.state = .fetching ∧ x.fetchBegun = false ∧ x.work = some u.work) ∧
      s.urgentFetch u.work = some u ∧
      ∀ x ∈ s.pool.slots, x.state = .fetching → x.fetchBegun = false →
        ∀ work v, x.work = some work → s.urgentFetch work = some v →
          u.remaining < v.remaining ∨ (u.remaining = v.remaining ∧
            ((u.ch ≠ s.sched.urgentMarker ∧ v.ch = s.sched.urgentMarker) ∨
              ((u.ch = s.sched.urgentMarker ↔ v.ch = s.sched.urgentMarker) ∧
                (u.reader < v.reader ∨ (u.reader = v.reader ∧
                  u.work.id?.getD 0 ≤ v.work.id?.getD 0)))))) ∧
  (∀ s : State, s.selectUrgent = none ↔ ∀ x ∈ s.pool.slots, x.state = .fetching →
      x.fetchBegun = false → ∀ work, x.work = some work → s.urgentFetch work = none) ∧
  (∀ (s : State) (work : Work),
      let bound := fun (b : Binding) (r : Request) (n : Nat) =>
        (∃ x ∈ s.pool.slots, x.state = .fetching ∧ x.fetchBegun = false ∧ x.work = some work ∧
          b ∈ x.bindings) ∧ s.findReq b.ch b.id = some r ∧
            r.urgency s.policy.urgencyWindow = some n
      (s.urgentFetch work = none ↔ ∀ b r n, ¬bound b r n) ∧
      ∀ u, s.urgentFetch work = some u →
        u.work = work ∧ (∃ b r, bound b r u.remaining ∧ u.reader = b.id ∧ u.ch = b.ch) ∧
          ∀ b r n, bound b r n → u.remaining < n ∨ (u.remaining = n ∧ u.reader ≤ b.id)) ∧
  (∀ (r : Request) (window : Nat),
      (r.late = true → r.urgency window = some 0) ∧
      (r.late = false → r.deadline = none → r.urgency window = none) ∧
      ∀ n, r.late = false → r.deadline = some n →
        r.urgency window = if 1 ≤ n ∧ n ≤ window then some n else none) ∧
  (∀ (s : State) (r : OpenRun),
      s.recordFrames r = r.run.sectors.map (fun x =>
        { track := r.run.track, sector := x.sector, data := s.recordData r.work x }) ∧
      ∀ x : RunSector,
        (r.work = .writeback → s.recordData r.work x = s.dm.staging.getD x.sector []) ∧
        ∀ id w y i, r.work.id? = some id → s.findWork id = some w →
          w.sectors.find? (fun y => x.lsn == some y.lsn) = some y → y.slot = some i →
          s.recordData r.work x = (s.slotAt i).content) ∧
  (∀ f : SentSector, f.checkBytes = (List.range 4).map (fun i => Config.eccCheckBytes
      ((List.range 256).map (fun k => f.data.readByte (4 * k + i))))) ∧
  (∀ (s : State) (n : Nat) (w : WriteWork) (run : Run), s.selectCarried = some (n, w, run) →
      w ∈ s.works ∧ w.owner = none ∧ w.kind ≠ .rescue ∧ s.nextRun w = some run ∧
        (∃ r rs, w.followUps = r :: rs ∧ n = r.serial) ∧
        ∀ v ∈ s.works, v.owner = none → v.kind ≠ .rescue → (s.nextRun v).isSome →
          ∀ r rs, v.followUps = r :: rs → n ≤ r.serial) ∧
  (∀ s : State,
      let has := fun (c : Channel) => (s.channelWork c).isSome
      (has .A = true → has .B = true → s.selectNormal =
        (s.channelWork s.sched.normalMarker.other).map (fun o => (s.sched.normalMarker.other, o))) ∧
      (∀ c, has c = true → has c.other = false →
        s.selectNormal = (s.channelWork c).map (fun o => (c, o))) ∧
      (has .A = false → has .B = false → s.selectNormal = none) ∧
      ∀ c, s.channelWork c = (s.reqs c).findSome? (s.offered c)) ∧
  (∀ (s : State) (c : Channel) (r : Request),
      (r.kind = .read → s.offered c r =
        if s.unbegunLsns (.read c r.id) = [] then none else some (.fetch (.read c r.id))) ∧
      (∀ w, r.kind = .write → s.findWork r.id = some w →
        s.offered c r = (s.nextRun w).map (fun run => .run w run)) ∧
      (∀ w, r.kind = .reassign → s.findWork r.id = some w → s.offered c r =
        if s.unbegunLsns (.reassign r.id) = [] then (s.nextRun w).map (fun run => .run w run)
        else some (.fetch (.reassign r.id))) ∧
      (r.kind = .flushMap → s.offered c r =
        if s.dm.dirty = true ∧ s.writebackInFlight = false then some .writeback else none) ∧
      (r.kind ≠ .read → r.kind ≠ .write → r.kind ≠ .reassign → r.kind ≠ .flushMap →
        s.offered c r = none)) ∧
  (∀ (s : State) (w : WriteWork),
      ((w.phase ≠ .runs ∨ (∃ r, s.sched.openRun = some r ∧ r.work = w.name)) →
        s.nextRun w = none) ∧
      ((∃ x ∈ s.pool.slots, x.state = .fetching ∧ x.stale = true ∧
          ∃ l, x.lsn = some l ∧ l ∈ w.followUpLsns ++ w.uncovered) → s.nextRun w = none) ∧
      (w.phase = .runs → (∀ r, s.sched.openRun = some r → r.work ≠ w.name) →
        (∀ x ∈ s.pool.slots, x.state = .fetching → x.stale = true →
          ∀ l, x.lsn = some l → l ∉ w.followUpLsns ++ w.uncovered) →
        (∀ r rs, w.followUps = r :: rs → s.nextRun w = some r) ∧
        (w.followUps = [] → s.nextRun w = s.dm.firstRun w.uncovered))) ∧
  (∀ (s : State) (work : Work) (l : Nat), l ∈ s.unbegunLsns work ↔
      ∃ x ∈ s.pool.slots, x.state = .fetching ∧ x.fetchBegun = false ∧ x.work = some work ∧
        x.lsn = some l) ∧
  (∀ (s : State) (work : Work), (s.unbegunLsns work).Pairwise (· ≤ ·)) ∧
  (∀ s : State, s.idsInOrder = true → s.link.outstanding = none →
      let serve := fun (rs : List Request) =>
        rs.map (fun (r : Request) => if r.kind = .flushMap then { r with served := true } else r)
      s.takeWriteback = { s with
        requests := { a := serve s.requests.a, b := serve s.requests.b }
        dm := s.dm.stage
        sched := { s.sched with
          openRun := some { run := indexRun 1, work := .writeback, pass := .erase, insertions := 0,
                            eraseOnly := false } }
        engine := some { kind := .erasePass, work := .writeback, run := indexRun 1, reread := none,
                         outcomes := [] }
        link := (s.sendCommand .mediaEngine (.eraseSectors 1 (List.range 16))).link }) ∧
  (∀ s : State,
      ((s.rescue.isSome ∨ s.ctl.state ≠ .ready ∨ s.dm.rescueList = []) → s.beginRescue = s) ∧
      ∀ l es, s.rescue = none → s.ctl.state = .ready → s.dm.rescueList = l :: es →
        s.beginRescue = { s with
          dm := { s.dm with rescueList := es }
          works := s.works ++ [rescueWork s.nextId l.1]
          nextId := s.nextId + 1 }) ∧
  (∀ s : State, (s.rescue = none → s.examineRescue = s ∧ s.rescueOffered = none) ∧
      ∀ w, s.rescue = some w → s.examineRescue = s.rescueDataStep w ∧ s.rescueOffered =
        if s.unbegunLsns (.rescue w.id) = [] then (s.nextRun w).map (fun run => .run w run)
        else some (.fetch (.rescue w.id))) ∧
  (∀ (s : State) (run : Run),
      let sectors := run.sectors.map (fun x => x.sector)
      (∀ work, s.dm.firstRun (s.unbegunLsns work) = some run → s.takeOffered (.fetch work) = { s with
        pool := { s.pool with slots := s.pool.slots.map (fun x =>
          if x.state == .fetching && !x.fetchBegun && x.work == some work &&
              run.lsns.any (fun l => x.lsn == some l) then { x with fetchBegun := true } else x) }
        engine := some { kind := .fetch, work := work, run := run, reread := none,
                         outcomes := run.sectors.map (fun x =>
                           { sector := x.sector, lsn := x.lsn, outcome := none, settled := false,
                             rereads := 0 }) }
        link := (s.sendCommand .mediaEngine (.readSectors run.track sectors)).link }) ∧
      ∀ w : WriteWork, s.takeOffered (.run w run) = { s with
        sched := { s.sched with openRun := some { run := run, work := w.name, pass := .erase,
                                                  insertions := 0, eraseOnly := w.eraseOnly } }
        works := s.works.map (fun v => if v.id == w.id then v.takeRun run else v)
        engine := some { kind := .erasePass, work := w.name, run := run, reread := none,
                         outcomes := [] }
        link := (s.sendCommand .mediaEngine (.eraseSectors run.track sectors)).link }) ∧
  (∀ (w : WriteWork) (run : Run),
      (∀ r rs, w.followUps = r :: rs → w.takeRun run = { w with followUps := rs }) ∧
      (w.followUps = [] → w.takeRun run = { w with sectors := w.sectors.map (fun x =>
        if x.lsn ∈ run.lsns then { x with covered := true } else x) })) ∧
  (∀ (s : State) (c : Channel), s.readAheadReady c = true ↔ s.ctl.state = .ready ∧
      s.pool.slotWait = [] ∧ (∃ x ∈ s.pool.slots, x.state = .free) ∧
        ∃ r, s.sched.readAhead.get c = some r ∧ r.next < r.windowEnd) ∧
  (∀ s : State,
      let one := fun (t : State) (c : Channel) => (t.tryReadAhead c).1
      (s.readAheadReady .A = false → s.readAheadReady .B = false → s.chooseReadAhead = s) ∧
      ∀ c, s.readAheadReady c = true →
        (s.readAheadReady c.other = true → c = s.sched.prefetchMarker.other) →
        s.chooseReadAhead =
          if (s.tryReadAhead c).2 = true then one s c
          else if (one s c).readAheadReady c.other = true then one (one s c) c.other
          else one s c) ∧
  (∀ (s : State) (c : Channel) (r : ReadAhead), s.sched.readAhead.get c = some r →
      let candidates := (((List.range (r.windowEnd - r.next)).map (· + r.next)).filter
        (fun l => (s.currentSlot l).isNone)).take
          (s.pool.slots.filter (fun x => x.state == .free)).length
      let record := fun (t : State) (n : Nat) => t.setReadAhead c (some { r with next := n })
      (s.dm.firstRun candidates = none → s.tryReadAhead c = (record s r.windowEnd, false)) ∧
      ∀ run, s.dm.firstRun candidates = some run → s.link.outstanding = none →
        let t := run.lsns.foldl (fun t l => t.takeReadAheadSlot c l) s
        let n := run.lsns.getLastD r.next + 1
        s.tryReadAhead c = ({ t with
          sched := { (record t n).sched with prefetchMarker := c }
          engine := some { kind := .fetch, work := .readAhead c, run := run, reread := none,
                           outcomes := run.sectors.map (fun x =>
                             { sector := x.sector, lsn := x.lsn, outcome := none, settled := false,
                               rereads := 0 }) }
          link := (s.sendCommand .mediaEngine
            (.readSectors run.track (run.sectors.map (fun x => x.sector)))).link }, true)) ∧
  (∀ (s : State) (c : Channel) (lsn : Nat),
      (s.currentSlot lsn ≠ none → s.takeReadAheadSlot c lsn = s) ∧
      ((∀ x ∈ s.pool.slots, x.state ≠ .free) → s.takeReadAheadSlot c lsn = s) ∧
      ∀ i, s.currentSlot lsn = none → i < s.pool.slots.length → (s.slotAt i).state = .free →
        (∀ j < i, (s.slotAt j).state ≠ .free) → ∃ u : State, s.takeReadAheadSlot c lsn = u ∧
          u.slotAt i = { Slot.reset with
            state := .fetching, lsn := some lsn, work := some (.readAhead c), charged := .internal,
            stamp := (s.slotAt i).stamp, fetchBegun := true } ∧
          u.currentSlot lsn = some i ∧ (∀ j, j ≠ i → u.slotAt j = s.slotAt j) ∧
          u = { s with pool := u.pool }) ∧
  (∀ (s : State) (c : Channel) (r : Request), s.findReq c r.id = some r →
      let reached := r.kind = .read ∧ r.sequential = true ∧ r.readAheadPassed = false ∧
        (r.state ≠ .done ∨ r.result = some .blank ∨ r.result = some .mediumError) ∧
        ∀ x ∈ r.sectors, x.st ≠ .waiting ∧ ∀ i, x.st = .bound i → (s.slotAt i).state ≠ .fetching
      let w := (s.port c).settings.readAheadWindow
      (¬reached → s.readAheadMoment c r.id = s) ∧
      (reached → s.readAheadMoment c r.id = { s with
        sched := { s.sched with readAhead := s.sched.readAhead.set c (if w = 0 then none else some
          { windowEnd := min (r.lsn + r.count + w) s.dm.capacity, next := r.lsn + r.count }) }
        requests := s.requests.set c ((s.reqs c).map (fun q =>
          if q.id == r.id then { q with readAheadPassed := true } else q)) })) ∧
  (∀ (s t : State), (State.finish s t).sched.readAhead =
      t.settleReads.readAheadMoments.sched.readAhead ∧
    ∀ c, t.readAheadMomentsOf c =
      ((t.reqs c).map (fun r => r.id)).foldl (fun u id => u.readAheadMoment c id) t ∧
    t.readAheadMoments = (t.readAheadMomentsOf .A).readAheadMomentsOf .B)

/-- A command sent while the link is IDLE: it takes the next command number, which rises by 1 with 255
followed by 0; the retry count is 0, the last failure absent, no sector frame received, response remaining
at the command's limit, the link AWAITING RESPONSE, and its frames are sent (R124, R125). -/
def Obligations.CommandIsSent : Prop :=
  ∀ (s : State) (who : Sender) (cmd : LinkCommand), s.link.outstanding = none →
    s.sendCommand who cmd = { s with link := { s.link with
      state := .awaitingResponse
      outstanding := some { number := s.link.nextNumber, command := cmd, sender := who }
      remaining := some (match cmd with
        | .spinUp => 8000
        | .eject => 5000
        | .reportState => 200
        | .readSectors _ _ => 500
        | .eraseSectors _ _ => 500
        | .recordSectors _ _ => 500)
      retryCount := some 0
      lastFailure := none
      nextNumber := s.link.nextNumber + 1
      received := []
      sent := s.link.sent ++ .command s.link.nextNumber cmd ::
        (match cmd with
          | .recordSectors _ fs => fs.map (fun f => .data s.link.nextNumber f)
          | _ => []) } }

/-- The unmount's drain ends (R55, R143): with the map clean the answer is SAVED, with the read-only flag
set it is NOT SAVED, and with the engine FREE the state is then EJECTING and the mechanism EJECT is sent;
with the map dirty and the flag NONE the writeback is asked for. While the unmount drains, has been
answered or has asked already, and in another state, the command changes nothing (the model's reading,
log 6).

The unmount drains while a request of a kind that needs READY is outstanding, a run is open, a rescue is
in progress, or carried-through work of a discarded request still stands (R143). -/
def Obligations.DrainsEndAsksForTheMap : Prop :=
  (∀ s : State, s.between = true →
    let ended := s.ctl.state = .unmounting ∧ s.ctl.unmountAnswer = none ∧
      s.ctl.unmountAsked = false ∧ s.draining = false
    let answered := fun (a : UnmountAnswer) =>
      if s.engine = none then
        ({ s with ctl := { s.ctl with unmountAnswer := some a, unmountAsked := false,
                                      state := .ejecting, ejectPending := false } } :
          State).sendCommand .cartridgeController .eject
      else { s with ctl := { s.ctl with unmountAnswer := some a, unmountAsked := false } }
    exec .unmountDrainEnd s = .next
      (if ended then
        (if s.dm.dirty = false then answered .saved
        else if s.ctl.readOnly ≠ .none then answered .notSaved
        else { s with ctl := { s.ctl with unmountAsked := true } })
      else s)) ∧
  ∀ s : State, s.draining = true ↔
    (∃ c, ∃ r ∈ s.reqs c, r.kind = .read ∨ r.kind = .write ∨ r.kind = .reassign ∨
        r.kind = .reserve ∨ r.kind = .flushMap ∨ r.kind = .reportMap) ∨
      s.sched.openRun ≠ none ∨ (∃ w ∈ s.works, w.kind = .rescue) ∨ ∃ w ∈ s.works, w.owner = none

/-! ### Frames of the mechanism link (Chapter 7) -/

/-- A DATA frame that is well placed for the outstanding READ SECTORS is added to the sector frames
received; nothing else changes (R126). -/
def Obligations.DataFrameIsReceived : Prop :=
  ∀ (k : Nat) (f : SectorFrame) (s : State) (o : OutstandingCommand) (track : Nat)
    (sectors : List Nat), s.between = true → s.link.outstanding = some o →
    o.command = .readSectors track sectors → k ∈ sectors → (∀ e ∈ s.link.received, e.1 < k) →
      exec (.mechDataFrame o.number k f) s = .next { s with link := { s.link with
        received := s.link.received ++ [(k, { f with data := Memory.canonical f.data })] } }

/-- The table of accepted answers (R127).

A failed answer while the retry count is below the mechanism retries: the cause is recorded, the
command is sent again with its number and contents, the retry count and the link retries rise by 1, the
frames received are emptied and response remaining restarts; nothing else changes. It holds for a timeout,
a damaged frame, a badly placed DATA frame, an answer the command does not accept, REFUSED BAD FRAME and
REFUSED SEEK ERROR (R126, R127, R129). -/
def Obligations.FailedAnswers : Prop :=
  (∀ c : LinkCommand,
      (∀ rec, c.accepts (.done rec) = true) ∧ c.accepts (.refused .badFrame) = true ∧
      (c.accepts (.refused .noMedia) = false ↔ c = .reportState) ∧
      (c.accepts (.refused .writeProtected) = true ↔
        (∃ t xs, c = .eraseSectors t xs) ∨ ∃ t fs, c = .recordSectors t fs) ∧
      (c.accepts (.refused .seekError) = true ↔
        (∃ t xs, c = .readSectors t xs) ∨ (∃ t xs, c = .eraseSectors t xs) ∨
          ∃ t fs, c = .recordSectors t fs)) ∧
  (∀ (s : State) (o : OutstandingCommand), s.between = true → s.link.outstanding = some o →
      s.link.retryCount.getD 0 < s.policy.mechRetries →
      let again := fun (cause : FailureCause) =>
        Host.Outcome.next (φ := Fault) (ρ := Refusal) { s with link := { s.link with
          state := .awaitingResponse
          lastFailure := some cause
          retryCount := some (s.link.retryCount.getD 0 + 1)
          linkRetries := min (s.link.linkRetries + 1) 65535
          received := []
          remaining := some (Config.responseLimit o.command)
          sent := s.link.sent ++ o.frames } }
      (s.link.state = .awaitingResponse → exec .damagedFrame s = again .check) ∧
      (s.link.state = .awaitingResponse → s.link.remaining = some 0 →
        exec .commandTimeout s = again .timeout) ∧
      (∀ k f, (∀ track sectors, o.command = .readSectors track sectors →
          k ∉ sectors ∨ ∃ e ∈ s.link.received, k ≤ e.1) →
        exec (.mechDataFrame o.number k f) s = again .check) ∧
      (∀ a, o.command.accepts a = false → exec (.response o.number a) s = again .check) ∧
      exec (.response o.number (.refused .badFrame)) s = again .badFrame ∧
      (o.command.accepts (.refused .seekError) = true →
        exec (.response o.number (.refused .seekError)) s = again .seekError))

/-- With the retries run out, a timeout, a damaged frame, an answer not accepted, a DATA frame that is not
well placed, or REFUSED BAD FRAME is a link fault: outside a recovery the cartridge is FAULTED, the link
IDLE, the engine FREE with no open run, a channel's read-ahead absent (where no READ that goes on has its
read-ahead moment still to come), the ejects no longer listed; the map, the reservations and the policy
stay (R104, R126, R127, R130, R147).

Each READ with a sector not yet available (none before it failed, log 22), each WRITE, REASSIGN and FLUSH
MAP, each listed EJECT, and from SPINNING or MOUNTING each listed MOUNT ends MECHANISM FAULT, its completion
at the outbox's tail; every other request stays, and the notice goes to both ports (R147, R164).

During a recovery it fails the recovery: the state stays FAULTED, or is EJECTING with EJECT sent where an
eject is pending; each listed MOUNT ends MECHANISM FAULT, every other request stays, the notice goes to
both ports, and nothing else changes but the places of a write command cut off (R130, R148, R149). -/
def Obligations.LinkFaultEntersFaulted : Prop :=
  ∀ (s : State) (o : OutstandingCommand), s.between = true → s.link.outstanding = some o →
    s.link.state = .awaitingResponse → s.policy.mechRetries ≤ s.link.retryCount.getD 0 →
      ∀ i : Instr, (i = .damagedFrame ∨ (i = .commandTimeout ∧ s.link.remaining = some 0) ∨
          i = .response o.number (.refused .badFrame) ∨
          (∃ a, i = .response o.number a ∧ o.command.accepts a = false) ∨
          ∃ k f, i = .mechDataFrame o.number k f ∧ ∀ track sectors,
            o.command = .readSectors track sectors →
              wellPlaced sectors s.link.received k = false) →
        (s.ctl.recovering = false → ∃ u : State, exec i s = .next u ∧ s.becomesFaulted u ∧
          u.ctl.startupReport = false ∧ u.link.received = [] ∧
          u.link.nextNumber = s.link.nextNumber ∧ u.link.linkRetries = s.link.linkRetries) ∧
        (s.ctl.recovering = true → s.ctl.state = .faulted → ∃ u : State, exec i s = .next u ∧
          s.recoveryFails u ∧ u.ctl.startupReport = false ∧ u.medium = s.mediumCutOff.medium)

/-- The start-up report in EMPTY (R138): no media leaves EMPTY; media without a fault makes the state
SPINNING with the record's write-protect state and sends SPIN UP. In both the report has ended and nothing
else changes. In SPINNING, where a MEDIA IN came first, a report without a fault gives the write-protect
state and SPIN UP is sent; nothing else changes. With a fault present, media or not in EMPTY (no media
there is the model's choice, log 42), the state is FAULTED, as at a link fault; the write-protect state is
the record's, and from EMPTY without write work the map's copy stays as it is (R138, R147).

SPIN UP done outside a recovery: MOUNTING, the flag NONE, the header copy, the slip list and the
replacement list emptied with generation 0 and the map clean, and track 0 asked for; nothing else changes
(R18, R140).

The recovery's REPORT STATE done (R148): no media is a removal (with a fault present too, the model's
choice, log 42): the machine is EMPTY and the requests end so (R146). With media the write-protect state
is the record's, and a yes sets a NONE flag (R141; where it does so is the model's reading, log 28). With a
fault present the state stays FAULTED, the recovery ends, each listed MOUNT ends MECHANISM FAULT and the
notice goes to both ports; a pending eject makes it EJECTING with EJECT sent (R149). With the spindle
stopped SPIN UP is sent and the recovery goes on.

With the spindle stable, and at the recovery's SPIN UP done: with a track-1 verdict held the state is
READY with the map kept, a dirty one's settle remaining restarting; each listed MOUNT ends SUCCESS, none
is listed any more, and CARTRIDGE READY goes to both ports, with READ-ONLY where the flag was set now; a
pending eject starts the unmount. With none held it is MOUNTING, as after SPIN UP, and the MOUNTs stay
listed and outstanding (R148, R149). -/
def Obligations.StartupReportEnds : Prop :=
  (∀ (s : State) (o : OutstandingCommand) (rec : StateRecord), s.between = true →
    s.link.outstanding = some o → o.command = .reportState → o.sender = .cartridgeController →
    s.ctl.startupReport = true → s.ctl.state = .empty → rec.faultPresent = false →
      let idle : Link := { s.link with
        state := .idle, outstanding := none, remaining := none, retryCount := none,
        lastFailure := none, received := [] }
      exec (.response o.number (.done rec)) s = .next
        (if rec.mediaPresent then
          ({ s with
            link := idle
            ctl := { s.ctl with startupReport := false, state := .spinning,
                                writeProtect := rec.writeProtected } } : State).sendCommand
              .cartridgeController .spinUp
        else { s with link := idle, ctl := { s.ctl with startupReport := false } })) ∧
  (∀ (s : State) (o : OutstandingCommand) (rec : StateRecord), s.between = true →
    s.link.outstanding = some o → o.command = .reportState → o.sender = .cartridgeController →
    s.ctl.startupReport = true →
      (s.ctl.state = .spinning → rec.faultPresent = false →
        exec (.response o.number (.done rec)) s = .next (({ s with
          link := { s.link with
            state := .idle, outstanding := none, remaining := none, retryCount := none,
            lastFailure := none, received := [] }
          ctl := { s.ctl with startupReport := false, writeProtect := rec.writeProtected } } :
            State).sendCommand .cartridgeController .spinUp)) ∧
      ((s.ctl.state = .empty ∨ s.ctl.state = .spinning) → rec.faultPresent = true →
        ∃ u : State, exec (.response o.number (.done rec)) s = .next u ∧ s.becomesFaulted u ∧
          u.ctl.writeProtect = rec.writeProtected ∧ u.ctl.startupReport = false ∧
          (s.ctl.state = .empty → s.works = [] → u.dm = s.dm))) ∧
  (∀ (s : State) (o : OutstandingCommand) (rec : StateRecord), s.between = true →
    s.link.outstanding = some o → o.command = .spinUp → o.sender = .cartridgeController →
    s.ctl.recovering = false →
      exec (.response o.number (.done rec)) s = .next { s with
        link := { s.link with
          state := .idle, outstanding := none, remaining := none, retryCount := none,
          lastFailure := none, received := [] }
        dm := { s.dm with bands := [], slips := [], replacement := [], generation := 0,
                          dirty := false, verdictHeld := false }
        ctl := { s.ctl with state := .mounting, readOnly := .none, recovering := false,
                            indexWanted := some 0 } }) ∧
  (∀ (s : State) (o : OutstandingCommand) (rec : StateRecord), s.between = true →
    s.link.outstanding = some o → o.sender = .cartridgeController →
    s.ctl.startupReport = false → s.ctl.state = .faulted → s.ctl.recovering = true →
    s.ctl.unmountAnswer = none → s.ctl.unmountAsked = false →
      let protects := fun (wp : Bool) =>
        if wp = true ∧ s.ctl.readOnly = .none then ReadOnly.writeProtected else s.ctl.readOnly
      let sent := fun (u : State) => u.link.outstanding.map (fun c => (c.command, c.sender))
      let mounted := fun (u : State) (wp : Bool) =>
        if s.dm.verdictHeld = true then
          u.ctl.state = (if s.ctl.ejectPending then .unmounting else .ready) ∧
            u.ctl.recovering = false ∧ u.ctl.readOnly = protects wp ∧ u.ctl.writeProtect = wp ∧
            u.ctl.mountRequesters = [] ∧ u.ctl.ejectPending = false ∧ sent u = none ∧
            s.mountsEnd u 0x00 ∧ s.notifies u .cartridgeReady ∧
            (wp = true → s.ctl.readOnly = .none → s.notifies u .readOnly) ∧
            u.dm.bands = s.dm.bands ∧ u.dm.slips = s.dm.slips ∧
            u.dm.replacement = s.dm.replacement ∧ u.dm.generation = s.dm.generation ∧
            u.dm.dirty = s.dm.dirty ∧
            u.dm.settle =
              (if s.dm.dirty then .running s.policy.settleDelay else s.dm.settle)
        else
          u.ctl.state = .mounting ∧ u.ctl.readOnly = .none ∧ u.ctl.recovering = false ∧
            u.ctl.writeProtect = wp ∧ u.ctl.indexWanted = some 0 ∧ sent u = none ∧
            u.ctl.mountRequesters = s.ctl.mountRequesters ∧ u.dm.bands = [] ∧ u.dm.slips = [] ∧
            u.dm.replacement = [] ∧ u.dm.generation = 0 ∧ u.dm.dirty = false ∧
            ∀ c, ∀ q ∈ s.reqs c, q.kind = .mount → s.findWork q.id = none → q ∈ u.reqs c
      (o.command = .reportState → ∃ u : State, exec (.response o.number (.done rec)) s = .next u ∧
        (rec.mediaPresent = false → u.ctl.state = .empty ∧ u.ctl.recovering = false ∧
          u.ctl.readOnly = .none ∧ u.ctl.writeProtect = false ∧ u.ctl.mountRequesters = [] ∧
          u.dm = DefectManager.reset ∧ u.works = [] ∧ u.reservations = [] ∧ sent u = none ∧
          s.removalEnds u) ∧
        (rec.mediaPresent = true → rec.faultPresent = true → s.mountsEnd u 0x16 ∧
          s.notifies u .mechanismFault ∧
          u.ctl.state = (if s.ctl.ejectPending then .ejecting else .faulted) ∧
            u.ctl.recovering = false ∧ u.ctl.mountRequesters = [] ∧
            u.ctl.writeProtect = rec.writeProtected ∧ u.ctl.readOnly = protects rec.writeProtected ∧
            u.ctl.ejectPending = false ∧
            sent u = (if s.ctl.ejectPending then some (.eject, .cartridgeController) else none)) ∧
        (rec.mediaPresent = true → rec.faultPresent = false → rec.spindle = .stopped →
          u.ctl.state = .faulted ∧ u.ctl.recovering = true ∧
            u.ctl.mountRequesters = s.ctl.mountRequesters ∧
            u.ctl.writeProtect = rec.writeProtected ∧ u.ctl.readOnly = protects rec.writeProtected ∧
            sent u = some (.spinUp, .cartridgeController)) ∧
        (rec.mediaPresent = true → rec.faultPresent = false → rec.spindle = .stable →
          mounted u rec.writeProtected)) ∧
      (o.command = .spinUp → ∃ u : State, exec (.response o.number (.done rec)) s = .next u ∧
        mounted u s.ctl.writeProtect))

/-- A record pass that ended DONE: its places are RECORDED with the frames sent, the verify pass comes
next, the engine is FREE and the link IDLE. An erase pass likewise leaves its places ERASED, and the record
pass comes next. Neither touches the map, a port, a request or a reservation (R71, R92, R93). Each slot that
the run's work holds for a sector of the run is at stage RECORDED, or ERASED, and no slot changes
otherwise (R71, R92, R93).

An erase-only run ends with its erase pass: its places are ERASED, the engine is FREE with no open run, the
work goes and the map stays with its reassignment. The REASSIGN ends MEDIUM ERROR, ABORTED with an abort
mark, sectors done 0, first failing LSN its LSN, with its REASSIGNED flag; one discarded by a channel
reset ends without a completion (R49, R101, R103).

A verify pass that ended DONE settles its run's sectors in ascending order, adds the follow-up runs of
those reassigned, closes the run, and ends the work where nothing is left (R95). The follow-up runs of
LSNs are those of R34, numbered in the order formed, at the end of the work's.

A piece of work ends when every sector has a result or has been dropped, none of its runs is to be taken
and none is open; until then it stays. The rescue is counted done with no sector failed, dropped with one.
A WRITE or REASSIGN leaves the work and the slot-wait list; its request, where it still has one, completes
SUCCESS, the status of the lowest LSN that failed, or ABORTED with an abort mark, with sectors done those
that passed, that LSN, the load (a fetch's before a verify's, the model's reading, log 20), CORRECTED by it
from 1 on, and REASSIGNED (R47, R97, R159).

A sector passes when its outcome is CLEAN, or CORRECTED with a load of at most the verify limit, and its
data equals the slot's content (R94).

A sector that passed has the result PASSED and its slot is CLEAN, its stage and its work absent, its stamp
set. One that failed takes WRITE PROTECTED with the read-only flag set, WRITE FAILED with 3 spares tried,
or the status of a refused reassignment, and its slot is dropped (a held one's claim ends there, the model's
choice, log 46); else it is reassigned, and its slot is at stage QUEUED again with
its content. The load is kept for the work's worst (R43, R71, R94, R95, R99).

The writeback's verify pass: with all 16 sectors passing the generation rises by 1, and the map is clean
where nothing changed since the staging, else settle remaining restarts; the FLUSH MAPs it served, and
with the map clean all of them, complete SUCCESS. With any failing, and at SEEK FAILED, the map and its
generation stay, every FLUSH MAP completes MAP NOT SAVED, and a NONE flag is set, INDEX WRITE FAILED,
with READ-ONLY to both ports and every WRITE and REASSIGN ended. The run closes and the engine is FREE
(R51, R52, R54, R99, R102). An unmount that has asked is answered SAVED with the map clean, and NOT SAVED
at the failure, and goes on to EJECTING with EJECT sent (R55, R143). (No write work goes by a FLUSH MAP's
number: a premise.)

An erase or record command refused PROTECTED ends its run: the engine is FREE, the write-protect state
yes, and a NONE flag is set, PROTECTED, with the rescue list emptied and all write work ended; the map's
generation and its dirty flag stay (R52, R99, R132). With the flag set now READ-ONLY goes to both ports and
each WRITE and REASSIGN completes: with the status of its lowest LSN that failed, where a sector without a
result has WRITE PROTECTED, or ABORTED with an abort mark. Then, and for a refused writeback, every FLUSH
MAP completes MAP NOT SAVED, and an unmount that has asked is answered NOT SAVED (R54, R55, R99, R159). The
link is IDLE and the cartridge state stays, but
for an unmount that this step finds or makes answered: there the state is EJECTING with EJECT sent (R143).

A pass that ended SEEK FAILED ends its run: each of its sectors without a result takes SEEK FAILED, and
the places are left as R4 gives for a pass cut off (what the model records of them is log 13); the map stays
(R98). -/
def Obligations.WritePassesEnd : Prop :=
  let staged := fun (s : State) (r : OpenRun) (u : State) (stage : WriteStage) =>
    let mine := fun (j : Nat) => j < s.pool.slots.length ∧ (s.slotAt j).workId = r.work.id? ∧
      ∃ id w, r.work.id? = some id ∧ s.findWork id = some w ∧
        ∃ x ∈ w.sectors, x.lsn ∈ r.run.lsns ∧ x.slot = some j
    u.pool = { s.pool with slots := u.pool.slots } ∧
      u.pool.slots.length = s.pool.slots.length ∧
      ∀ j, (mine j → u.slotAt j = { s.slotAt j with stage := some stage }) ∧
        (¬mine j → u.slotAt j = s.slotAt j)
  (∀ (s : State) (o : OutstandingCommand) (op : Operation) (r : OpenRun) (rec : StateRecord),
    s.between = true → s.link.outstanding = some o → o.sender = .mediaEngine →
    s.engine = some op → s.sched.openRun = some r → s.ctl.unmountAnswer = none →
    (op.kind = .erasePass → r.eraseOnly = false →
      ∃ u : State, exec (.response o.number (.done rec)) s = .next u ∧
        u.medium = r.run.sectors.foldl (fun m x => setPlace m r.run.track x.sector [.erased])
          s.medium ∧
        u.sched = { s.sched with openRun := some { r with pass := .record } } ∧
        staged s r u .erased ∧ u.engine = none ∧ u.link.state = .idle ∧ u.link.outstanding = none ∧
        u = { s with pool := u.pool, medium := u.medium, sched := u.sched, engine := none,
                     link := u.link }) ∧
    (∀ track frames, op.kind = .recordPass → o.command = .recordSectors track frames →
      ∃ u : State, exec (.response o.number (.done rec)) s = .next u ∧
        u.medium = frames.foldl (fun m f => setPlace m f.track f.sector [.recorded f.data])
          s.medium ∧
        u.sched = { s.sched with openRun := some { r with pass := .verify } } ∧
        staged s r u .recorded ∧ u.engine = none ∧ u.link.state = .idle ∧ u.link.outstanding = none ∧
        u = { s with pool := u.pool, medium := u.medium, sched := u.sched, engine := none,
                     link := u.link })) ∧
  (∀ (s : State) (o : OutstandingCommand) (op : Operation) (r : OpenRun) (id : Nat) (w : WriteWork)
    (x : WorkSector) (rec : StateRecord), s.between = true → s.link.outstanding = some o →
    o.sender = .mediaEngine → s.engine = some op → op.kind = .erasePass →
    s.sched.openRun = some r → r.eraseOnly = true → s.ctl.unmountAnswer = none →
    r.work.id? = some id → s.findWork id = some w → w.kind = .reassign → w.sectors = [x] →
    x.result = none → x.dropped = false →
      ∃ u : State, exec (.response o.number (.done rec)) s = .next u ∧
        u.medium = r.run.sectors.foldl (fun m x => setPlace m r.run.track x.sector [.erased])
          s.medium ∧
        u.engine = none ∧ u.sched.openRun = none ∧ u.link.state = .idle ∧
        u.link.outstanding = none ∧ u.dm = s.dm ∧ u.ctl = s.ctl ∧
        u.works = s.works.filter (fun v => v.id != id) ∧
        (w.owner = none → ∀ c, u.reqs c = s.reqs c ∧ (u.port c).outbox = (s.port c).outbox) ∧
        ∀ c q, w.owner = some c → s.findReq c id = some q →
          (u.reqs c).map (fun y => (y.id, y.tag)) =
            ((s.reqs c).filter (fun y => y.id != id)).map (fun y => (y.id, y.tag)) ∧
          (u.port c.other).outbox = (s.port c.other).outbox ∧
          ∃ b, (u.port c).outbox = (s.port c).outbox ++ [b] ∧ b.tag = q.tag ∧
            b.kind = q.kind.code ∧ b.status = (if w.abortMark then 0x0D else 0x11) ∧
            (q.kind = .reassign → b.result = 0) ∧ b.lsn = BitVec.ofNat 24 x.lsn ∧
            b.flags.getLsbD 3 = w.reassigned ∧ b.time = s.timebase) ∧
  (∀ (s : State) (o : OutstandingCommand) (op : Operation) (r : OpenRun) (id : Nat) (w : WriteWork)
    (rec : StateRecord), s.link.outstanding = some o → o.sender = .mediaEngine →
    s.engine = some op → op.kind = .verifyPass → s.sched.openRun = some r → r.work.id? = some id →
    s.findWork id = some w →
      exec (.response o.number (.done rec)) s = .next (State.finish s
        (let t := r.run.sectors.foldl
          (fun (t : State × List Nat) y =>
            ((t.1.verifySector w r.run.track s.link.received y).1,
              t.2 ++ (t.1.verifySector w r.run.track s.link.received y).2)) (s.linkToIdle, [])
        let u := t.1.addFollowUps w.id t.2
        ({ u with engine := none, sched := { u.sched with openRun := none } } : State).checkWorkEnd
          w.id))) ∧
  (∀ (s : State) (id : Nat) (lsns : List Nat),
    let runs := (s.dm.followUpRuns lsns).zipIdx.map
      (fun x => { x.1 with serial := s.nextId + x.2 })
    s.addFollowUps id lsns = { s with
      nextId := s.nextId + runs.length
      works := s.works.map (fun v =>
        if v.id = id then { v with followUps := v.followUps ++ runs } else v) }) ∧
  (∀ (s : State) (id : Nat) (w : WriteWork), s.findWork id = some w →
    let atEnd := (∀ x ∈ w.sectors, x.result ≠ none ∨ x.dropped = true) ∧ w.followUps = [] ∧
      ∀ r, s.sched.openRun = some r → r.work ≠ w.name
    (¬atEnd → s.checkWorkEnd id = s) ∧
    (atEnd → w.kind = .rescue → s.checkWorkEnd id = s.endRescue w
      (w.sectors.all (fun x => match x.result with
        | some (.failed _) => false
        | _ => true))) ∧
    (atEnd → w.kind ≠ .rescue → s.checkWorkEnd id = { s with
        works := s.works.filter (fun v => v.id != id)
        pool := { s.pool with slotWait := s.pool.slotWait.filter (fun x => x != id) }
        requests := (s.checkWorkEnd id).requests, ports := (s.checkWorkEnd id).ports } ∧
      (w.owner = none → (s.checkWorkEnd id).requests = s.requests ∧
        (s.checkWorkEnd id).ports = s.ports) ∧
      ∀ c, w.owner = some c → (s.checkWorkEnd id).reqs c.other = s.reqs c.other ∧
        (s.checkWorkEnd id).ports = s.ports.set c { s.port c with
          transfers := (s.port c).transfers.filter (fun x => x.request != id) } ∧
        ∀ (old : State) (q : Request), s.idsInOrder = true → s.findReq c id = some q →
          (q.kind = .write ∨ q.kind = .reassign) →
            s.workCompletes (State.finish old (s.checkWorkEnd id)) c q w)) ∧
  (∀ (limit : Nat) (expected : Memory),
    (∀ d, verifyPasses limit expected (.clean d) = true ↔ d = expected) ∧
    (∀ n d, verifyPasses limit expected (.corrected n d) = true ↔ d = expected ∧ n ≤ limit) ∧
    verifyPasses limit expected .uncorrectable = false ∧
    verifyPasses limit expected .blank = false) ∧
  (∀ (s : State) (w : WriteWork) (track i : Nat) (received : List (Nat × SectorFrame))
    (y : RunSector) (x : WorkSector), w.sectors.find? (fun x => y.lsn == some x.lsn) = some x →
    x.slot = some i → i < s.pool.slots.length → (s.slotAt i).workId = some w.id →
    (s.slotAt i).state = .writing →
      let o := decodeFrame track y.sector (frameFor received y.sector)
      let passes := verifyPasses s.policy.verifyLimit (s.slotAt i).content o
      let u := s.verifySector w track received y
      let works := fun (f : WorkSector → WorkSector) => u.1.works = s.works.map (fun z =>
        if z.id = w.id then { z with
          worstLoad := maxLoad z.worstLoad o.load
          sectors := z.sectors.map (fun q => if q.lsn = x.lsn then f q else q) } else z)
      let fails := fun (st : Status) => u.2 = [] ∧ u.1.dm = s.dm ∧
        works (fun q => { q with result := some (.failed st) }) ∧ u.1.pool = (s.dropSlot i).pool
      (passes = true → u.2 = [] ∧ u.1.dm = s.dm ∧
        works (fun q => { q with result := some .passed }) ∧
        (u.1.slotAt i).state = .clean ∧ (u.1.slotAt i).stage = none ∧ (u.1.slotAt i).work = none ∧
        (u.1.slotAt i).stamp = s.timebase ∧ (u.1.slotAt i).content = (s.slotAt i).content ∧
        (u.1.slotAt i).lsn = (s.slotAt i).lsn ∧ (u.1.slotAt i).bindings = (s.slotAt i).bindings ∧
        u.1.pool.directory = s.pool.directory ∧ ∀ j, j ≠ i → u.1.slotAt j = s.slotAt j) ∧
      (passes = false → s.ctl.readOnly ≠ .none → fails .writeProtected) ∧
      (passes = false → s.ctl.readOnly = .none → 3 ≤ x.spares → fails .writeFailed) ∧
      (passes = false → s.ctl.readOnly = .none → x.spares < 3 →
        let answer := s.dm.reassign x.lsn (track, y.sector) s.policy.settleDelay
        (∀ st, answer = .refused st → fails st) ∧ (answer = .mismatch → fails .writeFailed) ∧
        (∀ d, answer = .done d → u.2 = [x.lsn] ∧ u.1.dm = d ∧
          u.1.pool = (s.setSlot i { s.slotAt i with stage := some .queued }).pool ∧
          u.1.works = s.works.map (fun z => if z.id = w.id then { z with
            worstLoad := maxLoad z.worstLoad o.load
            reassigned := true
            sectors := z.sectors.map (fun q => if q.lsn = x.lsn then
              { q with spares := q.spares + 1, covered := true } else q) } else z)))) ∧
  (∀ (s : State) (o : OutstandingCommand) (op : Operation) (r : OpenRun) (rec : StateRecord),
    s.between = true → s.link.outstanding = some o → o.sender = .mediaEngine →
    s.engine = some op → s.sched.openRun = some r → r.work = .writeback →
      let ended := fun (u : State) (a : UnmountAnswer) => u.engine = none ∧
        u.sched.openRun = none ∧
        (s.ctl.unmountAsked = true → s.ctl.unmountAnswer = none → u.ctl.unmountAnswer = some a ∧
          u.ctl.unmountAsked = false ∧ (s.ctl.state = .unmounting → u.ctl.state = .ejecting ∧
            u.link.outstanding.map (fun c => (c.command, c.sender)) =
              some (.eject, .cartridgeController)))
      let flushed := fun (u : State) (status : Byte) (which : Request → Prop) =>
        ∀ c, ∀ q ∈ s.reqs c, q.kind = .flushMap → s.findWork q.id = none → which q →
          (∀ x ∈ u.reqs c, x.id ≠ q.id) ∧
            ∃ b ∈ (u.port c).outbox, b.tag = q.tag ∧ b.kind = 0x20 ∧ b.status = status
      let failed := fun (u : State) => ended u .notSaved ∧
        (s.ctl.readOnly = .none → s.notifies u .readOnly ∧ u.works = [] ∧ ∀ c, ∀ q ∈ s.reqs c,
          ∀ w, s.findWork q.id = some w → s.protectEnds u c q w) ∧
        u.dm.dirty = s.dm.dirty ∧ u.dm.generation = s.dm.generation ∧
        u.dm.replacement = s.dm.replacement ∧ (s.ctl.readOnly = .none → u.dm.rescueList = []) ∧
        u.ctl.readOnly =
          (if s.ctl.readOnly = .none then .indexWriteFailed else s.ctl.readOnly) ∧
        flushed u 0x17 (fun _ => True)
      let allPass := ∀ i < 16, verifyPasses s.policy.verifyLimit (s.dm.staging.getD i [])
        (decodeFrame 1 i (frameFor s.link.received i)) = true
      (op.kind = .verifyPass → allPass →
        ∃ u : State, exec (.response o.number (.done rec)) s = .next u ∧
          (u.dm.dirty = false → ended u .saved) ∧ u.engine = none ∧ u.sched.openRun = none ∧
          u.dm = { s.dm with
            generation := s.dm.generation + 1
            dirty := if s.dm.changeCount = s.dm.snapshot then false else s.dm.dirty
            settle := if s.dm.changeCount = s.dm.snapshot then s.dm.settle
              else .running s.policy.settleDelay } ∧
          u.ctl.readOnly = s.ctl.readOnly ∧
          flushed u 0x00 (fun q => q.served = true ∨ u.dm.dirty = false)) ∧
      (op.kind = .verifyPass → ¬allPass →
        ∃ u : State, exec (.response o.number (.done rec)) s = .next u ∧ failed u) ∧
      ((op.kind = .erasePass ∨ op.kind = .recordPass ∨ op.kind = .verifyPass) →
        o.command.accepts (.refused .seekError) = true →
        s.policy.mechRetries ≤ s.link.retryCount.getD 0 →
        ∃ u : State, exec (.response o.number (.refused .seekError)) s = .next u ∧ failed u)) ∧
  (∀ (s : State) (o : OutstandingCommand) (op : Operation) (r : OpenRun), s.between = true →
    s.link.outstanding = some o → o.command.accepts (.refused .writeProtected) = true →
    s.engine = some op → s.sched.openRun = some r →
      ∃ u : State, exec (.response o.number (.refused .writeProtected)) s = .next u ∧
        u.engine = none ∧ u.sched.openRun = none ∧ u.ctl.writeProtect = true ∧
        u.ctl.readOnly =
          (if s.ctl.readOnly = .none then .writeProtected else s.ctl.readOnly) ∧
        u.dm.dirty = s.dm.dirty ∧ u.dm.generation = s.dm.generation ∧
        u.dm.replacement = s.dm.replacement ∧ u.medium = s.medium ∧
        (s.ctl.readOnly = .none → u.dm.rescueList = [] ∧ u.works = [] ∧
          s.notifies u .readOnly ∧ ∀ c, ∀ q ∈ s.reqs c, ∀ w, s.findWork q.id = some w →
            s.protectEnds u c q w) ∧
        (s.ctl.readOnly = .none ∨ r.work = .writeback →
          (∀ c, ∀ q ∈ s.reqs c, q.kind = .flushMap → s.findWork q.id = none →
            s.endsAs u c q 0x17 (fun _ => True)) ∧
          (s.ctl.unmountAsked = true → s.ctl.unmountAnswer = none →
            u.ctl.unmountAnswer = some .notSaved ∧ u.ctl.unmountAsked = false)) ∧
        (let ejects := s.ctl.state = .unmounting ∧ (s.ctl.unmountAnswer ≠ none ∨
          (s.ctl.unmountAsked = true ∧ (r.work = .writeback ∨ s.ctl.readOnly = .none)))
        (ejects → u.ctl.state = .ejecting ∧ u.link.outstanding.map (fun c => (c.command, c.sender)) =
          some (.eject, .cartridgeController)) ∧
        (¬ejects → u.ctl.state = s.ctl.state ∧ u.link.state = .idle ∧
          u.link.outstanding = none))) ∧
  (∀ (s : State) (o : OutstandingCommand) (op : Operation) (r : OpenRun) (id : Nat) (w : WriteWork),
    s.link.outstanding = some o → s.engine = some op →
    (op.kind = .erasePass ∨ op.kind = .recordPass ∨ op.kind = .verifyPass) →
    s.sched.openRun = some r → r.work.id? = some id → s.findWork id = some w →
    o.command.accepts (.refused .seekError) = true →
    s.policy.mechRetries ≤ s.link.retryCount.getD 0 →
      let t := ({ s with link := { s.link with lastFailure := some .seekError } } : State).endCommand
      exec (.response o.number (.refused .seekError)) s =
        .next (State.finish s ((t.failRun r .seekFailed).checkWorkEnd id)) ∧
      t.medium = s.mediumCutOff.medium ∧ t.link.outstanding = none ∧ t.works = s.works ∧
        t.dm = s.dm) ∧
  (∀ (s : State) (r : OpenRun) (id : Nat) (w : WriteWork) (st : Status), r.work.id? = some id →
    s.findWork id = some w → (w.sectors.map (fun x => x.lsn)).Nodup →
      ∃ u : State, s.failRun r st = u ∧ u.engine = none ∧ u.sched.openRun = none ∧
        u.findWork id = some { w with sectors := w.sectors.map (fun x =>
          if x.result = none ∧ x.dropped = false ∧ x.lsn ∈ r.run.lsns then
            { x with result := some (.failed st) } else x) } ∧
        u = { s with engine := none, sched := u.sched, works := u.works, pool := u.pool })

/-- A READ SECTORS of a fetch or INDEX FETCH ended DONE: the sectors it asked for are decoded, a re-read
decoding its one sector alone. Where an unsettled sector has re-reads left, the first one in sector order
is read again, alone, and nothing else changes but the engine and the link; else the fetch ends with the
outcomes it has. At SEEK FAILED it ends with the outcomes it has, the others unsettled (R84, R85, R87,
R89).

The decoder: no frame, another address, or more than 6 bytes in error in an interleave is UNCORRECTABLE;
the erased pattern is BLANK; no byte in error is CLEAN; else CORRECTED, its load the largest count among
the four interleaves (R5, R6).

An outcome other than UNCORRECTABLE settles its sector; a sector whose re-reads have reached the limit is
settled UNCORRECTABLE (R84, R85).

A fetch's end: each sector is handed to the pool in ascending order; a READ's or read-ahead's then makes
its rescue offers; a REASSIGN's or the rescue's first sector then goes to its work; the engine is FREE
(R86).

A sector with data: its slot has the data and is CLEAN with its stamp set, or, for a REASSIGN or rescue
that still goes on, WRITING at QUEUED, its stamp left as it was (the model's choice, log 39); the READs
bound record the load. One without data: its slot is FREE, and each READ bound fails there, with BLANK,
MEDIUM ERROR, or SEEK FAILED where it was not settled, every later binding given up (R65, R74, R86, R87,
R157).

A rescue offer: below the threshold nothing; else the first row of the table that applies (R44), in every
cartridge state (that an offer made in UNMOUNTING is added, and flags its READs, is the model's choice, log
38). The READs flagged are those still bound when the sector is handed over (the model's reading, log 33).

What a REASSIGN or the rescue gets: with data a REASSIGN's allocation is made and the rescue's rewrite is
ready; without, a REASSIGN's allocation is made for an erase alone, or it ends SEEK FAILED where its
sector was not settled, and the rescue ends (R47, R49, R74, R75, R87). The fetch's load is kept for the
REASSIGN's worst (log 20). -/
def Obligations.FetchesEnd : Prop :=
  (∀ (s : State) (o : OutstandingCommand) (op : Operation) (rec : StateRecord), s.between = true →
    s.link.outstanding = some o → o.sender = .mediaEngine → s.engine = some op →
    (op.kind = .fetch ∨ op.kind = .indexFetch) →
      let xs := match op.reread with
        | none => decodeFirst op.run.track s.link.received op.outcomes
        | some r => decodeReread op.run.track r.1 s.link.received op.outcomes
      let t := nextReread s.policy.readRetries xs
      (∀ r, t.2 = some r → exec (.response o.number (.done rec)) s = .next { s with
        engine := some { op with reread := some r, outcomes := t.1 }
        link := (s.linkToIdle.sendCommand .mediaEngine (.readSectors op.run.track [r.1])).link }) ∧
      (t.2 = none → exec (.response o.number (.done rec)) s =
        .next (State.finish s (s.linkToIdle.finishFetch op t.1)))) ∧
  (∀ (s : State) (o : OutstandingCommand) (op : Operation), s.link.outstanding = some o →
    s.engine = some op → (op.kind = .fetch ∨ op.kind = .indexFetch) →
    o.command.accepts (.refused .seekError) = true →
    s.policy.mechRetries ≤ s.link.retryCount.getD 0 →
      exec (.response o.number (.refused .seekError)) s = .next (State.finish s
        ((({ s with link := { s.link with lastFailure := some .seekError } } :
          State).endCommand).finishFetch op op.outcomes))) ∧
  (∀ (track sector : Nat), decodeFrame track sector none = .uncorrectable ∧
    ∀ f : SectorFrame,
      let worst := max (max f.errors0 f.errors1) (max f.errors2 f.errors3)
      (f.erasedPattern = true → decodeFrame track sector (some f) = .blank) ∧
      (f.erasedPattern = false → (f.track ≠ track ∨ f.sector ≠ sector) →
        decodeFrame track sector (some f) = .uncorrectable) ∧
      (f.erasedPattern = false → f.track = track → f.sector = sector →
        decodeFrame track sector (some f) =
          if 6 < worst then .uncorrectable
          else if worst = 0 then .clean f.data else .corrected worst f.data)) ∧
  (∀ (track sector : Nat) (rs : List (Nat × SectorFrame)) (xs : List FetchSector),
    let decoded := fun (x : FetchSector) =>
      { x with
        outcome := some (decodeFrame track x.sector (frameFor rs x.sector))
        settled := decodeFrame track x.sector (frameFor rs x.sector) != .uncorrectable }
    decodeFirst track rs xs = xs.map decoded ∧
      decodeReread track sector rs xs =
        xs.map (fun x => if x.sector = sector then decoded x else x)) ∧
  (∀ (k : Nat) (f : SectorFrame) (rs : List (Nat × SectorFrame)) (sector : Nat),
    frameFor [] sector = none ∧
      frameFor ((k, f) :: rs) sector = if k = sector then some f else frameFor rs sector) ∧
  (∀ n : Nat, nextReread n [] = ([], none) ∧ ∀ (x : FetchSector) (xs : List FetchSector),
    (x.settled = true →
      nextReread n (x :: xs) = (x :: (nextReread n xs).1, (nextReread n xs).2)) ∧
    (x.settled = false → x.rereads < n → nextReread n (x :: xs) =
      ({ x with rereads := x.rereads + 1 } :: xs, some (x.sector, x.rereads + 1))) ∧
    (x.settled = false → n ≤ x.rereads → nextReread n (x :: xs) =
      ({ x with settled := true } :: (nextReread n xs).1, (nextReread n xs).2))) ∧
  (∀ (s : State) (op : Operation) (xs : List FetchSector), op.kind = .fetch →
    let t := xs.foldl (fun (t : State × List Offer) x =>
      ((t.1.handOver x).1, t.2 ++ (t.1.handOver x).2)) ({ s with engine := none }, [])
    let offers := (∃ c id, op.work = .read c id) ∨ ∃ c, op.work = .readAhead c
    (offers → s.finishFetch op xs = t.2.foldl (fun s o => s.offerRescue o) t.1) ∧
    (∀ id w x ys, (op.work = .reassign id ∨ op.work = .rescue id) → t.1.findWork id = some w →
      xs = x :: ys → s.finishFetch op xs = t.1.fetchToWork w x) ∧
    (∀ id, (op.work = .reassign id ∨ op.work = .rescue id) → t.1.findWork id = none →
      s.finishFetch op xs = t.1)) ∧
  (∀ (s : State) (lsn i : Nat), s.fetchSlot lsn = some i → i < s.pool.slots.length ∧
    (s.slotAt i).state = .fetching ∧ (s.slotAt i).fetchBegun = true ∧
    (s.slotAt i).lsn = some lsn) ∧
  (∀ (s : State) (x : FetchSector) (lsn i : Nat), x.lsn = some lsn → s.fetchSlot lsn = some i →
    let u := (s.handOver x).1
    let live := ((∃ id, (s.slotAt i).work = some (.reassign id) ∧ (s.findWork id).isSome) ∨
      ∃ id, (s.slotAt i).work = some (.rescue id) ∧ (s.findWork id).isSome)
    let bound := fun (c : Channel) (r : Request) => s.findReq c r.id = some r ∧
      ∃ b ∈ (s.slotAt i).bindings, b.ch = c ∧ b.id = r.id
    let good := fun (load : Nat) (d : Memory) =>
      (live → u.slotAt i = { s.slotAt i with
        state := .writing, stage := some .queued, content := d, fetchBegun := false }) ∧
      (¬live → ((s.slotAt i).stale = false ∨ (s.slotAt i).bindings ≠ []) →
        (u.slotAt i).state = .clean ∧ (u.slotAt i).content = d ∧ (u.slotAt i).work = none ∧
          (u.slotAt i).stamp = s.timebase ∧ (u.slotAt i).bindings = (s.slotAt i).bindings ∧
          (u.slotAt i).lsn = some lsn ∧ u.pool.directory = s.pool.directory) ∧
      (¬live → (s.slotAt i).stale = true → (s.slotAt i).bindings = [] →
        (u.slotAt i).state = .free) ∧
      ∀ c r, bound c r → u.findReq c r.id =
        some { r with sectors := r.sectors.modify (lsn - r.lsn) (fun y => { y with load := some load }) }
    let bad := fun (st : Status) => (s.handOver x).2 = [] ∧ (u.slotAt i).state = .free ∧
      (∀ d ∈ u.pool.directory, d.2 ≠ i) ∧
      ∀ c r, bound c r → u.findReq c r.id =
        some { r with sectors := failFrom st (lsn - r.lsn) r.sectors }
    (∀ d, x.settled = true → x.outcome = some (.clean d) → good 0 d ∧ (s.handOver x).2 = []) ∧
    (∀ n d, x.settled = true → x.outcome = some (.corrected n d) → good n d ∧
      (s.handOver x).2 = [{ lsn := lsn, load := n, readers := (s.slotAt i).bindings }]) ∧
    (x.settled = true → x.outcome = some .blank → bad .blank) ∧
    (x.settled = true → x.outcome = some .uncorrectable → bad .mediumError) ∧
    (x.settled = false → bad .seekFailed)) ∧
  (∀ (st : Status) (k j : Nat) (xs : List ReadSector), (failFrom st k xs)[j]? =
    if j < k then xs[j]?
    else if j = k then xs[j]?.map (fun _ => { st := .failed st, load := none })
    else xs[j]?.map (fun y => match y.st with
      | .bound _ => { y with st := .gaveUp }
      | _ => y)) ∧
  (∀ (s : State) (o : Offer), (o.load < s.policy.rescueThreshold → s.offerRescue o = s) ∧
    (s.policy.rescueThreshold ≤ o.load →
      let u := s.offerRescue o
      let flagged := ∀ c r, s.findReq c r.id = some r →
        (∃ b ∈ o.readers, b.ch = c ∧ b.id = r.id) →
          u.findReq c r.id = some { r with rescueQueued := true }
      let listed := ∃ e ∈ s.dm.rescueList, e.1 = o.lsn
      let inProgress := ∃ w, s.rescue = some w ∧ w.firstLsn = o.lsn
      (s.ctl.readOnly ≠ .none → u = s) ∧
      (s.ctl.readOnly = .none → listed → flagged ∧ u = { s with requests := u.requests, dm :=
        { s.dm with rescueList := s.dm.rescueList.map (fun e =>
            if e.1 = o.lsn then (e.1, max e.2 o.load) else e) } }) ∧
      (s.ctl.readOnly = .none → ¬listed → inProgress → u = s) ∧
      (s.ctl.readOnly = .none → ¬listed → ¬inProgress → 16 ≤ s.dm.rescueList.length →
        u = { s with dm := { s.dm with rescuesDropped := min (s.dm.rescuesDropped + 1) 65535 } }) ∧
      (s.ctl.readOnly = .none → ¬listed → ¬inProgress → s.dm.rescueList.length < 16 →
        flagged ∧ u = { s with requests := u.requests, dm :=
          { s.dm with rescueList := s.dm.rescueList ++ [(o.lsn, o.load)] } }))) ∧
  (∀ (s : State) (w : WriteWork) (x : FetchSector),
    let loaded := fun (n : Option Nat) => s.updWork w.id (fun v => { v with fetchLoad := n })
    let emptied := (loaded none).updWorkSector w.id w.firstLsn (fun y => { y with slot := none })
    (∀ o d, x.settled = true → x.outcome = some o → o.data? = some d →
      (w.kind ≠ .rescue → s.fetchToWork w x =
        (loaded o.load).reassignAllocate w w.firstLsn true) ∧
      (w.kind = .rescue → s.fetchToWork w x =
        s.updWork w.id (fun v => { v with phase := .runs, fetchLoad := none }))) ∧
    ((x.settled = false ∨ x.outcome = some .blank ∨ x.outcome = some .uncorrectable) →
      (w.kind = .rescue → s.fetchToWork w x = emptied.endRescue w false) ∧
      (w.kind ≠ .rescue → x.settled = true → s.fetchToWork w x =
        emptied.reassignAllocate w w.firstLsn false) ∧
      (w.kind ≠ .rescue → x.settled = false → s.fetchToWork w x =
        (emptied.endOpenSectors w.id [] (some (.failed .seekFailed))).checkWorkEnd w.id))) ∧
  (∀ (s : State) (w : WriteWork) (done : Bool), s.endRescue w done = { s with
    works := s.works.filter (fun v => v.id != w.id)
    dm := if done then { s.dm with rescuesDone := min (s.dm.rescuesDone + 1) 65535 }
      else { s.dm with rescuesDropped := min (s.dm.rescuesDropped + 1) 65535 } })

/-- A RESPONSE or DATA frame with no command outstanding or with another number, and a damaged frame on an
IDLE link, are discarded (R126).

COMMAND TIMEOUT acts only on a command AWAITING RESPONSE whose response remaining is 0 (R125; that the
command changes nothing before is the model's reading, log 7).

An EVENT frame that repeats the last event's number is acknowledged only (R134). -/
def Obligations.FramesWithoutEffect : Prop :=
  (∀ (n : Byte) (a : Answer) (k : Nat) (f : SectorFrame) (s : State), s.between = true →
      ((∀ o, s.link.outstanding = some o → o.number ≠ n) →
        exec (.response n a) s = .next s ∧ exec (.mechDataFrame n k f) s = .next s) ∧
      (s.link.state = .idle → exec .damagedFrame s = .next s)) ∧
  (∀ s : State, s.between = true → (s.link.state ≠ .awaitingResponse ∨ s.link.remaining ≠ some 0) →
      exec .commandTimeout s = .next s) ∧
  (∀ (n : Byte) (s : State), s.between = true → s.link.lastEvent = some n →
      ∀ i : Instr, ((∃ wp, i = .mediaIn n wp) ∨ i = .mediaOut n ∨ i = .button n ∨ i = .mechFault n) →
        exec i s = .next { s with link := { s.link with sent := s.link.sent ++ [.eventAck n] } })

/-- MEDIA IN acted upon (R134, R139, R151): in EMPTY the state is SPINNING, and SPIN UP is sent when the
start-up report has ended and no command is outstanding; in other states, with the field reporting no, only
the write-protect state takes it. The event is acknowledged and its number kept; nothing else changes.

With the field reporting yes in another state than EMPTY the write-protect state takes it too; in READY,
UNMOUNTING and FAULTED it sets a NONE flag, PROTECTED: READ-ONLY goes to both ports, the rescue list
empties, the map stays, all write work but that of an open run ends, and with no writeback in flight every
FLUSH MAP completes MAP NOT SAVED, no write work going by its number. Each WRITE and REASSIGN so ended
completes with the status of its lowest LSN that failed, where a sector without a result has WRITE
PROTECTED, or ABORTED with an abort mark (R159). In the other states, and with the flag set already, nothing
else changes (R45, R54, R99, R141, R151). -/
def Obligations.MediaInIsTaken : Prop :=
  (∀ (n : Byte) (wp : Bool) (s : State), s.between = true → s.link.lastEvent ≠ some n →
    let t : State := { s with
      link := { s.link with sent := s.link.sent ++ [.eventAck n], lastEvent := some n }
      ctl := { s.ctl with writeProtect := wp } }
    (s.ctl.state = .empty → exec (.mediaIn n wp) s = .next
      (let u : State := { t with ctl := { t.ctl with state := .spinning } }
      if s.ctl.startupReport then u else u.sendCommand .cartridgeController .spinUp)) ∧
    (s.ctl.state ≠ .empty → wp = false → exec (.mediaIn n wp) s = .next t)) ∧
  (∀ (n : Byte) (s : State), s.between = true → s.link.lastEvent ≠ some n → s.ctl.state ≠ .empty →
    ((s.ctl.readOnly ≠ .none ∨ s.ctl.state = .spinning ∨ s.ctl.state = .mounting ∨
        s.ctl.state = .ejecting ∨ s.ctl.state = .unreadable) →
      exec (.mediaIn n true) s = .next { s with
        link := { s.link with sent := s.link.sent ++ [.eventAck n], lastEvent := some n }
        ctl := { s.ctl with writeProtect := true } }) ∧
    (s.ctl.readOnly = .none →
      (s.ctl.state = .ready ∨ s.ctl.state = .unmounting ∨ s.ctl.state = .faulted) →
      ∃ u : State, exec (.mediaIn n true) s = .next u ∧ u.ctl.writeProtect = true ∧
        u.ctl.readOnly = .writeProtected ∧ u.dm.rescueList = [] ∧
        u.dm.replacement = s.dm.replacement ∧ u.dm.dirty = s.dm.dirty ∧
        u.dm.generation = s.dm.generation ∧ u.engine = s.engine ∧
        u.sched.openRun = s.sched.openRun ∧ u.medium = s.medium ∧
        u.reservations = s.reservations ∧ u.link.lastEvent = some n ∧
        (s.ctl.state ≠ .unmounting → u.ctl.state = s.ctl.state) ∧
        (∀ w, s.findWork w.id = some w → (w.kind = .rescue → s.rescue = some w) →
          (∀ r, s.sched.openRun = some r → r.work ≠ w.name) → ∀ v ∈ u.works, v.id ≠ w.id) ∧
        s.notifies u .readOnly ∧
        (∀ c, ∀ q ∈ s.reqs c, ∀ w, s.findWork q.id = some w →
          (∀ r, s.sched.openRun = some r → r.work ≠ w.name) → s.protectEnds u c q w) ∧
        ((∀ r, s.sched.openRun = some r → r.work ≠ .writeback) →
          ∀ c, ∀ q ∈ s.reqs c, q.kind = .flushMap → s.findWork q.id = none →
            (∀ x ∈ u.reqs c, x.id ≠ q.id) ∧
            ∃ b ∈ (u.port c).outbox, b.tag = q.tag ∧ b.kind = 0x20 ∧ b.status = 0x17)))

/-- MEDIA OUT acted upon: in EMPTY with no command outstanding it changes nothing but the link's record of
the event, and with one outstanding, the start-up report, it cancels it too; in any other state it leaves
the machine EMPTY, with the flag NONE, no requester listed, the map emptied, every slot FREE, the directory
and the slot-wait list empty, no reservation, no write work, no operation, no open run, no read-ahead and an
IDLE link, and every port's outbox grows at its tail. The
policy, the settings and the Timebase stay (R37, R79, R136, R144, R146).

The mechanism EJECT done, and a command refused NO MEDIA in a state other than EMPTY, leave the machine
EMPTY in the same way, the last event's number staying and the medium record emptied (the model's choice,
log 44); each EJECT on the eject-requesters list, its MOUNT list holding no such entry, completes SUCCESS
with the map clean and MAP NOT SAVED with it dirty (R131, R144, R146).

In both, each READ, WRITE, REASSIGN, FLUSH MAP and REPORT MAP and each listed MOUNT ends NO CARTRIDGE and
each listed EJECT SUCCESS, or MAP NOT SAVED with the map dirty, its completion at the outbox's tail; every
other request stays. CARTRIDGE GONE goes to both ports, and with the map dirty MAP LOST, but for an eject
done in EJECTING with an unmount answer (R57, R144, R146, R164). -/
def Obligations.MediaOutEmptiesTheMachine : Prop :=
  (∀ (n : Byte) (s : State), s.between = true → s.link.law7 = true →
    s.link.lastEvent ≠ some n →
    (s.ctl.state = .empty → s.link.outstanding = none → exec (.mediaOut n) s = .next { s with
      link := { s.link with sent := s.link.sent ++ [.eventAck n], lastEvent := some n } }) ∧
    (s.ctl.state = .empty → s.link.outstanding ≠ none →
      exec (.mediaOut n) s = .next (s.eventCancels n)) ∧
    (s.ctl.state ≠ .empty → ∃ u : State, exec (.mediaOut n) s = .next u ∧
      u.ctl.state = .empty ∧ u.ctl.readOnly = .none ∧ u.ctl.writeProtect = false ∧
      u.ctl.ejectRequesters = [] ∧ u.ctl.mountRequesters = [] ∧ u.ctl.unmountAnswer = none ∧
      u.ctl.recovering = false ∧ u.ctl.ejectPending = false ∧
      u.dm = DefectManager.reset ∧ (∀ x ∈ u.pool.slots, x.state = .free) ∧
      u.pool.directory = [] ∧ u.pool.slotWait = [] ∧ u.reservations = [] ∧ u.works = [] ∧
      u.engine = none ∧ u.sched.openRun = none ∧ u.sched.readAhead = { a := none, b := none } ∧
      u.link.state = .idle ∧ u.link.outstanding = none ∧ u.link.linkRetries = 0 ∧
      u.link.lastEvent = some n ∧ u.policy = s.policy ∧ u.timebase = s.timebase ∧
      s.removalEnds u ∧
      (s.dm.dirty = true → s.ctl.state ≠ .ejecting → s.notifies u .mapLost) ∧
      ∀ c, (u.port c).settings = (s.port c).settings ∧
        ∃ bs, (u.port c).outbox = (s.port c).outbox ++ bs)) ∧
  (∀ (s : State) (o : OutstandingCommand) (i : Instr), s.between = true → s.link.law7 = true →
    s.link.outstanding = some o →
    ((o.command = .eject ∧ o.sender = .cartridgeController ∧
        ∃ rec, i = .response o.number (.done rec)) ∨
      (o.command ≠ .reportState ∧ s.ctl.state ≠ .empty ∧
        i = .response o.number (.refused .noMedia))) →
      ∃ u : State, exec i s = .next u ∧
        u.ctl.state = .empty ∧ u.ctl.readOnly = .none ∧ u.ctl.writeProtect = false ∧
        u.ctl.ejectRequesters = [] ∧ u.ctl.mountRequesters = [] ∧ u.ctl.unmountAnswer = none ∧
        u.ctl.recovering = false ∧ u.ctl.ejectPending = false ∧
        u.dm = DefectManager.reset ∧ (∀ x ∈ u.pool.slots, x.state = .free) ∧
        u.pool.directory = [] ∧ u.pool.slotWait = [] ∧ u.reservations = [] ∧ u.works = [] ∧
        u.engine = none ∧ u.sched.openRun = none ∧ u.sched.readAhead = { a := none, b := none } ∧
        u.medium = [] ∧ u.link.state = .idle ∧ u.link.outstanding = none ∧
        u.link.linkRetries = 0 ∧ u.link.lastEvent = s.link.lastEvent ∧ u.policy = s.policy ∧
        u.timebase = s.timebase ∧
        (∀ c, (u.port c).settings = (s.port c).settings ∧
          ∃ bs, (u.port c).outbox = (s.port c).outbox ++ bs) ∧ s.removalEnds u ∧
        (i = .response o.number (.refused .noMedia) → s.dm.dirty = true →
          s.ctl.state ≠ .ejecting → s.notifies u .mapLost) ∧
        ∀ e ∈ s.ctl.ejectRequesters, e ∉ s.ctl.mountRequesters →
          ∀ r, s.reqByTag e.1 e.2 = some r → r.kind = .eject →
            (∀ x ∈ u.reqs e.1, x.id ≠ r.id) ∧ ∃ b ∈ (u.port e.1).outbox, b.tag = e.2 ∧
              b.kind = 0x21 ∧ b.status = if s.dm.dirty then 0x17 else 0x00)

/-- The eject button (R145), its event new: what it does by the cartridge state. (In READY no unmount
answer is held; the clause on read-ahead is that of `EjectAccepted`.) -/
def Obligations.ButtonActsByState : Prop :=
  ∀ (n : Byte) (s : State), s.between = true → s.link.lastEvent ≠ some n →
    (s.ctl.state = .ready → s.ctl.unmountAnswer = none) →
    let t : State := { s with
      link := { s.link with sent := s.link.sent ++ [.eventAck n], lastEvent := some n } }
    let told := Host.Outcome.next (φ := Fault) (ρ := Refusal)
      ((t.postNotice .A .ejectButton).postNotice .B .ejectButton)
    (s.ctl.state = .ready → s.reservations = [] → ∃ u : State, exec (.button n) s = .next u ∧
      u.ctl = { s.ctl with state := .unmounting, ejectPending := false } ∧ u.dm.rescueList = [] ∧
      (∀ d, (s.rescue = none ∨ ∀ r ∈ s.reqs d, r.sequential = true →
        r.readAheadPassed = true) → u.sched.readAhead.get d = none) ∧ u.link = t.link ∧
      (∀ c, (u.port c).outbox = (s.port c).outbox)) ∧
    (s.ctl.state = .ready → s.reservations ≠ [] → exec (.button n) s = told) ∧
    (s.ctl.state = .unreadable ∨ s.ctl.state = .faulted ∧ s.ctl.recovering = false →
      exec (.button n) s = .next
        (({ t with ctl := { s.ctl with state := .ejecting, ejectPending := false } } :
          State).sendCommand .cartridgeController .eject)) ∧
    (s.ctl.state = .faulted → s.ctl.recovering = true →
      exec (.button n) s = .next { t with ctl := { s.ctl with ejectPending := true } }) ∧
    (s.ctl.state = .empty ∨ s.ctl.state = .spinning ∨ s.ctl.state = .mounting ∨
      s.ctl.state = .unmounting ∨ s.ctl.state = .ejecting → exec (.button n) s = told)

/-- MECH FAULT acted upon with no recovery under way (R136, R147): in EMPTY, with no command outstanding,
and in FAULTED with none, only the notice goes to both ports; with one outstanding, in EMPTY the start-up
report, it is cancelled too. In every other state the state is FAULTED,
the link IDLE, the engine FREE with no open run, a channel's read-ahead absent (where no READ that goes on
has its read-ahead moment still to come) and no eject listed, and the replacement list, its dirty flag, the
rescue list, the reservations and the read-only flag are kept. The requests end, or go on, as at a link
fault (R147, R164).

MECH FAULT acted upon during a recovery cancels the recovery's command and fails the recovery, as a link
fault does: the state stays FAULTED, or is EJECTING with EJECT sent where an eject is pending; each listed
MOUNT ends MECHANISM FAULT, every other request stays, the notice goes to both ports, and nothing else
changes but the places of a write command cut off (R136, R148, R149). -/
def Obligations.MechFaultEntersFaulted : Prop :=
  (∀ (n : Byte) (s : State), s.between = true → s.link.law7 = true →
    s.link.lastEvent ≠ some n → s.ctl.recovering = false →
    let t : State := { s with
      link := { s.link with sent := s.link.sent ++ [.eventAck n], lastEvent := some n } }
    ((s.ctl.state = .empty ∨ s.ctl.state = .faulted) → s.link.outstanding = none →
      exec (.mechFault n) s = .next
        ((t.postNotice .A .mechanismFault).postNotice .B .mechanismFault)) ∧
    ((s.ctl.state = .empty ∨ s.ctl.state = .faulted) → s.link.outstanding ≠ none →
      exec (.mechFault n) s = .next
        (((s.eventCancels n).postNotice .A .mechanismFault).postNotice .B .mechanismFault)) ∧
    (s.ctl.state ≠ .empty → s.ctl.state ≠ .faulted → ∃ u : State, exec (.mechFault n) s = .next u ∧
      s.becomesFaulted u ∧ u.link.lastEvent = some n)) ∧
  (∀ (n : Byte) (s : State) (o : OutstandingCommand), s.between = true →
    s.link.outstanding = some o → s.link.lastEvent ≠ some n → s.ctl.recovering = true →
    s.ctl.state = .faulted →
      ∃ u : State, exec (.mechFault n) s = .next u ∧ s.recoveryFails u ∧
        u.ctl.startupReport = false ∧ u.link.lastEvent = some n ∧
        u.medium = s.mediumCutOff.medium)

/-! ### Time (Chapters 3, 7, 9 and 11) -/

/-- A tick: the Timebase rises by 1 modulo 2^32, and each remaining-time count runs down by 1 while its
condition holds, staying at 0 until its expiry is taken (log 7); nothing else changes. -/
def Obligations.TickCountsDown : Prop :=
  ∀ s : State,
    let down := fun (n : Option Nat) => n.map (fun k => k - 1)
    let reqs := fun (rs : List Request) =>
      rs.map (fun (r : Request) => { r with deadline := down r.deadline })
    let port := fun (c : Channel) =>
      { s.port c with
        idle := if s.dataReady c then down (s.port c).idle else (s.port c).idle }
    exec .timebaseTick s = .next { s with
      timebase := s.timebase + 1
      requests := { a := reqs s.requests.a, b := reqs s.requests.b }
      ports := { a := port .A, b := port .B }
      dm := { s.dm with settle := match s.dm.settle with
        | .running k => .running (k - 1)
        | .absent => .absent
        | .reached => .reached }
      link := { s.link with
        remaining := if s.link.state = .awaitingResponse then down s.link.remaining
          else s.link.remaining } }

/-- A READ's deadline that has reached 0 expires (R158): with its transfer started the READ goes on, LATE;
not started it ends at once, EXPIRED with sectors done 0 and no failing LSN, its transfer leaving. Before
that, and for a tag with no such request, nothing changes (the model's reading, log 7). -/
def Obligations.DeadlineExpires : Prop :=
  ∀ (c : Channel) (tag : Byte) (s : State), s.between = true →
    ((∀ r, s.reqByTag c tag = some r → r.deadline ≠ some 0) →
      exec (.deadlineExpiry c tag) s = .next s) ∧
    ∀ r, s.reqByTag c tag = some r → r.deadline = some 0 →
      (r.started = true → exec (.deadlineExpiry c tag) s = .next { s with
        requests := s.requests.set c ((s.reqs c).map
          (fun x => if x.id == r.id then { x with deadline := none, late := true } else x)) }) ∧
      (r.started = false → r.kind = .read → ∃ (u : State) (b : OutBlock),
        exec (.deadlineExpiry c tag) s = .next u ∧
        (u.port c).outbox = (s.port c).outbox ++ [b] ∧ b.tag = tag ∧ b.kind = 0x01 ∧
        b.status = 0x0E ∧ b.result = 0 ∧ b.lsn = 0xFFFFFF ∧
        b.time = s.timebase ∧
        (u.reqs c).map (fun x => (x.id, x.tag)) =
          ((s.reqs c).filter (fun x => x.id != r.id)).map (fun x => (x.id, x.tag)) ∧
        (u.port c).transfers = (s.port c).transfers.filter (fun x => x.request != r.id) ∧
        u.port c.other = s.port c.other ∧
        u = { s with ports := u.ports, requests := u.requests, pool := u.pool, sched := u.sched } ∧
        u.sched = { s.sched with readAhead := u.sched.readAhead })

/-- The data idle limit (R181): with idle remaining at 0 the current transfer's request completes DATA
TIMEOUT and its transfer leaves; a WRITE's work is unfinished no more. A READ has sectors done as taken,
SHORT below its count and no failing LSN; a WRITE in its fill, no sector having a result, sectors done 0,
and its fill is abandoned (its sectors stand in slots of their own: a premise); a record result 0. Before
that, and without a transfer, nothing changes (the model's reading, log 7). -/
def Obligations.DataIdleLimitExpires : Prop :=
  ∀ (c : Channel) (s : State), s.between = true →
    ((s.currentTransfer c = none ∨ (s.port c).idle ≠ some 0) →
      exec (.dataTimeout c) s = .next s) ∧
    ∀ t r, s.currentTransfer c = some t → (s.port c).idle = some 0 →
      s.findReq c t.request = some r → (r.kind = .read ∨ r.kind = .status ∨ r.kind = .reportMap ∨
        (r.kind = .write ∧ ∃ w, s.findWork r.id = some w ∧ w.owner = some c)) →
        ∃ (u : State) (b : OutBlock), exec (.dataTimeout c) s = .next u ∧
          (u.port c).outbox = (s.port c).outbox ++ [b] ∧ b.tag = r.tag ∧ b.kind = r.kind.code ∧
          b.status = 0x0F ∧ b.time = s.timebase ∧
          (r.kind = .read → b.result = BitVec.ofNat 8 r.sectorsDone ∧ b.lsn = 0xFFFFFF ∧
            b.flags.getLsbD 4 = decide (r.sectorsDone < r.count)) ∧
          (r.kind = .status ∨ r.kind = .reportMap → b.result = 0) ∧
          (∀ w, r.kind = .write → s.findWork r.id = some w →
            (∀ x ∈ w.sectors, x.result = none ∧ x.dropped = false) →
              b.result = 0 ∧ b.lsn = 0xFFFFFF ∧
              ((w.sectors.filterMap (fun x => x.slot)).Nodup → ∀ x ∈ w.sectors, ∀ i,
                x.slot = some i → i < s.pool.slots.length →
                  u.slotAt i = (s.giveUpSlot r.id i).slotAt i)) ∧
          (r.kind = .write → ∀ w ∈ u.works, w.id ≠ r.id) ∧ (r.kind ≠ .write → u.works = s.works) ∧
          (u.reqs c).map (fun x => (x.id, x.tag)) =
            ((s.reqs c).filter (fun x => x.id != r.id)).map (fun x => (x.id, x.tag)) ∧
          (u.port c).transfers = (s.port c).transfers.filter (fun x => x.request != r.id) ∧
          u.port c.other = s.port c.other ∧
          u = { s with ports := u.ports, requests := u.requests, pool := u.pool,
                       sched := u.sched, works := u.works } ∧
          u.sched = { s.sched with readAhead := u.sched.readAhead }

/-- Settle remaining that has run down has reached 0 (log 8); nothing else changes, and before that
nothing changes.

When a writeback is due (R50): the map is dirty, the flag is NONE, settle remaining has reached 0, and
no writeback is in flight; the scheduler then wants one, as it does when the unmount has asked. -/
def Obligations.SettleRemaining : Prop :=
  (∀ s : State, exec .settleDelayExpiry s = .next
      (if s.dm.settle = .running 0 then { s with dm := { s.dm with settle := .reached } } else s)) ∧
  (∀ s : State, s.writebackWanted = true ↔
      (∀ r, s.sched.openRun = some r → r.work ≠ .writeback) ∧
        (s.ctl.unmountAsked = true ∨ (s.dm.dirty = true ∧ s.ctl.readOnly = .none ∧
          (s.dm.settle = .running 0 ∨ s.dm.settle = .reached))))

/-! ### Settings, policy and the port's flags (R182–R185) -/

/-- The interrupt line (R183). -/
def Obligations.InterruptLine : Prop :=
  (∀ (s : State) (c : Channel), s.interruptLine c = true ↔
    ((s.port c).settings.completionEnable = true ∧ (s.port c).outbox ≠ []) ∨
      ((s.port c).settings.dataEnable = true ∧ s.dataReady c = true)) ∧
  (∀ (s : State) (c : Channel), ∃ t, exec .externalReset s = .next t ∧
    (t.port c).settings.completionEnable = true ∧ (t.port c).settings.dataEnable = true) ∧
  ∀ (s : State) (c : Channel) (v : Byte), v.getLsbD 7 = true →
    ∃ t, exec (.channelReset c v) s = .next t ∧
      (t.port c).settings.completionEnable = true ∧ (t.port c).settings.dataEnable = true

/-- The bits of PORT STATUS (R178, R180, R182, 11.6). -/
def Obligations.PortStatusBits : Prop :=
  ∀ (s : State) (c : Channel),
    (s.portStatus c).getLsbD 0 = decide ((s.reqs c).length < 16 - (s.port c).outbox.length) ∧
    (s.portStatus c).getLsbD 1 = !(s.port c).outbox.isEmpty ∧
    (s.portStatus c).getLsbD 2 = s.dataReady c ∧
    (s.portStatus c).getLsbD 3 = (match s.currentTransfer c with
      | some t => t.dir == .outward
      | none => false) ∧
    (s.portStatus c).getLsbD 4 = (match s.currentTransfer c with
      | some t => t.dir == .inward
      | none => false) ∧
    (s.portStatus c).getLsbD 5 = (s.port c).overrun ∧
    (s.portStatus c).getLsbD 6 = (s.port c).outbox.any
      (fun b => decide (b.status.toNat < 0x80) && b.status != 0) ∧
    (s.portStatus c).getLsbD 7 = false

/-! ### Addresses and spares (Chapter 2) -/

/-- The capacity of a band (R20): its data positions less its slip entries below them; a band of capacity
0 offers no LSN.

An LSN is valid, and has a place, exactly below the cartridge's capacity, which is the sum of the
bands' capacities (R21, R23). It lies in the band b at the offset o where the capacities of the bands
before b and o make it up, with o below b's capacity (R23).

It lives at the spare that a MOVED entry of its band and data position names, else at that data position,
and the place is its track and sector (R26, R27).

In a sound map two valid LSNs have two places; none is slipped, none a RETIRED spare, and none on track 0
or 1 (R28).

The runs of a list of LSNs hold their places in list order; in each run the sectors ascend, and the next
run begins exactly where the next place is on another track or not above the last sector (R31). The run
that work takes is the first one (R32).

The follow-up runs of reassigned LSNs hold their places in ascending order of track and sector, divided by
the same rule; where the places differ each run has a track of its own (R34). -/
def Obligations.ValidLsnsHaveAPlace : Prop :=
  (∀ (d : DefectManager) (b : Nat),
      d.bandCapacity b = (d.band b).dataPositions -
        (d.slips.filter (fun e => e.1 == b && decide (e.2 < (d.band b).dataPositions))).length ∧
      (d.bandCapacity b = 0 → ∀ lsn h, d.home lsn = some h → h.band ≠ b)) ∧
  (∀ (d : DefectManager) (lsn : Nat),
      d.capacity = ((List.range d.bands.length).map d.bandCapacity).sum ∧
        ((d.translate lsn).isSome ↔ lsn < d.capacity)) ∧
  (∀ (d : DefectManager) (lsn b o : Nat), d.chooseBand lsn = some (b, o) ↔
      b < d.bands.length ∧ o < d.bandCapacity b ∧
        ((List.range b).map d.bandCapacity).sum + o = lsn) ∧
  (∀ (d : DefectManager) (lsn : Nat) (h : Home), d.home lsn = some h →
      let b := d.band h.band
      (∀ x, h.spare = some x → .moved h.band h.pos x ∈ d.replacement) ∧
      (h.spare = none → ∀ x, .moved h.band h.pos x ∉ d.replacement) ∧
      d.translate lsn = some (match h.spare with
        | none => (b.firstTrack + h.pos / b.sectorsPerTrack, h.pos % b.sectorsPerTrack)
        | some x => (b.firstTrack + (b.trackCount - b.spareTracks) + x / b.sectorsPerTrack,
            x % b.sectorsPerTrack))) ∧
  (∀ d : DefectManager, d.mapSound = true →
      (∀ l m p, d.translate l = some p → d.translate m = some p → l = m) ∧
      (∀ l p, d.translate l = some p → 2 ≤ p.1) ∧
      ∀ l h, d.home l = some h → (d.band h.band).dataPositions > h.pos ∧
        (h.band, h.pos) ∉ d.slips ∧ ∀ x, h.spare = some x → .retired h.band x ∉ d.replacement ∧
          (h.band, (d.band h.band).dataPositions + x) ∉ d.slips) ∧
  (∀ (d : DefectManager) (lsns : List Nat),
      let places := lsns.filterMap (fun l => (d.translate l).map (fun p => (p.1, p.2, some l)))
      let held := fun (rs : List Run) =>
        rs.flatMap (fun r => r.sectors.map (fun x => (r.track, x.sector, x.lsn)))
      let divided := fun (rs : List Run) =>
        (∀ r ∈ rs, r.sectors ≠ [] ∧ (r.sectors.map (fun x => x.sector)).Pairwise (· < ·)) ∧
        ∀ i r q, rs[i]? = some r → rs[i + 1]? = some q → r.track = q.track →
          ∀ x y, r.sectors.getLast? = some x → q.sectors.head? = some y → y.sector ≤ x.sector
      held (d.formRuns lsns) = places ∧ divided (d.formRuns lsns) ∧
        d.firstRun lsns = (d.formRuns lsns).head? ∧
        (held (d.followUpRuns lsns)).Perm places ∧ divided (d.followUpRuns lsns) ∧
        (held (d.followUpRuns lsns)).Pairwise
          (fun x y => x.1 < y.1 ∨ (x.1 = y.1 ∧ x.2.1 ≤ y.2.1)) ∧
        ((places.map (fun x => (x.1, x.2.1))).Nodup →
          ((d.followUpRuns lsns).map (fun r => r.track)).Pairwise (· < ·)))

/-- The slip walk (R24): its steps, and its result, the position that is not slipped and has exactly o
unslipped positions below it. An LSN of band b at offset o has the position that the walk over b's
data-area slips gives; only the band's own data-area slips enter it, in ascending order as the slip list
has them. -/
def Obligations.SlipWalk : Prop :=
  (∀ p, slipWalk [] p = p) ∧
  (∀ e es p, slipWalk (e :: es) p = if e ≤ p then slipWalk es (p + 1) else p) ∧
  (∀ (es : List Nat) (o : Nat), es.Pairwise (· < ·) →
    slipWalk es o ∉ es ∧
      ((List.range (slipWalk es o)).filter (fun p => decide (p ∉ es))).length = o) ∧
  (∀ (d : DefectManager) (lsn : Nat) (h : Home), d.home lsn = some h →
    ∃ o, d.chooseBand lsn = some (h.band, o) ∧ h.pos = slipWalk (d.dataSlips h.band) o) ∧
  (∀ (d : DefectManager) (b : Nat), ascending slipLt d.slips = true →
    (d.dataSlips b).Pairwise (· < ·)) ∧
  ∀ (d : DefectManager) (b p : Nat),
    p ∈ d.dataSlips b ↔ (b, p) ∈ d.slips ∧ p < (d.band b).dataPositions

/-- The range check of READ and WRITE (R29).

The range checks of the other kinds (R30). -/
def Obligations.RangeChecks : Prop :=
  (∀ (s : State) (c : Channel) (b : RequestBlock) (k : RequestKind), k = .read ∨ k = .write →
      (s.rangePasses b k = true ↔ b.lsn + b.count ≤ s.dm.capacity) ∧
      (b.malformed k = false → s.dm.capacity ≤ b.lsn → s.rangePasses b k = false) ∧
      (b.malformed k = false → s.dm.capacity = 0 → s.rangePasses b k = false) ∧
      (b.malformed k = false → s.reqByTag c b.tag = none →
        (s.reqs c).length < (s.port c).settings.queueDepth → s.admits c k = true →
        s.rangePasses b k = false → s.refusalOf c b k = some .outOfRange)) ∧
  (∀ (s : State) (c : Channel) (b : RequestBlock),
      (s.rangePasses b .reassign = true ↔ b.lsn < s.dm.capacity) ∧
      (s.rangePasses b .reserve = true ↔ b.lsn < s.dm.capacity) ∧
      (s.rangePasses b .reserve = true → s.reserveCount b = min b.reserveCount (s.dm.capacity - b.lsn) ∧
        b.lsn + s.reserveCount b ≤ s.dm.capacity) ∧
      (s.rangePasses b .reportMap = true ↔ b.byteParam < s.dm.bands.length) ∧
      (∀ k, k = RequestKind.status ∨ k = .setPolicy ∨ k = .setChannel ∨ k = .release ∨ k = .abort ∨
        k = .flushMap ∨ k = .eject ∨ k = .mount → s.rangePasses b k = true) ∧
      ∀ k, k = RequestKind.reassign ∨ k = .reserve ∨ k = .reportMap → b.malformed k = false →
        s.reqByTag c b.tag = none → (s.reqs c).length < (s.port c).settings.queueDepth →
        s.admits c k = true → s.rangePasses b k = false → s.refusalOf c b k = some .outOfRange)

/-- Free spares (R35): what makes a spare free, the lowest free one, and the refusal where there is
none.

A reassignment keeps law 8 of the device and the list's order (R35, R38, R39, R40).

What a reassignment does: a place that is not where the LSN lives is a mismatch and changes nothing. Else
with no free spare in its band it is refused SPARES EXHAUSTED, and then with 1,024 entries DEFECT LIST
FULL. Else the LSN's data position is MOVED to the lowest free spare; where the LSN lived at a spare the
MOVED entry is changed to the new one and the old spare is RETIRED; every other entry stays. The change
count and the reassignments counter rise by 1, the map is dirty, settle remaining restarts, and nothing
else changes (R39 to R42). -/
def Obligations.SparesAndReassignment : Prop :=
  (∀ (d : DefectManager) (b s : Nat),
      (d.spareFree b s = true ↔ (b, (d.band b).dataPositions + s) ∉ d.slips ∧
        (∀ p, MapEntry.moved b p s ∉ d.replacement) ∧ MapEntry.retired b s ∉ d.replacement) ∧
      (d.lowestFree b = some s ↔ s < (d.band b).sparePositions ∧ d.spareFree b s = true ∧
        ∀ x < s, d.spareFree b x = false) ∧
      (d.lowestFree b = none ↔ ∀ x < (d.band b).sparePositions, d.spareFree b x = false)) ∧
  (∀ (d e : DefectManager) (lsn delay : Nat) (place : Place), d.law8 = true →
      ascending (fun x y => keyLt x.key y.key) d.replacement = true →
      d.reassign lsn place delay = .done e →
        e.law8 = true ∧ ascending (fun x y => keyLt x.key y.key) e.replacement = true ∧
          e.replacement.length = d.replacement.length + 1 ∧ d.replacement.length < 1024 ∧
          e.changeCount = d.changeCount + 1 ∧ e.dirty = true ∧ e.settle = .running delay) ∧
  (∀ (d : DefectManager) (lsn delay : Nat) (place : Place),
      (d.translate lsn ≠ some place → d.reassign lsn place delay = .mismatch) ∧
      ∀ h, d.home lsn = some h → d.translate lsn = some place →
        (d.lowestFree h.band = none → d.reassign lsn place delay = .refused .sparesExhausted) ∧
        ∀ new, d.lowestFree h.band = some new →
          (1024 ≤ d.replacement.length → d.reassign lsn place delay = .refused .defectListFull) ∧
          (d.replacement.length < 1024 → ∃ e, d.reassign lsn place delay = .done e ∧
            e = { d with
              replacement := e.replacement, changeCount := d.changeCount + 1, dirty := true
              settle := .running delay, reassignments := min (d.reassignments + 1) 65535 } ∧
            (h.spare = none → ∀ m, m ∈ e.replacement ↔
              m = .moved h.band h.pos new ∨ m ∈ d.replacement) ∧
            ∀ old, h.spare = some old → ∀ m, m ∈ e.replacement ↔
              m = .moved h.band h.pos new ∨ m = .retired h.band old ∨
                (m ∈ d.replacement ∧ ∀ x, m ≠ .moved h.band h.pos x)))

/-- What a writeback stages is what a mount reads back: for a valid list of at most 1,024 entries whose
fields fit their bytes, the 16 staged sectors, each decoded CLEAN, give track 1 the verdict VALID with the
staged generation and that list (R10, R15, R16, R51). (A generation past FFFFFFFFh is 0, log 29.)

An INDEX FETCH's end gives its track a verdict; a sector not settled counts as UNCORRECTABLE (R89). At
that step each listed MOUNT ends MEDIUM ERROR where track 0 is INVALID, and SUCCESS at track 1's verdict,
VALID or INVALID; with track 0 VALID every request stays. The notices go to both ports: CARTRIDGE
UNREADABLE, or CARTRIDGE READY with READ-ONLY where the flag is set (R140).

Track 0 VALID loads the header copy and the slip list, and track 1 is asked for. INVALID it makes the
state UNREADABLE with the copy emptied, the notice raised and no MOUNT listed; a pending eject makes it
EJECTING with EJECT sent (R14, R18, R140, R149).

Track 1 VALID loads its generation and its list, and the state is READY, the flag PROTECTED where the
write-protect state is yes, else NONE; INVALID leaves the list empty at generation 0, and the flag is MAP
DAMAGED. In both the map is clean, the change count, settle remaining, and the per-mount counters start
anew, no MOUNT is listed, and the notices are raised; a pending eject starts the unmount (R17, R37, R140,
R149).

The record of an index sector is good when it decoded CLEAN or CORRECTED and its record check matches
(R7, R11). A header is valid by its version, its band count, its bands' ranges and contiguity, its last
track and its slip count (R12). Track 0 is VALID when its header is, the slip sectors in use are good and
every slip entry is in range and in order (R13, R14). Track 1 is VALID when its 16 sectors are good and
agree, with their sequence, generation, total count and entries in sector, and every entry is in range,
in order, and uses no spare twice (R15, R16). -/
def Obligations.StagedListReadsBack : Prop :=
  (∀ d : DefectManager, d.listValid d.replacement = true → d.replacement.length ≤ 1024 →
    (∀ e ∈ d.replacement, match e with
      | .moved b p s => b < 256 ∧ p < 2 ^ 24 ∧ s < 65536
      | .retired b s => b < 256 ∧ s < 65536) →
      d.track1Verdict (d.stage.staging.map DecoderOutcome.clean) =
        some (d.generation + 1, d.replacement)) ∧
  (∀ (s : State) (op : Operation) (xs : List FetchSector), op.kind = .indexFetch →
    let outs := xs.map (fun x => if x.settled then x.outcome.getD .uncorrectable else .uncorrectable)
    let u := s.finishFetch op xs
    let sent := u.link.outstanding.map (fun c => (c.command, c.sender))
    (∀ v, op.run.track = 0 → track0Verdict outs = some v → u = { s with
      engine := none
      dm := { s.dm with bands := v.1, slips := v.2, replacement := [] }
      ctl := { s.ctl with indexWanted := some 1 } }) ∧
    (op.run.track = 0 → track0Verdict outs = none → s.link.outstanding = none →
      u.engine = none ∧ u.ctl.state = (if s.ctl.ejectPending then .ejecting else .unreadable) ∧
        u.ctl.indexWanted = none ∧ u.ctl.mountRequesters = [] ∧ u.ctl.ejectPending = false ∧
        u.raised = s.raised ++ [.cartridgeUnreadable] ∧
        sent = (if s.ctl.ejectPending then some (.eject, .cartridgeController) else none) ∧
        u.dm = { s.dm with bands := [], slips := [], replacement := [], generation := 0,
                           dirty := false, verdictHeld := false }) ∧
    (op.run.track ≠ 0 → s.rescue = none →
      let valid := (s.dm.track1Verdict outs).isSome
      let flag := if valid then
        (if s.ctl.writeProtect then ReadOnly.writeProtected else .none) else .mapDamaged
      u.engine = none ∧ u.link = { s.link with linkRetries := 0 } ∧
        u.ctl.state = (if s.ctl.ejectPending then .unmounting else .ready) ∧
        u.ctl.readOnly = flag ∧ u.ctl.indexWanted = none ∧ u.ctl.mountRequesters = [] ∧
        u.ctl.ejectPending = false ∧
        u.raised = s.raised ++ .cartridgeReady :: (if flag = .none then [] else [.readOnly]) ∧
        u.dm = { s.dm with
          changeCount := 0, settle := .absent, reassignments := 0, rescuesDone := 0,
          rescuesDropped := 0, dirty := false, verdictHeld := true
          rescueList := if s.ctl.ejectPending then [] else s.dm.rescueList
          generation := ((s.dm.track1Verdict outs).map (fun v => v.1)).getD 0
          replacement := ((s.dm.track1Verdict outs).map (fun v => v.2)).getD [] })) ∧
  (∀ (s : State) (o : OutstandingCommand) (op : Operation) (a : Answer) (xs : List FetchSector),
    s.between = true → s.link.outstanding = some o → o.sender = .mediaEngine →
    s.engine = some op → op.kind = .indexFetch →
    let read := nextReread s.policy.readRetries (match op.reread with
      | none => decodeFirst op.run.track s.link.received op.outcomes
      | some r => decodeReread op.run.track r.1 s.link.received op.outcomes)
    (((∃ rec, a = .done rec) ∧ read = (xs, none)) ∨ (a = .refused .seekError ∧ xs = op.outcomes ∧
      o.command.accepts a = true ∧ s.policy.mechRetries ≤ s.link.retryCount.getD 0)) →
      let outs := xs.map (fun x =>
        if x.settled then x.outcome.getD .uncorrectable else .uncorrectable)
      ∃ u : State, exec (.response o.number a) s = .next u ∧
        (op.run.track = 0 → track0Verdict outs = none →
          s.mountsEnd u 0x11 ∧ s.notifies u .cartridgeUnreadable) ∧
        (op.run.track = 0 → track0Verdict outs ≠ none → u.requests = s.requests) ∧
        (op.run.track ≠ 0 → s.mountsEnd u 0x00 ∧ s.notifies u .cartridgeReady ∧
          (s.dm.track1Verdict outs = none ∨ s.ctl.writeProtect = true →
            s.notifies u .readOnly))) ∧
  (∀ (outs : List DecoderOutcome) (i : Nat) (m : Memory), goodRecord outs i = some m ↔
    (outs[i]? = some (.clean m) ∨ ∃ n, outs[i]? = some (.corrected n m)) ∧
      m.field16 1022 = m.recordCheck) ∧
  (∀ m : Memory, headerValid m = true ↔
    m.field8 0 = 1 ∧ 1 ≤ m.field8 1 ∧ m.field8 1 ≤ 16 ∧
      (∀ b < m.field8 1, 1 ≤ m.field16 (4 + 6 * b) ∧ m.field16 (4 + 6 * b) ≤ 8192 ∧
        8 ≤ m.field8 (6 + 6 * b) ∧ m.field8 (6 + 6 * b) ≤ 40 ∧ m.field8 (7 + 6 * b) ≤ 32 ∧
        m.field8 (7 + 6 * b) < m.field16 (4 + 6 * b)) ∧
      m.field16 2 = 2 ∧
      (∀ b, b + 1 < m.field8 1 →
        m.field16 (2 + 6 * (b + 1)) = m.field16 (2 + 6 * b) + m.field16 (4 + 6 * b)) ∧
      (∀ b, b + 1 = m.field8 1 →
        m.field16 (2 + 6 * b) + m.field16 (4 + 6 * b) - 1 ≤ 65535) ∧
      m.field16 98 ≤ 2048) ∧
  (∀ (outs : List DecoderOutcome),
    (goodRecord outs 0 = none → track0Verdict outs = none) ∧
    ∀ h, goodRecord outs 0 = some h →
      (headerValid h = false → track0Verdict outs = none) ∧
      (headerValid h = true →
        let k := (h.field16 98 + 254) / 255
        let bands := (List.range (h.field8 1)).map (fun b =>
          ({ firstTrack := h.field16 (2 + 6 * b), trackCount := h.field16 (4 + 6 * b),
             sectorsPerTrack := h.field8 (6 + 6 * b),
             spareTracks := h.field8 (7 + 6 * b) } : BandRecord))
        ((∃ i, 1 ≤ i ∧ i ≤ k ∧ goodRecord outs i = none) → track0Verdict outs = none) ∧
        ∀ ms : List Memory, ms.length = k →
          (∀ i m, ms[i]? = some m → goodRecord outs (i + 1) = some m) →
          let es := (List.range (h.field16 98)).map (fun n =>
            ((ms.getD (n / 255) []).field8 (4 * (n % 255)),
              (ms.getD (n / 255) []).field24 (4 * (n % 255) + 1)))
          let sound := (∀ e ∈ es, ∃ b, bands[e.1]? = some b ∧
              e.2 < b.dataPositions + b.sparePositions) ∧
            es.Pairwise (fun x y => x.1 < y.1 ∨ (x.1 = y.1 ∧ x.2 < y.2))
          (sound → track0Verdict outs = some (bands, es)) ∧
            (¬sound → track0Verdict outs = none))) ∧
  (∀ (d : DefectManager) (outs : List DecoderOutcome),
    ((∃ i < 16, goodRecord outs i = none) → d.track1Verdict outs = none) ∧
    ∀ ms : List Memory, ms.length = 16 →
      (∀ i m, ms[i]? = some m → goodRecord outs i = some m) →
      let total := (ms.getD 0 []).field16 6
      let gen := (ms.getD 0 []).field32 0
      let sound := total ≤ 1024 ∧ ∀ i m, ms[i]? = some m → m.field8 4 = i ∧ m.field32 0 = gen ∧
        m.field16 6 = total ∧ m.field8 5 = min 64 (total - 64 * i)
      let entry := fun (n : Nat) => replacementEntry (ms.getD (n / 64) []) (n % 64)
      (¬sound → d.track1Verdict outs = none) ∧
      (sound → (∃ n < total, entry n = none) → d.track1Verdict outs = none) ∧
      ∀ es : List MapEntry, sound → es.length = total →
        (∀ n e, es[n]? = some e → entry n = some e) →
        d.track1Verdict outs =
          if d.listValid es = true then some (BitVec.ofNat 32 gen, es) else none) ∧
  (∀ (m : Memory) (i : Nat), replacementEntry m i =
    if m.field8 (8 + 8 * i) = 1 then
      some (.moved (m.field8 (9 + 8 * i)) (m.field24 (10 + 8 * i)) (m.field16 (13 + 8 * i)))
    else if m.field8 (8 + 8 * i) = 2 then
      some (.retired (m.field8 (9 + 8 * i)) (m.field16 (13 + 8 * i)))
    else none) ∧
  (∀ (d : DefectManager) (es : List MapEntry), d.listValid es = true ↔
    (∀ e ∈ es, match e with
      | .moved b p x => b < d.bands.length ∧ x < (d.band b).sparePositions ∧
          p < (d.band b).dataPositions ∧ (b, p) ∉ d.slips ∧
          (b, (d.band b).dataPositions + x) ∉ d.slips
      | .retired b x => b < d.bands.length ∧ x < (d.band b).sparePositions ∧
          (b, (d.band b).dataPositions + x) ∉ d.slips) ∧
    es.Pairwise (fun x y => keyLt x.key y.key = true) ∧
    (es.map (fun e => match e with
      | .moved b _ x => (b, x)
      | .retired b x => (b, x))).Nodup)

/-! ### What every step keeps -/

/-- The policy values and the settings of both channels lie in their ranges (R184, R185).

Laws 1 and 3 of the device: at most 12 outstanding requests in each channel, and the blocks of an
outbox and the requests not yet posted are at most 16 together (R154, R167). -/
def Obligations.RangesAndRoomAreKept : Prop :=
  (∀ s t : State, step s = .next t →
      (s.policy.inRange = true → t.policy.inRange = true) ∧
      (s.settingsInRange = true → t.settingsInRange = true)) ∧
  (∀ s t : State, s.settingsInRange = true → s.law1 = true → s.law3 = true → step s = .next t →
      t.law1 = true ∧ t.law3 = true)

/-- Law 10 of the device, and the table's form: at most 8 entries with ids 1 to 8, ascending (R169). -/
def Obligations.ReservationTableIsKept : Prop :=
  ∀ s t : State, law10 s.reservations = true → tableForm s.reservations = true →
    step s = .next t → law10 t.reservations = true ∧ tableForm t.reservations = true

/-- Law 7 of the device: the link holds a command exactly while it is not IDLE (R122, R125). -/
def Obligations.LinkIsKept : Prop :=
  ∀ s t : State, s.link.law7 = true → step s = .next t → t.link.law7 = true

/-- Every buffer keeps its canonical form (addresses rising below 1,024, no byte 0 listed), and the pool
its 32 slots (R58).

Law 9 of the device, the 1,024 entries of the replacement list, and the counters' saturation (R37, R38,
R44).

The directory gives each LSN one slot, has a pair for every non-stale slot with an LSN, and names none but
those; so no two non-stale slots hold one LSN, law 4 (R59).

Law 5: at most 16 slots are charged to one channel (R61).

The replacement list keeps law 8 and its order (R10, R38). The map stays sound: its bands in range and
contiguous from track 2, its slip list in order, and its replacement list valid over them (R12, R13, R16,
R38 to R40).

Law 6, a run is open only in READY or UNMOUNTING with an insertion count of at most 8, and law 11, the map
is clean in EMPTY, together with what holds them up: in EMPTY no write work stands, a recovery runs in
FAULTED, an INDEX FETCH in MOUNTING, and while a command of the Cartridge Controller is outstanding no run
is open (R37, R107, R110, R137, R140, R148). -/
def Obligations.BuffersAndListsAreKept : Prop :=
  (∀ s t : State, step s = .next t →
      (s.memoryWf = true → t.memoryWf = true) ∧ (s.pool.sized = true → t.pool.sized = true)) ∧
  (∀ s t : State, s.dm.bounded = true → step s = .next t → t.dm.bounded = true) ∧
  ((∀ s t : State, s.pool.placed = true → step s = .next t → t.pool.placed = true) ∧
    ∀ s : State, s.pool.placed = true → s.law4 = true) ∧
  (∀ s t : State, s.law5 = true → step s = .next t → t.law5 = true) ∧
  ((∀ s t : State, s.dm.mapForm = true → step s = .next t → t.dm.mapForm = true) ∧
    ∀ d : DefectManager, d.mapForm = true → d.law8 = true) ∧
  (∀ s t : State, s.dm.mapSound = true → step s = .next t → t.dm.mapSound = true) ∧
  (∀ s t : State, s.policy.inRange = true → s.phased = true → step s = .next t →
      t.phased = true) ∧
  ∀ s : State, s.phased = true → s.law6 = true ∧ s.law11 = true

/-- The acceptance numbers of the requests rise in list order, none is used twice, and no two outstanding
requests of a channel carry one tag (R153, R154).

What the statements above take of the state between steps is kept by every step.

So is that every piece of write work goes by a number given before now (R68), and that a port's pending
notices stand in ascending code, each kind once (R168). -/
def Obligations.RequestsAreKept : Prop :=
  (∀ s t : State, s.idsInOrder = true → s.tagsDistinct = true → step s = .next t →
      t.idsInOrder = true ∧ t.tagsDistinct = true) ∧
  (∀ s t : State, s.between = true → step s = .next t → t.between = true) ∧
  (∀ s t : State, s.worksOwned = true → step s = .next t → t.worksOwned = true) ∧
  (∀ s t : State, s.noticesOrdered = true → step s = .next t → t.noticesOrdered = true) ∧
  ∀ (s : State) (c : Channel), s.noticesOrdered = true → (s.port c).pendingNotices.Nodup

/-- All of these hold right after reset, and the state is one as it stands between steps. -/
def Obligations.ResetIsGood : Prop :=
  State.reset.between = true ∧ State.reset.policy.inRange = true ∧
    State.reset.settingsInRange = true ∧ State.reset.law1 = true ∧ State.reset.law3 = true ∧
    State.reset.tagsDistinct = true ∧ law10 State.reset.reservations = true ∧
    tableForm State.reset.reservations = true ∧ State.reset.link.law7 = true ∧
    State.reset.memoryWf = true ∧ State.reset.pool.sized = true ∧ State.reset.dm.bounded = true ∧
    State.reset.law4 = true ∧ State.reset.law5 = true ∧ State.reset.law6 = true ∧
    State.reset.dm.law8 = true ∧ State.reset.law11 = true ∧ State.reset.phased = true ∧
    State.reset.pool.placed = true ∧ State.reset.dm.mapForm = true ∧
    State.reset.dm.mapSound = true ∧
    State.reset.worksOwned = true ∧ State.reset.noticesOrdered = true
end

