-- ==== Sys2Proof/Laws/Exec.lean ====
section
/-! SUPPORT. The meaning of each command as one equation, by `rfl`, for proofs to rewrite with. -/

set_option Elab.async false

namespace Sys2Proof.Machine

/-- A step takes the command at the front of the queue. -/
theorem step_cons (i : Instr) (rest : List Instr) (s : State) :
    step { s with pending := i :: rest } = exec i { s with pending := rest } := rfl

theorem exec_externalReset (s : State) : exec .externalReset s =
    .next ({ State.reset with pending := s.pending }) := rfl

theorem exec_channelReset (c : Channel) (v : Byte) (s : State) : exec (.channelReset c v) s =
    .next (State.finish s (s.portControl c v)) := rfl

theorem exec_clearOverrun (c : Channel) (v : Byte) (s : State) : exec (.clearOverrun c v) s =
    .next (State.finish s (s.portControl c v)) := rfl

theorem exec_registerWrite (c : Channel) (l : WriteLocation) (v : Byte) (s : State) : exec (.registerWrite c l v) s =
    .next (State.finish s (match l with
    | .request => s.requestByte c v
    | .completion => s.setOverrun c
    | .transfer => s.setOverrun c)) := rfl

theorem exec_completionRead (c : Channel) (s : State) : exec (.completionRead c) s =
    .next (State.finish s (s.readCompletion c)) := rfl

theorem exec_dataRead (c : Channel) (s : State) : exec (.dataRead c) s =
    .next (State.finish s (s.readData c)) := rfl

theorem exec_dataWrite (c : Channel) (v : Byte) (s : State) : exec (.dataWrite c v) s =
    .next (State.finish s (s.writeData c v)) := rfl

theorem exec_pendingNoticePost (c : Channel) (s : State) : exec (.pendingNoticePost c) s =
    .next (State.finish s (s.postPending c)) := rfl

theorem exec_slotWaitServe (s : State) : exec .slotWaitServe s =
    .next (State.finish s (s.serveWaiters s.pool.slotWait)) := rfl

theorem exec_overlapWaitRelease (s : State) : exec .overlapWaitRelease s =
    .next (State.finish s ((s.works.map (fun w => w.id)).foldl State.examineWaiting s)) := rfl

theorem exec_headSchedulerChoice (s : State) : exec .headSchedulerChoice s =
    .next (State.finish s (s.choose)) := rfl

theorem exec_response (n : Byte) (a : Answer) (s : State) : exec (.response n a) s =
    .next (State.finish s (s.responseTaken n a)) := rfl

theorem exec_mechDataFrame (n : Byte) (k : Nat) (f : SectorFrame) (s : State) : exec (.mechDataFrame n k f) s =
    .next (State.finish s (s.dataFrameTaken n k f)) := rfl

theorem exec_damagedFrame (s : State) : exec .damagedFrame s =
    .next (State.finish s (s.damagedTaken)) := rfl

theorem exec_commandTimeout (s : State) : exec .commandTimeout s =
    .next (State.finish s (s.commandTimesOut)) := rfl

theorem exec_mediaIn (n : Byte) (wp : Bool) (s : State) : exec (.mediaIn n wp) s =
    .next (State.finish s (s.eventTaken n (fun t => t.mediaInTaken wp))) := rfl

theorem exec_mediaOut (n : Byte) (s : State) : exec (.mediaOut n) s =
    .next (State.finish s (s.eventTaken n (fun t => t.cancelCommand.removal))) := rfl

theorem exec_button (n : Byte) (s : State) : exec (.button n) s =
    .next (State.finish s (s.eventTaken n State.buttonTaken)) := rfl

theorem exec_mechFault (n : Byte) (s : State) : exec (.mechFault n) s =
    .next (State.finish s (s.eventTaken n (fun t => t.cancelCommand.mechFaultTaken))) := rfl

theorem exec_deadlineExpiry (c : Channel) (tag : Byte) (s : State) : exec (.deadlineExpiry c tag) s =
    .next (State.finish s (match s.reqByTag c tag with
    | none => s
    | some r => if r.deadline = some 0 then s.expireRead c r else s)) := rfl

theorem exec_dataTimeout (c : Channel) (s : State) : exec (.dataTimeout c) s =
    .next (State.finish s (match s.currentTransfer c with
    | none => s
    | some t => if (s.port c).idle = some 0 then s.timeOutTransfer c t else s)) := rfl

theorem exec_settleDelayExpiry (s : State) : exec .settleDelayExpiry s =
    .next (if s.dm.settle = .running 0 then { s with dm := { s.dm with settle := .reached } } else s) := rfl

theorem exec_unmountDrainEnd (s : State) : exec .unmountDrainEnd s =
    .next (State.finish s (if s.drainEnded then s.askUnmountWriteback else s)) := rfl

theorem exec_timebaseTick (s : State) : exec .timebaseTick s =
    .next (s.tick) := rfl

/-- A request command is the arrival of its block (log 4). -/
theorem exec_request {i : Instr} {c : Channel} {b : RequestBlock} (h : requestOf i = some (c, b))
    (s : State) : exec i s = .next (State.finish s (s.takeBlock c b)) := by
  cases i <;> cases h <;> rfl

end Sys2Proof.Machine
end

