-- ==== Sys2Proof/Laws/Memory.lean ====
section
/-! SUPPORT. The canonical form of the buffers: every operation that changes a byte keeps it, and
what a read gives after a write. -/

set_option Elab.async false

namespace Sys2Proof

theorem Memory.wfFrom_mono {lo lo' : Nat} {m : Memory} (h : lo ≤ lo') (w : m.wfFrom lo' = true) :
    m.wfFrom lo = true := by
  cases m with
  | nil => rfl
  | cons c m =>
    simp only [Memory.wfFrom, Bool.and_eq_true, decide_eq_true_eq] at w ⊢
    exact ⟨⟨⟨by omega, w.1.1.2⟩, w.1.2⟩, w.2⟩

theorem Memory.writeByte_wfFrom {lo : Nat} {m : Memory} {a : Nat} {b : Byte} (hl : lo ≤ a)
    (ha : a < sectorBytes) (w : m.wfFrom lo = true) : (m.writeByte a b).wfFrom lo = true := by
  induction m generalizing lo with
  | nil =>
    unfold Memory.writeByte
    split
    · rfl
    · simp only [Memory.wfFrom, Bool.and_eq_true, decide_eq_true_eq]
      exact ⟨⟨⟨hl, ha⟩, by assumption⟩, trivial⟩
  | cons c m ih =>
    obtain ⟨k, v⟩ := c
    simp only [Memory.wfFrom, Bool.and_eq_true, decide_eq_true_eq] at w
    obtain ⟨⟨⟨h1, h2⟩, h3⟩, h4⟩ := w
    unfold Memory.writeByte
    split
    · split <;> simp_all [Memory.wfFrom] <;> omega
    · split
      · split
        · exact Memory.wfFrom_mono (by omega) h4
        · simp_all [Memory.wfFrom]
      · simp only [Memory.wfFrom, Bool.and_eq_true, decide_eq_true_eq]
        exact ⟨⟨⟨h1, h2⟩, h3⟩, ih (by omega) h4⟩

/-- Writing one byte keeps the canonical form. -/
theorem Memory.writeByte_wf {m : Memory} {a : Nat} {b : Byte} (ha : a < sectorBytes)
    (w : m.wf = true) : (m.writeByte a b).wf = true :=
  Memory.writeByte_wfFrom (Nat.zero_le a) ha w

theorem Memory.foldl_canonical_wf (cells m : Memory) (w : m.wf = true) :
    (cells.foldl (fun m c => if c.1 < sectorBytes then m.writeByte c.1 c.2 else m) m).wf = true := by
  induction cells generalizing m with
  | nil => exact w
  | cons c cs ih =>
    simp only [List.foldl_cons]
    apply ih
    split
    · exact Memory.writeByte_wf (by assumption) w
    · exact w

/-- The canonical buffer of any cells is in canonical form. -/
theorem Memory.canonical_wf (cells : Memory) : (Memory.canonical cells).wf = true :=
  Memory.foldl_canonical_wf cells [] rfl

/-- Writing bytes that end below 1,024 keeps the canonical form. -/
theorem Memory.writeBytes_wf {m : Memory} {a : Nat} {bs : List Byte}
    (h : a + bs.length ≤ sectorBytes) (w : m.wf = true) : (m.writeBytes a bs).wf = true := by
  induction bs generalizing m a with
  | nil => exact w
  | cons b bs ih =>
    simp only [List.length_cons] at h
    exact ih (by omega) (Memory.writeByte_wf (by omega) w)

theorem Memory.readByte_of_lt {lo : Nat} {m : Memory} {a : Nat} (h : a < lo)
    (w : m.wfFrom lo = true) : m.readByte a = 0 := by
  induction m generalizing lo with
  | nil => rfl
  | cons c m ih =>
    obtain ⟨k, v⟩ := c
    simp only [Memory.wfFrom, Bool.and_eq_true, decide_eq_true_eq] at w
    have hk : k ≠ a := by omega
    simp only [Memory.readByte, hk, if_false]
    exact ih (lo := k + 1) (by omega) w.2

theorem Memory.readByte_cons (k a : Nat) (v : Byte) (m : Memory) :
    Memory.readByte ((k, v) :: m) a = if k = a then v else m.readByte a := rfl

theorem Memory.readByte_writeByte_from {lo : Nat} {m : Memory} (w : m.wfFrom lo = true) (a x : Nat)
    (b : Byte) : (m.writeByte a b).readByte x = if x = a then b else m.readByte x := by
  induction m generalizing lo with
  | nil =>
    unfold Memory.writeByte
    split
    · next hb => subst hb; simp [Memory.readByte]
    · simp only [Memory.readByte_cons, eq_comm (a := a)]
  | cons c m ih =>
    obtain ⟨k, v⟩ := c
    simp only [Memory.wfFrom, Bool.and_eq_true, decide_eq_true_eq] at w
    obtain ⟨⟨⟨h1, h2⟩, h3⟩, h4⟩ := w
    have h0 : ∀ y, y ≤ k → Memory.readByte m y = 0 := fun y hy =>
      Memory.readByte_of_lt (lo := k + 1) (by omega) h4
    unfold Memory.writeByte
    split
    · next hak =>
      split
      · next hb =>
        subst hb
        by_cases hx : x = a
        · subst hx
          rw [Memory.readByte_cons, if_neg (by omega), if_pos rfl, h0 x (by omega)]
        · rw [if_neg hx]
      · rw [Memory.readByte_cons]
        by_cases hx : x = a
        · rw [if_pos hx.symm, if_pos hx]
        · rw [if_neg (Ne.symm hx), if_neg hx]
    · split
      · next hk =>
        subst hk
        split
        · next hb =>
          subst hb
          by_cases hx : x = a
          · subst hx; rw [if_pos rfl, h0 x (Nat.le_refl x)]
          · rw [if_neg hx, Memory.readByte_cons, if_neg (Ne.symm hx)]
        · by_cases hx : x = a
          · rw [Memory.readByte_cons, if_pos hx.symm, if_pos hx]
          · rw [Memory.readByte_cons, Memory.readByte_cons, if_neg (Ne.symm hx), if_neg hx,
              if_neg (Ne.symm hx)]
      · next hk =>
        rw [Memory.readByte_cons, Memory.readByte_cons, ih h4]
        by_cases hx : x = a
        · subst hx; rw [if_neg (Ne.symm hk), if_pos rfl, if_pos rfl]
        · rw [if_neg hx, if_neg hx]

/-- A read after a write of one byte (R179). -/
theorem Memory.readByte_writeByte {m : Memory} (w : m.wf = true) (a x : Nat) (b : Byte) :
    (m.writeByte a b).readByte x = if x = a then b else m.readByte x :=
  Memory.readByte_writeByte_from w a x b

end Sys2Proof
end

