-- ==== Sys2Proof/Laws/Pool.lean ====
section
/-! SUPPORT. What the pool's operations can do: they change the pool alone, keep its 32 slots, keep
every content in canonical form, keep the directory in step with the slots (law 4), and charge no
channel above 16 slots (law 5). `H` is what the data brought in must satisfy. -/

set_option Elab.async false

namespace Sys2Proof.Machine

/-! ### The directory and the charges -/

/-- The directory in step with the slots, as propositions. -/
theorem placed_iff (p : Pool) : p.placed = true ↔
    distinct (p.directory.map (fun d => d.1)) = true ∧
      (∀ (i : Nat) (x : Slot) (l : Nat), p.slots[i]? = some x → x.stale = false → x.lsn = some l →
        (l, i) ∈ p.directory) ∧
      ∀ l i, (l, i) ∈ p.directory → ∃ x, p.slots[i]? = some x ∧ x.stale = false ∧
        x.lsn = some l := by
  simp only [Pool.placed, Bool.and_eq_true, List.all_eq_true, and_assoc]
  refine and_congr Iff.rfl (and_congr ⟨fun h i x l hx hs hl => ?_, fun h xi hxi => ?_⟩
    ⟨fun h l i hm => ?_, fun h d hd => ?_⟩)
  · have := h (x, i) (List.mem_zipIdx_iff_getElem?.mpr (by simpa using hx))
    simpa [hs, hl] using this
  · have hx := List.mem_zipIdx_iff_getElem?.mp hxi
    cases hs : xi.1.stale with
    | true => rfl
    | false =>
      cases hl : xi.1.lsn with
      | none => rfl
      | some l => simpa using h xi.2 xi.1 l (by simpa using hx) hs hl
  · have := h (l, i) hm
    cases hx : p.slots[i]? with
    | none => simp [hx] at this
    | some x => exact ⟨x, rfl, by simpa [hx] using this⟩
  · obtain ⟨x, hx, hs, hl⟩ := h d.1 d.2 hd
    simp [hx, hs, hl]

theorem distinct_sublist {α : Type} [DecidableEq α] {xs ys : List α} (h : xs.Sublist ys)
    (w : distinct ys = true) : distinct xs = true := by
  induction h with
  | slnil => exact w
  | cons a hs ih =>
    simp only [distinct, Bool.and_eq_true] at w
    exact ih w.2
  | cons_cons a hs ih =>
    simp only [distinct, Bool.and_eq_true, decide_eq_true_eq] at w ⊢
    exact ⟨fun hm => w.1 (hs.subset hm), ih w.2⟩

theorem distinct_append_single {α : Type} [DecidableEq α] {xs : List α} {a : α}
    (h : distinct xs = true) (ha : a ∉ xs) : distinct (xs ++ [a]) = true := by
  induction xs with
  | nil => rfl
  | cons x xs ih =>
    simp only [List.cons_append, distinct, Bool.and_eq_true, decide_eq_true_eq,
      List.mem_append, List.mem_cons, List.not_mem_nil, or_false, not_or] at h ha ⊢
    exact ⟨⟨h.1, fun e => ha.1 e.symm⟩, ih h.2 ha.2⟩

/-- With distinct keys, one key has one slot. -/
theorem key_unique {ds : List (Nat × Nat)} (h : distinct (ds.map (fun d => d.1)) = true)
    {l i j : Nat} (hi : (l, i) ∈ ds) (hj : (l, j) ∈ ds) : i = j := by
  induction ds with
  | nil => cases hi
  | cons d ds ih =>
    simp only [List.map_cons, distinct, Bool.and_eq_true, decide_eq_true_eq] at h
    have out : ∀ k, (l, k) ∈ ds → d.1 ≠ l := fun k hk e =>
      h.1 (e ▸ List.mem_map.mpr ⟨(l, k), hk, rfl⟩)
    rcases List.mem_cons.mp hi with ei | hi <;> rcases List.mem_cons.mp hj with ej | hj
    · rw [← ej] at ei
      exact (Prod.mk.inj ei).2
    · exact absurd (by rw [← ei]) (out j hj)
    · exact absurd (by rw [← ej]) (out i hi)
    · exact ih h.2 hi hj

theorem currentSlot_none {s : State} {lsn : Nat} (h : s.currentSlot lsn = none) (i : Nat) :
    (lsn, i) ∉ s.pool.directory := by
  intro hm
  simp only [State.currentSlot, Option.map_eq_none_iff, List.find?_eq_none] at h
  exact h (lsn, i) hm (beq_self_eq_true _)

theorem currentSlot_some {s : State} {lsn i : Nat} (h : s.currentSlot lsn = some i) :
    (lsn, i) ∈ s.pool.directory := by
  simp only [State.currentSlot, Option.map_eq_some_iff] at h
  obtain ⟨d, hd, rfl⟩ := h
  have h1 := List.find?_some hd
  have h2 := List.mem_of_find?_eq_some hd
  simp only [beq_iff_eq] at h1
  rw [← h1]
  exact h2

/-- The slots charged to a channel, as a count. -/
theorem chargedCount_eq (s : State) (c : Channel) :
    s.chargedCount c = s.pool.slots.countP (fun x => x.charged == .channel c) :=
  List.countP_eq_length_filter.symm

theorem slotAt_getElem {s : State} {i : Nat} (h : i < s.pool.slots.length) :
    s.slotAt i = s.pool.slots[i] := by
  simp [State.slotAt, List.getD_eq_getElem?_getD, h]

theorem chargedCount_setSlot_le (s : State) (i : Nat) (x : Slot) (c : Channel) :
    (s.setSlot i x).chargedCount c ≤ s.chargedCount c + 1 := by
  simp only [chargedCount_eq, State.setSlot]
  by_cases h : i < s.pool.slots.length
  · rw [List.countP_set h]
    split <;> split <;> omega
  · rw [List.set_eq_of_length_le (Nat.le_of_not_lt h)]
    omega

theorem chargedCount_setSlot_keeps (s : State) (i : Nat) (x : Slot) (c : Channel)
    (hk : x.charged = .channel c → (s.slotAt i).charged = .channel c) :
    (s.setSlot i x).chargedCount c ≤ s.chargedCount c := by
  simp only [chargedCount_eq, State.setSlot]
  by_cases h : i < s.pool.slots.length
  · rw [List.countP_set h]
    rw [slotAt_getElem h] at hk
    split
    · next hp =>
      have : 0 < s.pool.slots.countP (fun x => x.charged == .channel c) :=
        List.countP_pos_iff.mpr ⟨_, List.getElem_mem h, hp⟩
      split <;> omega
    · next hp =>
      split
      · next hx => exact absurd (by simpa using hk (by simpa using hx)) hp
      · omega
  · exact Nat.le_of_eq (by rw [List.set_eq_of_length_le (Nat.le_of_not_lt h)])

/-! ### The relation -/

/-- `t` differs from `s` in the pool alone, which keeps its number of slots and, where `H` holds,
canonical contents; the directory stays in step with the slots; no channel's charges rise above 16. -/
structure PoolOnly (H : Prop) (s t : State) : Prop where
  rest : t = { s with pool := t.pool }
  sized : t.pool.slots.length = s.pool.slots.length
  contents : H → s.pool.contentsWf = true → t.pool.contentsWf = true
  placed : s.pool.placed = true → t.pool.placed = true
  quota : ∀ c, t.chargedCount c ≤ s.chargedCount c ∨ t.chargedCount c ≤ 16

theorem PoolOnly.refl (H : Prop) (s : State) : PoolOnly H s s :=
  ⟨rfl, rfl, fun _ h => h, id, fun _ => Or.inl (Nat.le_refl _)⟩

theorem PoolOnly.trans {H : Prop} {s t u : State} (a : PoolOnly H s t) (b : PoolOnly H t u) :
    PoolOnly H s u :=
  ⟨by rw [b.rest, a.rest], b.sized.trans a.sized, fun h w => b.contents h (a.contents h w),
   fun w => b.placed (a.placed w), fun c => by
    have h1 := a.quota c
    have h2 := b.quota c
    omega⟩

theorem PoolOnly.foldl {H : Prop} {α : Type} (f : State → α → State)
    (h : ∀ s x, PoolOnly H s (f s x)) (xs : List α) (s : State) : PoolOnly H s (xs.foldl f s) := by
  induction xs generalizing s with
  | nil => exact PoolOnly.refl H s
  | cons x xs ih => exact (h s x).trans (ih (f s x))

/-- The pool alone has changed, so every other part reads as before. -/
theorem PoolOnly.ctl {H : Prop} {s t : State} (a : PoolOnly H s t) : t.ctl = s.ctl := by
  rw [a.rest]

theorem PoolOnly.works {H : Prop} {s t : State} (a : PoolOnly H s t) : t.works = s.works := by
  rw [a.rest]

/-- A slot after a change that claims nothing: its content is the old one or empty, its LSN and its
staleness stay, and no channel is charged that was not. -/
structure Keeps (x y : Slot) : Prop where
  content : y.content = x.content ∨ y.content = []
  lsn : y.lsn = x.lsn
  stale : y.stale = x.stale
  charged : ∀ c, y.charged = .channel c → x.charged = .channel c

theorem Keeps.refl (x : Slot) : Keeps x x := ⟨Or.inl rfl, rfl, rfl, fun _ => id⟩

theorem Keeps.trans {x y z : Slot} (a : Keeps x y) (b : Keeps y z) : Keeps x z where
  content := by
    rcases b.content with h | h
    · rw [h]; exact a.content
    · exact Or.inr h
  lsn := b.lsn.trans a.lsn
  stale := b.stale.trans a.stale
  charged c h := a.charged c (b.charged c h)

/-- A change that leaves content, LSN, staleness and charge as they are. -/
theorem Keeps.of {x y : Slot} (h1 : y.content = x.content := by rfl) (h2 : y.lsn = x.lsn := by rfl)
    (h3 : y.stale = x.stale := by rfl) (h4 : y.charged = x.charged := by rfl) : Keeps x y :=
  ⟨Or.inl h1, h2, h3, fun _ w => h4.symm.trans w⟩

theorem contentsWf_getD {p : Pool} (h : p.contentsWf = true) (i : Nat) :
    (p.slots.getD i Slot.reset).content.wf = true := by
  simp only [Pool.contentsWf, List.all_eq_true] at h
  rw [List.getD_eq_getElem?_getD]
  cases hx : p.slots[i]? with
  | none => rfl
  | some x => exact h x (List.mem_of_getElem? hx)

theorem contentsWf_set {p : Pool} (h : p.contentsWf = true) (i : Nat) {x : Slot}
    (hx : x.content.wf = true) : Pool.contentsWf { p with slots := p.slots.set i x } = true := by
  simp only [Pool.contentsWf, List.all_eq_true] at h ⊢
  intro y hy
  rcases List.mem_or_eq_of_mem_set hy with hy | rfl
  · exact h y hy
  · exact hx

theorem slotAt_wf {s : State} (h : s.pool.contentsWf = true) (i : Nat) :
    (s.slotAt i).content.wf = true :=
  contentsWf_getD h i

theorem keeps_wf {s : State} {i : Nat} {y : Slot} (hk : (s.slotAt i).content = y.content ∨ y.content = [])
    (h : s.pool.contentsWf = true) : y.content.wf = true := by
  rcases hk with hk | hk
  · rw [← hk]; exact slotAt_wf h i
  · rw [hk]; rfl

/-- A slot set keeps the directory in step when its LSN and its staleness stay. -/
theorem placed_set {s : State} {i : Nat} {x : Slot} (hl : x.lsn = (s.slotAt i).lsn)
    (hst : x.stale = (s.slotAt i).stale) (w : s.pool.placed = true) :
    (s.setSlot i x).pool.placed = true := by
  rw [placed_iff] at w ⊢
  refine ⟨w.1, fun j y l hy hs hy' => ?_, fun l j hm => ?_⟩
  · simp only [State.setSlot, List.getElem?_set] at hy
    split at hy
    · next hij =>
      split at hy
      · next hlt =>
        cases hy
        subst hij
        refine w.2.1 i (s.slotAt i) l ?_ (hst ▸ hs) (hl.symm.trans hy')
        rw [slotAt_getElem hlt, List.getElem?_eq_getElem hlt]
      · cases hy
    · exact w.2.1 j y l hy hs hy'
  · obtain ⟨y, hy, hs, hy'⟩ := w.2.2 l j hm
    simp only [State.setSlot, List.getElem?_set]
    obtain ⟨hlt, rfl⟩ := List.getElem?_eq_some_iff.mp hy
    split
    · next hij =>
      subst hij
      rw [if_pos hlt]
      rw [slotAt_getElem hlt] at hl hst
      exact ⟨x, rfl, hst.trans hs, hl.trans hy'⟩
    · exact ⟨_, hy, hs, hy'⟩

/-- `setSlot` changes one slot. -/
theorem setSlot_only {H : Prop} (s : State) (i : Nat) (x : Slot)
    (hx : H → s.pool.contentsWf = true → x.content.wf = true)
    (hl : x.lsn = (s.slotAt i).lsn) (hs : x.stale = (s.slotAt i).stale)
    (hc : ∀ c, x.charged = .channel c → (s.slotAt i).charged = .channel c) :
    PoolOnly H s (s.setSlot i x) :=
  ⟨rfl, List.length_set, fun h w => contentsWf_set w i (hx h w), placed_set hl hs,
   fun c => Or.inl (chargedCount_setSlot_keeps s i x c (hc c))⟩

theorem setSlot_keeps {H : Prop} (s : State) (i : Nat) (x : Slot)
    (hk : Keeps (s.slotAt i) x) : PoolOnly H s (s.setSlot i x) :=
  setSlot_only s i x (fun _ h => keeps_wf (hk.content.imp Eq.symm id) h) hk.lsn hk.stale hk.charged

/-- `updSlot` changes one slot. -/
theorem updSlot_only {H : Prop} (s : State) (i : Nat) (f : Slot → Slot)
    (hf : ∀ x, Keeps x (f x)) : PoolOnly H s (s.updSlot i f) :=
  setSlot_keeps s i _ (hf _)

theorem chargedCount_rest {s t : State} (h : t.pool.slots = s.pool.slots) (c : Channel) :
    t.chargedCount c = s.chargedCount c := by
  simp only [State.chargedCount, h]

/-- A slot freed, dropped or made stale loses its directory pair in the same move. -/
theorem unmapSet_only {H : Prop} (s : State) (i : Nat) (x : Slot)
    (hw : x.content = (s.slotAt i).content ∨ x.content = [])
    (hl : x.lsn = none ∨ x.stale = true)
    (hc : ∀ c, x.charged = .channel c → (s.slotAt i).charged = .channel c) :
    PoolOnly H s ((s.unmapSlot i).setSlot i x) where
  rest := rfl
  sized := List.length_set
  contents _ w := contentsWf_set (p := (s.unmapSlot i).pool) w i
    (keeps_wf (s := s) (i := i) (hw.imp Eq.symm id) w)
  placed w := by
    rw [placed_iff] at w ⊢
    refine ⟨distinct_sublist (List.filter_sublist.map _) w.1, fun j y l hy hs hl' => ?_,
      fun l j hm => ?_⟩
    · simp only [State.setSlot, State.unmapSlot, List.getElem?_set] at hy ⊢
      split at hy
      · split at hy
        · cases hy
          rcases hl with hl | hl
          · rw [hl] at hl'; cases hl'
          · rw [hl] at hs; cases hs
        · cases hy
      · next hij =>
        rw [List.mem_filter]
        exact ⟨w.2.1 j y l hy hs hl', by simpa using fun e => hij e.symm⟩
    · obtain ⟨hm, hne⟩ := List.mem_filter.mp hm
      have hji : j ≠ i := by simpa using hne
      obtain ⟨y, hy⟩ := w.2.2 l j hm
      refine ⟨y, ?_, hy.2⟩
      simp only [State.setSlot, State.unmapSlot, List.getElem?_set, if_neg (Ne.symm hji)]
      exact hy.1
  quota c := by
    refine Or.inl (Nat.le_trans (chargedCount_setSlot_keeps (s.unmapSlot i) i x c (hc c)) ?_)
    exact Nat.le_of_eq (chargedCount_rest rfl c)

theorem leaveSlotWait_only {H : Prop} (s : State) (id : Nat) : PoolOnly H s (s.leaveSlotWait id) :=
  ⟨rfl, rfl, fun _ w => w, fun w => w, fun c => Or.inl (Nat.le_of_eq (chargedCount_rest rfl c))⟩

theorem joinSlotWait_only {H : Prop} (s : State) (id : Nat) : PoolOnly H s (s.joinSlotWait id) := by
  unfold State.joinSlotWait
  split
  · exact PoolOnly.refl H s
  · exact ⟨rfl, rfl, fun _ w => w, fun w => w,
      fun c => Or.inl (Nat.le_of_eq (chargedCount_rest rfl c))⟩

@[simp] theorem slotAt_unmapSlot (s : State) (i j : Nat) : (s.unmapSlot i).slotAt j = s.slotAt j :=
  rfl

@[simp] theorem slotAt_mapSlot (s : State) (l i j : Nat) : (s.mapSlot l i).slotAt j = s.slotAt j :=
  rfl

theorem settleCharge_content (x : Slot) : x.settleCharge.content = x.content := by
  unfold Slot.settleCharge
  split
  · rfl
  · split
    · split <;> rfl
    · rfl
    · rfl

/-- Settling a charge never charges a channel (R61). -/
theorem settleCharge_keeps (x : Slot) : Keeps x x.settleCharge := by
  unfold Slot.settleCharge
  split
  · exact ⟨Or.inl rfl, rfl, rfl, fun _ h => by cases h⟩
  · split
    · split
      · exact Keeps.refl x
      · exact ⟨Or.inl rfl, rfl, rfl, fun _ h => by cases h⟩
    · exact Keeps.refl x
    · exact Keeps.refl x

theorem settleCharge_stale (x : Slot) : x.settleCharge.stale = x.stale := by
  unfold Slot.settleCharge
  split
  · rfl
  · split
    · split <;> rfl
    · rfl
    · rfl

/-- `freeSlot` frees one slot; its content stays (R59, R79). -/
theorem freeSlot_only {H : Prop} (s : State) (i : Nat) : PoolOnly H s (s.freeSlot i) :=
  unmapSet_only s i _ (Or.inl rfl) (Or.inl rfl) (fun _ h => by cases h)

/-- A claim charges at most one slot more. -/
theorem claimSlot_charged (s : State) (i lsn : Nat) (st : SlotState) (w : Work) (ch : Charge)
    (id : Option Nat) (c : Channel) :
    (s.claimSlot i lsn st w ch id).chargedCount c ≤ s.chargedCount c + 1 := by
  have h1 := chargedCount_setSlot_le (s.mapSlot lsn i) i
    { Slot.reset with
      state := st, lsn := some lsn, work := some w, charged := ch, chargedFor := id,
      stamp := (s.slotAt i).stamp } c
  have h0 : (s.mapSlot lsn i).chargedCount c = s.chargedCount c := chargedCount_rest rfl c
  unfold State.claimSlot
  omega

/-- What a claim does whatever the directory holds. -/
theorem claimSlot_quota (s : State) (i lsn : Nat) (st : SlotState) (w : Work) (ch : Charge)
    (id : Option Nat) (hq : ∀ c, ch = .channel c → s.chargedCount c < 16) (c : Channel) :
    (s.claimSlot i lsn st w ch id).chargedCount c ≤ s.chargedCount c ∨
      (s.claimSlot i lsn st w ch id).chargedCount c ≤ 16 := by
  by_cases hc : ch = .channel c
  · have h1 := claimSlot_charged s i lsn st w ch id c
    have h2 := hq c hc
    omega
  · refine Or.inl ?_
    have h0 : (s.mapSlot lsn i).chargedCount c = s.chargedCount c := chargedCount_rest rfl c
    have h1 := chargedCount_setSlot_keeps (s.mapSlot lsn i) i
      { Slot.reset with
        state := st, lsn := some lsn, work := some w, charged := ch, chargedFor := id,
        stamp := (s.slotAt i).stamp } c (fun h => absurd h hc)
    unfold State.claimSlot
    omega

/-- A slot in a state other than FREE is one of the pool's. -/
theorem slot_lt {s : State} {i : Nat} (h : (s.slotAt i).state ≠ .free) :
    i < s.pool.slots.length := by
  refine Nat.lt_of_not_le (fun hle => h ?_)
  simp [State.slotAt, List.getD_eq_getElem?_getD, List.getElem?_eq_none hle, Slot.reset]

theorem replaceable_lt {s : State} {i : Nat} (h : (s.slotAt i).replaceable = true) :
    i < s.pool.slots.length := by
  refine slot_lt (fun e => ?_)
  simp [Slot.replaceable, e] at h

/-- A slot with its index, as the list has it. -/
theorem zipIdx_slot {s : State} {x : Slot} {i : Nat} (h : (x, i) ∈ s.pool.slots.zipIdx) :
    i < s.pool.slots.length ∧ s.slotAt i = x := by
  have h := List.mem_zipIdx_iff_getElem?.mp h
  obtain ⟨hlt, e⟩ := List.getElem?_eq_some_iff.mp h
  exact ⟨hlt, (slotAt_getElem hlt).trans e⟩

/-- R62 item 1: the slot found is FREE. -/
theorem firstFree_some {s : State} {i : Nat} (h : s.firstFree = some i) :
    i < s.pool.slots.length ∧ (s.slotAt i).state = .free := by
  simp only [State.firstFree, Option.map_eq_some_iff] at h
  obtain ⟨⟨x, j⟩, hf, rfl⟩ := h
  have h1 := List.find?_some hf
  have h2 := zipIdx_slot (List.mem_of_find?_eq_some hf)
  exact ⟨h2.1, by rw [h2.2]; simpa using h1⟩

/-- R62 item 2: the slot found is replaceable and not excluded. -/
theorem oldestClean_some {s : State} {excluded : List Nat} {i : Nat}
    (h : s.oldestClean excluded = some i) :
    i < s.pool.slots.length ∧ (s.slotAt i).replaceable = true ∧ i ∉ excluded := by
  simp only [State.oldestClean, Option.map_eq_some_iff] at h
  obtain ⟨b, hb, rfl⟩ := h
  have key : ∀ (xs : List (Slot × Nat)) (best : Option (Nat × Nat)),
      (∀ xi ∈ xs, xi ∈ s.pool.slots.zipIdx) →
      (∀ b, best = some b → b.2 < s.pool.slots.length ∧ (s.slotAt b.2).replaceable = true ∧
        b.2 ∉ excluded) →
      ∀ b, xs.foldl (fun (best : Option (Nat × Nat)) xi =>
          if xi.1.replaceable && !excluded.contains xi.2 then
            match best with
            | none => some (s.stampAge xi.1, xi.2)
            | some b => if b.1 < s.stampAge xi.1 then some (s.stampAge xi.1, xi.2) else some b
          else best) best = some b →
        b.2 < s.pool.slots.length ∧ (s.slotAt b.2).replaceable = true ∧ b.2 ∉ excluded := by
    intro xs
    induction xs with
    | nil => exact fun best _ hb b e => hb b e
    | cons x xs ih =>
      intro best hm hb b e
      refine ih _ (fun y hy => hm y (List.mem_cons_of_mem _ hy)) (fun b' e' => ?_) b e
      have hx := zipIdx_slot (hm x (List.mem_cons_self ..))
      dsimp only at e'
      split at e'
      · next hr =>
        simp only [Bool.and_eq_true, Bool.not_eq_true', List.contains_eq_mem,
          decide_eq_false_iff_not] at hr
        have hnew : x.2 < s.pool.slots.length ∧ (s.slotAt x.2).replaceable = true ∧
            x.2 ∉ excluded := ⟨hx.1, by rw [hx.2]; exact hr.1, hr.2⟩
        split at e'
        · cases e'; exact hnew
        · split at e'
          · cases e'; exact hnew
          · exact hb b' e'
      · exact hb b' e'
  exact key _ none (fun _ h => h) (fun _ h => by cases h) b hb

/-- The slot that new work takes is one of the pool's, and FREE or replaceable (R62). -/
theorem chooseSlot_some {s : State} {excluded : List Nat} {i : Nat}
    (h : s.chooseSlot excluded = some i) : i < s.pool.slots.length ∧
      ((s.slotAt i).state = .free ∨ ((s.slotAt i).replaceable = true ∧ i ∉ excluded)) := by
  unfold State.chooseSlot at h
  split at h
  · next j hj =>
    cases h
    exact ⟨(firstFree_some hj).1, Or.inl (firstFree_some hj).2⟩
  · have := oldestClean_some h
    exact ⟨this.1, Or.inr this.2⟩

/-- A slot claimed for an LSN that has no other current slot keeps the directory in step (R59). -/
theorem claimSlot_placed (s : State) (i lsn : Nat) (st : SlotState) (work : Work) (ch : Charge)
    (id : Option Nat) (hi : i < s.pool.slots.length)
    (hcur : s.currentSlot lsn = none ∨ s.currentSlot lsn = some i)
    (w : s.pool.placed = true) : (s.claimSlot i lsn st work ch id).pool.placed = true := by
  rw [placed_iff] at w ⊢
  have hkey : ∀ j, (lsn, j) ∈ s.pool.directory → j = i := by
    intro j hj
    rcases hcur with h | h
    · exact absurd hj (currentSlot_none h j)
    · exact key_unique w.1 hj (currentSlot_some h)
  refine ⟨?_, fun j y l hy hs hl => ?_, fun l j hm => ?_⟩
  · simp only [State.claimSlot, State.setSlot, State.mapSlot, List.map_append, List.map_cons,
      List.map_nil]
    refine distinct_append_single (distinct_sublist (List.filter_sublist.map _) w.1) ?_
    intro hm
    obtain ⟨d, hd, hk⟩ := List.mem_map.mp hm
    have := (List.mem_filter.mp hd).2
    simp [hk] at this
  · simp only [State.claimSlot, State.setSlot, State.mapSlot, List.getElem?_set] at hy ⊢
    rw [List.mem_append, List.mem_filter]
    split at hy
    · next hij =>
      cases hy
      cases hl
      subst hij
      exact Or.inr (List.mem_singleton.mpr rfl)
    · next hij =>
      have hm := w.2.1 j y l hy hs hl
      refine Or.inl ⟨hm, ?_⟩
      have hne : l ≠ lsn := fun e => hij (hkey j (e ▸ hm)).symm
      simp only [bne_iff_ne, ne_eq, Bool.and_eq_true]
      exact ⟨hne, fun e => hij e.symm⟩
  · simp only [State.claimSlot, State.setSlot, State.mapSlot] at hm
    rw [List.mem_append, List.mem_filter] at hm
    simp only [State.claimSlot, State.setSlot, State.mapSlot, List.getElem?_set]
    rcases hm with ⟨hm, hne⟩ | hm
    · have hji : j ≠ i := by
        simp only [bne_iff_ne, ne_eq, Bool.and_eq_true] at hne
        exact hne.2
      rw [if_neg (Ne.symm hji)]
      exact w.2.2 l j hm
    · cases List.mem_singleton.mp hm
      rw [if_pos rfl, if_pos hi]
      exact ⟨_, rfl, rfl, rfl⟩

/-- `claimSlot` gives one slot an LSN, its content becoming empty: the slot is the LSN's current one
or the LSN has none, and a channel charged has fewer than 16 slots (R59, R61). -/
theorem claimSlot_only {H : Prop} (s : State) (i lsn : Nat) (st : SlotState) (w : Work)
    (ch : Charge) (id : Option Nat) (hi : i < s.pool.slots.length)
    (hp : s.currentSlot lsn = none ∨ s.currentSlot lsn = some i)
    (hq : ∀ c, ch = .channel c → s.chargedCount c < 16) :
    PoolOnly H s (s.claimSlot i lsn st w ch id) where
  rest := rfl
  sized := List.length_set
  contents _ v := contentsWf_set (p := (s.mapSlot lsn i).pool) v i rfl
  placed := claimSlot_placed s i lsn st w ch id hi hp
  quota := claimSlot_quota s i lsn st w ch id hq

theorem tidySlot_only {H : Prop} (s : State) (i : Nat) : PoolOnly H s (s.tidySlot i) := by
  unfold State.tidySlot
  dsimp only
  split
  · exact freeSlot_only s i
  · exact setSlot_keeps s i _ (settleCharge_keeps _)

theorem makeStale_only {H : Prop} (s : State) (i : Nat) : PoolOnly H s (s.makeStale i) :=
  PoolOnly.trans (unmapSet_only s i ({ s.slotAt i with stale := true } : Slot) (Or.inl rfl)
    (Or.inr rfl) (fun _ h => h)) (tidySlot_only _ i)

theorem unmapped_tidySlot (s : State) (i lsn : Nat) (h : s.currentSlot lsn = none) :
    (s.tidySlot i).currentSlot lsn = none := by
  unfold State.tidySlot
  dsimp only
  split
  · simp only [State.currentSlot, State.freeSlot, State.setSlot, State.unmapSlot,
      Option.map_eq_none_iff, List.find?_eq_none] at h ⊢
    exact fun d hd => h d (List.mem_filter.mp hd).1
  · exact h

/-- A slot made stale leaves its LSN without a current slot (R59). -/
theorem makeStale_unmaps {s : State} {i lsn : Nat} (w : s.pool.placed = true)
    (h : s.currentSlot lsn = some i) : (s.makeStale i).currentSlot lsn = none := by
  refine unmapped_tidySlot _ i lsn ?_
  simp only [State.currentSlot, State.updSlot, State.setSlot, State.unmapSlot,
    Option.map_eq_none_iff, List.find?_eq_none]
  intro d hd hk
  rw [placed_iff] at w
  obtain ⟨hd, hne⟩ := List.mem_filter.mp hd
  simp only [beq_iff_eq] at hk
  have : (lsn, d.2) ∈ s.pool.directory := by rw [← hk]; exact hd
  have := key_unique w.1 this (currentSlot_some h)
  simp [this] at hne

theorem tidySlot_charged (s : State) (i : Nat) (c : Channel) :
    (s.tidySlot i).chargedCount c ≤ s.chargedCount c := by
  unfold State.tidySlot
  dsimp only
  split
  · have := chargedCount_setSlot_keeps (s.unmapSlot i) i (s.slotAt i).freed c
      (fun h => by cases h)
    rw [chargedCount_rest (s := s) (t := s.unmapSlot i) rfl] at this
    exact this
  · exact chargedCount_setSlot_keeps s i _ c ((settleCharge_keeps _).charged c)

theorem makeStale_charged (s : State) (i : Nat) (c : Channel) :
    (s.makeStale i).chargedCount c ≤ s.chargedCount c := by
  refine Nat.le_trans (tidySlot_charged ..) ?_
  have := chargedCount_setSlot_keeps (s.unmapSlot i) i ({ s.slotAt i with stale := true } : Slot) c
    (fun h => h)
  rw [chargedCount_rest (s := s) (t := s.unmapSlot i) rfl] at this
  exact this

/-- A current slot made stale, and a slot claimed for its LSN (R59, R69, R74, R75). -/
theorem staleThenClaim_only {H : Prop} (s : State) (i j lsn : Nat) (st : SlotState) (w : Work)
    (ch : Charge) (id : Option Nat) (h : s.currentSlot lsn = some i)
    (hj : j < (s.makeStale i).pool.slots.length)
    (hq : ∀ c, ch = .channel c → s.chargedCount c < 16) :
    PoolOnly H s ((s.makeStale i).claimSlot j lsn st w ch id) := by
  have a := makeStale_only (H := H) s i
  have hq' : ∀ c, ch = .channel c → (s.makeStale i).chargedCount c < 16 := fun c hc =>
    Nat.lt_of_le_of_lt (makeStale_charged s i c) (hq c hc)
  exact
    { rest := by
        show (s.makeStale i).claimSlot j lsn st w ch id = _
        have : (s.makeStale i).claimSlot j lsn st w ch id = { s.makeStale i with
          pool := ((s.makeStale i).claimSlot j lsn st w ch id).pool } := rfl
        rw [this, a.rest]
      sized := List.length_set.trans a.sized
      contents := fun hh v => contentsWf_set (p := ((s.makeStale i).mapSlot lsn j).pool)
        (a.contents hh v) j rfl
      placed := fun v => claimSlot_placed _ j lsn st w ch id hj (Or.inl (makeStale_unmaps v h))
        (a.placed v)
      quota := fun c => by
        have h1 := claimSlot_quota (s.makeStale i) j lsn st w ch id hq' c
        have h2 := makeStale_charged s i c
        omega }

theorem afterRelease_only {H : Prop} (s : State) (id i : Nat) :
    PoolOnly H s (s.afterRelease id i) := by
  unfold State.afterRelease
  dsimp only
  split
  · split
    · exact freeSlot_only s i
    · exact setSlot_keeps s i _ (Keeps.trans Keeps.of (settleCharge_keeps _))
  · exact tidySlot_only s i

theorem bindSlot_only {H : Prop} (s : State) (c : Channel) (id i : Nat) (b : Bool) :
    PoolOnly H s (s.bindSlot c id i b) :=
  updSlot_only s i _ (fun _ => Keeps.of)

theorem releaseBinding_only {H : Prop} (s : State) (id i : Nat) (taken : Bool) :
    PoolOnly H s (s.releaseBinding id i taken) := by
  refine PoolOnly.trans (updSlot_only s i _ (fun x => ?_)) (afterRelease_only _ id i)
  cases taken <;> exact Keeps.of

theorem dropSlot_only {H : Prop} (s : State) (i : Nat) : PoolOnly H s (s.dropSlot i) := by
  unfold State.dropSlot
  dsimp only
  split
  · exact freeSlot_only s i
  · exact unmapSet_only s i _ (Or.inl (settleCharge_content _)) (Or.inr (settleCharge_stale _))
      (settleCharge_keeps { s.slotAt i with work := none, stale := true }).charged

theorem abandonSlot_only {H : Prop} (s : State) (i : Nat) : PoolOnly H s (s.abandonSlot i) := by
  unfold State.abandonSlot
  dsimp only
  split
  · exact freeSlot_only s i
  · exact setSlot_keeps s i _ ⟨Or.inr rfl, rfl, rfl, fun _ h => by cases h⟩

/-- `giveUpSlot` changes the pool alone (R70, R72–R75). -/
theorem giveUpSlot_only {H : Prop} (s : State) (id i : Nat) : PoolOnly H s (s.giveUpSlot id i) := by
  unfold State.giveUpSlot
  dsimp only
  split
  · split
    · exact dropSlot_only s i
    · exact abandonSlot_only s i
    · exact afterRelease_only s id i
    · exact PoolOnly.refl H s
    · exact PoolOnly.refl H s
  · exact PoolOnly.refl H s

theorem passSlot_only {H : Prop} (s : State) (i : Nat) : PoolOnly H s (s.passSlot i) :=
  updSlot_only s i _ (fun _ => Keeps.trans Keeps.of (settleCharge_keeps _))

theorem contentsWf_map {p : Pool} (f : Slot → Slot)
    (hf : ∀ x, (f x).content = x.content ∨ (f x).content = [])
    (h : p.contentsWf = true) : Pool.contentsWf { p with slots := p.slots.map f } = true := by
  simp only [Pool.contentsWf, List.all_eq_true, List.mem_map] at h ⊢
  rintro _ ⟨x, hx, rfl⟩
  rcases hf x with hk | hk <;> rw [hk]
  · exact h x hx
  · rfl

theorem countP_map_le (xs : List Slot) (f : Slot → Slot)
    (hf : ∀ x c, (f x).charged = .channel c → x.charged = .channel c) (c : Channel) :
    (xs.map f).countP (fun x => x.charged == .channel c) ≤
      xs.countP (fun x => x.charged == .channel c) := by
  rw [List.countP_map]
  refine List.countP_mono_left (fun x _ h => ?_)
  simp only [Function.comp, beq_iff_eq] at h ⊢
  exact hf x c h

theorem placed_map {p : Pool} (f : Slot → Slot) (hf : ∀ x, Keeps x (f x))
    (w : p.placed = true) : Pool.placed { p with slots := p.slots.map f } = true := by
  rw [placed_iff] at w ⊢
  refine ⟨w.1, fun i y l hy hs hl => ?_, fun l i hm => ?_⟩
  · simp only [List.getElem?_map, Option.map_eq_some_iff] at hy
    obtain ⟨x, hx, rfl⟩ := hy
    exact w.2.1 i x l hx ((hf x).stale ▸ hs) ((hf x).lsn ▸ hl)
  · obtain ⟨x, hx, hs, hl⟩ := w.2.2 l i hm
    exact ⟨f x, by simp [hx], (hf x).stale.trans hs, (hf x).lsn.trans hl⟩

/-- A change of every slot that claims nothing. -/
theorem mapSlots_only {H : Prop} (s : State) (f : Slot → Slot) (hf : ∀ x, Keeps x (f x)) :
    PoolOnly H s { s with pool := { s.pool with slots := s.pool.slots.map f } } :=
  ⟨rfl, List.length_map ..,
   fun _ w => contentsWf_map f (fun x => (hf x).content) w, fun w => placed_map f hf w, fun c => Or.inl (by
    simp only [chargedCount_eq]
    exact countP_map_le _ f (fun x => (hf x).charged) c)⟩


theorem emptyPool_only {H : Prop} (s : State) : PoolOnly H s s.emptyPool :=
  { rest := rfl
    sized := List.length_map ..
    contents := fun _ w => contentsWf_map Slot.freed (fun _ => Or.inl rfl) w
    placed := fun _ => by
      rw [placed_iff]
      refine ⟨rfl, fun i y l hy _ hl => ?_, fun l i hm => by cases hm⟩
      simp only [State.emptyPool, List.getElem?_map, Option.map_eq_some_iff] at hy
      obtain ⟨x, _, rfl⟩ := hy
      cases hl
    quota := fun c => Or.inl (by
      simp only [chargedCount_eq, State.emptyPool]
      exact countP_map_le _ _ (fun _ _ h => by cases h) c) }

theorem releaseBindings_only {H : Prop} (s : State) (id : Nat) (slots : List Nat) :
    PoolOnly H s (s.releaseBindings id slots) :=
  PoolOnly.foldl _ (fun s i => releaseBinding_only s id i false) slots s

theorem loseFetches_only {H : Prop} (s : State) : PoolOnly H s s.loseFetches := by
  refine PoolOnly.foldl _ (fun s i => ?_) _ s
  split
  · exact freeSlot_only s i
  · exact PoolOnly.refl H s

theorem markBegun_only {H : Prop} (s : State) (w : Work) (run : Run) :
    PoolOnly H s (s.markBegun w run) := by
  refine mapSlots_only s _ (fun x => ?_)
  split <;> exact Keeps.of

theorem advanceStage_only {H : Prop} (s : State) (r : OpenRun) (st : WriteStage) :
    PoolOnly H s (s.advanceStage r st) := by
  refine PoolOnly.foldl _ (fun s i => updSlot_only s i _ (fun x => ?_)) _ s
  split <;> exact Keeps.of

theorem takeReadAheadSlot_only {H : Prop} (s : State) (c : Channel) (lsn : Nat) :
    PoolOnly H s (s.takeReadAheadSlot c lsn) := by
  unfold State.takeReadAheadSlot
  split
  · next h hf =>
    exact (claimSlot_only _ _ _ _ _ _ _ (firstFree_some hf).1 (Or.inl h)
      (fun _ h => by cases h)).trans
      (updSlot_only _ _ _ (fun _ => Keeps.of))
  · exact PoolOnly.refl H s

/-- A channel's free quota, as a bound (R61). -/
theorem quotaFree_lt {s : State} {c : Channel} (h : s.quotaFree c = true) :
    ∀ d, Charge.channel c = .channel d → s.chargedCount d < 16 := by
  intro d hd
  cases hd
  simpa [State.quotaFree, Config.channelSlots] using h

/-- A slot charged to a channel with a free quota, its LSN and content as they are (R61, R63,
R74). -/
theorem chargeSlot_only {H : Prop} (s : State) (i : Nat) (x : Slot)
    (hw : x.content = (s.slotAt i).content) (hl : x.lsn = (s.slotAt i).lsn)
    (hs : x.stale = (s.slotAt i).stale)
    (hq : ∀ c, x.charged = .channel c → s.chargedCount c < 16) : PoolOnly H s (s.setSlot i x) where
  rest := rfl
  sized := List.length_set
  contents _ w := contentsWf_set w i (keeps_wf (Or.inl hw.symm) w)
  placed := placed_set hl hs
  quota c := by
    by_cases hc : x.charged = .channel c
    · have h1 := chargedCount_setSlot_le s i x c
      have h2 := hq c hc
      omega
    · exact Or.inl (chargedCount_setSlot_keeps s i x c (fun h => absurd h hc))

/-- Binding one sector changes the pool alone (R63). -/
theorem bindSector_only {H : Prop} (s : State) (c : Channel) (id lsn : Nat) :
    ∀ t i, s.bindSector c id lsn = .bound t i → PoolOnly H s t := by
  intro t i h
  unfold State.bindSector at h
  split at h
  · dsimp only at h
    split at h
    · split at h
      · cases h; exact bindSlot_only ..
      · split at h
        · next hq =>
          cases h
          exact PoolOnly.trans (t := s.updSlot i
            (fun x => { x with charged := .channel c, chargedFor := some id }))
              (chargeSlot_only s i _ rfl rfl rfl (quotaFree_lt hq)) (bindSlot_only ..)
        · cases h
    · cases h; exact bindSlot_only ..
    · cases h; exact bindSlot_only ..
    · cases h; exact bindSlot_only ..
    · cases h
  · next hn =>
    split at h
    · cases h
    · next hc =>
      split at h
      · next hq =>
        cases h
        exact (claimSlot_only _ _ _ _ _ _ _ (chooseSlot_some hc).1 (Or.inl hn)
          (quotaFree_lt hq)).trans (bindSlot_only ..)
      · cases h

/-- Binding the sectors of a READ changes the pool alone (R64). -/
theorem bindSectors_only {H : Prop} (c : Channel) (id : Nat) (xs : List ReadSector) :
    ∀ (s : State) (lsn : Nat), PoolOnly H s (s.bindSectors c id lsn xs).2.1 := by
  induction xs with
  | nil => intro s lsn; exact PoolOnly.refl H s
  | cons x xs ih =>
    intro s lsn
    unfold State.bindSectors
    split
    · split
      · exact PoolOnly.refl H s
      · next t i h => exact (bindSector_only s c id lsn t i h).trans (ih t (lsn + 1))
    · exact ih s (lsn + 1)

end Sys2Proof.Machine
end

