-- ==== Sys2Proof/Laws/Gate.lean ====
section
/-! SUPPORT. What the operations on requests, write work and the pool leave alone: the cartridge state,
a recovery under way, the engine, the open run and the link. -/

set_option Elab.async false

namespace Sys2Proof.Machine

/-- The cartridge state, the recovery, the engine, the open run and the link stand as they did. -/
structure Gate (s t : State) : Prop where
  state : t.ctl.state = s.ctl.state
  recovering : t.ctl.recovering = s.ctl.recovering
  engine : t.engine = s.engine
  openRun : t.sched.openRun = s.sched.openRun
  link : t.link = s.link

/-- An operation on anything else. -/
theorem Gate.of {s t : State} (h1 : t.ctl.state = s.ctl.state := by rfl)
    (h2 : t.ctl.recovering = s.ctl.recovering := by rfl) (h3 : t.engine = s.engine := by rfl)
    (h4 : t.sched.openRun = s.sched.openRun := by rfl) (h5 : t.link = s.link := by rfl) : Gate s t :=
  ⟨h1, h2, h3, h4, h5⟩

theorem Gate.refl (s : State) : Gate s s := Gate.of

theorem Gate.trans {s t u : State} (a : Gate s t) (b : Gate t u) : Gate s u :=
  ⟨b.state.trans a.state, b.recovering.trans a.recovering, b.engine.trans a.engine,
   b.openRun.trans a.openRun, b.link.trans a.link⟩

theorem Gate.ite {s t u : State} (c : Prop) [Decidable c] (a : Gate s t) (b : Gate s u) :
    Gate s (if c then t else u) := by
  split
  · exact a
  · exact b

theorem Gate.foldl {α : Type} (f : State → α → State) (h : ∀ s x, Gate s (f s x)) (xs : List α)
    (s : State) : Gate s (xs.foldl f s) := by
  induction xs generalizing s with
  | nil => exact Gate.refl s
  | cons x xs ih => exact (h s x).trans (ih (f s x))

theorem PoolOnly.gate {H : Prop} {s t : State} (a : PoolOnly H s t) : Gate s t := by
  rw [a.rest]
  exact Gate.of

theorem forRequests_gate (s : State) (f : State → Channel → Request → State)
    (hf : ∀ s c r, Gate s (f s c r)) : Gate s (s.forRequests f) :=
  (Gate.foldl _ (fun s r => hf s .A r) _ s).trans (Gate.foldl _ (fun s r => hf s .B r) _ _)

/-! ### Requests -/

theorem settleReq_gate (s : State) (c : Channel) (id : Nat) (st : Status) :
    Gate s (s.settleReq c id st) := Gate.of

theorem settleListed_gate (s : State) (st : Status) (e : Channel × Byte) :
    Gate s (s.settleListed st e) := by
  unfold State.settleListed
  split
  · exact Gate.refl s
  · exact settleReq_gate ..

theorem completeEjects_gate (s : State) (st : Status) : Gate s (s.completeEjects st) :=
  (Gate.foldl _ (fun s e => settleListed_gate s st e) _ s).trans Gate.of

theorem completeMounts_gate (s : State) (st : Status) : Gate s (s.completeMounts st) :=
  (Gate.foldl _ (fun s e => settleListed_gate s st e) _ s).trans Gate.of

theorem endFlushMaps_gate (s : State) (test : Request → Bool) (st : Status) :
    Gate s (s.endFlushMaps test st) :=
  forRequests_gate s _ (fun s _ _ => Gate.ite _ (settleReq_gate ..) (Gate.refl s))

theorem endRead_gate (s : State) (c : Channel) (id : Nat) (st : Status) (short : Bool)
    (ff : Option Nat) : Gate s (s.endRead c id st short ff) := by
  unfold State.endRead
  split
  · exact Gate.refl s
  · refine Gate.trans ?_ (leaveSlotWait_only (H := True) _ id).gate
    refine Gate.trans ?_ (releaseBindings_only (H := True) _ _ _).gate
    exact Gate.of

theorem cutRead_gate (s : State) (c : Channel) (id : Nat) (st : Status) :
    Gate s (s.cutRead c id st) := by
  unfold State.cutRead
  split
  · exact Gate.refl s
  · exact endRead_gate ..

theorem faultRequest_gate (s : State) (c : Channel) (r : Request) :
    Gate s (s.faultRequest c r) := by
  unfold State.faultRequest
  split
  · exact Gate.refl s
  · split
    · exact Gate.ite _ (cutRead_gate ..) (Gate.refl s)
    · exact settleReq_gate ..
    · exact Gate.refl s

theorem removeRequest_gate (s : State) (c : Channel) (r : Request) :
    Gate s (s.removeRequest c r) := by
  unfold State.removeRequest
  split
  · exact Gate.refl s
  · split
    · exact cutRead_gate ..
    · exact settleReq_gate ..
    · exact settleReq_gate ..
    · exact Gate.refl s

/-! ### Write work -/

theorem giveUpSlots_gate (s : State) (id : Nat) (slots : List Nat) :
    Gate s (slots.foldl (fun s i => s.giveUpSlot id i) s) :=
  Gate.foldl _ (fun s i => (giveUpSlot_only (H := True) s id i).gate) slots s

theorem endOpenSectors_gate (s : State) (id : Nat) (keep : List Nat) (res : Option SectorResult) :
    Gate s (s.endOpenSectors id keep res) := by
  unfold State.endOpenSectors
  split
  · exact Gate.refl s
  · exact Gate.trans Gate.of (giveUpSlots_gate _ id _)

theorem concludeWork_gate (s : State) (w : WriteWork) (cause : Option Status) :
    Gate s (s.concludeWork w cause) := by
  unfold State.concludeWork
  dsimp only
  split <;> exact Gate.of

theorem endRescue_gate (s : State) (w : WriteWork) (done : Bool) : Gate s (s.endRescue w done) :=
  Gate.of

theorem checkWorkEnd_gate (s : State) (id : Nat) : Gate s (s.checkWorkEnd id) := by
  unfold State.checkWorkEnd
  split
  · exact Gate.refl s
  · exact Gate.ite _ (Gate.ite _ (endRescue_gate ..) (concludeWork_gate ..)) (Gate.refl s)

theorem endWorkFor_gate (s : State) (cause : Status) (b : Bool) (id : Nat) :
    Gate s (s.endWorkFor cause b id) := by
  unfold State.endWorkFor
  dsimp only
  have h := endOpenSectors_gate s id [] (some (.failed cause))
  split
  · exact h
  · exact h.trans (Gate.ite _ (Gate.ite _ (endRescue_gate ..) Gate.of) (concludeWork_gate ..))

theorem endWorks_gate (s : State) (cause : Status) (b : Bool) : Gate s (s.endWorks cause b) :=
  Gate.foldl _ (fun s id => endWorkFor_gate s cause b id) _ s

theorem cutRescue_gate (s : State) : Gate s s.cutRescue := by
  unfold State.cutRescue
  split
  · exact Gate.refl s
  · dsimp only
    split
    · exact endOpenSectors_gate ..
    · exact (endOpenSectors_gate ..).trans (endRescue_gate ..)

theorem loseFetches_gate (s : State) : Gate s s.loseFetches := (loseFetches_only (H := True) s).gate

theorem beginRescue_gate (s : State) : Gate s s.beginRescue := by
  unfold State.beginRescue
  split
  · exact Gate.refl s
  · split
    · exact Gate.refl s
    · exact Gate.of

theorem rescueDataStep_gate (s : State) (w : WriteWork) : Gate s (s.rescueDataStep w) := by
  unfold State.rescueDataStep
  dsimp only
  split
  · exact Gate.refl s
  · split
    · next i _ =>
      split
      · exact Gate.of
      · refine Gate.ite _ (Gate.refl s) (Gate.trans (makeStale_only (H := True) s i).gate ?_)
        split <;> exact Gate.of
    · refine Gate.ite _ (Gate.refl s) ?_
      split <;> exact Gate.of

theorem examineRescue_gate (s : State) : Gate s s.examineRescue := by
  unfold State.examineRescue
  split
  · exact Gate.refl s
  · exact rescueDataStep_gate ..

/-! ### The read-only flag -/

theorem answerUnmount_gate (s : State) (a : UnmountAnswer) : Gate s (s.answerUnmount a) :=
  Gate.ite _ Gate.of (Gate.refl s)

theorem protectWork_gate (s : State) (id : Nat) : Gate s (s.protectWork id) := by
  unfold State.protectWork
  split
  · exact Gate.refl s
  · exact Gate.ite _ (Gate.ite _ (Gate.refl s) (cutRescue_gate s))
      ((endOpenSectors_gate ..).trans (checkWorkEnd_gate ..))

theorem setReadOnly_gate (s : State) (reason : ReadOnly) : Gate s (s.setReadOnly reason) := by
  unfold State.setReadOnly
  dsimp only
  split
  · exact Gate.refl s
  · have h : Gate s (((({ s with dm := { s.dm with rescueList := [] } }).updCtl
      (fun k => { k with readOnly := reason })).raise .readOnly).protectWorks) :=
      Gate.trans Gate.of (Gate.foldl _ (fun s id => protectWork_gate s id) _ _)
    exact Gate.ite _ h ((h.trans (endFlushMaps_gate ..)).trans (answerUnmount_gate ..))

theorem learnProtect_gate (s : State) (wp : Bool) : Gate s (s.learnProtect wp) := by
  unfold State.learnProtect
  dsimp only
  exact Gate.ite _ (Gate.trans Gate.of (setReadOnly_gate ..)) Gate.of

end Sys2Proof.Machine
end

