-- ==== Sys2Proof/Laws/Inner.lean ====
section
/-! SUPPORT. What every operation inside a step can do at most, said once: `Inner`. Lemmas of the
basic operations. -/

set_option Elab.async false

namespace Sys2Proof.Machine

/-- What names a request for its whole life. -/
def Request.key (r : Request) : Nat × Byte × RequestKind × Nat × Nat :=
  (r.id, r.tag, r.kind, r.lsn, r.count)

/-- A port without its transfers and its idle count. -/
def Port.frame (p : Port) : Port := { p with transfers := [], idle := none }

/-! ### Laws 6 and 11 with what goes with them -/

/-- `State.phased`, as propositions. -/
structure Phase (s : State) : Prop where
  openIn : ∀ r, s.sched.openRun = some r →
    (s.ctl.state = .ready ∨ s.ctl.state = .unmounting) ∧ r.insertions ≤ 8
  emptied : s.ctl.state = .empty → s.works = [] ∧ s.dm.dirty = false
  recovers : s.ctl.recovering = true → s.ctl.state = .faulted
  index : ∀ op, s.engine = some op → op.kind = .indexFetch → s.ctl.state = .mounting
  sender : ∀ c, s.link.outstanding = some c → c.sender = .cartridgeController →
    s.sched.openRun = none

theorem phased_iff (s : State) : s.phased = true ↔ Phase s := by
  unfold State.phased State.law6 State.law11
  constructor
  · intro h
    simp only [Bool.and_eq_true] at h
    obtain ⟨⟨⟨⟨⟨h6, h11⟩, he⟩, hr⟩, hi⟩, hs⟩ := h
    refine ⟨fun r e => ?_, fun e => ?_, fun e => ?_, fun op e k => ?_, fun c e k => ?_⟩
    · rw [e] at h6
      simpa using h6
    · rw [e] at h11 he
      exact ⟨by simpa using he, by simpa using h11⟩
    · rw [e] at hr
      simpa using hr
    · rw [e] at hi
      simpa [k] using hi
    · rw [e] at hs
      simpa [k] using hs
  · intro h
    simp only [Bool.and_eq_true]
    refine ⟨⟨⟨⟨⟨?_, ?_⟩, ?_⟩, ?_⟩, ?_⟩, ?_⟩
    · cases e : s.sched.openRun with
      | none => rfl
      | some r => simpa using h.openIn r e
    · by_cases e : s.ctl.state = .empty
      · simp [(h.emptied e).2]
      · simp [e]
    · by_cases e : s.ctl.state = .empty
      · simp [(h.emptied e).1]
      · simp [e]
    · by_cases e : s.ctl.recovering = true
      · simp [h.recovers e]
      · simp [e]
    · cases e : s.engine with
      | none => rfl
      | some op =>
        by_cases k : op.kind = .indexFetch
        · simp [h.index op e k]
        · simp [k]
    · cases e : s.link.outstanding with
      | none => rfl
      | some c =>
        by_cases k : c.sender = .cartridgeController
        · simp [h.sender c e k]
        · simp [k]

/-- Nothing that `Phase` speaks of has changed. -/
theorem Phase.keep {s t : State} (h : Phase s) (h1 : t.ctl.state = s.ctl.state := by rfl)
    (h2 : t.ctl.recovering = s.ctl.recovering := by rfl)
    (h3 : s.works = [] → t.works = [] := by exact fun h => h)
    (h4 : t.dm.dirty = true → s.dm.dirty = true := by exact fun h => h)
    (h5 : t.sched.openRun = s.sched.openRun := by rfl) (h6 : t.engine = s.engine := by rfl)
    (h7 : t.link.outstanding = s.link.outstanding := by rfl) : Phase t where
  openIn r e := by rw [h1]; exact h.openIn r (h5 ▸ e)
  emptied e := by
    have := h.emptied (h1 ▸ e)
    refine ⟨h3 this.1, ?_⟩
    cases hd : t.dm.dirty with
    | false => rfl
    | true => exact absurd (h4 hd) (by rw [this.2]; decide)
  recovers e := by rw [h1]; exact h.recovers (h2 ▸ e)
  index op e k := by rw [h1]; exact h.index op (h6 ▸ e) k
  sender c e k := by rw [h5]; exact h.sender c (h7 ▸ e) k

/-- A change of the map keeps its form (law 8 and the list's order), and keeps it sound. -/
def MapKept (d e : DefectManager) : Prop :=
  (d.mapForm = true → e.mapForm = true) ∧ (d.mapSound = true → e.mapSound = true)

theorem MapKept.refl (d : DefectManager) : MapKept d d := ⟨id, id⟩

theorem MapKept.trans {d e f : DefectManager} (a : MapKept d e) (b : MapKept e f) : MapKept d f :=
  ⟨fun w => b.1 (a.1 w), fun w => b.2 (a.2 w)⟩

/-- The map's form and soundness depend on its three lists alone. -/
theorem MapKept.of_lists {d e : DefectManager} (h1 : e.bands = d.bands) (h2 : e.slips = d.slips)
    (h3 : e.replacement = d.replacement) : MapKept d e := by
  cases d
  cases e
  subst h1 h2 h3
  exact ⟨id, id⟩

/-! ### The relation -/

/-- What an operation inside a step keeps: the time, the queue, the policy, the ports but for their
transfers, who is outstanding; the reservations stay or are emptied; 32 slots; the canonical form of
the buffers (where `H` holds of the data brought in); law 7; the Defect Manager's bounds; the works'
numbers; the directory (law 4), the quotas (law 5), the map's form (law 8) and soundness, and laws 6 and
11 with what goes with them (where `P` holds). -/
structure Inner (H P : Prop) (s t : State) : Prop where
  timebase : t.timebase = s.timebase
  pending : t.pending = s.pending
  policy : t.policy = s.policy
  ports : ∀ c, (t.port c).frame = (s.port c).frame
  keys : ∀ c, (t.reqs c).map Request.key = (s.reqs c).map Request.key
  transfers : ∀ c, ∀ x ∈ (t.port c).transfers,
    (∃ y ∈ (s.port c).transfers, y.request = x.request) ∨
      x.request ∈ (s.reqs c).map (fun r => r.id)
  nextId : s.nextId ≤ t.nextId
  reservations : t.reservations = s.reservations ∨ t.reservations = []
  sized : t.pool.slots.length = s.pool.slots.length
  memory : H → s.memoryWf = true → t.memoryWf = true
  law7 : s.link.law7 = true → t.link.law7 = true
  bounded : s.dm.bounded = true → t.dm.bounded = true
  placed : s.pool.placed = true → t.pool.placed = true
  quota : ∀ c, t.chargedCount c ≤ s.chargedCount c ∨ t.chargedCount c ≤ 16
  maps : MapKept s.dm t.dm
  works : s.worksOwned = true → t.worksOwned = true
  phase : P → s.policy.inRange = true → Phase s → Phase t

theorem keyIds (rs : List Request) :
    (rs.map Request.key).map (fun k => k.1) = rs.map (fun r => r.id) := by
  rw [List.map_map]
  rfl

theorem Inner.trans {H P : Prop} {s t u : State} (a : Inner H P s t) (b : Inner H P t u) : Inner H P s u where
  timebase := b.timebase.trans a.timebase
  pending := b.pending.trans a.pending
  policy := b.policy.trans a.policy
  ports c := (b.ports c).trans (a.ports c)
  keys c := (b.keys c).trans (a.keys c)
  transfers c x hx := by
    rcases b.transfers c x hx with ⟨y, hy, e⟩ | h
    · rw [← e]
      exact a.transfers c y hy
    · refine Or.inr ?_
      rw [← keyIds, ← a.keys c, keyIds]
      exact h
  nextId := Nat.le_trans a.nextId b.nextId
  reservations := by
    rcases b.reservations with h | h
    · rw [h]; exact a.reservations
    · exact Or.inr h
  sized := b.sized.trans a.sized
  memory h w := b.memory h (a.memory h w)
  law7 w := b.law7 (a.law7 w)
  bounded w := b.bounded (a.bounded w)
  placed w := b.placed (a.placed w)
  quota c := by
    have h1 := a.quota c
    have h2 := b.quota c
    omega
  maps := a.maps.trans b.maps
  works w := b.works (a.works w)
  phase p hp w := b.phase p (by rw [a.policy]; exact hp) (a.phase p hp w)

/-- An operation that leaves alone everything that `Inner` speaks of. -/
theorem Inner.of {H P : Prop} {s t : State} (h1 : t.timebase = s.timebase := by rfl)
    (h2 : t.pending = s.pending := by rfl) (h3 : t.policy = s.policy := by rfl)
    (h4 : t.ports = s.ports := by rfl) (h5 : t.requests = s.requests := by rfl)
    (h6 : t.nextId = s.nextId := by rfl) (h7 : t.reservations = s.reservations := by rfl)
    (h8 : t.pool = s.pool := by rfl) (h9 : t.link = s.link := by rfl)
    (h10 : t.dm = s.dm := by rfl) (h11 : t.engine = s.engine := by rfl)
    (h12 : t.ctl.state = s.ctl.state := by rfl)
    (h13 : t.ctl.recovering = s.ctl.recovering := by rfl)
    (h14 : s.works = [] → t.works = [] := by exact fun h => h)
    (h15 : t.sched.openRun = s.sched.openRun := by rfl)
    (h16 : s.worksOwned = true → t.worksOwned = true := by exact fun h => h) : Inner H P s t where
  timebase := h1
  pending := h2
  policy := h3
  ports c := by simp only [State.port, h4]
  keys c := by simp only [State.reqs, h5]
  transfers c x hx := by
    simp only [State.port, h4] at hx
    exact Or.inl ⟨x, hx, rfl⟩
  nextId := Nat.le_of_eq h6.symm
  reservations := Or.inl h7
  sized := by rw [h8]
  memory _ w := by simpa only [State.memoryWf, h8, h9, h10, h11] using w
  law7 w := by rwa [h9]
  bounded w := by rwa [h10]
  placed w := by rwa [h8]
  quota c := Or.inl (Nat.le_of_eq (chargedCount_rest (by rw [h8]) c))
  maps := by rw [h10]; exact MapKept.refl _
  works := h16
  phase _ _ w := w.keep h12 h13 h14 (by rw [h10]; exact id) h15 h11 (by rw [h9])

theorem Inner.refl (H P : Prop) (s : State) : Inner H P s s := Inner.of

/-- What `P` asks may be taken from `Phase` itself. -/
theorem Inner.weakenPhase {H P Q : Prop} {s t : State} (a : Inner H Q s t)
    (h : P → Phase s → Q) : Inner H P s t :=
  { a with phase := fun p hp w => a.phase (h p w) hp w }

/-- The condition on the data brought in may be taken from the state's own canonical form. -/
theorem Inner.weaken {H K P : Prop} {s t : State} (a : Inner H P s t)
    (h : K → s.memoryWf = true → H) : Inner K P s t :=
  { a with memory := fun k w => a.memory (h k w) w }

theorem Inner.ite {H P : Prop} {s t u : State} (c : Prop) [Decidable c] (a : Inner H P s t)
    (b : Inner H P s u) : Inner H P s (if c then t else u) := by
  split
  · exact a
  · exact b

theorem Inner.foldl {H P : Prop} {α : Type} (f : State → α → State)
    (h : ∀ s x, Inner H P s (f s x)) (xs : List α) (s : State) : Inner H P s (xs.foldl f s) := by
  induction xs generalizing s with
  | nil => exact Inner.refl H P s
  | cons x xs ih => exact (h s x).trans (ih (f s x))

/-- An operation on the pool alone. -/
theorem PoolOnly.inner {H P : Prop} {s t : State} (a : PoolOnly H s t) : Inner H P s t := by
  rw [a.rest]
  refine { Inner.refl H P s with
    sized := a.sized, memory := fun h w => ?_, placed := a.placed, quota := a.quota,
    phase := fun _ _ w => w.keep }
  simp only [State.memoryWf, Bool.and_eq_true] at w ⊢
  exact ⟨⟨⟨a.contents h w.1.1.1, w.1.1.2⟩, w.1.2⟩, w.2⟩

/-- A change of the Defect Manager alone: its lists may change as the map's form allows, and the map
becomes dirty outside EMPTY only. -/
theorem Inner.ofDmLists {H P : Prop} (s : State) (d : DefectManager)
    (hb : s.dm.bounded = true → d.bounded = true) (hs : d.staging = s.dm.staging)
    (hm : MapKept s.dm d)
    (hd : P → Phase s → s.ctl.state = .empty → d.dirty = true → s.dm.dirty = true) :
    Inner H P s { s with dm := d } :=
  { Inner.refl H P s with
    bounded := hb
    memory := fun _ w => by simpa only [State.memoryWf, hs] using w
    maps := hm
    phase := fun p _ w =>
      { w with
        emptied := fun e => ⟨(w.emptied e).1, by
          have h1 := (w.emptied e).2
          have h2 := hd p w e
          show d.dirty = false
          cases h : d.dirty with
          | false => rfl
          | true => rw [h2 h] at h1; exact h1⟩ } }

/-- A change of the Defect Manager alone that leaves the map's lists. -/
theorem Inner.ofDm {H P : Prop} (s : State) (d : DefectManager)
    (hb : s.dm.bounded = true → d.bounded = true) (hs : d.staging = s.dm.staging)
    (h1 : d.bands = s.dm.bands := by rfl) (h2 : d.slips = s.dm.slips := by rfl)
    (h3 : d.replacement = s.dm.replacement := by rfl)
    (hd : d.dirty = true → s.dm.dirty = true := by exact fun h => h) :
    Inner H P s { s with dm := d } :=
  Inner.ofDmLists s d hb hs (MapKept.of_lists h1 h2 h3) (fun _ _ _ => hd)

/-- The engine's record changed alone; an INDEX FETCH runs in MOUNTING. -/
theorem Inner.ofEngine {H P : Prop} (s : State) (e : Option Operation)
    (he : H → s.memoryWf = true → engineWf e = true)
    (hi : P → Phase s → ∀ op, e = some op → op.kind = .indexFetch → s.ctl.state = .mounting) :
    Inner H P s { s with engine := e } :=
  { Inner.refl H P s with
    memory := fun h w => by
      have := he h w
      simp only [State.memoryWf, Bool.and_eq_true] at w ⊢
      exact ⟨⟨⟨w.1.1.1, w.1.1.2⟩, this⟩, w.2⟩
    phase := fun p _ w => { w with index := hi p w } }

theorem engineNone_inner {H P : Prop} (s : State) : Inner H P s { s with engine := none } :=
  Inner.ofEngine s none (fun _ _ => rfl) (fun _ _ _ h => by cases h)

/-- The link's record changed alone; a command of the Cartridge Controller comes to be outstanding only
with no run open. -/
theorem Inner.ofLink {H P : Prop} (s : State) (l : Link)
    (h7 : s.link.law7 = true → l.law7 = true)
    (hm : H → s.link.receivedWf = true → l.receivedWf = true)
    (ho : P → Phase s → ∀ c, l.outstanding = some c → c.sender = .cartridgeController →
      s.sched.openRun = none := by exact fun _ w => w.sender) : Inner H P s { s with link := l } :=
  { Inner.refl H P s with
    law7 := h7
    phase := fun p _ w => { w with sender := ho p w }
    memory := fun h w => by
      simp only [State.memoryWf, Bool.and_eq_true] at w ⊢
      exact ⟨⟨⟨w.1.1.1, hm h w.1.1.2⟩, w.1.2⟩, w.2⟩ }

/-! ### The channels -/

@[simp] theorem PerChannel.get_set_same {α : Type} (p : PerChannel α) (c : Channel) (x : α) :
    (p.set c x).get c = x := by cases c <;> rfl

theorem PerChannel.get_set_other {α : Type} (p : PerChannel α) {c d : Channel} (x : α)
    (h : d ≠ c) : (p.set c x).get d = p.get d := by
  cases c <;> cases d <;> first | rfl | exact absurd rfl h

theorem PerChannel.get_set {α : Type} (p : PerChannel α) (c d : Channel) (x : α) :
    (p.set c x).get d = if d = c then x else p.get d := by
  cases c <;> cases d <;> rfl

theorem port_updPort (s : State) (c d : Channel) (f : Port → Port) :
    (s.updPort c f).port d = if d = c then f (s.port d) else s.port d := by
  simp only [State.port, State.updPort, PerChannel.modify, PerChannel.get_set]
  split <;> simp_all

theorem reqs_updReq (s : State) (c d : Channel) (id : Nat) (f : Request → Request) :
    (s.updReq c id f).reqs d =
      if d = c then (s.reqs d).map (fun r => if r.id == id then f r else r) else s.reqs d := by
  simp only [State.reqs, State.updReq, PerChannel.modify, PerChannel.get_set]
  split <;> simp_all

/-- A port's transfers and idle count changed alone. -/
theorem updPort_inner {H P : Prop} (s : State) (c : Channel) (f : Port → Port)
    (hf : ∀ p, (f p).frame = p.frame)
    (ht : ∀ x ∈ (f (s.port c)).transfers, (∃ y ∈ (s.port c).transfers, y.request = x.request) ∨
      x.request ∈ (s.reqs c).map (fun r => r.id)) : Inner H P s (s.updPort c f) :=
  { Inner.refl H P s with
    phase := fun _ _ w => w.keep
    transfers := fun d x hx => by
      rw [port_updPort] at hx
      split at hx
      · next h => subst h; exact ht x hx
      · exact Or.inl ⟨x, hx, rfl⟩
    ports := fun d => by
      rw [port_updPort]
      split
      · exact hf _
      · rfl }

theorem map_key_eq (rs : List Request) (id : Nat) (f : Request → Request)
    (hf : ∀ r, (f r).key = r.key) :
    (rs.map (fun r => if r.id == id then f r else r)).map Request.key = rs.map Request.key := by
  rw [List.map_map]
  apply List.map_congr_left
  intro r _
  simp only [Function.comp]
  split
  · exact hf r
  · rfl

/-- One request's record changed, but not its name. -/
theorem updReq_inner {H P : Prop} (s : State) (c : Channel) (id : Nat) (f : Request → Request)
    (hf : ∀ r, (f r).key = r.key) : Inner H P s (s.updReq c id f) :=
  { Inner.refl H P s with
    phase := fun _ _ w => w.keep
    keys := fun d => by
      rw [reqs_updReq]
      split
      · exact map_key_eq _ id f hf
      · rfl }

theorem dropTransfer_inner {H P : Prop} (s : State) (c : Channel) (id : Nat) :
    Inner H P s (s.dropTransfer c id) :=
  updPort_inner s c _ (fun _ => rfl)
    (fun x hx => Or.inl ⟨x, (List.mem_filter.mp hx).1, rfl⟩)

theorem joinTransfer_inner {H P : Prop} (s : State) (c : Channel) (t : Transfer)
    (ht : t.request ∈ (s.reqs c).map (fun r => r.id)) : Inner H P s (s.joinTransfer c t) := by
  refine updPort_inner s c _ (fun _ => rfl) (fun x hx => ?_)
  rcases List.mem_append.mp hx with h | h
  · exact Or.inl ⟨x, h, rfl⟩
  · rw [List.mem_singleton.mp h]
    exact Or.inr ht

theorem findReq_id {s : State} {c : Channel} {id : Nat} {r : Request}
    (h : s.findReq c id = some r) : id ∈ (s.reqs c).map (fun r => r.id) := by
  refine List.mem_map.mpr ⟨r, List.mem_of_find?_eq_some h, ?_⟩
  have := List.find?_some h
  simpa using this

/-- A change that keeps the requests' names keeps who is outstanding. -/
theorem ids_updReq (s : State) (c d : Channel) (id : Nat) (f : Request → Request)
    (hf : ∀ r, (f r).key = r.key) :
    ((s.updReq c id f).reqs d).map (fun r => r.id) = (s.reqs d).map (fun r => r.id) := by
  rw [← keyIds, ← keyIds]
  exact congrArg _ ((updReq_inner (H := True) (P := True) s c id f hf).keys d)

theorem settleReq_inner {H P : Prop} (s : State) (c : Channel) (id : Nat) (st : Status) :
    Inner H P s (s.settleReq c id st) := by
  refine Inner.trans (updReq_inner s c id _ ?_) (dropTransfer_inner _ c id)
  exact fun _ => rfl

theorem raise_inner {H P : Prop} (s : State) (n : Notice) : Inner H P s (s.raise n) := Inner.of

theorem worksOwned_iff (s : State) : s.worksOwned = true ↔ ∀ w ∈ s.works, w.id < s.nextId := by
  simp only [State.worksOwned, List.all_eq_true, decide_eq_true_eq]

/-- Write work changed, but not its number. -/
theorem updWork_inner {H P : Prop} (s : State) (id : Nat) (f : WriteWork → WriteWork)
    (hf : ∀ w, (f w).id = w.id := by exact fun _ => rfl) : Inner H P s (s.updWork id f) :=
  Inner.of (h14 := fun h => by simp only [State.updWork, h, List.map_nil])
    (h16 := fun h => by
      rw [worksOwned_iff] at h ⊢
      intro w hw
      obtain ⟨v, hv, rfl⟩ := List.mem_map.mp hw
      have := h v hv
      split
      · rw [hf]; exact this
      · exact this)

theorem dropWork_inner {H P : Prop} (s : State) (id : Nat) : Inner H P s (s.dropWork id) :=
  Inner.of (h14 := fun h => by simp only [State.dropWork, h, List.filter_nil])
    (h16 := fun h => by
      rw [worksOwned_iff] at h ⊢
      exact fun w hw => h w (List.mem_filter.mp hw).1)

theorem updWorkSector_inner {H P : Prop} (s : State) (id lsn : Nat) (f : WorkSector → WorkSector) :
    Inner H P s (s.updWorkSector id lsn f) := updWork_inner ..

/-- The Cartridge Controller's record changed, but not its state. -/
theorem updCtl_inner {H P : Prop} (s : State) (f : Controller → Controller)
    (h1 : (f s.ctl).state = s.ctl.state := by rfl)
    (h2 : (f s.ctl).recovering = s.ctl.recovering := by rfl) : Inner H P s (s.updCtl f) :=
  Inner.of (h12 := h1) (h13 := h2)

/-- The Cartridge Controller's record changed in any way that keeps `Phase`. -/
theorem setState_inner {H P : Prop} (s : State) (f : Controller → Controller)
    (h : P → Phase s → Phase (s.updCtl f)) : Inner H P s (s.updCtl f) :=
  { Inner.refl H P s with phase := fun p _ => h p }

/-- No write work stands, so the state may be EMPTY; else it is not. -/
theorem Phase.notEmpty {s : State} (h : Phase s) {w : WriteWork} (hw : w ∈ s.works) :
    s.ctl.state ≠ .empty := fun e => by
  rw [(h.emptied e).1] at hw
  cases hw

theorem leaveSlotWait_inner {H P : Prop} (s : State) (id : Nat) : Inner H P s (s.leaveSlotWait id) :=
  (leaveSlotWait_only s id).inner

theorem setReadAhead_inner {H P : Prop} (s : State) (c : Channel) (ra : Option ReadAhead) :
    Inner H P s (s.setReadAhead c ra) := Inner.of

theorem cancelReadAhead_inner {H P : Prop} (s : State) (c : Channel) :
    Inner H P s (s.cancelReadAhead c) := Inner.of

theorem cancelReadAheads_inner {H P : Prop} (s : State) : Inner H P s s.cancelReadAheads := Inner.of

/-- The engine FREE and no run open (R104, R105). -/
theorem loseOperation_inner {H P : Prop} (s : State) : Inner H P s s.loseOperation :=
  (engineNone_inner s).trans
    { Inner.refl H P _ with
      phase := fun _ _ w =>
        { w with
          openIn := fun _ e => by cases e
          sender := fun _ _ _ => rfl } }

theorem forRequests_inner {H P : Prop} (s : State) (f : State → Channel → Request → State)
    (hf : ∀ s c r, Inner H P s (f s c r)) : Inner H P s (s.forRequests f) :=
  (Inner.foldl _ (fun s r => hf s .A r) _ s).trans (Inner.foldl _ (fun s r => hf s .B r) _ _)

/-! ### Reads (R63–R67, R117, R157) -/

theorem serveRead_inner {H P : Prop} (s : State) (c : Channel) (id : Nat) :
    Inner H P s (s.serveRead c id).1 := by
  unfold State.serveRead
  dsimp only
  split
  · exact leaveSlotWait_inner s id
  · next r _ =>
    have h1 : Inner H P s (s.bindSectors c id r.lsn r.sectors).2.1 :=
      (bindSectors_only c id r.sectors s r.lsn).inner
    have h2 := h1.trans (updReq_inner (H := H) (P := P) _ c id
      (fun x => { x with sectors := (s.bindSectors c id r.lsn r.sectors).1 }) (fun _ => rfl))
    split
    · exact h2.trans (leaveSlotWait_inner _ id)
    · exact h2.trans (joinSlotWait_only _ id).inner

theorem failSector_inner {H P : Prop} (s : State) (c : Channel) (id lsn : Nat) (st : Status) :
    Inner H P s (s.failSector c id lsn st) := by
  unfold State.failSector
  split
  · exact Inner.refl H P s
  · dsimp only
    refine Inner.trans (Inner.trans (updReq_inner s c id _ ?_) (releaseBindings_only _ _ _).inner)
      (leaveSlotWait_inner _ id)
    exact fun _ => rfl

theorem recordLoad_inner {H P : Prop} (s : State) (c : Channel) (id lsn load : Nat) :
    Inner H P s (s.recordLoad c id lsn load) :=
  updReq_inner s c id _ (fun _ => rfl)

theorem endRead_inner {H P : Prop} (s : State) (c : Channel) (id : Nat) (st : Status) (short : Bool)
    (ff : Option Nat) : Inner H P s (s.endRead c id st short ff) := by
  unfold State.endRead
  split
  · exact Inner.refl H P s
  · refine Inner.trans (Inner.trans (Inner.trans (updReq_inner s c id _ ?_)
      (settleReq_inner _ c id st)) (releaseBindings_only _ _ _).inner) (leaveSlotWait_inner _ id)
    exact fun _ => rfl

theorem cutRead_inner {H P : Prop} (s : State) (c : Channel) (id : Nat) (st : Status) :
    Inner H P s (s.cutRead c id st) := by
  unfold State.cutRead
  split
  · exact Inner.refl H P s
  · exact endRead_inner ..

theorem takeSector_inner {H P : Prop} (s : State) (c : Channel) (id k : Nat) :
    Inner H P s (s.takeSector c id k) := by
  unfold State.takeSector
  split
  · exact Inner.refl H P s
  · dsimp only
    refine Inner.trans ?_ (Inner.ite _ (endRead_inner ..) (Inner.refl H P _))
    split
    · refine Inner.trans (updReq_inner s c id _ ?_) (releaseBinding_only _ _ _ _).inner
      exact fun _ => rfl
    · refine updReq_inner s c id _ ?_
      exact fun _ => rfl

theorem settleRead_inner {H P : Prop} (s : State) (c : Channel) (id : Nat) :
    Inner H P s (s.settleRead c id) := by
  unfold State.settleRead
  split
  · exact Inner.refl H P s
  · next r hr =>
    split
    · split
      · exact endRead_inner ..
      · split
        · exact Inner.refl H P s
        · split
          · refine Inner.trans (updReq_inner s c id _ ?_) (joinTransfer_inner _ c _ ?_)
            · exact fun _ => rfl
            · rw [ids_updReq]
              · exact findReq_id hr
              · exact fun _ => rfl
          · refine updReq_inner s c id _ ?_
            exact fun _ => rfl
    · exact Inner.refl H P s

theorem settleReads_inner {H P : Prop} (s : State) : Inner H P s s.settleReads :=
  (Inner.foldl _ (fun s id => settleRead_inner s .A id) _ s).trans
    (Inner.foldl _ (fun s id => settleRead_inner s .B id) _ _)

theorem readAheadMoment_inner {H P : Prop} (s : State) (c : Channel) (id : Nat) :
    Inner H P s (s.readAheadMoment c id) := by
  unfold State.readAheadMoment
  split
  · exact Inner.refl H P s
  · split
    · refine Inner.trans (setReadAhead_inner s c _) (updReq_inner _ c id _ ?_)
      exact fun _ => rfl
    · exact Inner.refl H P s

theorem readAheadMoments_inner {H P : Prop} (s : State) : Inner H P s s.readAheadMoments :=
  (Inner.foldl _ (fun s id => readAheadMoment_inner s .A id) _ s).trans
    (Inner.foldl _ (fun s id => readAheadMoment_inner s .B id) _ _)

end Sys2Proof.Machine
end

