-- ==== Sys2Proof/Laws/MapForm.lean ====
section
/-! SUPPORT. What a reassignment and a VALID verdict do to the replacement list: its order and law 8 hold
after them (R10, R16, R38–R40). -/

set_option Elab.async false

namespace Sys2Proof.Machine

/-! ### Lists without repeats, and ordered lists -/

theorem distinct_iff {α : Type} [DecidableEq α] (xs : List α) : distinct xs = true ↔ xs.Nodup := by
  induction xs with
  | nil => simp [distinct]
  | cons x xs ih => simp only [distinct, Bool.and_eq_true, decide_eq_true_eq, ih, List.nodup_cons]

theorem ascending_iff {α : Type} {lt : α → α → Bool}
    (htrans : ∀ x y z, lt x y = true → lt y z = true → lt x z = true) (xs : List α) :
    ascending lt xs = true ↔ xs.Pairwise (fun x y => lt x y = true) := by
  induction xs with
  | nil => simp [ascending]
  | cons x xs ih =>
    cases xs with
    | nil => simp [ascending]
    | cons y ys =>
      simp only [ascending, Bool.and_eq_true, ih, List.pairwise_cons]
      constructor
      · rintro ⟨h, hy, hp⟩
        refine ⟨?_, hy, hp⟩
        intro z hz
        rcases List.mem_cons.mp hz with rfl | hz
        · exact h
        · exact htrans x y z h (hy z hz)
      · rintro ⟨hx, hy, hp⟩
        exact ⟨hx y (List.mem_cons_self ..), hy, hp⟩

theorem keyLt_iff (x y : Nat × Nat × Nat) : keyLt x y = true ↔
    x.1 < y.1 ∨ (x.1 = y.1 ∧ (x.2.1 < y.2.1 ∨ (x.2.1 = y.2.1 ∧ x.2.2 < y.2.2))) := by
  simp only [keyLt, Bool.or_eq_true, Bool.and_eq_true, decide_eq_true_eq, beq_iff_eq]

theorem keyLt_trans (x y z : Nat × Nat × Nat) (h1 : keyLt x y = true) (h2 : keyLt y z = true) :
    keyLt x z = true := by
  rw [keyLt_iff] at *
  omega

theorem keyLt_irrefl (x : Nat × Nat × Nat) : keyLt x x = false := by
  cases h : keyLt x x with
  | false => rfl
  | true =>
    rw [keyLt_iff] at h
    omega

theorem keyLt_total (x y : Nat × Nat × Nat) (h : keyLt x y = false) (hne : x ≠ y) :
    keyLt y x = true := by
  have h1 : ¬ keyLt x y = true := by rw [h]; decide
  rw [keyLt_iff] at *
  have : ¬ (x.1 = y.1 ∧ x.2.1 = y.2.1 ∧ x.2.2 = y.2.2) := fun ⟨a, b, c⟩ =>
    hne (Prod.ext a (Prod.ext b c))
  omega

theorem order_iff (es : List MapEntry) :
    ascending (fun x y : MapEntry => keyLt x.key y.key) es = true ↔
      es.Pairwise (fun x y => keyLt x.key y.key = true) :=
  ascending_iff (fun x y z => keyLt_trans x.key y.key z.key) es

theorem mem_insertEntry (e x : MapEntry) (es : List MapEntry) :
    x ∈ insertEntry e es ↔ x = e ∨ x ∈ es := by
  induction es with
  | nil => simp [insertEntry]
  | cons y ys ih =>
    unfold insertEntry
    split
    · simp
    · simp only [List.mem_cons, ih]
      constructor
      · rintro (h | h | h)
        · exact Or.inr (Or.inl h)
        · exact Or.inl h
        · exact Or.inr (Or.inr h)
      · rintro (h | h | h)
        · exact Or.inr (Or.inl h)
        · exact Or.inl h
        · exact Or.inr (Or.inr h)

theorem insertEntry_perm (e : MapEntry) (es : List MapEntry) : (insertEntry e es).Perm (e :: es) := by
  induction es with
  | nil => exact List.Perm.refl _
  | cons y ys ih =>
    unfold insertEntry
    split
    · exact List.Perm.refl _
    · exact (ih.cons y).trans (List.Perm.swap e y ys)

/-- An entry with a new key keeps the order (R38). -/
theorem insertEntry_order {e : MapEntry} {es : List MapEntry} (hn : ∀ x ∈ es, x.key ≠ e.key)
    (h : es.Pairwise (fun x y => keyLt x.key y.key = true)) :
    (insertEntry e es).Pairwise (fun x y => keyLt x.key y.key = true) := by
  induction es with
  | nil => simp [insertEntry]
  | cons y ys ih =>
    rw [List.pairwise_cons] at h
    unfold insertEntry
    split
    · next hlt =>
      refine List.pairwise_cons.mpr ⟨fun z hz => ?_, List.pairwise_cons.mpr h⟩
      rcases List.mem_cons.mp hz with rfl | hz
      · exact hlt
      · exact keyLt_trans _ _ _ hlt (h.1 z hz)
    · next hlt =>
      refine List.pairwise_cons.mpr ⟨fun z hz => ?_,
        ih (fun x hx => hn x (List.mem_cons_of_mem _ hx)) h.2⟩
      rcases (mem_insertEntry e z ys).mp hz with rfl | hz
      · refine keyLt_total _ _ (by simpa using hlt) ?_
        exact fun he => hn y (List.mem_cons_self ..) he.symm
      · exact h.1 z hz

/-! ### Retargeting -/

theorem retarget_key (b p s : Nat) (es : List MapEntry) :
    (retarget b p s es).map MapEntry.key = es.map MapEntry.key := by
  unfold retarget
  rw [List.map_map]
  refine List.map_congr_left (fun e _ => ?_)
  cases e with
  | moved b' p' s' =>
    simp only [Function.comp]
    split <;> rfl
  | retired b' s' => rfl

theorem order_keys {es fs : List MapEntry} (h : es.map MapEntry.key = fs.map MapEntry.key)
    (w : fs.Pairwise (fun x y => keyLt x.key y.key = true)) :
    es.Pairwise (fun x y => keyLt x.key y.key = true) := by
  have := List.pairwise_map (f := MapEntry.key) (R := fun x y => keyLt x y = true) (l := es)
  rw [← this, h, List.pairwise_map]
  exact w

/-- The MOVED targets of band b in a list of entries. -/
def targetsIn (b : Nat) (es : List MapEntry) : List Nat :=
  es.filterMap (fun e =>
    match e with
    | .moved b' _ s => if b' == b then some s else none
    | .retired _ _ => none)

/-- The RETIRED spares of band b in a list of entries. -/
def retiredIn (b : Nat) (es : List MapEntry) : List Nat :=
  es.filterMap (fun e =>
    match e with
    | .moved _ _ _ => none
    | .retired b' s => if b' == b then some s else none)

theorem mem_targetsIn (b s : Nat) (es : List MapEntry) :
    s ∈ targetsIn b es ↔ ∃ p, MapEntry.moved b p s ∈ es := by
  simp only [targetsIn, List.mem_filterMap]
  constructor
  · rintro ⟨e, he, h⟩
    cases e with
    | moved b' p' s' =>
      simp only [beq_iff_eq] at h
      split at h
      · next hb => cases h; subst hb; exact ⟨p', he⟩
      · cases h
    | retired b' s' => cases h
  · rintro ⟨p, hp⟩
    exact ⟨_, hp, by simp⟩

theorem mem_retiredIn (b s : Nat) (es : List MapEntry) :
    s ∈ retiredIn b es ↔ MapEntry.retired b s ∈ es := by
  simp only [retiredIn, List.mem_filterMap]
  constructor
  · rintro ⟨e, he, h⟩
    cases e with
    | moved b' p' s' => cases h
    | retired b' s' =>
      simp only [beq_iff_eq] at h
      split at h
      · next hb => cases h; subst hb; exact he
      · cases h
  · exact fun h => ⟨_, h, by simp⟩

theorem retarget_of_none {b p s : Nat} {es : List MapEntry}
    (h : ∀ t, MapEntry.moved b p t ∉ es) : retarget b p s es = es := by
  unfold retarget
  conv => rhs; rw [← List.map_id es]
  refine List.map_congr_left (fun e he => ?_)
  cases e with
  | moved b' p' s' =>
    dsimp only [id]
    split
    · next hc =>
      simp only [Bool.and_eq_true, beq_iff_eq] at hc
      obtain ⟨rfl, rfl⟩ := hc
      exact absurd he (h s')
    · rfl
  | retired b' s' => rfl

/-- The one MOVED entry for a position splits the list. -/
theorem moved_split {b p old : Nat} {es : List MapEntry} (hm : MapEntry.moved b p old ∈ es)
    (ho : es.Pairwise (fun x y => keyLt x.key y.key = true)) :
    ∃ xs ys, es = xs ++ MapEntry.moved b p old :: ys ∧ (∀ t, MapEntry.moved b p t ∉ xs) ∧
      ∀ t, MapEntry.moved b p t ∉ ys := by
  obtain ⟨xs, ys, rfl⟩ := List.append_of_mem hm
  rw [List.pairwise_append, List.pairwise_cons] at ho
  refine ⟨xs, ys, rfl, fun t ht => ?_, fun t ht => ?_⟩
  · have := ho.2.2 _ ht _ (List.mem_cons_self ..)
    rw [show (MapEntry.moved b p t).key = (MapEntry.moved b p old).key from rfl,
      keyLt_irrefl] at this
    cases this
  · have := ho.2.1.1 _ ht
    rw [show (MapEntry.moved b p t).key = (MapEntry.moved b p old).key from rfl,
      keyLt_irrefl] at this
    cases this

theorem retarget_split {b p old new : Nat} {xs ys : List MapEntry}
    (h1 : ∀ t, MapEntry.moved b p t ∉ xs) (h2 : ∀ t, MapEntry.moved b p t ∉ ys) :
    retarget b p new (xs ++ MapEntry.moved b p old :: ys) = xs ++ MapEntry.moved b p new :: ys := by
  have e1 := retarget_of_none (s := new) h1
  have e2 := retarget_of_none (s := new) h2
  unfold retarget at *
  rw [List.map_append, List.map_cons, e1, e2]
  simp

/-- The spares in use after a reassignment: the new one beside those in use before (R39, R40). -/
theorem reassignList_perm {h : Home} {new : Nat} {es : List MapEntry}
    (ho : es.Pairwise (fun x y => keyLt x.key y.key = true))
    (hs : ∀ old, h.spare = some old → MapEntry.moved h.band h.pos old ∈ es) (b : Nat) :
    (targetsIn b (reassignList h new es) ++ retiredIn b (reassignList h new es)).Perm
      (if h.band = b then new :: (targetsIn b es ++ retiredIn b es)
        else targetsIn b es ++ retiredIn b es) := by
  unfold reassignList
  split
  · have hp := insertEntry_perm (.moved h.band h.pos new) es
    have p1 : (targetsIn b (insertEntry (.moved h.band h.pos new) es)).Perm
        (targetsIn b (.moved h.band h.pos new :: es)) := hp.filterMap _
    have p2 : (retiredIn b (insertEntry (.moved h.band h.pos new) es)).Perm
        (retiredIn b (.moved h.band h.pos new :: es)) := hp.filterMap _
    refine (p1.append p2).trans ?_
    by_cases hb : h.band = b <;> simp [targetsIn, retiredIn, hb]
  · next old hold =>
    obtain ⟨xs, ys, rfl, hx, hy⟩ := moved_split (hs old hold) ho
    rw [retarget_split hx hy]
    have hp := insertEntry_perm (.retired h.band old) (xs ++ .moved h.band h.pos new :: ys)
    have p1 : (targetsIn b (insertEntry (.retired h.band old)
        (xs ++ .moved h.band h.pos new :: ys))).Perm
          (targetsIn b (.retired h.band old :: (xs ++ .moved h.band h.pos new :: ys))) :=
      hp.filterMap _
    have p2 : (retiredIn b (insertEntry (.retired h.band old)
        (xs ++ .moved h.band h.pos new :: ys))).Perm
          (retiredIn b (.retired h.band old :: (xs ++ .moved h.band h.pos new :: ys))) :=
      hp.filterMap _
    refine (p1.append p2).trans ?_
    by_cases hb : h.band = b
    · subst hb
      simp only [targetsIn, retiredIn, List.filterMap_cons, List.filterMap_append, beq_self_eq_true,
        if_true]
      generalize List.filterMap _ xs = a1
      generalize List.filterMap _ ys = a2
      generalize List.filterMap _ xs = c1
      generalize List.filterMap _ ys = c2
      rw [List.perm_iff_count]
      intro z
      simp only [List.count_append, List.count_cons]
      omega
    · simp [targetsIn, retiredIn, hb]

/-! ### The map's form -/

theorem law8_iff (d : DefectManager) : d.law8 = true ↔ ∀ b < d.bands.length,
    (targetsIn b d.replacement ++ retiredIn b d.replacement).Nodup ∧
      ∀ s ∈ targetsIn b d.replacement, (b, (d.band b).dataPositions + s) ∉ d.slips := by
  simp only [DefectManager.law8, DefectManager.law8Band, List.all_eq_true, List.mem_range,
    Bool.and_eq_true, distinct_iff]
  refine forall_congr' (fun b => forall_congr' (fun _ => and_congr Iff.rfl ?_))
  refine forall_congr' (fun s => forall_congr' (fun _ => ?_))
  simp only [DefectManager.slipsOf, Bool.not_eq_true', List.contains_eq_mem, decide_eq_false_iff_not,
    List.mem_map, List.mem_filter, beq_iff_eq]
  refine not_congr ⟨?_, fun h => ⟨_, ⟨h, rfl⟩, rfl⟩⟩
  rintro ⟨x, ⟨hm, h1⟩, h2⟩
  rw [← h2]
  subst h1
  exact hm

theorem mapForm_iff (d : DefectManager) : d.mapForm = true ↔
    d.law8 = true ∧ d.replacement.Pairwise (fun x y => keyLt x.key y.key = true) := by
  simp only [DefectManager.mapForm, Bool.and_eq_true, order_iff]

theorem mapForm_nil {d : DefectManager} (h : d.replacement = []) : d.mapForm = true := by
  rw [mapForm_iff, law8_iff, h]
  exact ⟨fun b _ => ⟨List.nodup_nil, fun s hs => by cases hs⟩, List.Pairwise.nil⟩

theorem chooseBandFrom_lt {caps : List Nat} {b o : Nat} {x : Nat × Nat}
    (h : chooseBandFrom caps b o = some x) : x.1 < b + caps.length := by
  induction caps generalizing b o with
  | nil => cases h
  | cons c cs ih =>
    unfold chooseBandFrom at h
    split at h
    · cases h
      simp only [List.length_cons]
      omega
    · have := ih h
      simp only [List.length_cons]
      omega

theorem home_band_lt {d : DefectManager} {lsn : Nat} {h : Home} (e : d.home lsn = some h) :
    h.band < d.bands.length := by
  simp only [DefectManager.home, Option.map_eq_some_iff] at e
  obtain ⟨bo, hbo, rfl⟩ := e
  have := chooseBandFrom_lt hbo
  simpa [DefectManager.bandCapacities] using this

theorem movedTo_some {d : DefectManager} {b p s : Nat} (h : d.movedTo b p = some s) :
    MapEntry.moved b p s ∈ d.replacement := by
  simp only [DefectManager.movedTo] at h
  obtain ⟨e, he, hf⟩ := List.exists_of_findSome?_eq_some h
  cases e with
  | moved b' p' s' =>
    simp only at hf
    split at hf
    · next hc =>
      simp only [Bool.and_eq_true, beq_iff_eq] at hc
      cases hf
      obtain ⟨rfl, rfl⟩ := hc
      exact he
    · cases hf
  | retired b' s' => cases hf

theorem movedTo_none {d : DefectManager} {b p : Nat} (h : d.movedTo b p = none) (s : Nat) :
    MapEntry.moved b p s ∉ d.replacement := by
  intro hm
  simp only [DefectManager.movedTo, List.findSome?_eq_none_iff] at h
  have := h _ hm
  simp at this

theorem home_spare {d : DefectManager} {lsn : Nat} {h : Home} (e : d.home lsn = some h) :
    h.spare = d.movedTo h.band h.pos := by
  simp only [DefectManager.home, Option.map_eq_some_iff] at e
  obtain ⟨bo, _, rfl⟩ := e
  rfl

/-- The list after a reassignment stands as it should (R38–R40). -/
theorem reassignList_form {d : DefectManager} {h : Home} {new : Nat}
    (hb : h.band < d.bands.length) (hsp : h.spare = d.movedTo h.band h.pos)
    (hf : d.spareFree h.band new = true) (w : d.mapForm = true) (e : DefectManager)
    (e1 : e.bands = d.bands) (e2 : e.slips = d.slips)
    (e3 : e.replacement = reassignList h new d.replacement) : e.mapForm = true := by
  rw [mapForm_iff, law8_iff] at w ⊢
  obtain ⟨w8, wo⟩ := w
  have hs : ∀ old, h.spare = some old → MapEntry.moved h.band h.pos old ∈ d.replacement :=
    fun old ho => movedTo_some (hsp ▸ ho)
  simp only [DefectManager.spareFree, Bool.and_eq_true, Bool.not_eq_true', List.contains_eq_mem,
    decide_eq_false_iff_not] at hf
  obtain ⟨⟨f1, f2⟩, f3⟩ := hf
  have f2' : new ∉ targetsIn h.band d.replacement := f2
  have f3' : new ∉ retiredIn h.band d.replacement := f3
  have f1' : (h.band, (d.band h.band).dataPositions + new) ∉ d.slips := by
    intro hm
    refine f1 (List.mem_map.mpr ⟨_, List.mem_filter.mpr ⟨hm, ?_⟩, rfl⟩)
    exact beq_self_eq_true _
  have hband : ∀ b, e.band b = d.band b := fun b => by simp only [DefectManager.band, e1]
  have perm := fun b => reassignList_perm (new := new) wo hs b
  rw [e1, e2, e3]
  simp only [hband]
  refine ⟨fun b hlt => ⟨?_, fun s hsm hslip => ?_⟩, ?_⟩
  · rw [(perm b).nodup_iff]
    split
    · next hbb =>
      subst hbb
      refine List.nodup_cons.mpr ⟨?_, (w8 _ hlt).1⟩
      rw [List.mem_append]
      exact fun hm => hm.elim f2' f3'
    · exact (w8 b hlt).1
  · -- every MOVED target after is the new spare or one from before
    have hmem : s ∈ targetsIn b d.replacement ∨ (h.band = b ∧ s = new) := by
      rw [mem_targetsIn] at hsm
      obtain ⟨p, hp⟩ := hsm
      unfold reassignList at hp
      split at hp
      · rcases (mem_insertEntry _ _ _).mp hp with he | he
        · cases he; exact Or.inr ⟨rfl, rfl⟩
        · exact Or.inl ((mem_targetsIn ..).mpr ⟨p, he⟩)
      · next old hold =>
        rcases (mem_insertEntry _ _ _).mp hp with he | he
        · cases he
        · obtain ⟨xs, ys, hes, hx, hy⟩ := moved_split (hs old hold) wo
          rw [hes, retarget_split hx hy, List.mem_append, List.mem_cons] at he
          rcases he with he | he | he
          · refine Or.inl ((mem_targetsIn ..).mpr ⟨p, ?_⟩)
            rw [hes]
            exact List.mem_append.mpr (Or.inl he)
          · cases he; exact Or.inr ⟨rfl, rfl⟩
          · refine Or.inl ((mem_targetsIn ..).mpr ⟨p, ?_⟩)
            rw [hes]
            exact List.mem_append.mpr (Or.inr (List.mem_cons_of_mem _ he))
    rcases hmem with hm | ⟨rfl, rfl⟩
    · exact (w8 b hlt).2 s hm hslip
    · exact f1' hslip
  · unfold reassignList
    split
    · next hnone =>
      refine insertEntry_order (fun x hx hk => ?_) wo
      cases x with
      | moved b' p' s' =>
        cases hk
        exact movedTo_none (hsp ▸ hnone) s' hx
      | retired b' s' =>
        have : (1 : Nat) = 0 := congrArg (fun k : Nat × Nat × Nat => k.2.1) hk
        cases this
    · next old hold =>
      refine insertEntry_order (fun x hx hk => ?_) (order_keys (retarget_key ..) wo)
      have hkey : x.key ∈ d.replacement.map MapEntry.key := by
        rw [← retarget_key h.band h.pos new]
        exact List.mem_map.mpr ⟨x, hx, rfl⟩
      rw [hk] at hkey
      obtain ⟨y, hy, hyk⟩ := List.mem_map.mp hkey
      cases y with
      | moved b' p' s' =>
        have : (0 : Nat) = 1 := congrArg (fun k : Nat × Nat × Nat => k.2.1) hyk
        cases this
      | retired b' s' =>
        cases hyk
        have hn := (w8 h.band hb).1
        rw [List.nodup_append] at hn
        exact hn.2.2 old ((mem_targetsIn ..).mpr ⟨_, hs old hold⟩) old
          ((mem_retiredIn ..).mpr hy) rfl

/-- A reassignment that is carried out keeps the map's form (R38–R42). -/
theorem reassign_form {d e : DefectManager} {lsn : Nat} {place : Place} {n : Nat}
    (h : d.reassign lsn place n = .done e) (w : d.mapForm = true) : e.mapForm = true := by
  unfold DefectManager.reassign at h
  split at h
  · cases h
  · next hm hhome =>
    split at h
    · cases h
    · split at h
      · cases h
      · next new hnew =>
        split at h
        · cases h
        · cases h
          exact reassignList_form (home_band_lt hhome) (home_spare hhome)
            (List.find?_some (p := fun s => d.spareFree hm.band s) hnew) w _ rfl rfl rfl

/-! ### The verdict on track 1 (R16) -/

theorem noRepeats_iff (xs : List (Nat × Nat)) : noRepeats xs = true ↔ xs.Nodup := by
  induction xs with
  | nil => simp [noRepeats]
  | cons x xs ih =>
    simp only [noRepeats, Bool.and_eq_true, Bool.not_eq_true', List.contains_eq_mem,
      decide_eq_false_iff_not, ih, List.nodup_cons]

theorem spares_nodup (es : List MapEntry) (h : (es.map MapEntry.spareUsed).Nodup) (b : Nat) :
    (targetsIn b es ++ retiredIn b es).Nodup := by
  induction es with
  | nil => exact List.nodup_nil
  | cons e es ih =>
    rw [List.map_cons, List.nodup_cons] at h
    have ih := ih h.2
    have key : ∀ s, e.spareUsed = (b, s) → s ∉ targetsIn b es ∧ s ∉ retiredIn b es := by
      intro s hs
      constructor
      · rw [mem_targetsIn]
        rintro ⟨p, hp⟩
        exact h.1 (List.mem_map.mpr ⟨_, hp, hs.symm⟩)
      · rw [mem_retiredIn]
        exact fun hp => h.1 (List.mem_map.mpr ⟨_, hp, hs.symm⟩)
    cases e with
    | moved b' p s =>
      by_cases hb : b' = b
      · subst hb
        have := key s rfl
        have e1 : targetsIn b' (.moved b' p s :: es) = s :: targetsIn b' es := by
          simp [targetsIn]
        have e2 : retiredIn b' (.moved b' p s :: es) = retiredIn b' es := by
          simp [retiredIn]
        rw [e1, e2, List.cons_append, List.nodup_cons, List.mem_append]
        exact ⟨fun hm => hm.elim this.1 this.2, ih⟩
      · have e1 : targetsIn b (.moved b' p s :: es) = targetsIn b es := by simp [targetsIn, hb]
        have e2 : retiredIn b (.moved b' p s :: es) = retiredIn b es := by simp [retiredIn]
        rw [e1, e2]
        exact ih
    | retired b' s =>
      by_cases hb : b' = b
      · subst hb
        have := key s rfl
        have e1 : targetsIn b' (.retired b' s :: es) = targetsIn b' es := by simp [targetsIn]
        have e2 : retiredIn b' (.retired b' s :: es) = s :: retiredIn b' es := by simp [retiredIn]
        rw [e1, e2, List.perm_middle.nodup_iff, List.nodup_cons, List.mem_append]
        exact ⟨fun hm => hm.elim this.1 this.2, ih⟩
      · have e1 : targetsIn b (.retired b' s :: es) = targetsIn b es := by simp [targetsIn]
        have e2 : retiredIn b (.retired b' s :: es) = retiredIn b es := by simp [retiredIn, hb]
        rw [e1, e2]
        exact ih

/-- A list that R16 finds valid stands as it should over the bands and slips it was tested with. -/
theorem listValid_form {d : DefectManager} {es : List MapEntry} (h : d.listValid es = true)
    (e : DefectManager) (e1 : e.bands = d.bands) (e2 : e.slips = d.slips)
    (e3 : e.replacement = es) : e.mapForm = true := by
  simp only [DefectManager.listValid, Bool.and_eq_true, List.all_eq_true, noRepeats_iff] at h
  obtain ⟨⟨hv, ho⟩, hn⟩ := h
  rw [mapForm_iff, law8_iff, e3, e1, e2]
  refine ⟨fun b hb => ⟨spares_nodup es hn b, fun s hs hslip => ?_⟩, (order_iff es).mp ho⟩
  obtain ⟨p, hp⟩ := (mem_targetsIn ..).mp hs
  have := hv _ hp
  simp only [DefectManager.entryValid, Bool.and_eq_true, Bool.not_eq_true', List.contains_eq_mem,
    decide_eq_false_iff_not] at this
  refine this.2 (List.mem_map.mpr ⟨_, List.mem_filter.mpr ⟨hslip, beq_self_eq_true _⟩, ?_⟩)
  show (e.band b).dataPositions + s = (d.band b).dataPositions + s
  simp only [DefectManager.band, e1]

theorem track1Verdict_valid {d : DefectManager} {outs : List DecoderOutcome}
    {v : BitVec 32 × List MapEntry} (h : d.track1Verdict outs = some v) :
    d.listValid v.2 = true := by
  unfold DefectManager.track1Verdict at h
  dsimp only at h
  split at h
  · cases h
  · split at h
    · split at h
      · cases h
      · split at h
        · next hv => cases h; exact hv
        · cases h
    · cases h

end Sys2Proof.Machine
end

