-- ==== Sys2Proof/Laws/MapSound.lean ====
section
/-! SUPPORT. What keeps the map sound: the slip walk's end, a reassignment, a VALID track 0 and a VALID
track 1 (R12, R13, R16, R24, R38–R40). -/

set_option Elab.async false

namespace Sys2Proof.Machine

/-! ### The slip walk (R20, R24) -/

theorem slipWalk_le (es : List Nat) (p : Nat) : p ≤ slipWalk es p ∧ slipWalk es p ≤ p + es.length := by
  induction es generalizing p with
  | nil => exact ⟨Nat.le_refl _, Nat.le_refl _⟩
  | cons e es ih =>
    unfold slipWalk
    have := ih (p + 1)
    rw [List.length_cons]
    split <;> omega

theorem slipWalk_not_mem {es : List Nat} (h : es.Pairwise (· < ·)) (p : Nat) : slipWalk es p ∉ es := by
  induction es generalizing p with
  | nil => exact fun hm => by cases hm
  | cons e es ih =>
    rw [List.pairwise_cons] at h
    unfold slipWalk
    split
    · next hle =>
      intro hm
      rcases List.mem_cons.mp hm with he | hm
      · have := (slipWalk_le es (p + 1)).1
        omega
      · exact ih h.2 _ hm
    · next hlt =>
      intro hm
      rcases List.mem_cons.mp hm with he | hm
      · omega
      · have := h.1 _ hm
        omega

theorem slipLt_iff (x y : Nat × Nat) : slipLt x y = true ↔ x.1 < y.1 ∨ (x.1 = y.1 ∧ x.2 < y.2) := by
  simp only [slipLt, Bool.or_eq_true, Bool.and_eq_true, decide_eq_true_eq, beq_iff_eq]

theorem dataSlips_ascend {d : DefectManager} (h : ascending slipLt d.slips = true) (b : Nat) :
    (d.dataSlips b).Pairwise (· < ·) := by
  rw [ascending_iff (fun x y z => by simp only [slipLt_iff]; omega)] at h
  refine List.Pairwise.filter _ (List.pairwise_map.mpr ?_)
  refine List.Pairwise.imp_of_mem (fun {x y} hx hy hlt => ?_) (h.filter _)
  have h1 := (List.mem_filter.mp hx).2
  have h2 := (List.mem_filter.mp hy).2
  rw [beq_iff_eq] at h1 h2
  rw [slipLt_iff] at hlt
  omega

theorem chooseBandFrom_cap {caps : List Nat} {b o : Nat} {x : Nat × Nat}
    (h : chooseBandFrom caps b o = some x) : ∃ i, x.1 = b + i ∧ ∃ n, caps[i]? = some n ∧ x.2 < n := by
  induction caps generalizing b o with
  | nil => cases h
  | cons c cs ih =>
    unfold chooseBandFrom at h
    split at h
    · next hlt =>
      cases h
      exact ⟨0, rfl, c, rfl, hlt⟩
    · obtain ⟨i, h1, n, h2, h3⟩ := ih h
      exact ⟨i + 1, by omega, n, h2, h3⟩

/-- The position of an LSN is a data position of its band that is not slipped (R20, R23, R24). -/
theorem home_pos {d : DefectManager} {lsn : Nat} {h : Home} (e : d.home lsn = some h)
    (ha : ascending slipLt d.slips = true) :
    h.pos < (d.band h.band).dataPositions ∧ h.pos ∉ d.slipsOf h.band := by
  simp only [DefectManager.home, Option.map_eq_some_iff] at e
  obtain ⟨bo, hbo, rfl⟩ := e
  obtain ⟨i, h1, n, h2, h3⟩ := chooseBandFrom_cap hbo
  rw [Nat.zero_add] at h1
  simp only [DefectManager.bandCapacities, List.getElem?_map, Option.map_eq_some_iff] at h2
  obtain ⟨j, hj, rfl⟩ := h2
  have hj' := List.getElem?_eq_some_iff.mp hj
  obtain ⟨hlt, hj'⟩ := hj'
  rw [List.getElem_range] at hj'
  subst hj'
  rw [← h1] at h3
  have hw := slipWalk_le (d.dataSlips bo.1) bo.2
  have hc : bo.2 < (d.band bo.1).dataPositions - (d.dataSlips bo.1).length := h3
  have hp : slipWalk (d.dataSlips bo.1) bo.2 < (d.band bo.1).dataPositions := by omega
  refine ⟨hp, fun hm => slipWalk_not_mem (dataSlips_ascend ha bo.1) bo.2 ?_⟩
  exact List.mem_filter.mpr ⟨hm, by simpa using hp⟩

/-! ### The sound map -/

theorem mapSound_iff (d : DefectManager) : d.mapSound = true ↔
    (d.bands.all BandRecord.inRange = true ∧ bandsContiguous 2 d.bands = true) ∧
      ascending slipLt d.slips = true ∧ (∀ e ∈ d.replacement, d.entryValid e = true) ∧
        d.replacement.Pairwise (fun x y => keyLt x.key y.key = true) ∧
          (d.replacement.map MapEntry.spareUsed).Nodup := by
  simp only [DefectManager.mapSound, DefectManager.listValid, Bool.and_eq_true, order_iff,
    noRepeats_iff, List.all_eq_true, and_assoc]

/-- A sound map stands as its form asks. -/
theorem mapSound_form {d : DefectManager} (w : d.mapSound = true) : d.mapForm = true := by
  simp only [DefectManager.mapSound, Bool.and_eq_true] at w
  exact listValid_form w.2 d rfl rfl rfl

/-- An entry's validity depends on the header copy and the slip list alone. -/
theorem entryValid_congr {d e : DefectManager} (h1 : e.bands = d.bands) (h2 : e.slips = d.slips)
    (x : MapEntry) : e.entryValid x = d.entryValid x := by
  cases d
  cases e
  subst h1 h2
  rfl

/-- A list that R16 finds valid over a sound map makes it sound again. -/
theorem listValid_sound {d e : DefectManager} {es : List MapEntry} (hv : d.listValid es = true)
    (h1 : e.bands = d.bands) (h2 : e.slips = d.slips) (h3 : e.replacement = es)
    (w : d.mapSound = true) : e.mapSound = true := by
  rw [mapSound_iff] at w ⊢
  simp only [DefectManager.listValid, Bool.and_eq_true, order_iff, noRepeats_iff,
    List.all_eq_true] at hv
  rw [h1, h2, h3]
  exact ⟨w.1, w.2.1, fun x hx => (entryValid_congr h1 h2 x).trans (hv.1.1 x hx), hv.1.2, hv.2⟩

theorem track0Verdict_sound {d : DefectManager} {outs : List DecoderOutcome}
    {v : List BandRecord × List (Nat × Nat)} (h : track0Verdict outs = some v)
    (h1 : d.bands = v.1) (h2 : d.slips = v.2) (h3 : d.replacement = []) : d.mapSound = true := by
  unfold track0Verdict at h
  split at h
  · cases h
  · split at h
    · next hdr =>
      split at h
      · cases h
      · dsimp only at h
        split at h
        · next hs =>
          cases h
          simp only [headerValid, Bool.and_eq_true] at hdr hs
          rw [mapSound_iff, h1, h2, h3]
          exact ⟨⟨hdr.1.1.2, hdr.1.2⟩, hs.2, fun _ hx => (by cases hx), List.Pairwise.nil,
            List.nodup_nil⟩
        · cases h
    · cases h

/-! ### Reassignment (R39, R40) -/

theorem spareUsed_new {d : DefectManager} {b new : Nat} (hf : d.spareFree b new = true) :
    (b, new) ∉ d.replacement.map MapEntry.spareUsed := by
  simp only [DefectManager.spareFree, Bool.and_eq_true, Bool.not_eq_true', List.contains_eq_mem,
    decide_eq_false_iff_not] at hf
  intro hm
  obtain ⟨e, he, hu⟩ := List.mem_map.mp hm
  cases e with
  | moved b' p s =>
    cases hu
    exact hf.1.2 ((mem_targetsIn ..).mpr ⟨p, he⟩)
  | retired b' s =>
    cases hu
    exact hf.2 ((mem_retiredIn ..).mpr he)

/-- What a reassignment puts into the list (R39, R40). -/
theorem mem_reassignList {h : Home} {new : Nat} {es : List MapEntry}
    (ho : es.Pairwise (fun x y => keyLt x.key y.key = true))
    (hs : ∀ old, h.spare = some old → MapEntry.moved h.band h.pos old ∈ es) {x : MapEntry}
    (hx : x ∈ reassignList h new es) : x = .moved h.band h.pos new ∨
      (∃ old, h.spare = some old ∧ x = .retired h.band old) ∨ x ∈ es := by
  unfold reassignList at hx
  split at hx
  · rcases (mem_insertEntry _ _ _).mp hx with rfl | hm
    · exact Or.inl rfl
    · exact Or.inr (Or.inr hm)
  · next old hold =>
    rcases (mem_insertEntry _ _ _).mp hx with rfl | hm
    · exact Or.inr (Or.inl ⟨old, hold, rfl⟩)
    · obtain ⟨xs, ys, rfl, h1, h2⟩ := moved_split (hs old hold) ho
      rw [retarget_split h1 h2, List.mem_append, List.mem_cons] at hm
      rcases hm with hm | hm | hm
      · exact Or.inr (Or.inr (List.mem_append.mpr (Or.inl hm)))
      · exact Or.inl hm
      · exact Or.inr (Or.inr (List.mem_append.mpr (Or.inr (List.mem_cons_of_mem _ hm))))

theorem reassignList_spares {h : Home} {new : Nat} {es : List MapEntry}
    (ho : es.Pairwise (fun x y => keyLt x.key y.key = true))
    (hs : ∀ old, h.spare = some old → MapEntry.moved h.band h.pos old ∈ es) :
    ((reassignList h new es).map MapEntry.spareUsed).Perm
      ((h.band, new) :: es.map MapEntry.spareUsed) := by
  unfold reassignList
  split
  · exact (insertEntry_perm _ es).map _
  · next old hold =>
    obtain ⟨xs, ys, rfl, h1, h2⟩ := moved_split (hs old hold) ho
    rw [retarget_split h1 h2]
    refine ((insertEntry_perm _ _).map _).trans ?_
    simp only [List.map_cons, List.map_append, MapEntry.spareUsed]
    refine (List.perm_middle.cons _).trans ((List.Perm.swap ..).trans ?_)
    exact (List.perm_middle.symm).cons _

/-- A reassignment that is carried out keeps the map sound (R38–R42). -/
theorem reassign_sound {d e : DefectManager} {lsn : Nat} {place : Place} {n : Nat}
    (h : d.reassign lsn place n = .done e) (w : d.mapSound = true) : e.mapSound = true := by
  have hform := reassign_form h (mapSound_form w)
  rw [mapForm_iff] at hform
  rw [mapSound_iff] at w ⊢
  obtain ⟨wb, ws, wv, wo, wn⟩ := w
  unfold DefectManager.reassign at h
  split at h
  · cases h
  · next hm hhome =>
    split at h
    · cases h
    · split at h
      · cases h
      · next new hnew =>
        split at h
        · cases h
        · cases h
          have hs : ∀ old, hm.spare = some old → MapEntry.moved hm.band hm.pos old ∈ d.replacement :=
            fun old ho => movedTo_some (home_spare hhome ▸ ho)
          have hfree : d.spareFree hm.band new = true :=
            List.find?_some (p := fun s => d.spareFree hm.band s) hnew
          have hlt : new < (d.band hm.band).sparePositions :=
            List.mem_range.mp (List.mem_of_find?_eq_some hnew)
          have hp := home_pos hhome ws
          refine ⟨wb, ws, fun x hx => ?_, hform.2, ?_⟩
          · refine (entryValid_congr (d := d) rfl rfl x).trans ?_
            rcases mem_reassignList wo hs hx with rfl | ⟨old, hold, rfl⟩ | hmem
            · simp only [DefectManager.spareFree, Bool.and_eq_true] at hfree
              simp only [DefectManager.entryValid, Bool.and_eq_true, decide_eq_true_eq,
                Bool.not_eq_true', List.contains_eq_mem, decide_eq_false_iff_not]
              exact ⟨⟨⟨⟨home_band_lt hhome, hlt⟩, hp.1⟩, hp.2⟩, by simpa using hfree.1.1⟩
            · have := wv _ (hs old hold)
              simp only [DefectManager.entryValid, Bool.and_eq_true] at this ⊢
              exact ⟨this.1.1.1, this.2⟩
            · exact wv x hmem
          · exact (reassignList_spares (new := new) wo hs).nodup_iff.mpr
              (List.nodup_cons.mpr ⟨spareUsed_new hfree, wn⟩)

/-! ### What a change of the map's lists keeps -/

theorem MapKept.emptied {d e : DefectManager} (h1 : e.bands = []) (h2 : e.slips = [])
    (h3 : e.replacement = []) : MapKept d e := by
  refine ⟨fun _ => mapForm_nil h3, fun _ => ?_⟩
  rw [mapSound_iff, h1, h2, h3]
  exact ⟨⟨rfl, rfl⟩, rfl, fun _ hx => (by cases hx), List.Pairwise.nil, List.nodup_nil⟩

theorem reassign_kept {d e : DefectManager} {lsn : Nat} {place : Place} {n : Nat}
    (h : d.reassign lsn place n = .done e) : MapKept d e := ⟨reassign_form h, reassign_sound h⟩

theorem listValid_kept {d e : DefectManager} {es : List MapEntry} (hv : d.listValid es = true)
    (h1 : e.bands = d.bands) (h2 : e.slips = d.slips) (h3 : e.replacement = es) : MapKept d e :=
  ⟨fun _ => listValid_form hv e h1 h2 h3, listValid_sound hv h1 h2 h3⟩

theorem track0_kept {d e : DefectManager} {outs : List DecoderOutcome}
    {v : List BandRecord × List (Nat × Nat)} (h : track0Verdict outs = some v)
    (h1 : e.bands = v.1) (h2 : e.slips = v.2) (h3 : e.replacement = []) : MapKept d e :=
  ⟨fun _ => mapForm_nil h3, fun _ => track0Verdict_sound h h1 h2 h3⟩

end Sys2Proof.Machine
end

