-- ==== Sys2Proof/Laws/InnerWork.lean ====
section
/-! SUPPORT. `Inner` of the operations of write work (Chapters 3 to 5): every one of them keeps what
`Inner` speaks of. -/

set_option Elab.async false

namespace Sys2Proof.Machine

/-! ### The Defect Manager's bounds -/

theorem DefectManager.bounded_iff (d : DefectManager) : d.bounded = true ↔
    d.law9 = true ∧ d.replacement.length ≤ 1024 ∧ d.reassignments ≤ 65535 ∧
      d.rescuesDone ≤ 65535 ∧ d.rescuesDropped ≤ 65535 := by
  simp only [DefectManager.bounded, Bool.and_eq_true, decide_eq_true_eq, and_assoc]

theorem saturate_le (n : Nat) : saturate n ≤ 65535 := Nat.min_le_right n 65535

/-- A part of the rescue list keeps law 9. -/
theorem law9_sublist {d e : DefectManager} (h : e.rescueList.Sublist d.rescueList)
    (w : d.law9 = true) : e.law9 = true := by
  simp only [DefectManager.law9, Bool.and_eq_true, decide_eq_true_eq] at w ⊢
  refine ⟨Nat.le_trans h.length_le w.1, ?_⟩
  exact distinct_sublist (h.map _) w.2

theorem insertEntry_length (e : MapEntry) (es : List MapEntry) :
    (insertEntry e es).length = es.length + 1 := by
  induction es with
  | nil => rfl
  | cons x xs ih =>
    unfold insertEntry
    split
    · rfl
    · simp only [List.length_cons, ih]

theorem retarget_length (b p s : Nat) (es : List MapEntry) :
    (retarget b p s es).length = es.length := List.length_map ..

/-- A reassignment adds one entry (R39, R40). -/
theorem reassignList_length (h : Home) (new : Nat) (es : List MapEntry) :
    (reassignList h new es).length = es.length + 1 := by
  unfold reassignList
  split
  · exact insertEntry_length _ _
  · rw [insertEntry_length, retarget_length]

/-- A reassignment that is carried out keeps the bounds, the staging area, and the map's form and
soundness (R38, R42). -/
theorem reassign_done {d e : DefectManager} {lsn : Nat} {place : Place} {n : Nat}
    (h : d.reassign lsn place n = .done e) :
    (d.bounded = true → e.bounded = true) ∧ e.staging = d.staging ∧
      MapKept d e := by
  have hform := reassign_kept h
  unfold DefectManager.reassign at h
  split at h
  · cases h
  · split at h
    · cases h
    · split at h
      · cases h
      · split at h
        · cases h
        · cases h
          refine ⟨fun w => ?_, rfl, hform⟩
          rw [DefectManager.bounded_iff] at w ⊢
          obtain ⟨w9, wr, wa, wd, wx⟩ := w
          refine ⟨law9_sublist (List.Sublist.refl _) w9, ?_, saturate_le _, wd, wx⟩
          show (reassignList _ _ d.replacement).length ≤ 1024
          rw [reassignList_length]
          simp only [Config.replacementEntries] at *
          omega

theorem countDone_bounded {d : DefectManager} (w : d.bounded = true) :
    d.countDone.bounded = true := by
  rw [DefectManager.bounded_iff] at w ⊢
  exact ⟨law9_sublist (List.Sublist.refl _) w.1, w.2.1, w.2.2.1, saturate_le _, w.2.2.2.2⟩

theorem countDropped_bounded {d : DefectManager} (w : d.bounded = true) :
    d.countDropped.bounded = true := by
  rw [DefectManager.bounded_iff] at w ⊢
  exact ⟨law9_sublist (List.Sublist.refl _) w.1, w.2.1, w.2.2.1, w.2.2.2.1, saturate_le _⟩

/-- A rescue list cut down keeps the bounds. -/
theorem bounded_sublist {d : DefectManager} {es : List (Nat × Nat)}
    (h : es.Sublist d.rescueList) (w : d.bounded = true) :
    DefectManager.bounded { d with rescueList := es } = true := by
  rw [DefectManager.bounded_iff] at w ⊢
  exact ⟨law9_sublist h w.1, w.2⟩

theorem uncover_bounded {d : DefectManager} (lsn n : Nat) (w : d.bounded = true) :
    (d.uncover lsn n).bounded = true :=
  bounded_sublist List.filter_sublist w

/-! ### Ends of work (R97) -/

theorem concludeWork_inner {H P : Prop} (s : State) (w : WriteWork) (cause : Option Status) :
    Inner H P s (s.concludeWork w cause) := by
  unfold State.concludeWork
  dsimp only
  have h : Inner H P s ((s.dropWork w.id).leaveSlotWait w.id) :=
    (dropWork_inner s w.id).trans (leaveSlotWait_inner _ w.id)
  split
  · exact h
  · refine Inner.trans (Inner.trans h (updReq_inner _ _ _ _ ?_)) (settleReq_inner ..)
    exact fun _ => rfl

theorem endRescue_inner {H P : Prop} (s : State) (w : WriteWork) (done : Bool) :
    Inner H P s (s.endRescue w done) := by
  refine Inner.trans (dropWork_inner s w.id) ?_
  cases done
  · exact Inner.ofDm _ _ countDropped_bounded rfl
  · exact Inner.ofDm _ _ countDone_bounded rfl

theorem checkWorkEnd_inner {H P : Prop} (s : State) (id : Nat) : Inner H P s (s.checkWorkEnd id) := by
  unfold State.checkWorkEnd
  split
  · exact Inner.refl H P s
  · exact Inner.ite _ (Inner.ite _ (endRescue_inner ..) (concludeWork_inner ..)) (Inner.refl H P s)

theorem giveUpSlots_inner {H P : Prop} (s : State) (id : Nat) (slots : List Nat) :
    Inner H P s (slots.foldl (fun s i => s.giveUpSlot id i) s) :=
  Inner.foldl _ (fun s i => (giveUpSlot_only s id i).inner) slots s

theorem endOpenSectors_inner {H P : Prop} (s : State) (id : Nat) (keep : List Nat)
    (res : Option SectorResult) : Inner H P s (s.endOpenSectors id keep res) := by
  unfold State.endOpenSectors
  split
  · exact Inner.refl H P s
  · exact (updWork_inner s id _).trans (giveUpSlots_inner _ id _)

theorem setPhase_inner {H P : Prop} (s : State) (w : WriteWork) (ph : WorkPhase)
    (st : RequestState) : Inner H P s (s.setPhase w ph st) := by
  unfold State.setPhase
  dsimp only
  split
  · exact updWork_inner ..
  · refine Inner.trans (updWork_inner ..) (updReq_inner _ _ _ _ ?_)
    exact fun _ => rfl

/-! ### Allocation (R69, R74) -/

/-- A WRITE's slot for one LSN is taken while its channel has fewer than 16 charged. -/
theorem takeWriteSlot_only {H : Prop} (s : State) (c : Channel) (id lsn : Nat) (ex : List Nat)
    (hq : s.chargedCount c < 16) : PoolOnly H s (s.takeWriteSlot c id lsn ex).1 := by
  have hq' : ∀ d, Charge.channel c = .channel d → s.chargedCount d < 16 := by
    intro d hd
    cases hd
    exact hq
  unfold State.takeWriteSlot
  split
  · next h =>
    unfold State.newFillSlot
    split
    · exact PoolOnly.refl H s
    · next hc => exact claimSlot_only _ _ _ _ _ _ _ (chooseSlot_some hc).1 (Or.inl h) hq'
  · next i h =>
    split
    · exact claimSlot_only _ _ _ _ _ _ _ (replaceable_lt ‹_›) (Or.inr h) hq'
    · unfold State.newFillSlot
      split
      · exact makeStale_only s i
      · next hc => exact staleThenClaim_only _ _ _ _ _ _ _ _ h (chooseSlot_some hc).1 hq'

theorem newFillSlot_charged (s : State) (c : Channel) (id lsn : Nat) (ex : List Nat)
    (d : Channel) : (s.newFillSlot c id lsn ex).1.chargedCount d ≤ s.chargedCount d + 1 := by
  unfold State.newFillSlot
  split
  · exact Nat.le_succ _
  · exact claimSlot_charged ..

theorem takeWriteSlot_charged (s : State) (c : Channel) (id lsn : Nat) (ex : List Nat)
    (d : Channel) : (s.takeWriteSlot c id lsn ex).1.chargedCount d ≤ s.chargedCount d + 1 := by
  unfold State.takeWriteSlot
  split
  · exact newFillSlot_charged ..
  · next i _ =>
    split
    · exact claimSlot_charged ..
    · have h1 := newFillSlot_charged (s.makeStale i) c id lsn ex d
      have h2 := makeStale_charged s i d
      omega

/-- A WRITE's slots are taken where its channel has room for them all (R61, R69). -/
theorem takeWriteSlots_only {H : Prop} (c : Channel) (id : Nat) (ex : List Nat)
    (xs : List WorkSector) (s : State) (hq : s.chargedCount c + xs.length ≤ 16) :
    PoolOnly H s (s.takeWriteSlots c id ex xs).1 := by
  induction xs generalizing s with
  | nil => exact PoolOnly.refl H s
  | cons x xs ih =>
    simp only [List.length_cons] at hq
    refine (takeWriteSlot_only s c id x.lsn ex (by omega)).trans (ih _ ?_)
    have := takeWriteSlot_charged s c id x.lsn ex c
    omega

theorem serveWrite_inner {H P : Prop} (s : State) (c : Channel) (w : WriteWork)
    (hq : s.chargedCount c + w.sectors.length ≤ 16) : Inner H P s (s.serveWrite c w) := by
  unfold State.serveWrite
  dsimp only
  have h : Inner H P s _ := ((takeWriteSlots_only c w.id
    (s.takeoverSlots (w.sectors.map (fun x => x.lsn))) w.sectors s hq).inner.trans
      (updWork_inner _ w.id (fun v => { v with sectors := (s.takeWriteSlots c w.id
        (s.takeoverSlots (w.sectors.map (fun x => x.lsn))) w.sectors).2 }))).trans
      (setPhase_inner _ w .filling .filling)
  split
  · exact h
  · next r hr => exact h.trans (joinTransfer_inner _ c _ (findReq_id hr))

theorem numberRuns_inner {H P : Prop} (rs : List Run) (s : State) : Inner H P s (s.numberRuns rs).1 := by
  induction rs generalizing s with
  | nil => exact Inner.refl H P s
  | cons r rs ih =>
    refine Inner.trans ?_ (ih { s with nextId := s.nextId + 1 })
    exact { Inner.refl H P s with
      nextId := Nat.le_succ _
      phase := fun _ _ w => w.keep
      works := fun h => by
        rw [worksOwned_iff] at h ⊢
        exact fun w hw => Nat.lt_succ_of_lt (h w hw) }

theorem addFollowUps_inner {H P : Prop} (s : State) (id : Nat) (lsns : List Nat) :
    Inner H P s (s.addFollowUps id lsns) :=
  (numberRuns_inner _ s).trans (updWork_inner ..)

theorem updWork_ne {s : State} (id : Nat) (f : WriteWork → WriteWork) (h : s.works ≠ []) :
    (s.updWork id f).works ≠ [] := fun e => h (List.map_eq_nil_iff.mp e)

theorem setPhase_ne {s : State} (w : WriteWork) (ph : WorkPhase) (st : RequestState)
    (h : s.works ≠ []) : (s.setPhase w ph st).works ≠ [] := by
  unfold State.setPhase
  dsimp only
  split
  · exact updWork_ne _ _ h
  · exact updWork_ne _ _ h

theorem findWork_ne {s : State} {id : Nat} {w : WriteWork} (h : s.findWork id = some w) :
    s.works ≠ [] := fun e => by
  simp [State.findWork, e] at h

/-- A reassignment is carried out for write work that stands. -/
theorem noteReassigned_inner {H P : Prop} (s : State) (w : WriteWork) (lsn : Nat)
    (d : DefectManager) (hn : P → s.works ≠ [])
    (hd : (s.dm.bounded = true → d.bounded = true) ∧ d.staging = s.dm.staging ∧
      MapKept s.dm d) : Inner H P s (s.noteReassigned w lsn d) := by
  unfold State.noteReassigned
  dsimp only
  have h : Inner H P s { s with dm := d } :=
    Inner.ofDmLists s d hd.1 hd.2.1 hd.2.2 (fun q p e => absurd (p.emptied e).1 (hn q))
  have h2 := (h.trans (updWorkSector_inner (H := H) (P := P) _ w.id lsn
    (fun x => { x with spares := x.spares + 1, covered := true }))).trans
      (updWork_inner (H := H) (P := P) _ w.id (fun w => { w with reassigned := true }))
  split
  · exact h2
  · refine Inner.trans h2 (updReq_inner _ _ _ _ ?_)
    exact fun _ => rfl

theorem giveResult_inner {H P : Prop} (s : State) (id lsn : Nat) (r : SectorResult) :
    Inner H P s (s.giveResult id lsn r) := updWorkSector_inner ..

theorem reassignAllocate_inner {H P : Prop} (s : State) (w : WriteWork) (lsn : Nat) (b : Bool)
    (hn : P → s.works ≠ []) : Inner H P s (s.reassignAllocate w lsn b) := by
  unfold State.reassignAllocate
  split
  · next d hd =>
    exact ((noteReassigned_inner s w lsn d hn (reassign_done hd)).trans
      (addFollowUps_inner ..)).trans (updWork_inner ..)
  · exact (endOpenSectors_inner ..).trans (checkWorkEnd_inner ..)
  · exact (endOpenSectors_inner ..).trans (checkWorkEnd_inner ..)

/-- A REASSIGN is served while its channel has fewer than 16 slots charged (R74). -/
theorem serveReassign_inner {H P : Prop} (s : State) (c : Channel) (w : WriteWork) (lsn : Nat)
    (hq : s.chargedCount c < 16) (hn : P → s.works ≠ []) :
    Inner H P s (s.serveReassign c w lsn) := by
  have hq' : ∀ d, Charge.channel c = .channel d → s.chargedCount d < 16 := by
    intro d hd
    cases hd
    exact hq
  unfold State.serveReassign
  dsimp only
  split
  · next h =>
    split
    · exact Inner.refl H P s
    · next hc =>
      exact ((claimSlot_only _ _ _ _ _ _ _ (chooseSlot_some hc).1 (Or.inl h) hq').inner.trans
        (updWorkSector_inner ..)).trans (setPhase_inner ..)
  · next i h =>
    split
    · have h1 : Inner H P s _ := ((chargeSlot_only s i { s.slotAt i with
          state := .writing, stage := some .queued, work := some (.reassign w.id),
          charged := .channel c, chargedFor := some w.id } rfl rfl rfl hq').inner.trans
        (updWorkSector_inner _ w.id lsn (fun x => { x with slot := some i }))).trans
          (setPhase_inner _ w .runs .active)
      refine h1.trans (reassignAllocate_inner _ w lsn true ?_)
      exact fun p => setPhase_ne _ _ _ (updWork_ne _ _ (hn p))
    · split
      · exact (makeStale_only ..).inner
      · next hc =>
        exact ((staleThenClaim_only _ _ _ _ _ _ _ _ h (chooseSlot_some hc).1 hq').inner.trans
          (updWorkSector_inner ..)).trans (setPhase_inner ..)

theorem writeBar_none {s : State} {c : Channel} {n : Nat} (h : s.writeBar c n = none) :
    s.chargedCount c + n ≤ 16 := by
  unfold State.writeBar at h
  split at h
  · cases h
  · split at h
    · cases h
    · next hc => simpa [Config.channelSlots] using hc

/-- Write work that stands takes its slots. -/
theorem allocate_inner {H P : Prop} (s : State) (w : WriteWork) (hn : P → s.works ≠ []) :
    Inner H P s (s.allocate w) := by
  unfold State.allocate
  split
  · exact Inner.refl H P s
  · next c _ =>
    split
    · exact (setPhase_inner ..).trans (joinSlotWait_only ..).inner
    · next hbar =>
      have hb := writeBar_none hbar
      have hb' : (s.leaveSlotWait w.id).chargedCount c + w.slotsNeeded ≤ 16 := by
        rwa [chargedCount_rest (s := s) (t := s.leaveSlotWait w.id) rfl]
      dsimp only
      split
      · next hk =>
        refine (leaveSlotWait_inner s w.id).trans (serveWrite_inner _ c w ?_)
        simpa [WriteWork.slotsNeeded, hk] using hb'
      · next hk =>
        refine (leaveSlotWait_inner s w.id).trans (serveReassign_inner _ c w _ ?_ hn)
        have : w.slotsNeeded = 1 := by simp [WriteWork.slotsNeeded, hk]
        omega
      · exact Inner.refl H P s

/-- New write work stands outside EMPTY alone, under a number given before now. -/
theorem startWork_inner {H P : Prop} (s : State) (w : WriteWork) (hn : s.ctl.state ≠ .empty)
    (hid : w.id < s.nextId) : Inner H P s (s.startWork w) := by
  unfold State.startWork
  dsimp only
  have h : Inner H P s { s with works := s.works ++ [w] } :=
    { Inner.refl H P s with
      phase := fun _ _ p => { p with emptied := fun e => absurd e hn }
      works := fun h => by
        rw [worksOwned_iff] at h ⊢
        intro v hv
        rcases List.mem_append.mp hv with hv | hv
        · exact h v hv
        · rw [List.mem_singleton.mp hv]; exact hid }
  split
  · exact h.trans (setPhase_inner ..)
  · exact h.trans (allocate_inner _ _ (fun _ => by simp))

/-! ### The fill and the rescue (R46, R70, R75) -/

theorem completeFill_inner {H P : Prop} (s : State) (w : WriteWork) :
    Inner H P s (s.completeFill w) := by
  refine Inner.trans (Inner.foldl _ (fun s i => PoolOnly.inner (updSlot_only s i _ ?_)) _ s)
    (setPhase_inner ..)
  exact fun _ => Keeps.of

theorem rescueDataStep_inner {H P : Prop} (s : State) (w : WriteWork) :
    Inner H P s (s.rescueDataStep w) := by
  unfold State.rescueDataStep
  dsimp only
  split
  · exact Inner.refl H P s
  · split
    · next i h =>
      split
      · refine Inner.trans (Inner.trans (PoolOnly.inner (updSlot_only s _ _ (fun x => ?_)))
          (updWorkSector_inner ..)) (updWork_inner ..)
        refine ⟨Or.inl rfl, rfl, rfl, fun c hc => ?_⟩
        dsimp only at hc
        split at hc
        · exact hc
        · cases hc
      · split
        · exact Inner.refl H P s
        · split
          · exact (makeStale_only ..).inner
          · next hc =>
            exact (staleThenClaim_only _ _ _ _ _ _ _ _ h (chooseSlot_some hc).1
              (fun _ e => by cases e)).inner.trans (updWorkSector_inner ..)
    · next h =>
      split
      · exact Inner.refl H P s
      · split
        · exact Inner.refl H P s
        · next hc =>
          exact (claimSlot_only _ _ _ _ _ _ _ (chooseSlot_some hc).1 (Or.inl h)
            (fun _ e => by cases e)).inner.trans (updWorkSector_inner ..)

theorem cutRescue_inner {H P : Prop} (s : State) : Inner H P s s.cutRescue := by
  unfold State.cutRescue
  split
  · exact Inner.refl H P s
  · dsimp only
    split
    · exact endOpenSectors_inner ..
    · exact (endOpenSectors_inner ..).trans (endRescue_inner ..)

end Sys2Proof.Machine
end

