-- ==== Sys2Proof/Laws/InnerLife.lean ====
section
/-! SUPPORT. `Inner` of the Cartridge Controller's operations and of sending a command (Chapters 7
and 8). -/

set_option Elab.async false

namespace Sys2Proof.Machine

/-! ### The link's own moves (R125, R133) -/

/-- A command of the Cartridge Controller is sent with no run open. -/
theorem sendCommand_inner {H P : Prop} (s : State) (who : Sender) (cmd : LinkCommand)
    (hs : who = .cartridgeController → P → Phase s → s.sched.openRun = none := by
      exact fun h => by cases h) : Inner H P s (s.sendCommand who cmd) := by
  unfold State.sendCommand
  split
  · exact Inner.refl H P s
  · refine Inner.ofLink s _ (fun _ => rfl) (fun _ _ => rfl) (fun p w c hc hk => ?_)
    cases hc
    exact hs hk p w

theorem linkToIdle_inner {H P : Prop} (s : State) : Inner H P s s.linkToIdle :=
  Inner.ofLink s _ (fun _ => rfl) (fun _ _ => rfl) (fun _ _ _ h => by cases h)

/-- Outside READY and UNMOUNTING no run is open (law 6). -/
theorem Phase.outside {s : State} (h : Phase s) (h1 : s.ctl.state ≠ .ready)
    (h2 : s.ctl.state ≠ .unmounting) : s.sched.openRun = none := by
  cases e : s.sched.openRun with
  | none => rfl
  | some r => exact ((h.openIn r e).1.elim h1 h2).elim

/-- Outside FAULTED no recovery runs. -/
theorem Phase.notRecovering {s : State} (h : Phase s) (h1 : s.ctl.state ≠ .faulted) :
    s.ctl.recovering = false := by
  cases e : s.ctl.recovering with
  | false => rfl
  | true => exact absurd (h.recovers e) h1

/-- A new cartridge state outside EMPTY, READY, UNMOUNTING, MOUNTING and FAULTED, entered with no run
open and no INDEX FETCH. -/
theorem Phase.enter {s : State} (h : Phase s) (f : Controller → Controller)
    (ho : s.sched.openRun = none) (hm : s.ctl.state ≠ .mounting ∨ s.engine = none)
    (he : (f s.ctl).state ≠ .empty)
    (hr : (f s.ctl).recovering = true → (f s.ctl).state = .faulted) : Phase (s.updCtl f) where
  openIn r e := by rw [show (s.updCtl f).sched.openRun = s.sched.openRun from rfl, ho] at e; cases e
  emptied e := absurd e he
  recovers := hr
  index op e k := by
    rcases hm with hm | hm
    · exact absurd (h.index op e k) hm
    · rw [show (s.updCtl f).engine = s.engine from rfl, hm] at e; cases e
  sender _ _ _ := ho

/-- The counters of the link changed alone. -/
theorem linkRetries_inner {H P : Prop} (s : State) (n : Nat) :
    Inner H P s { s with link := { s.link with linkRetries := n } } :=
  Inner.ofLink s _ (fun w => w) (fun _ w => w)

/-! ### Completions of the lists (R140, R144, R146) -/

theorem endFlushMaps_inner {H P : Prop} (s : State) (test : Request → Bool) (st : Status) :
    Inner H P s (s.endFlushMaps test st) :=
  forRequests_inner s _ (fun _ _ _ => Inner.ite _ (settleReq_inner ..) (Inner.refl H P _))

theorem settleListed_inner {H P : Prop} (s : State) (st : Status) (e : Channel × Byte) :
    Inner H P s (s.settleListed st e) := by
  unfold State.settleListed
  split
  · exact Inner.refl H P s
  · exact settleReq_inner ..

theorem completeEjects_inner {H P : Prop} (s : State) (st : Status) :
    Inner H P s (s.completeEjects st) :=
  (Inner.foldl _ (fun s e => settleListed_inner s st e) _ s).trans (updCtl_inner ..)

theorem completeMounts_inner {H P : Prop} (s : State) (st : Status) :
    Inner H P s (s.completeMounts st) :=
  (Inner.foldl _ (fun s e => settleListed_inner s st e) _ s).trans (updCtl_inner ..)

theorem answerUnmount_inner {H P : Prop} (s : State) (a : UnmountAnswer) :
    Inner H P s (s.answerUnmount a) := Inner.ite _ (updCtl_inner ..) (Inner.refl H P s)

/-! ### The read-only flag (R99, R141) -/

theorem protectWork_inner {H P : Prop} (s : State) (id : Nat) : Inner H P s (s.protectWork id) := by
  unfold State.protectWork
  split
  · exact Inner.refl H P s
  · exact Inner.ite _ (Inner.ite _ (Inner.refl H P s) (cutRescue_inner s))
      ((endOpenSectors_inner ..).trans (checkWorkEnd_inner ..))

theorem protectWorks_inner {H P : Prop} (s : State) : Inner H P s s.protectWorks :=
  Inner.foldl _ (fun s id => protectWork_inner s id) _ s

/-- The rescue list emptied (R45, R142). -/
theorem emptyRescueList_inner {H P : Prop} (s : State) :
    Inner H P s { s with dm := { s.dm with rescueList := [] } } :=
  Inner.ofDm s _ (bounded_sublist (List.nil_sublist _)) rfl

theorem setReadOnly_inner {H P : Prop} (s : State) (reason : ReadOnly) :
    Inner H P s (s.setReadOnly reason) := by
  unfold State.setReadOnly
  dsimp only
  split
  · exact Inner.refl H P s
  · have h : Inner H P s _ := (((emptyRescueList_inner (H := H) (P := P) s).trans
      (updCtl_inner _ (fun k => { k with readOnly := reason }))).trans
        (raise_inner _ .readOnly)).trans (protectWorks_inner _)
    exact Inner.ite _ h ((h.trans (endFlushMaps_inner ..)).trans (answerUnmount_inner ..))

theorem learnProtect_inner {H P : Prop} (s : State) (wp : Bool) : Inner H P s (s.learnProtect wp) := by
  unfold State.learnProtect
  dsimp only
  have h := updCtl_inner (H := H) (P := P) s (fun k => { k with writeProtect := wp })
  exact Inner.ite _ (h.trans (setReadOnly_inner ..)) h

/-! ### Entry to FAULTED (R104, R147) -/

theorem faultRequest_inner {H P : Prop} (s : State) (c : Channel) (r : Request) :
    Inner H P s (s.faultRequest c r) := by
  unfold State.faultRequest
  split
  · exact Inner.refl H P s
  · split
    · exact Inner.ite _ (cutRead_inner ..) (Inner.refl H P s)
    · exact settleReq_inner ..
    · exact Inner.refl H P s

theorem endWorkFor_inner {H P : Prop} (s : State) (cause : Status) (b : Bool) (id : Nat) :
    Inner H P s (s.endWorkFor cause b id) := by
  unfold State.endWorkFor
  dsimp only
  have h := endOpenSectors_inner (H := H) (P := P) s id [] (some (.failed cause))
  split
  · exact h
  · exact h.trans (Inner.ite _ (Inner.ite _ (endRescue_inner ..) (dropWork_inner ..))
      (concludeWork_inner ..))

theorem endWorks_inner {H P : Prop} (s : State) (cause : Status) (b : Bool) :
    Inner H P s (s.endWorks cause b) :=
  Inner.foldl _ (fun s id => endWorkFor_inner s cause b id) _ s

theorem enterFaulted_inner {H P : Prop} (s : State) : Inner H P s s.enterFaulted := by
  unfold State.enterFaulted
  dsimp only
  have h : Inner H P s _ := ((((loseOperation_inner (H := H) (P := P) s).trans
    (forRequests_inner _ _ faultRequest_inner)).trans (endWorks_inner _ .mechanismFault true)).trans
      (loseFetches_only _).inner).trans (completeEjects_inner _ .mechanismFault)
  have g : Gate s.loseOperation _ := (((forRequests_gate _ _ faultRequest_gate).trans
    (endWorks_gate _ .mechanismFault true)).trans (loseFetches_gate _)).trans
      (completeEjects_gate _ .mechanismFault)
  have g2 := (Gate.ite (s.ctl.state == .spinning || s.ctl.state == .mounting)
    (g.trans (completeMounts_gate _ .mechanismFault)) g).trans
      (Gate.of (t := State.cancelReadAheads _))
  refine Inner.trans (Inner.trans ?_ (setState_inner _ _ (fun _ w => ?_))) (raise_inner ..)
  · exact Inner.trans (Inner.ite _ (h.trans (completeMounts_inner ..)) h) (cancelReadAheads_inner _)
  · exact w.enter _ g2.openRun (Or.inr g2.engine) (fun e => by cases e) (fun e => by cases e)

/-! ### Removal and eject (R144, R146, R149) -/

theorem reset_bounded : DefectManager.reset.bounded = true := by decide

theorem reset_staging : DefectManager.reset.staging.all Memory.wf = true := by decide

theorem law7_linkRetries {l : Link} {n : Nat} (w : l.law7 = true) :
    Link.law7 { l with linkRetries := n } = true := w

theorem enterEmpty_inner {H P : Prop} (s : State) : Inner H P s s.enterEmpty := by
  have h : Inner H P s (s.loseOperation.emptyPool.cancelReadAheads) :=
    ((loseOperation_inner s).trans (emptyPool_only _).inner).trans (cancelReadAheads_inner _)
  exact
    { timebase := h.timebase
      pending := h.pending
      policy := h.policy
      ports := h.ports
      keys := h.keys
      transfers := h.transfers
      nextId := h.nextId
      reservations := Or.inr rfl
      sized := h.sized
      memory := fun hh w => by
        have w' := h.memory hh w
        simp only [State.memoryWf, Bool.and_eq_true] at w' ⊢
        exact ⟨⟨⟨w'.1.1.1, w'.1.1.2⟩, w'.1.2⟩, reset_staging⟩
      law7 := fun w => law7_linkRetries (h.law7 w)
      bounded := fun _ => reset_bounded
      placed := h.placed
      quota := h.quota
      maps := MapKept.emptied rfl rfl rfl
      works := fun _ => rfl
      phase := fun _ _ _ =>
        { openIn := fun _ e => by cases e
          emptied := fun _ => ⟨rfl, rfl⟩
          recovers := fun e => by cases e
          index := fun _ e => by cases e
          sender := fun _ _ _ => rfl } }

theorem removeRequest_inner {H P : Prop} (s : State) (c : Channel) (r : Request) :
    Inner H P s (s.removeRequest c r) := by
  unfold State.removeRequest
  split
  · exact Inner.refl H P s
  · split
    · exact cutRead_inner ..
    · exact settleReq_inner ..
    · exact settleReq_inner ..
    · exact Inner.refl H P s

/-- What a forced removal and a done eject do alike. -/
theorem removalBody_inner {H P : Prop} (s : State) (st : Status) :
    Inner H P s ((((s.loseOperation.forRequests State.removeRequest).endWorks .noCartridge
      false).completeEjects st).completeMounts .noCartridge) :=
  ((((loseOperation_inner s).trans (forRequests_inner _ _ removeRequest_inner)).trans
    (endWorks_inner _ .noCartridge false)).trans (completeEjects_inner ..)).trans
      (completeMounts_inner ..)

theorem forcedRemoval_inner {H P : Prop} (s : State) : Inner H P s s.forcedRemoval := by
  unfold State.forcedRemoval
  dsimp only
  exact Inner.trans (Inner.trans ((removalBody_inner s _).trans
    (Inner.ite _ (raise_inner ..) (Inner.refl H P _))) (enterEmpty_inner _)) (raise_inner ..)

theorem ejectDone_inner {H P : Prop} (s : State) : Inner H P s s.ejectDone := by
  unfold State.ejectDone
  dsimp only
  exact Inner.trans (Inner.trans ((removalBody_inner s _).trans
    (Inner.ite _ (raise_inner ..) (Inner.refl H P _))) (enterEmpty_inner _)) (raise_inner ..)

theorem removal_inner {H P : Prop} (s : State) : Inner H P s s.removal := by
  unfold State.removal
  split
  · exact Inner.refl H P s
  · exact ejectDone_inner s
  · exact forcedRemoval_inner s

/-- EJECTING is entered with no run open, no recovery and no INDEX FETCH. -/
theorem beginEject_inner {H P : Prop} (s : State)
    (hb : P → Phase s → s.sched.openRun = none ∧ s.ctl.recovering = false ∧
      s.ctl.state ≠ .mounting) : Inner H P s s.beginEject := by
  refine Inner.weakenPhase (Q := s.sched.openRun = none ∧ s.ctl.recovering = false ∧
    s.ctl.state ≠ .mounting) ?_ hb
  exact (setState_inner _ _ (fun q w => w.enter _ q.1 (Or.inl q.2.2) (fun e => by cases e)
    (fun e => by
      have : s.ctl.recovering = true := e
      rw [q.2.1] at this
      cases this))).trans (sendCommand_inner _ _ _ (fun _ q _ => q.1))

/-- What the entry to EJECTING needs, in UNREADABLE and in FAULTED without a recovery. -/
theorem Phase.mayEject {s : State} (h : Phase s)
    (hs : s.ctl.state = .unreadable ∨ s.ctl.state = .faulted ∧ s.ctl.recovering = false) :
    s.sched.openRun = none ∧ s.ctl.recovering = false ∧ s.ctl.state ≠ .mounting := by
  rcases hs with e | ⟨e, hr⟩
  · exact ⟨h.outside (by rw [e]; decide) (by rw [e]; decide),
      h.notRecovering (by rw [e]; decide), by rw [e]; decide⟩
  · exact ⟨h.outside (by rw [e]; decide) (by rw [e]; decide), hr, by rw [e]; decide⟩

/-- The unmount starts in READY. -/
theorem startUnmount_inner {H P : Prop} (s : State) (hr : P → Phase s → s.ctl.state = .ready) :
    Inner H P s s.startUnmount := by
  refine Inner.weakenPhase (Q := s.ctl.state = .ready) ?_ hr
  unfold State.startUnmount
  dsimp only
  have h : Inner H (s.ctl.state = .ready) s _ := (emptyRescueList_inner s).trans
    (setState_inner _ (fun k => { k with state := .unmounting, ejectPending := false })
      (fun q w =>
        { openIn := fun r e => ⟨Or.inr rfl, (w.openIn r e).2⟩
          emptied := fun e => by cases e
          recovers := fun e => by
            have := w.recovers e
            rw [show State.ctl _ = s.ctl from rfl, q] at this
            cases this
          index := fun op e k => by
            have := w.index op e k
            rw [show State.ctl _ = s.ctl from rfl, q] at this
            cases this
          sender := w.sender }))
  refine Inner.trans ?_ (cancelReadAheads_inner _)
  split
  · exact h
  · exact Inner.ite _ h (h.trans (cutRescue_inner _))

theorem askUnmountWriteback_inner {H P : Prop} (s : State) : Inner H P s s.askUnmountWriteback := by
  unfold State.askUnmountWriteback
  dsimp only
  have h := updCtl_inner (H := H) (P := P) s (fun k => { k with unmountAsked := true })
  exact Inner.ite _ (h.trans (answerUnmount_inner ..))
    (Inner.ite _ (h.trans (answerUnmount_inner ..)) h)

theorem ejectWhenAnswered_inner {H P : Prop} (s : State) : Inner H P s s.ejectWhenAnswered := by
  unfold State.ejectWhenAnswered
  split
  · next h =>
    simp only [Bool.and_eq_true, beq_iff_eq, Option.isNone_iff_eq_none] at h
    have hs : s.ctl.state = .unmounting := h.1.1.1
    exact beginEject_inner s (fun _ w => ⟨h.2, w.notRecovering (by rw [hs]; decide),
      by rw [hs]; decide⟩)
  · exact Inner.refl H P s

/-! ### Mount and recovery (R138–R140, R148–R150) -/

theorem sendSpinUp_inner {H P : Prop} (s : State)
    (ho : P → Phase s → s.sched.openRun = none) : Inner H P s s.sendSpinUp :=
  Inner.ite _ (Inner.refl H P s) (sendCommand_inner _ _ _ (fun _ => ho))

/-- SPINNING is entered from EMPTY or UNREADABLE. -/
theorem enterSpinning_inner {H P : Prop} (s : State)
    (hs : P → Phase s → s.ctl.state = .empty ∨ s.ctl.state = .unreadable) :
    Inner H P s s.enterSpinning := by
  refine Inner.weakenPhase (Q := s.ctl.state = .empty ∨ s.ctl.state = .unreadable) ?_ hs
  refine Inner.trans (setState_inner _ _ (fun q w => ?_)) (sendSpinUp_inner _ (fun _ w =>
    w.outside (fun e => by cases e) (fun e => by cases e)))
  refine w.enter _ ?_ (Or.inl ?_) (fun e => by cases e) (fun e => ?_)
  · exact w.outside (by rcases q with e | e <;> rw [e] <;> decide)
      (by rcases q with e | e <;> rw [e] <;> decide)
  · rcases q with e | e <;> rw [e] <;> decide
  · have := w.recovers e
    rcases q with h | h <;> rw [h] at this <;> cases this

theorem emptyCopy_inner {H P : Prop} (s : State) : Inner H P s { s with dm := s.dm.emptyCopy } := by
  refine Inner.ofDmLists s _ (fun w => ?_) rfl (MapKept.emptied rfl rfl rfl)
    (fun _ _ _ h => by cases h)
  rw [DefectManager.bounded_iff] at w ⊢
  exact ⟨law9_sublist (List.Sublist.refl _) w.1, Nat.zero_le _, w.2.2⟩

/-- MOUNTING is entered with no run open. -/
theorem enterMounting_inner {H P : Prop} (s : State)
    (ho : P → Phase s → s.sched.openRun = none) : Inner H P s s.enterMounting := by
  refine Inner.weakenPhase (Q := s.sched.openRun = none) ?_ ho
  exact (emptyCopy_inner s).trans (setState_inner _ _ (fun q _ =>
    { openIn := fun r e => by cases q.symm.trans e
      emptied := fun e => by cases e
      recovers := fun e => by cases e
      index := fun _ _ _ => rfl
      sender := fun _ _ _ => q }))

/-- The header copy and the slip list loaded, the replacement list not yet. -/
theorem headerCopy_inner {H P : Prop} (s : State) {outs : List DecoderOutcome}
    {v : List BandRecord × List (Nat × Nat)} (hv : track0Verdict outs = some v) :
    Inner H P s { s with dm := { s.dm with bands := v.1, slips := v.2, replacement := [] } } := by
  refine Inner.ofDmLists s _ (fun w => ?_) rfl (track0_kept hv rfl rfl rfl) (fun _ _ _ h => h)
  rw [DefectManager.bounded_iff] at w ⊢
  exact ⟨law9_sublist (List.Sublist.refl _) w.1, Nat.zero_le _, w.2.2⟩

/-- The verdict on track 0 comes in MOUNTING, with the engine FREE. -/
theorem track0_inner {H P : Prop} (s : State) (outs : List DecoderOutcome)
    (hm : P → s.ctl.state = .mounting ∧ s.engine = none) : Inner H P s (s.track0 outs) := by
  unfold State.track0
  dsimp only
  split
  · next v hv => exact (headerCopy_inner s hv).trans (updCtl_inner ..)
  · have h : Inner H P s _ := (((emptyCopy_inner (H := H) (P := P) s).trans
      (setState_inner _ (fun k => { k with state := .unreadable, indexWanted := none })
        (fun p w => w.enter _
          (w.outside (by rw [show State.ctl _ = s.ctl from rfl, (hm p).1]; decide)
            (by rw [show State.ctl _ = s.ctl from rfl, (hm p).1]; decide))
          (Or.inr (hm p).2) (fun e => by cases e) (fun e => by
            have := w.recovers e
            rw [show State.ctl _ = s.ctl from rfl, (hm p).1] at this
            cases this)))).trans
        (raise_inner _ .cartridgeUnreadable)).trans (completeMounts_inner _ .mediumError)
    have g := completeMounts_gate (({ s with dm := s.dm.emptyCopy }.updCtl
      (fun k => { k with state := .unreadable, indexWanted := none })).raise
        .cartridgeUnreadable) .mediumError
    exact Inner.ite _ (h.trans (beginEject_inner _ (fun _ w => w.mayEject (Or.inl g.state)))) h

/-- READY is entered from MOUNTING, with the engine FREE. -/
theorem enterReady_inner {H P : Prop} (s : State) (v : Bool)
    (hm : P → s.ctl.state = .mounting ∧ s.engine = none) : Inner H P s (s.enterReady v) := by
  unfold State.enterReady
  dsimp only
  have h : Inner H P s _ := ((linkRetries_inner (H := H) (P := P) s 0).trans
    (setState_inner _ (fun k => { k with
      state := .ready, readOnly := mountFlag v s.ctl.writeProtect, indexWanted := none })
        (fun p w => w.enter _
          (w.outside (by rw [show State.ctl _ = s.ctl from rfl, (hm p).1]; decide)
            (by rw [show State.ctl _ = s.ctl from rfl, (hm p).1]; decide))
          (Or.inr (hm p).2) (fun e => by cases e) (fun e => by
            have := w.recovers e
            rw [show State.ctl _ = s.ctl from rfl, (hm p).1] at this
            cases this)))).trans
      (raise_inner _ .cartridgeReady)
  have h2 := Inner.trans (Inner.ite (mountFlag v s.ctl.writeProtect == .none) h
    (h.trans (raise_inner _ .readOnly))) (completeMounts_inner _ .success)
  refine Inner.ite _ (h2.trans (startUnmount_inner _ (fun _ _ => ?_))) h2
  have g := completeMounts_gate (if (mountFlag v s.ctl.writeProtect == .none) = true then
      ({ s with link := { s.link with linkRetries := 0 } }.updCtl (fun k => { k with
        state := .ready, readOnly := mountFlag v s.ctl.writeProtect, indexWanted := none })).raise
          .cartridgeReady
    else (({ s with link := { s.link with linkRetries := 0 } }.updCtl (fun k => { k with
        state := .ready, readOnly := mountFlag v s.ctl.writeProtect, indexWanted := none })).raise
          .cartridgeReady).raise .readOnly) .success
  refine g.state.trans ?_
  split <;> rfl

/-- A list of replacement entries read from n sectors has at most 64 of them for each (R10). -/
theorem replacementEntries_length {ms : List Memory} {total : Nat} {es : List MapEntry}
    (h : replacementEntries ms total = some es) : es.length ≤ 64 * ms.length := by
  unfold replacementEntries at h
  dsimp only at h
  split at h
  · cases h
    refine Nat.le_trans (List.length_filterMap_le ..) ?_
    have key : ∀ (xs : List (Memory × Nat)), ((xs.map (fun mi =>
        (List.range (entriesInSector total mi.2)).map (replacementEntry mi.1))).flatten).length ≤
          64 * xs.length := by
      intro xs
      induction xs with
      | nil => exact Nat.le_refl 0
      | cons x xs ih =>
        simp only [List.map_cons, List.flatten_cons, List.length_append, List.length_map,
          List.length_range, List.length_cons]
        have : entriesInSector total x.2 ≤ 64 := Nat.min_le_left ..
        omega
    have := key ms.zipIdx
    rwa [List.length_zipIdx] at this
  · cases h

theorem goodRecords_length {outs : List DecoderOutcome} {is : List Nat} {ms : List Memory}
    (h : goodRecords outs is = some ms) : ms.length = is.length := by
  induction is generalizing ms with
  | nil => cases h; rfl
  | cons i is ih =>
    unfold goodRecords at h
    split at h
    · next m ms' _ h2 => cases h; simp only [List.length_cons, ih h2]
    · cases h

/-- A VALID track 1 gives at most 1,024 entries (R10, R15). -/
theorem track1Verdict_length {d : DefectManager} {outs : List DecoderOutcome}
    {v : BitVec 32 × List MapEntry} (h : d.track1Verdict outs = some v) : v.2.length ≤ 1024 := by
  unfold DefectManager.track1Verdict at h
  dsimp only at h
  split at h
  · cases h
  · next ms hms =>
    split at h
    · split at h
      · cases h
      · next es hes =>
        split at h
        · cases h
          have h1 := replacementEntries_length hes
          rw [goodRecords_length hms, List.length_range] at h1
          exact h1
        · cases h
    · cases h

theorem clearAtVerdict_inner {H P : Prop} (s : State) (g : BitVec 32) (es : List MapEntry)
    (he : es.length ≤ 1024) (hv : s.dm.listValid es = true) :
    Inner H P s { s with dm := { s.dm.clearAtVerdict with generation := g, replacement := es } } := by
  refine Inner.ofDmLists s _ (fun w => ?_) rfl (listValid_kept hv rfl rfl rfl)
    (fun _ _ _ h => by cases h)
  rw [DefectManager.bounded_iff] at w ⊢
  exact ⟨law9_sublist (List.Sublist.refl _) w.1, he, Nat.zero_le _, Nat.zero_le _, Nat.zero_le _⟩

/-- The verdict on track 1 comes in MOUNTING, with the engine FREE. -/
theorem track1_inner {H P : Prop} (s : State) (outs : List DecoderOutcome)
    (hm : P → s.ctl.state = .mounting ∧ s.engine = none) : Inner H P s (s.track1 outs) := by
  unfold State.track1
  split
  · next v hv =>
    exact (clearAtVerdict_inner s _ _ (track1Verdict_length hv) (track1Verdict_valid hv)).trans
      (enterReady_inner _ _ hm)
  · exact (clearAtVerdict_inner s _ _ (Nat.zero_le _) rfl).trans (enterReady_inner _ _ hm)

/-- A recovery that fails was under way. -/
theorem recoveryFailed_inner {H P : Prop} (s : State)
    (hr : P → Phase s → s.ctl.recovering = true) : Inner H P s s.recoveryFailed := by
  refine Inner.weakenPhase (Q := s.ctl.state = .faulted) ?_ (fun p w => w.recovers (hr p w))
  unfold State.recoveryFailed
  dsimp only
  have h : Inner H (s.ctl.state = .faulted) s _ := ((setState_inner s
    (fun k => { k with recovering := false }) (fun _ w =>
      { openIn := w.openIn
        emptied := w.emptied
        recovers := fun e => by cases e
        index := w.index
        sender := w.sender })).trans
    (completeMounts_inner _ .mechanismFault)).trans (raise_inner _ .mechanismFault)
  have g : Gate (s.updCtl (fun k => { k with recovering := false })) _ :=
    (completeMounts_gate _ .mechanismFault).trans
      (Gate.of (t := State.raise _ .mechanismFault))
  refine Inner.ite _ (h.trans (beginEject_inner _ (fun q w => w.mayEject (Or.inr ?_)))) h
  exact ⟨g.state.trans q, g.recovering⟩

/-- Settle remaining changed alone. -/
theorem settle_inner {H P : Prop} (s : State) (x : Settle) :
    Inner H P s { s with dm := { s.dm with settle := x } } :=
  Inner.ofDm s _ (fun w => w) rfl

/-- A recovery that is done was under way, in FAULTED. -/
theorem recoveryDone_inner {H P : Prop} (s : State)
    (hr : P → Phase s → s.ctl.state = .faulted) : Inner H P s s.recoveryDone := by
  refine Inner.weakenPhase (Q := s.ctl.state = .faulted) ?_ hr
  unfold State.recoveryDone
  dsimp only
  split
  · have h : Inner H (s.ctl.state = .faulted) s _ := (setState_inner s
      (fun k => { k with state := .ready, recovering := false }) (fun q w => w.enter _
        (w.outside (by rw [q]; decide) (by rw [q]; decide)) (Or.inl (by rw [q]; decide))
        (fun e => by cases e) (fun e => by cases e))).trans (raise_inner _ .cartridgeReady)
    have key : ∀ t : State, t.ctl.state = .ready → Inner H (s.ctl.state = .faulted) t
        (if t.ctl.ejectPending then t.startUnmount else t) := fun t e =>
      Inner.ite _ (startUnmount_inner _ (fun _ _ => e)) (Inner.refl H _ t)
    refine Inner.trans ?_ (key _ ?_)
    · refine Inner.trans ?_ (Inner.ite _ (settle_inner _ _) (Inner.refl H _ _))
      refine Inner.trans ?_ (completeMounts_inner _ .success)
      exact h.trans (Inner.ite _ (setReadOnly_inner _ .writeProtected) (Inner.refl H _ _))
    · suffices g : Gate (s.updCtl (fun k => { k with state := .ready, recovering := false })) _ from
        g.state
      refine Gate.trans ?_ (Gate.ite _ Gate.of (Gate.refl _))
      refine Gate.trans ?_ (completeMounts_gate _ .success)
      exact Gate.trans Gate.of (Gate.ite _ (setReadOnly_gate _ .writeProtected) (Gate.refl _))
  · exact enterMounting_inner s (fun q w => w.outside (by rw [q]; decide) (by rw [q]; decide))

theorem recoveryReport_inner {H P : Prop} (s : State) (rec : StateRecord)
    (hr : s.ctl.recovering = true) : Inner H P s (s.recoveryReport rec) := by
  refine Inner.weakenPhase (Q := s.ctl.state = .faulted) ?_ (fun _ w => w.recovers hr)
  unfold State.recoveryReport
  split
  · exact removal_inner s
  · have h := learnProtect_inner (H := H) (P := s.ctl.state = .faulted) s rec.writeProtected
    have g := learnProtect_gate s rec.writeProtected
    dsimp only
    split
    · exact h.trans (recoveryFailed_inner _ (fun _ _ => g.recovering.trans hr))
    · split
      · exact h.trans (recoveryDone_inner _ (fun q _ => g.state.trans q))
      · exact h.trans (sendCommand_inner _ _ _ (fun _ q w =>
          w.outside (by rw [g.state, q]; decide) (by rw [g.state, q]; decide)))

theorem startupDone_inner {H P : Prop} (s : State) (rec : StateRecord) :
    Inner H P s (s.startupDone rec) := by
  unfold State.startupDone
  split
  · next hs =>
    have h := updCtl_inner (H := H) (P := P) s
      (fun k => { k with writeProtect := rec.writeProtected })
    dsimp only
    exact Inner.ite _ (h.trans (enterFaulted_inner _)) (Inner.ite _
      (h.trans (enterSpinning_inner _ (fun _ _ => Or.inl hs))) (Inner.refl H P s))
  · next hs =>
    exact (updCtl_inner s _).trans (Inner.ite _ (enterFaulted_inner _) (sendSpinUp_inner _
      (fun _ w => w.outside (fun e => by cases hs.symm.trans e) (fun e => by cases hs.symm.trans e))))
  · exact Inner.refl H P s

/-- A lifecycle command ends with no run open. -/
theorem controllerDone_inner {H P : Prop} (s : State) (cmd : LinkCommand) (rec : StateRecord)
    (b : Bool) (ho : P → Phase s → s.sched.openRun = none) :
    Inner H P s (s.controllerDone cmd rec b) := by
  unfold State.controllerDone
  split
  · split
    · exact startupDone_inner ..
    · split
      · next h => exact recoveryReport_inner s rec h
      · exact Inner.refl H P s
  · split
    · next h => exact recoveryDone_inner s (fun _ w => w.recovers h)
    · exact enterMounting_inner s ho
  · exact ejectDone_inner s
  · exact Inner.refl H P s
  · exact Inner.refl H P s
  · exact Inner.refl H P s

theorem linkFault_inner {H P : Prop} (s : State) : Inner H P s s.linkFault := by
  unfold State.linkFault
  split
  · next h => exact recoveryFailed_inner s (fun _ _ => h)
  · exact enterFaulted_inner s

theorem mechFaultTaken_inner {H P : Prop} (s : State) : Inner H P s s.mechFaultTaken := by
  unfold State.mechFaultTaken
  split
  · exact raise_inner ..
  · split
    · next h => exact recoveryFailed_inner s (fun _ _ => h)
    · exact raise_inner ..
  · exact enterFaulted_inner s

theorem mediaInTaken_inner {H P : Prop} (s : State) (wp : Bool) :
    Inner H P s (s.mediaInTaken wp) := by
  unfold State.mediaInTaken
  split
  · next hs => exact (updCtl_inner ..).trans (enterSpinning_inner _ (fun _ _ => Or.inl hs))
  · exact learnProtect_inner ..

theorem buttonTaken_inner {H P : Prop} (s : State) : Inner H P s s.buttonTaken := by
  unfold State.buttonTaken
  split
  · next hs => exact Inner.ite _ (startUnmount_inner s (fun _ _ => hs)) (raise_inner ..)
  · next hs => exact beginEject_inner s (fun _ w => w.mayEject (Or.inl hs))
  · next hs =>
    split
    · exact updCtl_inner ..
    · next h => exact beginEject_inner s (fun _ w => w.mayEject (Or.inr ⟨hs, by simpa using h⟩))
  · exact raise_inner ..

end Sys2Proof.Machine
end

