-- ==== Sys2Proof/Laws/InnerEngine.lean ====
section
/-! SUPPORT. `Inner` of the Media Engine's, the Head Scheduler's and the link's operations (Chapters 5
to 7). -/

set_option Elab.async false

namespace Sys2Proof.Machine

/-! ### The decoder's data (R5, R6) -/

theorem decodeFrame_dataWf (track sector : Nat) {f : Option SectorFrame}
    (h : ∀ g, f = some g → g.data.wf = true) : (decodeFrame track sector f).dataWf = true := by
  unfold decodeFrame
  split
  · rfl
  · next g =>
    have hg := h g rfl
    split
    · rfl
    · split
      · rfl
      · split
        · rfl
        · split
          · exact hg
          · exact hg

theorem frameFor_wf {rs : List (Nat × SectorFrame)} (h : rs.all (fun e => e.2.data.wf) = true)
    (sector : Nat) : ∀ g, frameFor rs sector = some g → g.data.wf = true := by
  intro g hg
  unfold frameFor at hg
  cases hf : rs.find? (fun e => e.1 == sector) with
  | none => rw [hf] at hg; cases hg
  | some e =>
    rw [hf] at hg
    cases hg
    exact List.all_eq_true.mp h e (List.mem_of_find?_eq_some hf)

theorem decodeFirst_wf (track : Nat) {rs : List (Nat × SectorFrame)}
    (h : rs.all (fun e => e.2.data.wf) = true) (xs : List FetchSector) :
    outcomesWf (decodeFirst track rs xs) = true := by
  simp only [outcomesWf, decodeFirst, List.all_eq_true, List.mem_map]
  rintro _ ⟨x, _, rfl⟩
  exact decodeFrame_dataWf track x.sector (frameFor_wf h x.sector)

theorem decodeReread_wf (track sector : Nat) {rs : List (Nat × SectorFrame)}
    (h : rs.all (fun e => e.2.data.wf) = true) {xs : List FetchSector}
    (w : outcomesWf xs = true) : outcomesWf (decodeReread track sector rs xs) = true := by
  simp only [outcomesWf, decodeReread, List.all_eq_true, List.mem_map] at w ⊢
  rintro _ ⟨x, hx, rfl⟩
  split
  · next y hy =>
    rfl
  · next o ho =>
    split at ho
    · cases ho
      exact decodeFrame_dataWf track sector (frameFor_wf h sector)
    · have := w x hx
      rw [ho] at this
      exact this

theorem nextReread_wf (n : Nat) {xs : List FetchSector} (w : outcomesWf xs = true) :
    outcomesWf (nextReread n xs).1 = true := by
  induction xs with
  | nil => rfl
  | cons x xs ih =>
    simp only [outcomesWf, List.all_cons, Bool.and_eq_true] at w ih ⊢
    unfold nextReread
    split
    · simp only [List.all_cons, Bool.and_eq_true]
      exact ⟨w.1, ih w.2⟩
    · split
      · simp only [List.all_cons, Bool.and_eq_true]
        exact w
      · simp only [List.all_cons, Bool.and_eq_true]
        exact ⟨w.1, ih w.2⟩

theorem freshOutcomes_wf (r : Run) : outcomesWf r.freshOutcomes = true := by
  simp only [outcomesWf, Run.freshOutcomes, List.all_eq_true, List.mem_map]
  rintro _ ⟨x, _, rfl⟩
  rfl

/-! ### Fetches (R84–R89) -/

theorem recordLoads_pool (lsn load : Nat) (bs : List Binding) (s : State) :
    (bs.foldl (fun s b => s.recordLoad b.ch b.id lsn load) s).pool = s.pool := by
  induction bs generalizing s with
  | nil => rfl
  | cons b bs ih => exact ih _

theorem fetchGood_inner {H P : Prop} (s : State) (i lsn load : Nat) (data : Memory)
    (hd : H → data.wf = true) : Inner H P s (s.fetchGood i lsn load data) := by
  unfold State.fetchGood
  dsimp only
  have h : Inner H P s _ := Inner.foldl (fun s (b : Binding) => State.recordLoad s b.ch b.id lsn load)
    (fun s (b : Binding) => recordLoad_inner s b.ch b.id lsn load) (s.slotAt i).bindings s
  have hp := recordLoads_pool lsn load (s.slotAt i).bindings s
  have hs : (List.foldl (fun s (b : Binding) => s.recordLoad b.ch b.id lsn load) s
      (s.slotAt i).bindings).slotAt i = s.slotAt i := by rw [State.slotAt, hp, State.slotAt]
  split
  · refine h.trans (PoolOnly.inner (setSlot_only _ i _ (fun hh _ => hd hh) ?_ ?_ ?_))
    · rw [hs]
    · rw [hs]
    · rw [hs]; exact fun _ e => e
  · refine (h.trans (PoolOnly.inner (setSlot_only _ i _ (fun hh _ => hd hh) ?_ ?_ ?_))).trans
      (tidySlot_only _ i).inner
    · rw [hs]
    · rw [hs]
    · rw [hs]; exact fun _ e => e

theorem fetchBad_inner {H P : Prop} (s : State) (i lsn : Nat) (st : Status) :
    Inner H P s (s.fetchBad i lsn st) :=
  (Inner.foldl _ (fun s (b : Binding) => failSector_inner s b.ch b.id lsn st) _ s).trans
    (freeSlot_only _ i).inner

/-- The data of one sector of a fetch is canonical. -/
def FetchSector.wf (x : FetchSector) : Prop := ∀ o, x.outcome = some o → o.dataWf = true

theorem outcomesWf_iff (xs : List FetchSector) : outcomesWf xs = true ↔ ∀ x ∈ xs, x.wf := by
  simp only [outcomesWf, List.all_eq_true, FetchSector.wf]
  refine forall_congr' (fun x => forall_congr' (fun _ => ?_))
  constructor
  · intro h o ho
    rw [ho] at h
    exact h
  · intro h
    split
    · rfl
    · next o ho => exact h o ho

theorem handOver_inner {H P : Prop} (s : State) (x : FetchSector) (hx : H → x.wf) :
    Inner H P s (s.handOver x).1 := by
  unfold State.handOver
  split
  · exact Inner.refl H P s
  · split
    · exact Inner.refl H P s
    · split
      · split
        · next d hd => exact fetchGood_inner _ _ _ _ _ (fun h => hx h _ hd)
        · next n d hd => exact fetchGood_inner _ _ _ _ _ (fun h => hx h _ hd)
        · exact fetchBad_inner ..
        · exact fetchBad_inner ..
        · exact fetchBad_inner ..
      · exact fetchBad_inner ..

theorem handOverAll_inner {H P : Prop} (s : State) (xs : List FetchSector)
    (hx : H → outcomesWf xs = true) : Inner H P s (s.handOverAll xs).1 := by
  unfold State.handOverAll
  have key : ∀ (xs : List FetchSector) (t : State × List Offer), (H → ∀ x ∈ xs, x.wf) →
      Inner H P t.1 (xs.foldl (fun t x =>
        let u := t.1.handOver x
        (u.1, t.2 ++ u.2)) t).1 := by
    intro xs
    induction xs with
    | nil => intro t _; exact Inner.refl H P t.1
    | cons x xs ih =>
      intro t hw
      rw [List.foldl_cons]
      refine Inner.trans (handOver_inner t.1 x (fun h => hw h x (List.mem_cons_self ..)))
        (ih ((t.1.handOver x).1, t.2 ++ (t.1.handOver x).2) ?_)
      exact fun h y hy => hw h y (List.mem_cons_of_mem _ hy)
  exact key xs (s, []) (fun h => (outcomesWf_iff xs).mp (hx h))

/-- An offer keeps the bounds (R44). -/
theorem offer_bounded {d : DefectManager} (b : Bool) (r : Option Nat) (lsn load : Nat)
    (w : d.bounded = true) : (d.offer (d.offerResult b r lsn) lsn load).bounded = true := by
  unfold DefectManager.offerResult
  split
  · exact w
  · split
    · rw [DefectManager.bounded_iff] at w ⊢
      refine ⟨?_, w.2⟩
      have h := w.1
      simp only [DefectManager.law9, DefectManager.offer, Bool.and_eq_true, decide_eq_true_eq,
        List.length_map, List.map_map] at h ⊢
      refine ⟨h.1, ?_⟩
      have : (List.map ((fun e : Nat × Nat => e.1) ∘
          fun e => if (e.1 == lsn) = true then (e.1, max e.2 load) else e) d.rescueList) =
          d.rescueList.map (fun e => e.1) := by
        apply List.map_congr_left
        intro e _
        simp only [Function.comp]
        split <;> rfl
      rw [this]
      exact h.2
    · next hl =>
      split
      · exact w
      · split
        · rw [DefectManager.bounded_iff] at w ⊢
          exact ⟨law9_sublist (List.Sublist.refl _) w.1, w.2.1, w.2.2.1, w.2.2.2.1, saturate_le _⟩
        · next hf =>
          rw [DefectManager.bounded_iff] at w ⊢
          refine ⟨?_, w.2⟩
          have h := w.1
          simp only [DefectManager.law9, DefectManager.offer, Bool.and_eq_true, decide_eq_true_eq,
            List.length_append, List.map_append, List.map_cons, List.map_nil,
            List.length_cons, List.length_nil, Config.rescueEntries] at h hf ⊢
          refine ⟨by omega, distinct_append_single h.2 ?_⟩
          intro hm
          apply hl
          simp only [List.mem_map] at hm
          obtain ⟨e, he, rfl⟩ := hm
          exact List.any_eq_true.mpr ⟨e, he, beq_self_eq_true _⟩

theorem offer_kept (d : DefectManager) (r : OfferResult) (lsn load : Nat) :
    (d.offer r lsn load).staging = d.staging ∧ (d.offer r lsn load).bands = d.bands ∧
      (d.offer r lsn load).slips = d.slips ∧ (d.offer r lsn load).replacement = d.replacement ∧
        (d.offer r lsn load).dirty = d.dirty := by
  cases r <;> exact ⟨rfl, rfl, rfl, rfl, rfl⟩

theorem offerRescue_inner {H P : Prop} (s : State) (o : Offer) : Inner H P s (s.offerRescue o) := by
  unfold State.offerRescue
  dsimp only
  split
  · refine Inner.trans (Inner.ofDm s (s.dm.offer (s.dm.offerResult (s.ctl.readOnly != .none)
      (s.rescue.map WriteWork.firstLsn) o.lsn) o.lsn o.load)
        (fun w => offer_bounded _ _ _ _ w) (offer_kept ..).1 (offer_kept ..).2.1 (offer_kept ..).2.2.1
          (offer_kept ..).2.2.2.1 (fun e => (offer_kept ..).2.2.2.2 ▸ e)) ?_
    refine Inner.ite _ (Inner.foldl _ (fun s (b : Binding) => updReq_inner s b.ch b.id _ ?_) _ _)
      (Inner.refl H P _)
    exact fun _ => rfl
  · exact Inner.refl H P s

/-- A fetch is handed to work that stands. -/
theorem fetchToWork_inner {H P : Prop} (s : State) (w : WriteWork) (x : FetchSector)
    (hn : P → s.works ≠ []) : Inner H P s (s.fetchToWork w x) := by
  unfold State.fetchToWork
  dsimp only
  have h := fun (load : Option Nat) =>
    updWork_inner (H := H) (P := P) s w.id (fun w => { w with fetchLoad := load })
  split
  · split
    · exact (h _).trans (updWork_inner ..)
    · exact (h _).trans (reassignAllocate_inner _ _ _ _ (fun p => updWork_ne _ _ (hn p)))
  · split
    · exact ((h _).trans (updWorkSector_inner ..)).trans (endRescue_inner ..)
    · split
      · exact ((h _).trans (updWorkSector_inner ..)).trans (reassignAllocate_inner _ _ _ _
          (fun p => updWork_ne _ _ (updWork_ne _ _ (hn p))))
      · exact (((h _).trans (updWorkSector_inner ..)).trans (endOpenSectors_inner ..)).trans
          (checkWorkEnd_inner ..)

theorem fetchingWork_ne {s : State} {work : Work} {w : WriteWork}
    (h : s.fetchingWork work = some w) : s.works ≠ [] := by
  unfold State.fetchingWork at h
  split at h
  · exact findWork_ne h
  · exact findWork_ne h
  · cases h

theorem endFetch_inner {H P : Prop} (s : State) (op : Operation) (xs : List FetchSector)
    (hx : H → outcomesWf xs = true) : Inner H P s (s.endFetch op xs) := by
  unfold State.endFetch
  dsimp only
  have h := (engineNone_inner (H := H) (P := P) s).trans
    (handOverAll_inner { s with engine := none } xs hx)
  have h2 := h.trans (Inner.ite (op.work.makesOffers = true)
    (Inner.foldl (H := H) (P := P) _ (fun s o => offerRescue_inner s o)
      ({ s with engine := none }.handOverAll xs).2 _) (Inner.refl H P _))
  split
  · next hw => exact h2.trans (fetchToWork_inner _ _ _ (fun _ => fetchingWork_ne hw))
  · exact h2

/-- An INDEX FETCH ends in MOUNTING. -/
theorem endIndexFetch_inner {H P : Prop} (s : State) (op : Operation) (xs : List FetchSector)
    (hi : P → Phase s → s.ctl.state = .mounting) : Inner H P s (s.endIndexFetch op xs) := by
  refine Inner.weakenPhase (Q := s.ctl.state = .mounting) ?_ hi
  unfold State.endIndexFetch
  dsimp only
  exact (engineNone_inner s).trans (Inner.ite _ (track0_inner _ _ (fun q => ⟨q, rfl⟩))
    (track1_inner _ _ (fun q => ⟨q, rfl⟩)))

theorem finishFetch_inner {H P : Prop} (s : State) (op : Operation) (xs : List FetchSector)
    (hx : H → outcomesWf xs = true)
    (hi : op.kind = .indexFetch → P → Phase s → s.ctl.state = .mounting) :
    Inner H P s (s.finishFetch op xs) := by
  unfold State.finishFetch
  split
  · next h => exact endIndexFetch_inner _ _ _ (hi (by simpa using h))
  · exact endFetch_inner s op xs hx

theorem continueFetch_inner {H P : Prop} (s : State) (op : Operation) (xs : List FetchSector)
    (hx : H → outcomesWf xs = true)
    (hi : op.kind = .indexFetch → P → Phase s → s.ctl.state = .mounting) :
    Inner H P s (s.continueFetch op xs) := by
  unfold State.continueFetch
  dsimp only
  split
  · refine Inner.trans (Inner.ofEngine s _ ?_ (fun p w o e k => ?_)) (sendCommand_inner ..)
    · exact fun h _ => nextReread_wf _ (hx h)
    · cases e
      exact hi k p w
  · exact finishFetch_inner _ _ _ (fun h => nextReread_wf _ (hx h)) hi

theorem fetchRead_inner {H P : Prop} (s : State) (op : Operation) (rs : List (Nat × SectorFrame))
    (hr : H → rs.all (fun e => e.2.data.wf) = true) (ho : H → outcomesWf op.outcomes = true)
    (hi : op.kind = .indexFetch → P → Phase s → s.ctl.state = .mounting) :
    Inner H P s (s.fetchRead op rs) := by
  unfold State.fetchRead
  split
  · exact continueFetch_inner _ _ _ (fun h => decodeFirst_wf _ (hr h) _) hi
  · exact continueFetch_inner _ _ _ (fun h => decodeReread_wf _ _ (hr h) (ho h)) hi

/-! ### Write runs (R90–R99) -/

theorem closeRun_inner {H P : Prop} (s : State) : Inner H P s s.closeRun := loseOperation_inner s

theorem nextPass_inner {H P : Prop} (s : State) (p : Pass) : Inner H P s (s.nextPass p) :=
  (engineNone_inner s).trans
    { Inner.refl H P _ with
      phase := fun _ _ w =>
        { w with
          openIn := fun r e => by
            obtain ⟨q, hq, rfl⟩ := Option.map_eq_some_iff.mp e
            exact w.openIn q hq
          sender := fun c e k => Option.map_eq_none_iff.mpr (w.sender c e k) } }

theorem eraseDone_inner {H P : Prop} (s : State) (r : OpenRun) : Inner H P s (s.eraseDone r) := by
  unfold State.eraseDone
  dsimp only
  have h : Inner H P s (s.mediumErased r.run) := Inner.of
  exact Inner.ite _ (((h.trans (closeRun_inner _)).trans (endOpenSectors_inner ..)).trans
    (checkWorkEnd_inner ..)) ((h.trans (advanceStage_only _ r _).inner).trans (nextPass_inner ..))

theorem recordDone_inner {H P : Prop} (s : State) (r : OpenRun) (fs : List SentSector) :
    Inner H P s (s.recordDone r fs) := by
  have h : Inner H P s (s.mediumRecorded fs) := Inner.of
  exact (h.trans (advanceStage_only _ r _).inner).trans (nextPass_inner ..)

theorem failWorkSector_inner {H P : Prop} (s : State) (id : Nat) (x : WorkSector) (st : Status) :
    Inner H P s (s.failWorkSector id x st) := by
  unfold State.failWorkSector
  dsimp only
  split
  · exact (giveResult_inner ..).trans (giveUpSlot_only _ _ _).inner
  · exact giveResult_inner ..

/-- A failed sector of work that stands. -/
theorem verifyFail_inner {H P : Prop} (s : State) (w : WriteWork) (x : WorkSector) (p : Place)
    (hn : P → s.works ≠ []) : Inner H P s (s.verifyFail w x p).1 := by
  unfold State.verifyFail
  split
  · exact failWorkSector_inner ..
  · split
    · exact failWorkSector_inner ..
    · split
      · exact failWorkSector_inner ..
      · exact failWorkSector_inner ..
      · next d hd =>
        have h := noteReassigned_inner (H := H) (P := P) s w x.lsn d hn (reassign_done hd)
        dsimp only
        cases x.slot with
        | none => exact h
        | some i =>
          refine Inner.trans h (PoolOnly.inner (updSlot_only _ i
            (fun y => { y with stage := some .queued }) ?_))
          exact fun _ => Keeps.of

theorem giveResult_ne {s : State} (id lsn : Nat) (r : SectorResult) (h : s.works ≠ []) :
    (s.giveResult id lsn r).works ≠ [] := updWork_ne _ _ h

theorem failWorkSector_ne {s : State} (id : Nat) (x : WorkSector) (st : Status)
    (h : s.works ≠ []) : (s.failWorkSector id x st).works ≠ [] := by
  unfold State.failWorkSector
  dsimp only
  split
  · rw [(giveUpSlot_only (H := True) _ _ _).works]
    exact giveResult_ne _ _ _ h
  · exact giveResult_ne _ _ _ h

theorem noteReassigned_ne {s : State} (w : WriteWork) (lsn : Nat) (d : DefectManager)
    (h : s.works ≠ []) : (s.noteReassigned w lsn d).works ≠ [] := by
  unfold State.noteReassigned
  dsimp only
  have h2 := updWork_ne (s := { s with dm := d }.updWorkSector w.id lsn
    (fun x => { x with spares := x.spares + 1, covered := true })) w.id
      (fun w => { w with reassigned := true }) (updWork_ne (s := { s with dm := d }) _ _ h)
  split
  · exact h2
  · exact h2

theorem verifyPass_ne {s : State} (w : WriteWork) (x : WorkSector) (h : s.works ≠ []) :
    (s.verifyPass w x).works ≠ [] := by
  unfold State.verifyPass
  dsimp only
  split
  · rw [(passSlot_only (H := True) _ _).works]
    exact giveResult_ne _ _ _ h
  · exact giveResult_ne _ _ _ h

theorem verifyFail_ne {s : State} (w : WriteWork) (x : WorkSector) (p : Place)
    (h : s.works ≠ []) : (s.verifyFail w x p).1.works ≠ [] := by
  unfold State.verifyFail
  split
  · exact failWorkSector_ne _ _ _ h
  · split
    · exact failWorkSector_ne _ _ _ h
    · split
      · exact failWorkSector_ne _ _ _ h
      · exact failWorkSector_ne _ _ _ h
      · dsimp only
        split
        · exact noteReassigned_ne _ _ _ h
        · exact noteReassigned_ne _ _ _ h

/-- The verify end of a sector leaves the work standing (R95). -/
theorem verifySector_ne {s : State} (w : WriteWork) (track : Nat)
    (rs : List (Nat × SectorFrame)) (y : RunSector) (h : s.works ≠ []) :
    (s.verifySector w track rs y).1.works ≠ [] := by
  unfold State.verifySector
  split
  · exact h
  · next x _ =>
    dsimp only
    rw [apply_ite Prod.fst]
    split <;> split
    · exact verifyPass_ne _ _ (updWork_ne _ _ h)
    · exact verifyFail_ne _ _ _ (updWork_ne _ _ h)
    · exact verifyPass_ne _ _ (updWork_ne _ _ h)
    · exact verifyFail_ne _ _ _ (updWork_ne _ _ h)

theorem verifyPass_inner {H P : Prop} (s : State) (w : WriteWork) (x : WorkSector) :
    Inner H P s (s.verifyPass w x) := by
  unfold State.verifyPass
  dsimp only
  split
  · exact (giveResult_inner ..).trans (passSlot_only _ _).inner
  · exact giveResult_inner ..

theorem verifySector_inner {H P : Prop} (s : State) (w : WriteWork) (track : Nat)
    (rs : List (Nat × SectorFrame)) (y : RunSector) (hn : P → s.works ≠ []) :
    Inner H P s (s.verifySector w track rs y).1 := by
  unfold State.verifySector
  split
  · exact Inner.refl H P s
  · dsimp only
    rw [apply_ite Prod.fst]
    exact Inner.ite _ ((updWork_inner ..).trans (verifyPass_inner ..))
      ((updWork_inner ..).trans (verifyFail_inner _ _ _ _ (fun p => updWork_ne _ _ (hn p))))

theorem verifyEnd_inner {H P : Prop} (s : State) (w : WriteWork) (run : Run)
    (rs : List (Nat × SectorFrame)) (hn : P → s.works ≠ []) :
    Inner H P s (s.verifyEnd w run rs) := by
  unfold State.verifyEnd
  dsimp only
  refine Inner.trans (Inner.trans (Inner.trans ?_ (addFollowUps_inner ..)) (closeRun_inner _))
    (checkWorkEnd_inner ..)
  have key : ∀ (ys : List RunSector) (t : State × List Nat), (P → t.1.works ≠ []) →
      Inner H P t.1 (ys.foldl (fun t y =>
        let u := t.1.verifySector w run.track rs y
        (u.1, t.2 ++ u.2)) t).1 := by
    intro ys
    induction ys with
    | nil => intro t _; exact Inner.refl H P t.1
    | cons y ys ih =>
      intro t ht
      rw [List.foldl_cons]
      exact (verifySector_inner t.1 w run.track rs y ht).trans
        (ih ((t.1.verifySector w run.track rs y).1, t.2 ++ (t.1.verifySector w run.track rs y).2)
          (fun p => verifySector_ne w run.track rs y (ht p)))
  exact key run.sectors (s, []) hn

theorem writebackPassed_inner {H P : Prop} (s : State) :
    Inner H P s { s with dm := s.dm.writebackPassed s.policy.settleDelay } := by
  unfold DefectManager.writebackPassed
  split
  · refine Inner.ofDm s _ (fun w => ?_) rfl (hd := fun h => by cases h)
    rw [DefectManager.bounded_iff] at w ⊢
    exact ⟨law9_sublist (List.Sublist.refl _) w.1, w.2⟩
  · refine Inner.ofDm s _ (fun w => ?_) rfl
    rw [DefectManager.bounded_iff] at w ⊢
    exact ⟨law9_sublist (List.Sublist.refl _) w.1, w.2⟩

theorem endWriteback_inner {H P : Prop} (s : State) (b : Bool) : Inner H P s (s.endWriteback b) := by
  unfold State.endWriteback
  dsimp only
  have h := closeRun_inner (H := H) (P := P) s
  split
  · have h2 := (h.trans (writebackPassed_inner _)).trans
      (endFlushMaps_inner _ (fun r => r.served) .success)
    split
    · exact (h2.trans (endFlushMaps_inner ..)).trans (answerUnmount_inner ..)
    · exact (h2.trans (Inner.ite _ (endFlushMaps_inner ..) (Inner.refl H P _))).trans
        (answerUnmount_inner ..)
  · exact ((h.trans (endFlushMaps_inner ..)).trans (answerUnmount_inner ..)).trans
      (setReadOnly_inner ..)

theorem verifyDone_inner {H P : Prop} (s : State) (r : OpenRun) (rs : List (Nat × SectorFrame)) :
    Inner H P s (s.verifyDone r rs) := by
  unfold State.verifyDone
  split
  · exact endWriteback_inner ..
  · split
    · exact closeRun_inner s
    · next w hw =>
      refine verifyEnd_inner _ _ _ _ (fun _ => ?_)
      obtain ⟨id, _, hid⟩ := Option.bind_eq_some_iff.mp hw
      exact findWork_ne hid

theorem failRun_inner {H P : Prop} (s : State) (r : OpenRun) (st : Status) :
    Inner H P s (s.failRun r st) := by
  unfold State.failRun
  split
  · exact closeRun_inner s
  · exact (Inner.foldl _ (fun s x => failWorkSector_inner s _ x st) _ s).trans (closeRun_inner _)

theorem engineDone_inner {H P : Prop} (s : State) (cmd : LinkCommand)
    (rs : List (Nat × SectorFrame)) (hr : H → rs.all (fun e => e.2.data.wf) = true) :
    Inner H P s (s.engineDone cmd rs) := by
  unfold State.engineDone
  split
  · exact Inner.refl H P s
  · next op hop =>
    have key : Inner H P s (s.fetchRead op rs) := by
      refine Inner.weaken (fetchRead_inner (H := H ∧ s.memoryWf = true) s op rs
        (fun h => hr h.1) (fun h => ?_) (fun k _ w => w.index op hop k)) (fun h w => ⟨h, w⟩)
      have w := h.2
      simp only [State.memoryWf, Bool.and_eq_true, hop] at w
      exact w.1.2
    split
    · exact key
    · exact key
    · split
      · exact engineNone_inner s
      · exact eraseDone_inner ..
    · split
      · exact recordDone_inner ..
      · exact engineNone_inner s
    · split
      · exact engineNone_inner s
      · exact verifyDone_inner ..

theorem engineSeekFailed_inner {H P : Prop} (s : State) : Inner H P s s.engineSeekFailed := by
  unfold State.engineSeekFailed
  split
  · exact Inner.refl H P s
  · next op hop =>
    have key : Inner H P s (s.finishFetch op op.outcomes) := by
      refine Inner.weaken (finishFetch_inner (H := s.memoryWf = true) s op op.outcomes
        (fun w => ?_) (fun k _ w => w.index op hop k)) (fun _ w => w)
      simp only [State.memoryWf, Bool.and_eq_true, hop] at w
      exact w.1.2
    split
    · exact key
    · exact key
    · split
      · exact engineNone_inner s
      · exact Inner.ite _ (endWriteback_inner ..) ((failRun_inner ..).trans (checkWorkEnd_inner ..))

theorem engineRefused_inner {H P : Prop} (s : State) : Inner H P s s.engineRefused := by
  unfold State.engineRefused
  dsimp only
  have protect : ∀ t : State, Inner H P t
      ((t.updCtl (fun k => { k with writeProtect := true })).setReadOnly .writeProtected) :=
    fun t => (updCtl_inner ..).trans (setReadOnly_inner ..)
  split
  · split
    · exact (((closeRun_inner s).trans (endFlushMaps_inner ..)).trans (answerUnmount_inner ..)).trans
        (protect _)
    · exact ((failRun_inner ..).trans (protect _)).trans (checkWorkEnd_inner ..)
  · exact protect s

/-! ### The Head Scheduler (Chapter 6) -/

theorem startOperation_inner {H P : Prop} (s : State) (op : Operation) (cmd : LinkCommand)
    (ho : outcomesWf op.outcomes = true)
    (hi : op.kind = .indexFetch → P → Phase s → s.ctl.state = .mounting) :
    Inner H P s (s.startOperation op cmd) := by
  refine (Inner.ofEngine s (some op) (fun _ _ => ho) (fun p w o e k => ?_)).trans
    (sendCommand_inner ..)
  cases e
  exact hi k p w

theorem startReading_inner {H P : Prop} (s : State) (k : OperationKind) (w : Work) (r : Run)
    (hi : k = .indexFetch → P → Phase s → s.ctl.state = .mounting := by
      exact fun e => by cases e) :
    Inner H P s (s.startReading k w r) := startOperation_inner _ _ _ (freshOutcomes_wf r) hi

theorem startErase_inner {H P : Prop} (s : State) (w : Work) (r : Run) :
    Inner H P s (s.startErase w r) := startOperation_inner _ _ _ rfl (fun e => by cases e)

theorem startNextPass_inner {H P : Prop} (s : State) (r : OpenRun) :
    Inner H P s (s.startNextPass r) := by
  unfold State.startNextPass
  split
  · exact startErase_inner ..
  · exact startOperation_inner _ _ _ rfl (fun e => by cases e)
  · exact startReading_inner ..

/-- The scheduler's own records changed, but not the open run. -/
theorem sched_inner {H P : Prop} (s : State) (d : Scheduler)
    (h : d.openRun = s.sched.openRun := by rfl) : Inner H P s { s with sched := d } :=
  Inner.of (h15 := h)

/-- What the opening of a run needs: READY or UNMOUNTING, and no command outstanding. -/
def State.mayOpen (s : State) : Prop :=
  (s.ctl.state = .ready ∨ s.ctl.state = .unmounting) ∧ s.link.outstanding = none

theorem Gate.mayOpen {s t : State} (a : Gate s t) (h : s.mayOpen) : t.mayOpen := by
  unfold State.mayOpen
  rw [a.state, a.link]
  exact h

theorem openWriteRun_inner {H P : Prop} (s : State) (w : Work) (r : Run) (b : Bool)
    (ho : P → s.mayOpen) : Inner H P s (s.openWriteRun w r b) := by
  refine Inner.trans ?_ (startErase_inner ..)
  exact { Inner.refl H P s with
    phase := fun p _ w =>
      { w with
        openIn := fun r e => by
          cases e
          exact ⟨(ho p).1, Nat.zero_le _⟩
        sender := fun c e _ => by cases (ho p).2.symm.trans e } }

theorem takeWorkRun_inner {H P : Prop} (s : State) (w : WriteWork) (r : Run)
    (ho : P → s.mayOpen) : Inner H P s (s.takeWorkRun w r) :=
  (updWork_inner _ _ _ (fun w => by unfold WriteWork.takeRun; split <;> rfl)).trans
    (openWriteRun_inner _ _ _ _ ho)

theorem entryBytes_length (e : MapEntry) : e.bytes.length = 8 := by
  cases e <;> rfl

theorem bytesOf_length (n v : Nat) : (bytesOf n v).length = n := by
  induction n with
  | zero => rfl
  | succ n ih => simp only [bytesOf, List.length_cons, ih]

theorem entriesBytes_length (es : List MapEntry) :
    ((es.map MapEntry.bytes).flatten).length = 8 * es.length := by
  induction es with
  | nil => rfl
  | cons e es ih =>
    simp only [List.map_cons, List.flatten_cons, List.length_append, entryBytes_length, ih,
      List.length_cons]
    omega

/-- A staged sector is a canonical buffer (R51). -/
theorem stageSector_wf (g : BitVec 32) (es : List MapEntry) (i : Nat) :
    (stageSector g es i).wf = true := by
  unfold stageSector Memory.withCheck
  dsimp only
  refine Memory.writeBytes_wf (by rw [bytesOf_length] <;> decide) (Memory.writeBytes_wf ?_ rfl)
  simp only [List.length_append, bytesOf_length, entriesBytes_length, List.length_take]
  have : min 64 (es.drop (64 * i)).length ≤ 64 := Nat.min_le_left ..
  simp only [sectorBytes]
  omega

theorem stage_inner {H P : Prop} (s : State) : Inner H P s { s with dm := s.dm.stage } :=
  { Inner.refl H P s with
    bounded := fun w => by
      rw [DefectManager.bounded_iff] at w ⊢
      exact ⟨law9_sublist (List.Sublist.refl _) w.1, w.2⟩
    maps := MapKept.of_lists rfl rfl rfl
    phase := fun _ _ w => w.keep
    memory := fun _ w => by
      simp only [State.memoryWf, Bool.and_eq_true] at w ⊢
      refine ⟨w.1, ?_⟩
      simp only [DefectManager.stage, List.all_map, List.all_eq_true]
      exact fun i _ => stageSector_wf _ _ i }

theorem takeWriteback_inner {H P : Prop} (s : State) (ho : P → s.mayOpen) :
    Inner H P s s.takeWriteback := by
  unfold State.takeWriteback
  dsimp only
  refine Inner.trans (Inner.trans (forRequests_inner s _ (fun s c r => ?_)) (stage_inner _))
    (openWriteRun_inner _ _ _ _ (fun p => ?_))
  · refine Inner.ite _ (updReq_inner s c r.id _ ?_) (Inner.refl H P s)
    exact fun _ => rfl
  · refine Gate.mayOpen (Gate.trans (forRequests_gate s _ (fun s c r => ?_)) Gate.of) (ho p)
    exact Gate.ite _ Gate.of (Gate.refl s)

theorem takeFetch_inner {H P : Prop} (s : State) (w : Work) : Inner H P s (s.takeFetch w) := by
  unfold State.takeFetch
  split
  · exact Inner.refl H P s
  · exact (markBegun_only _ _ _).inner.trans (startReading_inner ..)

/-- An urgent fetch is taken while the open run's insertion count is below the limit (R112). -/
theorem takeUrgent_inner {H P : Prop} (s : State) (u : UrgentFetch)
    (hl : ∀ r, s.sched.openRun = some r → r.insertions < s.policy.insertionLimit) :
    Inner H P s (s.takeUrgent u) := by
  refine Inner.trans ?_ (takeFetch_inner ..)
  exact { Inner.refl H P s with
    phase := fun _ hp w =>
      { w with
        openIn := fun r e => by
          obtain ⟨q, hq, rfl⟩ := Option.map_eq_some_iff.mp e
          have h1 := w.openIn q hq
          have h2 := hl q hq
          simp only [Policy.inRange, Bool.and_eq_true, decide_eq_true_eq] at hp
          exact ⟨h1.1, by show q.insertions + 1 ≤ 8; omega⟩
        sender := fun c e k => Option.map_eq_none_iff.mpr (w.sender c e k) } }

theorem takeOffered_inner {H P : Prop} (s : State) (o : Offered) (ho : P → s.mayOpen) :
    Inner H P s (s.takeOffered o) := by
  cases o with
  | fetch w => exact takeFetch_inner ..
  | run w r => exact takeWorkRun_inner _ _ _ ho
  | writeback => exact takeWriteback_inner s ho

theorem takeNormal_inner {H P : Prop} (s : State) (c : Channel) (o : Offered)
    (ho : P → s.mayOpen) : Inner H P s (s.takeNormal c o) :=
  (sched_inner s _).trans (takeOffered_inner _ _ ho)

theorem beginRescue_inner {H P : Prop} (s : State) : Inner H P s s.beginRescue := by
  unfold State.beginRescue
  split
  · exact Inner.refl H P s
  · next hr =>
    split
    · exact Inner.refl H P s
    · next e es he =>
      have h : Inner H P s { s with dm := { s.dm with rescueList := es } } := by
        refine Inner.ofDm s _ (bounded_sublist ?_) rfl
        rw [he]
        exact List.sublist_cons_self e es
      have hready : s.ctl.state = .ready := by
        simp only [Bool.or_eq_true, not_or, bne_iff_ne, ne_eq, Decidable.not_not] at hr
        exact hr.2
      exact { h with
        nextId := Nat.le_succ _
        works := fun w => by
          rw [worksOwned_iff] at w ⊢
          intro v hv
          rcases List.mem_append.mp hv with hv | hv
          · exact Nat.lt_succ_of_lt (w v hv)
          · rw [List.mem_singleton.mp hv]; exact Nat.lt_succ_self _
        phase := fun _ _ w =>
          { w with
            emptied := fun e => by
              have : s.ctl.state = .empty := e
              rw [hready] at this
              cases this } }

theorem examineRescue_inner {H P : Prop} (s : State) : Inner H P s s.examineRescue := by
  unfold State.examineRescue
  split
  · exact Inner.refl H P s
  · exact rescueDataStep_inner ..

theorem takeReadAhead_inner {H P : Prop} (s : State) (c : Channel) (r : ReadAhead) (run : Run) :
    Inner H P s (s.takeReadAhead c r run) := by
  unfold State.takeReadAhead
  dsimp only
  exact (((Inner.foldl _ (fun s l => (takeReadAheadSlot_only s c l).inner) _ s).trans
    (setReadAhead_inner ..)).trans (sched_inner _ _)).trans (startReading_inner ..)

theorem tryReadAhead_inner {H P : Prop} (s : State) (c : Channel) : Inner H P s (s.tryReadAhead c).1 := by
  unfold State.tryReadAhead
  split
  · exact Inner.refl H P s
  · split
    · exact setReadAhead_inner ..
    · exact takeReadAhead_inner ..

theorem chooseReadAhead_inner {H P : Prop} (s : State) : Inner H P s s.chooseReadAhead := by
  unfold State.chooseReadAhead
  split
  · exact Inner.refl H P s
  · dsimp only
    exact Inner.ite _ (tryReadAhead_inner ..)
      (Inner.ite _ ((tryReadAhead_inner ..).trans (tryReadAhead_inner ..)) (tryReadAhead_inner ..))

theorem chooseRescue_inner {H P : Prop} (s : State) (ho : P → s.mayOpen) :
    Inner H P s s.chooseRescue := by
  unfold State.chooseRescue
  dsimp only
  have h := (beginRescue_inner (H := H) (P := P) s).trans (examineRescue_inner _)
  have g := (beginRescue_gate s).trans (examineRescue_gate _)
  have ho' : P → s.beginRescue.examineRescue.mayOpen := fun p => g.mayOpen (ho p)
  split
  · exact h.trans (takeOffered_inner _ _ ho')
  · exact h.trans (Inner.ite _ (takeWriteback_inner _ ho') (chooseReadAhead_inner _))

theorem chooseInOrder_inner {H P : Prop} (s : State) (ho : P → s.mayOpen) :
    Inner H P s s.chooseInOrder := by
  unfold State.chooseInOrder
  split
  · next r u hr _ =>
    split
    · exact startNextPass_inner ..
    · next hl =>
      refine takeUrgent_inner _ _ (fun q hq => ?_)
      cases hr.symm.trans hq
      omega
  · exact startNextPass_inner ..
  · next hn _ => exact takeUrgent_inner _ _ (fun q hq => by cases hn.symm.trans hq)
  · unfold State.chooseWithoutRun
    split
    · exact takeWorkRun_inner _ _ _ ho
    · split
      · exact takeNormal_inner _ _ _ ho
      · exact chooseRescue_inner s ho

/-- A choice of the Head Scheduler (R107, R109). -/
theorem choose_inner {H P : Prop} (s : State) : Inner H P s s.choose := by
  unfold State.choose
  split
  · exact Inner.refl H P s
  · next h =>
    simp only [Bool.or_eq_true, not_or, Bool.not_eq_true, Option.isSome_eq_false_iff,
      Option.isNone_iff_eq_none] at h
    split
    · next hs => exact chooseInOrder_inner s (fun _ => ⟨Or.inl hs, h.2⟩)
    · next hs => exact chooseInOrder_inner s (fun _ => ⟨Or.inr hs, h.2⟩)
    · next hs =>
      unfold State.chooseIndex
      split
      · exact Inner.refl H P s
      · exact (updCtl_inner ..).trans (startReading_inner _ _ _ _ (fun _ _ _ => hs))
    all_goals exact Inner.refl H P s

/-! ### The Mechanism Link Controller (Chapter 7) -/

theorem medium_inner {H P : Prop} (s : State) : Inner H P s s.mediumCutOff := by
  unfold State.mediumCutOff
  split
  · split
    · exact Inner.of
    · exact Inner.of
    · exact Inner.refl H P s
  · exact Inner.refl H P s

theorem endCommand_inner {H P : Prop} (s : State) : Inner H P s s.endCommand :=
  ((medium_inner s).trans (linkToIdle_inner _)).trans (updCtl_inner ..)

theorem finalFailure_inner {H P : Prop} (s : State) (cause : FailureCause) :
    Inner H P s (s.finalFailure cause) := by
  unfold State.finalFailure
  split
  · exact (endCommand_inner s).trans (engineSeekFailed_inner _)
  all_goals exact (endCommand_inner s).trans (linkFault_inner _)

theorem failedAnswer_inner {H P : Prop} (s : State) (cause : FailureCause) :
    Inner H P s (s.failedAnswer cause) := by
  unfold State.failedAnswer
  split
  · exact Inner.refl H P s
  · next c hc =>
    dsimp only
    have h : Inner H P s (s.updLink (fun l => { l with lastFailure := some cause })) :=
      Inner.ofLink s _ (fun w => w) (fun _ w => w)
    refine Inner.ite _ (h.trans (Inner.ofLink _ _ (fun _ => ?_) (fun _ _ => rfl)
      (fun _ w => w.sender))) (h.trans (finalFailure_inner ..))
    show Link.law7 _ = true
    simp only [Link.law7, Link.reissue, State.updLink, hc]
    rfl

theorem commandDone_inner {H P : Prop} (s : State) (c : OutstandingCommand) (rec : StateRecord)
    (hc : s.link.outstanding = some c) : Inner H P s (s.commandDone c rec) := by
  unfold State.commandDone
  dsimp only
  split
  · refine Inner.weaken (K := H) (H := s.memoryWf = true) ?_ (fun _ w => w)
    refine Inner.trans (linkToIdle_inner s) (engineDone_inner _ _ _ (fun w => ?_))
    simp only [State.memoryWf, Bool.and_eq_true] at w
    exact w.1.1.2
  · next hk =>
    refine Inner.weakenPhase (Q := s.sched.openRun = none) ?_ (fun _ w => w.sender c hc hk)
    refine Inner.trans (Inner.ite _ ((linkToIdle_inner s).trans (updCtl_inner ..))
      (linkToIdle_inner s)) (controllerDone_inner _ _ _ _ (fun q _ => ?_))
    split <;> exact q

theorem acceptAnswer_inner {H P : Prop} (s : State) (c : OutstandingCommand) (a : Answer)
    (hc : s.link.outstanding = some c) : Inner H P s (s.acceptAnswer c a) := by
  unfold State.acceptAnswer
  split
  · exact commandDone_inner _ _ _ hc
  · exact (endCommand_inner s).trans (removal_inner _)
  · exact (linkToIdle_inner s).trans (engineRefused_inner _)
  · exact failedAnswer_inner ..
  · exact failedAnswer_inner ..

theorem responseTaken_inner {H P : Prop} (s : State) (n : Byte) (a : Answer) :
    Inner H P s (s.responseTaken n a) := by
  unfold State.responseTaken
  split
  · exact Inner.refl H P s
  · next hc =>
    exact Inner.ite _ (Inner.refl H P s)
      (Inner.ite _ (acceptAnswer_inner _ _ _ hc) (failedAnswer_inner ..))

theorem dataFrameTaken_inner {H P : Prop} (s : State) (n : Byte) (sector : Nat) (f : SectorFrame) :
    Inner H P s (s.dataFrameTaken n sector f) := by
  unfold State.dataFrameTaken
  split
  · exact Inner.refl H P s
  · next c hc =>
    split
    · exact Inner.refl H P s
    · split
      · split
        · refine Inner.ofLink s _ (fun w => ?_) (fun _ w => ?_) (fun _ w => w.sender)
          · simp only [Link.law7, hc] at w ⊢
            exact w
          · simp only [Link.receivedWf, List.all_append, List.all_cons, List.all_nil,
              Bool.and_true, Bool.and_eq_true] at w ⊢
            exact ⟨w, Memory.canonical_wf _⟩
        · exact failedAnswer_inner ..
      · exact failedAnswer_inner ..

theorem damagedTaken_inner {H P : Prop} (s : State) : Inner H P s s.damagedTaken := by
  unfold State.damagedTaken
  split
  · exact failedAnswer_inner ..
  · exact Inner.refl H P s
  · exact Inner.refl H P s

theorem commandTimesOut_inner {H P : Prop} (s : State) : Inner H P s s.commandTimesOut := by
  unfold State.commandTimesOut
  split
  · exact failedAnswer_inner ..
  · exact Inner.refl H P s

theorem eventTaken_inner {H P : Prop} (s : State) (n : Byte) (act : State → State)
    (ha : ∀ t, Inner H P t (act t)) : Inner H P s (s.eventTaken n act) := by
  unfold State.eventTaken
  dsimp only
  have h : Inner H P s (s.updLink (fun l => { l with sent := l.sent ++ [.eventAck n] })) :=
    Inner.ofLink s _ (fun w => w) (fun _ w => w)
  have h2 := h.trans (Inner.ofLink (H := H) (P := P) _ { (s.updLink
    (fun l => { l with sent := l.sent ++ [.eventAck n] })).link with lastEvent := some n }
      (fun w => w) (fun _ w => w))
  exact Inner.ite _ h (h2.trans (ha _))

theorem cancelCommand_inner {H P : Prop} (s : State) : Inner H P s s.cancelCommand := by
  unfold State.cancelCommand
  split
  · exact Inner.refl H P s
  · exact endCommand_inner s

end Sys2Proof.Machine
end

