-- ==== Sys2Proof/Laws/Finish.lean ====
section
/-! SUPPORT. What the end of a step does (`State.finish`): posting, and what it leaves alone. -/

set_option Elab.async false

namespace Sys2Proof.Machine

/-! ### The channels, once more -/

@[simp] theorem PerChannel.set_get {α : Type} (p : PerChannel α) (c : Channel) :
    p.set c (p.get c) = p := by cases c <;> rfl

@[simp] theorem PerChannel.modify_id {α : Type} (p : PerChannel α) (c : Channel) :
    p.modify c (fun x => x) = p := by cases c <;> rfl

theorem PerChannel.modify_modify {α : Type} (p : PerChannel α) (c : Channel) (f g : α → α) :
    (p.modify c f).modify c g = p.modify c (fun x => g (f x)) := by cases c <;> rfl

theorem PerChannel.get_modify {α : Type} (p : PerChannel α) (c d : Channel) (f : α → α) :
    (p.modify c f).get d = if d = c then f (p.get d) else p.get d := by
  cases c <;> cases d <;> rfl

/-! ### Completions (R167) -/

/-- The DONE requests of a channel, in acceptance order. -/
def State.doneOf (s : State) (c : Channel) : List Request :=
  (s.reqs c).filter (fun r => r.state == .done)

/-- A port with completions posted at a time. -/
def Port.posted (p : Port) (rs : List Request) (time : BitVec 32) : Port :=
  { p with outbox := p.outbox ++ rs.map (fun r => r.completion time),
           counters := rs.foldl Counters.count p.counters }

theorem postCompletions_eq (c : Channel) (rs : List Request) (s : State) :
    rs.foldl (fun s r => s.postCompletion c r) s =
      { s with ports := s.ports.modify c (fun p => p.posted rs s.timebase) } := by
  induction rs generalizing s with
  | nil =>
    have h : (fun p : Port => p.posted [] s.timebase) = fun p => p := by
      funext p
      simp only [Port.posted, List.map_nil, List.append_nil, List.foldl_nil]
    rw [h, PerChannel.modify_id]
    rfl
  | cons r rs ih =>
    rw [List.foldl_cons, ih]
    simp only [State.postCompletion, State.postBlock, State.updPort, PerChannel.modify_modify]
    congr 2
    funext p
    simp only [Port.posted, List.map_cons, List.foldl_cons, List.append_assoc, List.cons_append,
      List.nil_append]

/-- The completions of a channel are posted in acceptance order, and the DONE requests leave
(R167). -/
theorem flushChannel_eq (s : State) (c : Channel) : s.flushChannel c =
    { s with
      ports := s.ports.modify c (fun p => p.posted (s.doneOf c) s.timebase)
      requests := s.requests.modify c (fun rs => rs.filter (fun r => r.state != .done)) } := by
  unfold State.flushChannel
  dsimp only
  rw [show (s.reqs c).filter (fun r => r.state == .done) = s.doneOf c from rfl,
    postCompletions_eq]

/-! ### Notices (R168) -/

theorem noticesAscend_iff (ns : List Notice) :
    noticesAscend ns = true ↔ ns.Pairwise (fun m n => m.index < n.index) := by
  unfold noticesAscend
  rw [ascending_iff (fun x y z => by simpa using Nat.lt_trans)]
  simp only [decide_eq_true_eq]

theorem mem_insertNotice {n m : Notice} {ns : List Notice} (h : m ∈ insertNotice n ns) :
    m = n ∨ m ∈ ns := by
  induction ns with
  | nil => exact Or.inl (List.mem_singleton.mp h)
  | cons k ks ih =>
    unfold insertNotice at h
    split at h
    · exact List.mem_cons.mp h
    · split at h
      · exact Or.inr h
      · rcases List.mem_cons.mp h with h | h
        · exact Or.inr (List.mem_cons.mpr (Or.inl h))
        · exact (ih h).imp id (List.mem_cons_of_mem _)

/-- A kind that joins the set takes its place in ascending code (R168). -/
theorem insertNotice_ascends {n : Notice} {ns : List Notice} (h : noticesAscend ns = true) :
    noticesAscend (insertNotice n ns) = true := by
  rw [noticesAscend_iff] at h ⊢
  induction ns with
  | nil => exact List.pairwise_singleton ..
  | cons k ks ih =>
    have hk := List.pairwise_cons.mp h
    unfold insertNotice
    split
    · next hlt =>
      refine List.pairwise_cons.mpr ⟨fun m hm => ?_, h⟩
      rcases List.mem_cons.mp hm with rfl | hm
      · exact hlt
      · exact Nat.lt_trans hlt (hk.1 m hm)
    · split
      · exact h
      · next hlt hne =>
        refine List.pairwise_cons.mpr ⟨fun m hm => ?_, ih hk.2⟩
        rcases mem_insertNotice hm with rfl | hm
        · omega
        · exact hk.1 m hm

/-- Kinds that leave the set leave the rest in ascending code (R168). -/
theorem filter_ascends {ns : List Notice} (f : Notice → Bool) (h : noticesAscend ns = true) :
    noticesAscend (ns.filter f) = true := by
  rw [noticesAscend_iff] at h ⊢
  exact h.sublist List.filter_sublist

/-- A port without its outbox and its pending notices. -/
def Port.noticeFrame (p : Port) : Port := { p with outbox := [], pendingNotices := [] }

/-- Notices posted: only the ports differ, in their outboxes and pending notices; an outbox gains
notice blocks at its tail, and never more than its free places beyond the owed ones; the pending sets stay
in ascending code. -/
structure NoticesPosted (s t : State) : Prop where
  rest : t = { s with ports := t.ports }
  frame : ∀ c, (t.port c).noticeFrame = (s.port c).noticeFrame
  added : ∀ c, ∃ ns : List Notice, (t.port c).outbox =
    (s.port c).outbox ++ ns.map (fun n => noticeBlock n s.timebase)
  room : ∀ c, (s.port c).outbox.length + (s.reqs c).length ≤ 16 →
    (t.port c).outbox.length + (t.reqs c).length ≤ 16
  ascend : ∀ c, noticesAscend (s.port c).pendingNotices = true →
    noticesAscend (t.port c).pendingNotices = true

theorem NoticesPosted.refl (s : State) : NoticesPosted s s :=
  ⟨rfl, fun _ => rfl, fun _ => ⟨[], by simp⟩, fun _ h => h, fun _ h => h⟩

theorem NoticesPosted.trans {s t u : State} (a : NoticesPosted s t) (b : NoticesPosted t u) :
    NoticesPosted s u where
  rest := by rw [b.rest, a.rest]
  frame c := (b.frame c).trans (a.frame c)
  added c := by
    obtain ⟨ns, h1⟩ := a.added c
    obtain ⟨ms, h2⟩ := b.added c
    refine ⟨ns ++ ms, ?_⟩
    have ht : t.timebase = s.timebase := by rw [a.rest]
    rw [h2, h1, ht, List.map_append, List.append_assoc]
  room c h := b.room c (a.room c h)
  ascend c h := b.ascend c (a.ascend c h)

/-- A notice joins or leaves the pending set at one port. -/
theorem pendNotice_posted (s : State) (c : Channel) (f : Port → Port)
    (hf : ∀ p, (f p).noticeFrame = p.noticeFrame) (ho : ∀ p, (f p).outbox = p.outbox)
    (ha : ∀ p, noticesAscend p.pendingNotices = true →
      noticesAscend (f p).pendingNotices = true) :
    NoticesPosted s (s.updPort c f) where
  rest := rfl
  frame d := by
    rw [port_updPort]
    split
    · exact hf _
    · rfl
  added d := by
    refine ⟨[], ?_⟩
    rw [port_updPort]
    split <;> simp [ho]
  room d h := by
    rw [port_updPort]
    split
    · rw [ho]; exact h
    · exact h
  ascend d h := by
    rw [port_updPort]
    split
    · exact ha _ h
    · exact h

/-- A notice block posted where there is room. -/
theorem postNoticeBlock_posted (s : State) (c : Channel) (n : Notice)
    (h : s.noticeRoom c = true) : NoticesPosted s (s.postBlock c (noticeBlock n s.timebase)) where
  rest := rfl
  frame d := by
    unfold State.postBlock
    rw [port_updPort]
    split <;> rfl
  added d := by
    unfold State.postBlock
    rw [port_updPort]
    split
    · exact ⟨[n], rfl⟩
    · exact ⟨[], by simp⟩
  room d hd := by
    unfold State.postBlock
    rw [port_updPort]
    split
    · next hc =>
      subst hc
      have h := of_decide_eq_true h
      simp only [Port.freePlaces, Config.outboxPlaces] at h
      have hr : (State.reqs (s.updPort d (fun p =>
        { p with outbox := p.outbox ++ [noticeBlock n s.timebase] })) d) = s.reqs d := rfl
      rw [hr]
      simp only [List.length_append, List.length_cons, List.length_nil]
      omega
    · exact hd
  ascend d h := by
    unfold State.postBlock
    rw [port_updPort]
    split <;> exact h

theorem postNotice_posted (s : State) (c : Channel) (n : Notice) :
    NoticesPosted s (s.postNotice c n) := by
  unfold State.postNotice
  split
  · next h => exact postNoticeBlock_posted s c n h
  · exact pendNotice_posted s c _ (fun _ => rfl) (fun _ => rfl) (fun _ => insertNotice_ascends)

theorem postPendingList_posted (c : Channel) (ns : List Notice) (s : State) :
    NoticesPosted s (s.postPendingList c ns) := by
  induction ns generalizing s with
  | nil => exact NoticesPosted.refl s
  | cons n ns ih =>
    unfold State.postPendingList
    split
    · next h =>
      refine NoticesPosted.trans (NoticesPosted.trans (postNoticeBlock_posted s c n h)
        (pendNotice_posted _ c _ ?_ ?_ ?_)) (ih _)
      · exact fun _ => rfl
      · exact fun _ => rfl
      · exact fun _ => filter_ascends _
    · exact NoticesPosted.refl s

theorem postPending_posted (s : State) (c : Channel) : NoticesPosted s (s.postPending c) :=
  postPendingList_posted c _ s

theorem postNotices_posted (ns : List Notice) (s : State) :
    NoticesPosted s (ns.foldl (fun s n => (s.postNotice .A n).postNotice .B n) s) := by
  induction ns generalizing s with
  | nil => exact NoticesPosted.refl s
  | cons n ns ih =>
    exact ((postNotice_posted s .A n).trans (postNotice_posted _ .B n)).trans (ih _)

/-! ### The whole of the postings -/

/-- What the postings at the end of a step can do. -/
structure Flushed (s t : State) : Prop where
  rest : t = { s with ports := t.ports, requests := t.requests, raised := [] }
  reqs : ∀ c, t.reqs c = (s.reqs c).filter (fun r => r.state != .done)
  frame : ∀ c, (t.port c).noticeFrame =
    ((s.port c).posted (s.doneOf c) s.timebase).noticeFrame
  outbox : ∀ c, ∃ ns : List Notice, (t.port c).outbox = (s.port c).outbox ++
    (s.doneOf c).map (fun r => r.completion s.timebase) ++
      ns.map (fun n => noticeBlock n s.timebase)
  room : ∀ c, (s.port c).outbox.length + (s.reqs c).length ≤ 16 →
    (t.port c).outbox.length + (t.reqs c).length ≤ 16
  ascend : ∀ c, noticesAscend (s.port c).pendingNotices = true →
    noticesAscend (t.port c).pendingNotices = true

/-- The state after both channels' completions, before the notices. -/
def State.completionsPosted (s : State) : State := (s.flushChannel .A).flushChannel .B

theorem completionsPosted_eq (s : State) : s.completionsPosted =
    { s with
      ports := { a := s.ports.a.posted (s.doneOf .A) s.timebase
                 b := s.ports.b.posted (s.doneOf .B) s.timebase }
      requests := { a := s.requests.a.filter (fun r => r.state != .done)
                    b := s.requests.b.filter (fun r => r.state != .done) } } := by
  unfold State.completionsPosted
  rw [flushChannel_eq, flushChannel_eq]
  rfl

theorem filter_done_length (rs : List Request) :
    (rs.filter (fun r => r.state == .done)).length +
      (rs.filter (fun r => r.state != .done)).length = rs.length := by
  induction rs with
  | nil => rfl
  | cons r rs ih =>
    simp only [List.filter_cons]
    cases h : r.state == RequestState.done <;>
      simp only [bne, h, Bool.not_true, Bool.not_false, if_true, if_false, Bool.false_eq_true,
        List.length_cons] <;> simp only [bne] at ih <;> omega

theorem flush_flushed (s : State) : Flushed s s.flush := by
  have hp := postNotices_posted s.raised s.completionsPosted
  have he := completionsPosted_eq s
  have hr : s.completionsPosted.raised = s.raised := by rw [he]
  have hu : s.flush = { (s.raised.foldl (fun s n => (s.postNotice .A n).postNotice .B n)
      s.completionsPosted) with raised := [] } := by
    show State.flushNotices s.completionsPosted = _
    unfold State.flushNotices
    dsimp only
    rw [hr]
  rw [hu]
  generalize (s.raised.foldl (fun s n => (s.postNotice .A n).postNotice .B n)
      s.completionsPosted) = u at hp
  have hq : ∀ c, u.reqs c = (s.reqs c).filter (fun r => r.state != .done) := by
    intro c
    have : u.requests = s.completionsPosted.requests := by rw [hp.rest]
    simp only [State.reqs, this, he]
    cases c <;> rfl
  have hport : ∀ c, s.completionsPosted.port c = (s.port c).posted (s.doneOf c) s.timebase := by
    intro c
    rw [he]
    cases c <;> rfl
  exact
    { rest := by
        show { u with raised := [] } = _
        rw [hp.rest, he]
      reqs := hq
      frame := fun c => by
        have := hp.frame c
        rw [hport] at this
        exact this
      outbox := fun c => by
        obtain ⟨ns, h⟩ := hp.added c
        refine ⟨ns, ?_⟩
        rw [hport] at h
        have ht : s.completionsPosted.timebase = s.timebase := by rw [he]
        rw [ht] at h
        exact h
      room := fun c h => by
        have := hp.room c
        rw [hport] at this
        refine this ?_
        have h1 : s.completionsPosted.reqs c = (s.reqs c).filter (fun r => r.state != .done) := by
          rw [he]; cases c <;> rfl
        rw [h1]
        simp only [Port.posted, List.length_append, List.length_map, State.doneOf]
        have := filter_done_length (s.reqs c)
        omega
      ascend := fun c h => by
        refine hp.ascend c ?_
        rw [hport]
        exact h }

/-! ### Idle remaining (R181) -/

/-- `refreshIdle` changes idle remaining alone. -/
theorem refreshIdle_eq (old s : State) (c : Channel) :
    ∃ n, State.refreshIdle old s c = s.updPort c (fun p => { p with idle := n }) := by
  unfold State.refreshIdle
  split
  · exact ⟨none, rfl⟩
  · split
    · refine ⟨(s.port c).idle, ?_⟩
      cases c <;> rfl
    · refine ⟨idleCount (s.port c).settings.idleLimit, ?_⟩
      cases c <;> rfl

/-- Idle remaining changed alone. -/
structure IdleOnly (s t : State) : Prop where
  rest : t = { s with ports := t.ports }
  frame : ∀ c, { t.port c with idle := none } = { s.port c with idle := none }

theorem refreshIdle_only (old s : State) (c : Channel) : IdleOnly s (State.refreshIdle old s c) := by
  obtain ⟨n, h⟩ := refreshIdle_eq old s c
  rw [h]
  refine ⟨rfl, fun d => ?_⟩
  rw [port_updPort]
  split <;> rfl

theorem IdleOnly.trans {s t u : State} (a : IdleOnly s t) (b : IdleOnly t u) : IdleOnly s u :=
  ⟨by rw [b.rest, a.rest], fun c => (b.frame c).trans (a.frame c)⟩

/-! ### The reads at the end of a step -/

/-- What the READs' following and the read-ahead moments leave alone. -/
structure ReadsOnly (s t : State) : Prop where
  rest : t = { s with ports := t.ports, requests := t.requests, pool := t.pool, sched := t.sched }
  sched : t.sched = { s.sched with readAhead := t.sched.readAhead }
  ports : ∀ c, (t.port c).frame = (s.port c).frame
  keys : ∀ c, (t.reqs c).map Request.key = (s.reqs c).map Request.key

theorem ReadsOnly.refl (s : State) : ReadsOnly s s := ⟨rfl, rfl, fun _ => rfl, fun _ => rfl⟩

theorem ReadsOnly.trans {s t u : State} (a : ReadsOnly s t) (b : ReadsOnly t u) : ReadsOnly s u :=
  ⟨by rw [b.rest, a.rest], by rw [b.sched, a.sched], fun c => (b.ports c).trans (a.ports c),
   fun c => (b.keys c).trans (a.keys c)⟩

theorem PoolOnly.reads {s t : State} (a : PoolOnly True s t) : ReadsOnly s t :=
  ⟨by rw [a.rest], by rw [a.rest], fun _ => by rw [a.rest]; rfl, fun _ => by rw [a.rest]; rfl⟩

theorem updReq_reads (s : State) (c : Channel) (id : Nat) (f : Request → Request)
    (hf : ∀ r, (f r).key = r.key) : ReadsOnly s (s.updReq c id f) :=
  ⟨rfl, rfl, fun _ => rfl, (updReq_inner (H := True) (P := True) s c id f hf).keys⟩

theorem updPort_reads (s : State) (c : Channel) (f : Port → Port)
    (hf : ∀ p, (f p).frame = p.frame) : ReadsOnly s (s.updPort c f) :=
  ⟨rfl, rfl, fun d => by
    rw [port_updPort]
    split
    · exact hf _
    · rfl, fun _ => rfl⟩

theorem settleReq_reads (s : State) (c : Channel) (id : Nat) (st : Status) :
    ReadsOnly s (s.settleReq c id st) := by
  refine ReadsOnly.trans (updReq_reads s c id _ ?_) (updPort_reads _ c _ ?_)
  · exact fun _ => rfl
  · exact fun _ => rfl

theorem endRead_reads (s : State) (c : Channel) (id : Nat) (st : Status) (short : Bool)
    (ff : Option Nat) : ReadsOnly s (s.endRead c id st short ff) := by
  unfold State.endRead
  split
  · exact ReadsOnly.refl s
  · refine ReadsOnly.trans (ReadsOnly.trans (ReadsOnly.trans (updReq_reads s c id _ ?_)
      (settleReq_reads _ c id st)) (releaseBindings_only _ _ _).reads) (leaveSlotWait_only _ id).reads
    exact fun _ => rfl

theorem settleRead_reads (s : State) (c : Channel) (id : Nat) :
    ReadsOnly s (s.settleRead c id) := by
  unfold State.settleRead
  split
  · exact ReadsOnly.refl s
  · split
    · split
      · exact endRead_reads ..
      · split
        · exact ReadsOnly.refl s
        · split
          · refine ReadsOnly.trans (updReq_reads s c id _ ?_) (updPort_reads _ c _ ?_)
            · exact fun _ => rfl
            · exact fun _ => rfl
          · refine updReq_reads s c id _ ?_
            exact fun _ => rfl
    · exact ReadsOnly.refl s

theorem ReadsOnly.foldl {α : Type} (f : State → α → State)
    (h : ∀ s x, ReadsOnly s (f s x)) (xs : List α) (s : State) : ReadsOnly s (xs.foldl f s) := by
  induction xs generalizing s with
  | nil => exact ReadsOnly.refl s
  | cons x xs ih => exact (h s x).trans (ih (f s x))

theorem settleReads_reads (s : State) : ReadsOnly s s.settleReads :=
  (ReadsOnly.foldl _ (fun s id => settleRead_reads s .A id) _ s).trans
    (ReadsOnly.foldl _ (fun s id => settleRead_reads s .B id) _ _)

theorem setReadAhead_reads (s : State) (c : Channel) (ra : Option ReadAhead) :
    ReadsOnly s (s.setReadAhead c ra) := ⟨rfl, rfl, fun _ => rfl, fun _ => rfl⟩

theorem readAheadMoment_reads (s : State) (c : Channel) (id : Nat) :
    ReadsOnly s (s.readAheadMoment c id) := by
  unfold State.readAheadMoment
  split
  · exact ReadsOnly.refl s
  · split
    · refine ReadsOnly.trans (setReadAhead_reads s c _) (updReq_reads _ c id _ ?_)
      exact fun _ => rfl
    · exact ReadsOnly.refl s

theorem readAheadMoments_reads (s : State) : ReadsOnly s s.readAheadMoments :=
  (ReadsOnly.foldl _ (fun s id => readAheadMoment_reads s .A id) _ s).trans
    (ReadsOnly.foldl _ (fun s id => readAheadMoment_reads s .B id) _ _)

/-! ### The end of a step -/

/-- The state of a step's end before its postings. -/
def State.beforePosting (s : State) : State := s.settleReads.readAheadMoments.ejectWhenAnswered

theorem finish_eq (old s : State) : State.finish old s =
    State.refreshIdle old (State.refreshIdle old s.beforePosting.flush .A) .B := rfl

/-- `ejectWhenAnswered` changes the lifecycle state and the link alone (R143). -/
theorem ejectWhenAnswered_rest (s : State) : s.ejectWhenAnswered =
    { s with ctl := s.ejectWhenAnswered.ctl, link := s.ejectWhenAnswered.link } := by
  unfold State.ejectWhenAnswered
  split
  · unfold State.beginEject State.sendCommand State.updCtl
    split <;> rfl
  · rfl

/-- What the end of a step leaves as the step's effect made it: everything but the ports' transfers,
outboxes, notices, counters and idle counts, the requests, the pool and the read-ahead records, and, where
an answered unmount goes on to its eject, the lifecycle state and the link. -/
structure Finished (s t : State) : Prop where
  timebase : t.timebase = s.timebase
  policy : t.policy = s.policy
  reservations : t.reservations = s.reservations
  works : t.works = s.works
  dm : t.dm = s.dm
  engine : t.engine = s.engine
  sched : t.sched = { s.sched with readAhead := t.sched.readAhead }
  medium : t.medium = s.medium
  ctl : t.ctl = s.ejectWhenAnswered.ctl
  link : t.link = s.ejectWhenAnswered.link
  raised : t.raised = []
  nextId : t.nextId = s.nextId
  pending : t.pending = s.pending
  settings : ∀ c, (t.port c).settings = (s.port c).settings
  partialBlock : ∀ c, (t.port c).partialBlock = (s.port c).partialBlock
  headRead : ∀ c, (t.port c).headRead = (s.port c).headRead
  overrun : ∀ c, (t.port c).overrun = (s.port c).overrun
  busOut : ∀ c, (t.port c).busOut = (s.port c).busOut
  outbox : ∀ c, ∃ bs, (t.port c).outbox = (s.port c).outbox ++ bs
  keys : ∀ c, ((t.reqs c).map Request.key).Sublist ((s.reqs c).map Request.key)
  room : ∀ c, (s.port c).outbox.length + (s.reqs c).length ≤ 16 →
    (t.port c).outbox.length + (t.reqs c).length ≤ 16

/-- Sending the eject depends on the lifecycle state, the link, the engine and the open run alone. -/
theorem ejectWhenAnswered_congr {s t : State} (hc : t.ctl = s.ctl) (hl : t.link = s.link)
    (he : t.engine = s.engine) (ho : t.sched.openRun = s.sched.openRun) :
    t.ejectWhenAnswered.ctl = s.ejectWhenAnswered.ctl ∧ t.ejectWhenAnswered.link = s.ejectWhenAnswered.link := by
  obtain ⟨⟩ := s
  obtain ⟨⟩ := t
  cases hc
  cases hl
  cases he
  unfold State.ejectWhenAnswered
  dsimp only at ho ⊢
  rw [ho]
  split
  · unfold State.beginEject State.sendCommand State.updCtl
    dsimp only
    split <;> exact ⟨rfl, rfl⟩
  · exact ⟨rfl, rfl⟩

theorem Port.frame_fields {p q : Port} (h : p.frame = q.frame) :
    p.settings = q.settings ∧ p.partialBlock = q.partialBlock ∧ p.headRead = q.headRead ∧
      p.overrun = q.overrun ∧ p.busOut = q.busOut ∧ p.outbox = q.outbox ∧
        p.counters = q.counters := by
  obtain ⟨⟩ := p
  obtain ⟨⟩ := q
  simp only [Port.frame, Port.mk.injEq] at h
  obtain ⟨h1, h2, h3, h4, _, _, h7, h8, h9, h10⟩ := h
  exact ⟨h8, h1, h3, h7, h10, h2, h9⟩

theorem Port.frame_notices {p q : Port} (h : p.frame = q.frame) :
    p.pendingNotices = q.pendingNotices := by
  obtain ⟨⟩ := p
  obtain ⟨⟩ := q
  simp only [Port.frame, Port.mk.injEq] at h
  exact h.2.2.2.1

theorem Port.noticeFrame_fields {p q : Port} (h : p.noticeFrame = q.noticeFrame) :
    p.settings = q.settings ∧ p.partialBlock = q.partialBlock ∧ p.headRead = q.headRead ∧
      p.overrun = q.overrun ∧ p.busOut = q.busOut ∧ p.transfers = q.transfers ∧
        p.counters = q.counters := by
  obtain ⟨⟩ := p
  obtain ⟨⟩ := q
  simp only [Port.noticeFrame, Port.mk.injEq] at h
  obtain ⟨h1, _, h3, _, h5, h6, h7, h8, h9, h10⟩ := h
  exact ⟨h8, h1, h3, h7, h10, h5, h9⟩

theorem Port.idle_fields {p q : Port}
    (h : { p with idle := none } = ({ q with idle := none } : Port)) :
    p.settings = q.settings ∧ p.partialBlock = q.partialBlock ∧ p.headRead = q.headRead ∧
      p.overrun = q.overrun ∧ p.busOut = q.busOut ∧ p.outbox = q.outbox ∧
        p.transfers = q.transfers ∧ p.counters = q.counters ∧
          p.pendingNotices = q.pendingNotices := by
  obtain ⟨⟩ := p
  obtain ⟨⟩ := q
  simp only [Port.mk.injEq] at h
  obtain ⟨h1, h2, h3, h4, h5, _, h7, h8, h9, h10⟩ := h
  exact ⟨h8, h1, h3, h7, h10, h2, h5, h9, h4⟩

theorem beforePosting_reads (s : State) : ReadsOnly s (s.settleReads.readAheadMoments) :=
  (settleReads_reads s).trans (readAheadMoments_reads _)

/-- What stands before the postings, against the step's effect. -/
structure Before (s b : State) : Prop where
  rest : b = { s with ports := b.ports, requests := b.requests, pool := b.pool, sched := b.sched,
                      ctl := s.ejectWhenAnswered.ctl, link := s.ejectWhenAnswered.link }
  sched : b.sched = { s.sched with readAhead := b.sched.readAhead }
  ports : ∀ c, (b.port c).frame = (s.port c).frame
  keys : ∀ c, (b.reqs c).map Request.key = (s.reqs c).map Request.key

theorem before_of {s r : State} (h : ReadsOnly s r) : Before s r.ejectWhenAnswered := by
  have he := ejectWhenAnswered_rest r
  have hc := ejectWhenAnswered_congr (s := s) (t := r)
    (by rw [h.rest]) (by rw [h.rest]) (by rw [h.rest]) (by rw [h.sched])
  generalize r.ejectWhenAnswered = b at he hc ⊢
  refine ⟨?_, ?_, fun c => ?_, fun c => ?_⟩
  · rw [← hc.1, ← hc.2, he, h.rest]
  · rw [he]
    exact h.sched
  · rw [he]
    exact h.ports c
  · rw [he]
    exact h.keys c

theorem beforePosting_before (s : State) : Before s s.beforePosting :=
  before_of (beforePosting_reads s)

theorem keys_length {rs qs : List Request} (h : rs.map Request.key = qs.map Request.key) :
    rs.length = qs.length := by
  have := congrArg List.length h
  simpa only [List.length_map] using this

theorem finished_of {s b f t : State} (hb : Before s b) (hf : Flushed b f) (hi : IdleOnly f t) :
    Finished s t ∧ ∀ c, t.reqs c = (b.reqs c).filter (fun r => r.state != .done) := by
  have hreqt : ∀ c, t.reqs c = f.reqs c := by
    intro c
    rw [hi.rest]
    rfl
  have frame : ∀ c, (t.port c).settings = (s.port c).settings ∧
      (t.port c).partialBlock = (s.port c).partialBlock ∧
      (t.port c).headRead = (s.port c).headRead ∧ (t.port c).overrun = (s.port c).overrun ∧
      (t.port c).busOut = (s.port c).busOut := by
    intro c
    have a := Port.idle_fields (hi.frame c)
    have b := Port.noticeFrame_fields (hf.frame c)
    have p := Port.frame_fields (hb.ports c)
    exact ⟨a.1.trans (b.1.trans p.1), a.2.1.trans (b.2.1.trans p.2.1),
      a.2.2.1.trans (b.2.2.1.trans p.2.2.1), a.2.2.2.1.trans (b.2.2.2.1.trans p.2.2.2.1),
      a.2.2.2.2.1.trans (b.2.2.2.2.1.trans p.2.2.2.2.1)⟩
  have hout : ∀ c, (t.port c).outbox = (f.port c).outbox := fun c =>
    (Port.idle_fields (hi.frame c)).2.2.2.2.2.1
  have hobf : ∀ c, (b.port c).outbox = (s.port c).outbox := fun c =>
    (Port.frame_fields (hb.ports c)).2.2.2.2.2.1
  have rest : t = { b with ports := t.ports, requests := t.requests, raised := [] } := by
    rw [hi.rest, hf.rest]
  refine ⟨?_, fun c => by rw [hreqt, hf.reqs]⟩
  have hbr := hb.rest
  generalize s.ejectWhenAnswered.ctl = k at hbr ⊢
  exact
    { timebase := by rw [rest, hbr]
      policy := by rw [rest, hbr]
      reservations := by rw [rest, hbr]
      works := by rw [rest, hbr]
      dm := by rw [rest, hbr]
      engine := by rw [rest, hbr]
      sched := by
        have : t.sched = b.sched := by rw [rest]
        rw [this]
        exact hb.sched
      medium := by rw [rest, hbr]
      ctl := by rw [rest, hb.rest]
      link := by rw [rest, hb.rest]
      raised := by rw [rest]
      nextId := by rw [rest, hbr]
      pending := by rw [rest, hbr]
      settings := fun c => (frame c).1
      partialBlock := fun c => (frame c).2.1
      headRead := fun c => (frame c).2.2.1
      overrun := fun c => (frame c).2.2.2.1
      busOut := fun c => (frame c).2.2.2.2
      outbox := fun c => by
        obtain ⟨ns, h⟩ := hf.outbox c
        rw [hout, h, hobf, List.append_assoc]
        exact ⟨_, rfl⟩
      keys := fun c => by
        rw [hreqt, hf.reqs, ← hb.keys c]
        exact (List.filter_sublist).map _
      room := fun c h => by
        rw [hout, hreqt]
        apply hf.room c
        rw [hobf, keys_length (hb.keys c)]
        exact h }

/-- The end of a step (R164, R167, R168). -/
theorem finish_finished (old s : State) : Finished s (State.finish old s) :=
  (finished_of (beforePosting_before s) (flush_flushed _)
    ((refreshIdle_only old _ .A).trans (refreshIdle_only old _ .B))).1

/-- The requests left after a step: those of the step's end that are not DONE (R167). -/
theorem finish_reqs (old s : State) (c : Channel) : (State.finish old s).reqs c =
    (s.beforePosting.reqs c).filter (fun r => r.state != .done) :=
  (finished_of (beforePosting_before s) (flush_flushed _)
    ((refreshIdle_only old _ .A).trans (refreshIdle_only old _ .B))).2 c

end Sys2Proof.Machine
end

