-- ==== Sys2Proof/Laws/Outer.lean ====
section
/-! SUPPORT. The laws that hold between steps, as one relation `Outer`: each law that held before holds
after. Lemmas for the parts of a step. -/

set_option Elab.async false

namespace Sys2Proof.Machine

/-! ### Acceptance numbers and tags -/

theorem keyTags (rs : List Request) :
    (rs.map Request.key).map (fun k => k.2.1) = rs.map (fun r => r.tag) := by
  rw [List.map_map]
  rfl

theorem natLt_trans : ∀ x y z : Nat, decide (x < y) = true → decide (y < z) = true →
    decide (x < z) = true := by
  intro x y z h1 h2
  simp only [decide_eq_true_eq] at h1 h2 ⊢
  omega

theorem both_iff (p : Channel → Bool) : bothChannels p = true ↔ ∀ c, p c = true := by
  simp only [bothChannels, Bool.and_eq_true]
  constructor
  · rintro ⟨ha, hb⟩ c
    cases c
    · exact ha
    · exact hb
  · intro h
    exact ⟨h .A, h .B⟩

theorem idsInOrder_iff (s : State) : s.idsInOrder = true ↔
    (∀ c, ((s.reqs c).map (fun r => r.id)).Pairwise (· < ·)) ∧
      (∀ c, ∀ i ∈ (s.reqs c).map (fun r => r.id), i < s.nextId) ∧
        (((s.reqs .A).map (fun r => r.id)) ++ (s.reqs .B).map (fun r => r.id)).Nodup := by
  simp only [State.idsInOrder, Bool.and_eq_true, both_iff, State.idsOf, distinct_iff,
    ascending_iff natLt_trans, List.all_eq_true, decide_eq_true_eq, List.map_append]
  constructor
  · rintro ⟨h, hn⟩
    refine ⟨fun c => (h c).1, fun c i hi => ?_, hn⟩
    obtain ⟨r, hr, rfl⟩ := List.mem_map.mp hi
    exact (h c).2 r hr
  · rintro ⟨h1, h2, hn⟩
    exact ⟨fun c => ⟨h1 c, fun r hr => h2 c r.id (List.mem_map.mpr ⟨r, hr, rfl⟩)⟩, hn⟩

theorem tagsDistinct_iff (s : State) : s.tagsDistinct = true ↔
    ∀ c, ((s.reqs c).map (fun r => r.tag)).Nodup := by
  simp only [State.tagsDistinct, both_iff, distinct_iff]

theorem ids_sublist {s t : State}
    (hk : ∀ c, ((t.reqs c).map Request.key).Sublist ((s.reqs c).map Request.key)) (c : Channel) :
    ((t.reqs c).map (fun r => r.id)).Sublist ((s.reqs c).map (fun r => r.id)) := by
  rw [← keyIds, ← keyIds]
  exact (hk c).map _

theorem idsInOrder_sublist {s t : State}
    (hk : ∀ c, ((t.reqs c).map Request.key).Sublist ((s.reqs c).map Request.key))
    (hn : s.nextId ≤ t.nextId) (h : s.idsInOrder = true) : t.idsInOrder = true := by
  rw [idsInOrder_iff] at h ⊢
  refine ⟨fun c => (h.1 c).sublist (ids_sublist hk c), fun c i hi => ?_, ?_⟩
  · exact Nat.lt_of_lt_of_le (h.2.1 c i ((ids_sublist hk c).subset hi)) hn
  · exact h.2.2.sublist ((ids_sublist hk .A).append (ids_sublist hk .B))

theorem tagsDistinct_sublist {s t : State}
    (hk : ∀ c, ((t.reqs c).map Request.key).Sublist ((s.reqs c).map Request.key))
    (h : s.tagsDistinct = true) : t.tagsDistinct = true := by
  rw [tagsDistinct_iff] at h ⊢
  intro c
  refine (h c).sublist ?_
  rw [← keyTags, ← keyTags]
  exact (hk c).map _

/-! ### Room -/

theorem law1_iff (s : State) : s.law1 = true ↔ ∀ c, (s.reqs c).length ≤ 12 := by
  simp only [State.law1, both_iff, decide_eq_true_eq]

theorem law3_iff (s : State) : s.law3 = true ↔
    ∀ c, (s.port c).outbox.length + (s.reqs c).length ≤ 16 := by
  simp only [State.law3, both_iff, decide_eq_true_eq]

theorem settingsInRange_iff (s : State) : s.settingsInRange = true ↔
    ∀ c, (s.port c).settings.inRange = true := both_iff _

theorem keySublist_length {s t : State}
    (hk : ∀ c, ((t.reqs c).map Request.key).Sublist ((s.reqs c).map Request.key)) (c : Channel) :
    (t.reqs c).length ≤ (s.reqs c).length := by
  simpa only [List.length_map] using (hk c).length_le

/-! ### The relation -/

/-- Every law that holds of `s` holds of `t`; the queue is the same. -/
structure Outer (s t : State) : Prop where
  pending : t.pending = s.pending
  policy : s.policy.inRange = true → t.policy.inRange = true
  settings : s.settingsInRange = true → t.settingsInRange = true
  table : law10 s.reservations = true ∧ tableForm s.reservations = true →
    law10 t.reservations = true ∧ tableForm t.reservations = true
  law7 : s.link.law7 = true → t.link.law7 = true
  memory : s.memoryWf = true → t.memoryWf = true
  bounded : s.dm.bounded = true → t.dm.bounded = true
  sized : s.pool.sized = true → t.pool.sized = true
  ids : s.idsInOrder = true → t.idsInOrder = true
  tags : s.tagsDistinct = true → t.tagsDistinct = true
  room : s.settingsInRange = true → s.law1 = true ∧ s.law3 = true → t.law1 = true ∧ t.law3 = true
  formed : s.portsFormed = true → t.portsFormed = true
  owned : s.idsInOrder = true → s.transfersOwned = true → t.transfersOwned = true
  works : s.worksOwned = true → t.worksOwned = true
  placed : s.pool.placed = true → t.pool.placed = true
  law5 : s.law5 = true → t.law5 = true
  maps : MapKept s.dm t.dm
  phase : s.policy.inRange = true → Phase s → Phase t
  notices : s.noticesOrdered = true → t.noticesOrdered = true

theorem Outer.refl (s : State) : Outer s s :=
  ⟨rfl, id, id, id, id, id, id, id, id, id, fun _ => id, id, fun _ => id, id, id, id, MapKept.refl _,
    fun _ => id, id⟩

theorem Outer.trans {s t u : State} (a : Outer s t) (b : Outer t u) : Outer s u where
  pending := b.pending.trans a.pending
  policy h := b.policy (a.policy h)
  settings h := b.settings (a.settings h)
  table h := b.table (a.table h)
  law7 h := b.law7 (a.law7 h)
  memory h := b.memory (a.memory h)
  bounded h := b.bounded (a.bounded h)
  sized h := b.sized (a.sized h)
  ids h := b.ids (a.ids h)
  tags h := b.tags (a.tags h)
  room h w := b.room (a.settings h) (a.room h w)
  formed h := b.formed (a.formed h)
  owned h w := b.owned (a.ids h) (a.owned h w)
  works h := b.works (a.works h)
  placed h := b.placed (a.placed h)
  law5 h := b.law5 (a.law5 h)
  maps := a.maps.trans b.maps
  phase h w := b.phase (a.policy h) (a.phase h w)
  notices h := b.notices (a.notices h)

/-- Room is kept where no outbox and no request list has grown. -/
theorem room_of_le {s t : State} (h1 : ∀ c, (t.reqs c).length ≤ (s.reqs c).length)
    (h2 : ∀ c, (s.port c).outbox.length + (s.reqs c).length ≤ 16 →
      (t.port c).outbox.length + (t.reqs c).length ≤ 16)
    (w : s.law1 = true ∧ s.law3 = true) : t.law1 = true ∧ t.law3 = true := by
  rw [law1_iff, law3_iff] at w ⊢
  exact ⟨fun c => Nat.le_trans (h1 c) (w.1 c), fun c => h2 c (w.2 c)⟩

theorem portsFormed_iff (s : State) : s.portsFormed = true ↔ ∀ c, (s.port c).formed = true :=
  both_iff _

theorem noticesOrdered_iff (s : State) : s.noticesOrdered = true ↔
    ∀ c, noticesAscend (s.port c).pendingNotices = true := both_iff _

/-- Ports with the notices they had keep them in order. -/
theorem ordered_of {s t : State} (h : ∀ c, (t.port c).pendingNotices = (s.port c).pendingNotices)
    (w : s.noticesOrdered = true) : t.noticesOrdered = true := by
  rw [noticesOrdered_iff] at w ⊢
  intro c
  rw [h]
  exact w c

theorem transfersOwned_iff (s : State) : s.transfersOwned = true ↔
    ∀ c, ∀ t ∈ (s.port c).transfers, t.request < s.nextId := by
  simp only [State.transfersOwned, both_iff, List.all_eq_true, decide_eq_true_eq]

/-- Transfers of requests that stood before, or of earlier transfers' requests, are owned. -/
theorem owned_of {s t : State}
    (ht : ∀ c, ∀ x ∈ (t.port c).transfers, (∃ y ∈ (s.port c).transfers, y.request = x.request) ∨
      x.request ∈ (s.reqs c).map (fun r => r.id))
    (hn : s.nextId ≤ t.nextId) (hi : s.idsInOrder = true) (w : s.transfersOwned = true) :
    t.transfersOwned = true := by
  rw [transfersOwned_iff] at w ⊢
  rw [idsInOrder_iff] at hi
  intro c x hx
  rcases ht c x hx with ⟨y, hy, e⟩ | h
  · rw [← e]
    exact Nat.lt_of_lt_of_le (w c y hy) hn
  · exact Nat.lt_of_lt_of_le (hi.2.1 c _ h) hn

theorem formed_of {p q : Port} (h1 : q.headRead = p.headRead) (h2 : q.counters = p.counters)
    (w : p.formed = true) : q.formed = true := by
  unfold Port.formed at w ⊢
  rw [h1, h2]
  exact w

theorem law5_iff (s : State) : s.law5 = true ↔ ∀ c, s.chargedCount c ≤ 16 := by
  simp only [State.law5, both_iff, decide_eq_true_eq]

/-- Nothing that the last five laws speak of has changed. -/
theorem lasting_of {s t : State}
    (h : t = { s with ports := t.ports, requests := t.requests, raised := t.raised }) :
    (s.worksOwned = true → t.worksOwned = true) ∧ (s.pool.placed = true → t.pool.placed = true) ∧
      (s.law5 = true → t.law5 = true) ∧ MapKept s.dm t.dm ∧
        (Phase s → Phase t) := by
  rw [h]
  exact ⟨id, id, id, MapKept.refl _, fun w => w.keep⟩

theorem table_nil : law10 ([] : List Reservation) = true ∧ tableForm [] = true := by decide

/-- What an operation inside a step keeps is enough for every law. -/
theorem Inner.outer {s t : State} (a : Inner True True s t) : Outer s t where
  pending := a.pending
  policy h := by rw [a.policy]; exact h
  settings h := by
    rw [settingsInRange_iff] at h ⊢
    intro c
    rw [(Port.frame_fields (a.ports c)).1]
    exact h c
  table h := by
    rcases a.reservations with e | e <;> rw [e]
    · exact h
    · exact table_nil
  law7 := a.law7
  memory := a.memory trivial
  bounded := a.bounded
  sized h := by
    simp only [Pool.sized, decide_eq_true_eq] at h ⊢
    rw [a.sized, h]
  ids := idsInOrder_sublist (fun c => by rw [a.keys c] <;> exact List.Sublist.refl _) a.nextId
  tags := tagsDistinct_sublist (fun c => by rw [a.keys c] <;> exact List.Sublist.refl _)
  room _ w := by
    refine room_of_le (fun c => Nat.le_of_eq (keys_length (a.keys c))) (fun c h => ?_) w
    rw [(Port.frame_fields (a.ports c)).2.2.2.2.2.1, keys_length (a.keys c)]
    exact h
  formed h := by
    rw [portsFormed_iff] at h ⊢
    intro c
    have := Port.frame_fields (a.ports c)
    exact formed_of this.2.2.1 this.2.2.2.2.2.2 (h c)
  owned := owned_of a.transfers a.nextId
  works := a.works
  placed := a.placed
  law5 h := by
    rw [law5_iff] at h ⊢
    intro c
    have h1 := a.quota c
    have h2 := h c
    omega
  maps := a.maps
  phase := a.phase trivial
  notices := ordered_of (fun c => Port.frame_notices (a.ports c))

/-- A change of the ports alone that keeps the settings and makes no outbox longer. -/
theorem Outer.ofPorts {s t : State} (h : t = { s with ports := t.ports })
    (hs : ∀ c, (t.port c).settings = (s.port c).settings ∨ (t.port c).settings.inRange = true)
    (hroom : ∀ c, (s.port c).outbox.length + (s.reqs c).length ≤ 16 →
      (t.port c).outbox.length + (s.reqs c).length ≤ 16)
    (hform : ∀ c, (s.port c).formed = true → (t.port c).formed = true)
    (htr : ∀ c, ∀ x ∈ (t.port c).transfers, ∃ y ∈ (s.port c).transfers, y.request = x.request)
    (hnot : ∀ c, noticesAscend (s.port c).pendingNotices = true →
      noticesAscend (t.port c).pendingNotices = true) : Outer s t := by
  have hr : ∀ c, t.reqs c = s.reqs c := by intro c; rw [h]; rfl
  have hk : ∀ c, ((t.reqs c).map Request.key).Sublist ((s.reqs c).map Request.key) := by
    intro c; rw [hr] <;> exact List.Sublist.refl _
  have hl := lasting_of (s := s) (t := t) (by rw [h])
  exact
    { pending := by rw [h]
      policy := fun w => by rw [h]; exact w
      settings := fun w => by
        rw [settingsInRange_iff] at w ⊢
        intro c
        rcases hs c with e | e
        · rw [e]; exact w c
        · exact e
      table := fun w => by rw [h]; exact w
      law7 := fun w => by rw [h]; exact w
      memory := fun w => by rw [h]; exact w
      bounded := fun w => by rw [h]; exact w
      sized := fun w => by rw [h]; exact w
      ids := idsInOrder_sublist hk (by rw [h] <;> exact Nat.le_refl _)
      tags := tagsDistinct_sublist hk
      room := fun _ w => room_of_le (fun c => Nat.le_of_eq (by rw [hr])) (fun c e => by rw [hr]; exact hroom c e) w
      formed := fun w => by
        rw [portsFormed_iff] at w ⊢
        exact fun c => hform c (w c)
      owned := owned_of (fun c x hx => Or.inl (htr c x hx)) (by rw [h] <;> exact Nat.le_refl _)
      works := hl.1
      placed := hl.2.1
      law5 := hl.2.2.1
      maps := hl.2.2.2.1
      phase := fun _ => hl.2.2.2.2
      notices := fun w => by
        rw [noticesOrdered_iff] at w ⊢
        exact fun c => hnot c (w c) }

theorem updPort_outer (s : State) (c : Channel) (f : Port → Port)
    (hs : ∀ p, (f p).settings = p.settings ∨ (f p).settings.inRange = true)
    (ho : ∀ p, (f p).outbox.length ≤ p.outbox.length)
    (hf : ∀ p, p.formed = true → (f p).formed = true := by exact fun _ h => h)
    (ht : ∀ x ∈ (f (s.port c)).transfers, ∃ y ∈ (s.port c).transfers, y.request = x.request := by
      exact fun x hx => ⟨x, hx, rfl⟩)
    (hn : ∀ p, (f p).pendingNotices = p.pendingNotices := by exact fun _ => rfl) :
    Outer s (s.updPort c f) := by
  refine Outer.ofPorts rfl (fun d => ?_) (fun d h => ?_) (fun d h => ?_) (fun d x hx => ?_)
    (fun d h => ?_)
  · rw [port_updPort]
    split
    · exact hs _
    · exact Or.inl rfl
  · rw [port_updPort]
    split
    · have := ho (s.port d)
      omega
    · exact h
  · rw [port_updPort]
    split
    · exact hf _ h
    · exact h
  · rw [port_updPort] at hx
    split at hx
    · next hd => subst hd; exact ht x hx
    · exact ⟨x, hx, rfl⟩
  · rw [port_updPort]
    split
    · rw [hn]; exact h
    · exact h

theorem NoticesPosted.outer {s t : State} (a : NoticesPosted s t) : Outer s t := by
  refine Outer.ofPorts a.rest (fun c => Or.inl (Port.noticeFrame_fields (a.frame c)).1)
    (fun c h => ?_) (fun c h => ?_) (fun c x hx => ?_) a.ascend
  · have := a.room c h
    have hr : t.reqs c = s.reqs c := by rw [a.rest]; rfl
    rwa [hr] at this
  · have := Port.noticeFrame_fields (a.frame c)
    exact formed_of this.2.2.1 this.2.2.2.2.2.2 h
  · rw [(Port.noticeFrame_fields (a.frame c)).2.2.2.2.2.1] at hx
    exact ⟨x, hx, rfl⟩

theorem beforePosting_inner (s : State) : Inner True True s s.beforePosting :=
  ((settleReads_inner s).trans (readAheadMoments_inner _)).trans (ejectWhenAnswered_inner _)

theorem count_inRange (k : Counters) (r : Request) : (k.count r).inRange = true := by
  unfold Counters.inRange Counters.count
  simp only [Bool.and_eq_true]
  exact ⟨⟨⟨⟨⟨decide_eq_true (saturate_le _), decide_eq_true (saturate_le _)⟩,
    decide_eq_true (saturate_le _)⟩, decide_eq_true (saturate_le _)⟩,
    decide_eq_true (saturate_le _)⟩, decide_eq_true (saturate_le _)⟩

theorem countAll_inRange (rs : List Request) (k : Counters) (h : k.inRange = true) :
    (rs.foldl Counters.count k).inRange = true := by
  induction rs generalizing k with
  | nil => exact h
  | cons r rs ih => exact ih _ (count_inRange k r)

/-- The end of a step keeps every law. -/
theorem finish_outer (old s : State) : Outer s (State.finish old s) := by
  refine (beforePosting_inner s).outer.trans ?_
  rw [finish_eq]
  generalize s.beforePosting = b
  have hf := flush_flushed b
  have hi := (refreshIdle_only old b.flush .A).trans
    (refreshIdle_only old (State.refreshIdle old b.flush .A) .B)
  generalize State.refreshIdle old (State.refreshIdle old b.flush .A) .B = t at hi ⊢
  generalize b.flush = f at hf hi
  have rest : t = { b with ports := t.ports, requests := t.requests, raised := [] } := by
    rw [hi.rest, hf.rest]
  have hr : ∀ c, t.reqs c = (b.reqs c).filter (fun r => r.state != .done) := by
    intro c
    rw [← hf.reqs c, hi.rest]
    rfl
  have hk : ∀ c, ((t.reqs c).map Request.key).Sublist ((b.reqs c).map Request.key) := by
    intro c
    rw [hr]
    exact (List.filter_sublist).map _
  have hset : ∀ c, (t.port c).settings = (b.port c).settings := fun c =>
    (Port.idle_fields (hi.frame c)).1.trans (Port.noticeFrame_fields (hf.frame c)).1
  have hl := lasting_of (s := b) (t := t) (by rw [rest] <;> rfl)
  exact
    { pending := by rw [rest]
      policy := fun w => by rw [rest]; exact w
      settings := fun w => by
        rw [settingsInRange_iff] at w ⊢
        intro c
        rw [hset]
        exact w c
      table := fun w => by rw [rest]; exact w
      law7 := fun w => by rw [rest]; exact w
      memory := fun w => by rw [rest]; exact w
      bounded := fun w => by rw [rest]; exact w
      sized := fun w => by rw [rest]; exact w
      ids := idsInOrder_sublist hk (by rw [rest] <;> exact Nat.le_refl _)
      tags := tagsDistinct_sublist hk
      room := fun _ w => room_of_le (keySublist_length hk) (fun c e => by
        have := hf.room c e
        have h1 : t.reqs c = f.reqs c := by rw [hi.rest]; rfl
        rw [h1, (Port.idle_fields (hi.frame c)).2.2.2.2.2.1]
        exact this) w
      formed := fun w => by
        rw [portsFormed_iff] at w ⊢
        intro c
        have a := Port.idle_fields (hi.frame c)
        have n := Port.noticeFrame_fields (hf.frame c)
        have h1 : (t.port c).headRead = (b.port c).headRead := a.2.2.1.trans n.2.2.1
        have h2 : (t.port c).counters = (b.doneOf c).foldl Counters.count (b.port c).counters :=
          a.2.2.2.2.2.2.2.1.trans n.2.2.2.2.2.2
        have hw := w c
        unfold Port.formed at hw ⊢
        simp only [Bool.and_eq_true] at hw ⊢
        rw [h1, h2]
        exact ⟨hw.1, countAll_inRange _ _ hw.2⟩
      owned := owned_of (fun c x hx => by
        rw [(Port.idle_fields (hi.frame c)).2.2.2.2.2.2.1,
          (Port.noticeFrame_fields (hf.frame c)).2.2.2.2.2.1] at hx
        exact Or.inl ⟨x, hx, rfl⟩) (by rw [rest] <;> exact Nat.le_refl _)
      works := hl.1
      placed := hl.2.1
      law5 := hl.2.2.1
      maps := hl.2.2.2.1
      phase := fun _ => hl.2.2.2.2
      notices := fun w => by
        rw [noticesOrdered_iff] at w ⊢
        intro c
        rw [(Port.idle_fields (hi.frame c)).2.2.2.2.2.2.2.2]
        exact hf.ascend c (w c) }

/-- An effect that keeps the laws makes a step that keeps them. -/
theorem Outer.finish {s t : State} (a : Outer s t) : Outer s (State.finish s t) :=
  a.trans (finish_outer s t)

end Sys2Proof.Machine
end

