-- ==== Sys2Proof/Laws/Commands.lean ====
section
/-! SUPPORT. Every law is kept by every command: `Outer` of each meaning, and of a step. -/

set_option Elab.async false

namespace Sys2Proof.Machine

/-! ### The reservation table (R169–R172) -/

theorem tableForm_iff (es : List Reservation) : tableForm es = true ↔
    (∀ e ∈ es, 1 ≤ e.id ∧ e.id ≤ 8) ∧ es.Pairwise (fun e f => e.id < f.id) := by
  have ht : ∀ x y z : Reservation, decide (x.id < y.id) = true → decide (y.id < z.id) = true →
      decide (x.id < z.id) = true := fun x y z => natLt_trans x.id y.id z.id
  simp only [tableForm, Bool.and_eq_true, List.all_eq_true, decide_eq_true_eq,
    ascending_iff ht]

theorem law10_iff (es : List Reservation) : law10 es = true ↔
    ∀ e ∈ es, ∀ f ∈ es, e.compatible f = true := by
  simp only [law10, List.all_eq_true]

theorem compatible_self (e : Reservation) : e.compatible e = true := by
  simp [Reservation.compatible]

theorem compatible_comm (e f : Reservation) : e.compatible f = f.compatible e := by
  have h1 : (e.owner == f.owner) = (f.owner == e.owner) := by
    cases e.owner <;> cases f.owner <;> rfl
  have h2 : e.overlaps f.first f.count = f.overlaps e.first e.count := by
    simp only [Reservation.overlaps, Bool.and_comm]
  simp only [Reservation.compatible, h1, h2, Bool.and_comm]

theorem table_sublist {es fs : List Reservation} (h : fs.Sublist es)
    (w : law10 es = true ∧ tableForm es = true) : law10 fs = true ∧ tableForm fs = true := by
  rw [law10_iff, tableForm_iff] at w ⊢
  exact ⟨fun e he f hf => w.1 e (h.subset he) f (h.subset hf),
    fun e he => w.2.1 e (h.subset he), w.2.2.sublist h⟩

theorem mem_insertReservation (e x : Reservation) (es : List Reservation) :
    x ∈ insertReservation e es ↔ x = e ∨ x ∈ es := by
  induction es with
  | nil => simp [insertReservation]
  | cons y ys ih =>
    unfold insertReservation
    split
    · simp only [List.mem_cons]
    · simp only [List.mem_cons, ih]
      constructor
      · rintro (h | h | h) <;> simp [h]
      · rintro (h | h | h) <;> simp [h]

/-- A new entry, put in place, keeps the table's form (R169). -/
theorem insertReservation_form {e : Reservation} {es : List Reservation}
    (h1 : 1 ≤ e.id) (h8 : e.id ≤ 8) (hn : ∀ f ∈ es, f.id ≠ e.id) (w : tableForm es = true) :
    tableForm (insertReservation e es) = true := by
  rw [tableForm_iff] at w ⊢
  refine ⟨fun x hx => ?_, ?_⟩
  · rcases (mem_insertReservation e x es).mp hx with rfl | hx
    · exact ⟨h1, h8⟩
    · exact w.1 x hx
  · have hp := w.2
    clear w
    induction es with
    | nil => simp [insertReservation]
    | cons y ys ih =>
      rw [List.pairwise_cons] at hp
      unfold insertReservation
      have hy := hn y (List.mem_cons_self ..)
      split
      · next hle =>
        rw [List.pairwise_cons]
        refine ⟨fun z hz => ?_, List.pairwise_cons.mpr hp⟩
        rcases List.mem_cons.mp hz with rfl | hz
        · omega
        · have := hp.1 z hz
          omega
      · next hle =>
        rw [List.pairwise_cons]
        refine ⟨fun z hz => ?_, ih (fun f hf => hn f (List.mem_cons_of_mem _ hf)) hp.2⟩
        rcases (mem_insertReservation e z ys).mp hz with rfl | hz
        · omega
        · exact hp.1 z hz

/-- A new entry that is compatible with every entry keeps law 10 (R169, R171). -/
theorem insertReservation_law10 {e : Reservation} {es : List Reservation}
    (hc : ∀ f ∈ es, e.compatible f = true) (w : law10 es = true) :
    law10 (insertReservation e es) = true := by
  rw [law10_iff] at w ⊢
  intro x hx y hy
  rcases (mem_insertReservation e x es).mp hx with hxe | hxm
  · rcases (mem_insertReservation e y es).mp hy with hye | hym
    · rw [hxe, hye]; exact compatible_self e
    · rw [hxe]; exact hc y hym
  · rcases (mem_insertReservation e y es).mp hy with hye | hym
    · rw [hye, compatible_comm]; exact hc x hxm
    · exact w x hxm y hym

theorem freeReservationId_spec {es : List Reservation} {i : Nat}
    (h : freeReservationId es = some i) : 1 ≤ i ∧ i ≤ 8 ∧ ∀ f ∈ es, f.id ≠ i := by
  unfold freeReservationId at h
  have hm := List.mem_of_find?_eq_some h
  have hp := List.find?_some h
  simp only [List.mem_map, List.mem_range, Config.reservationEntries] at hm
  obtain ⟨k, hk, rfl⟩ := hm
  refine ⟨by omega, by omega, fun f hf he => ?_⟩
  simp only [Bool.not_eq_true', List.any_eq_false, beq_iff_eq] at hp
  exact hp f hf he

/-! ### Values of SET POLICY and SET CHANNEL (R184, R185) -/

theorem Policy.inRange_iff (p : Policy) : p.inRange = true ↔
    p.verifyLimit ≤ 6 ∧ max 2 (p.verifyLimit + 1) ≤ p.rescueThreshold ∧ p.rescueThreshold ≤ 7 ∧
      p.readRetries ≤ 7 ∧ p.mechRetries ≤ 3 ∧ p.insertionLimit ≤ 8 ∧ p.urgencyWindow ≤ 1000 ∧
        p.settleDelay ≤ 10000 := by
  simp only [Policy.inRange, Bool.and_eq_true, decide_eq_true_eq, and_assoc]

theorem Settings.inRange_iff (t : Settings) : t.inRange = true ↔
    1 ≤ t.queueDepth ∧ t.queueDepth ≤ 12 ∧ t.idleLimit ≤ 10000 ∧ t.readAheadWindow ≤ 16 := by
  simp only [Settings.inRange, Bool.and_eq_true, decide_eq_true_eq, and_assoc]

/-- The policy values of any SET POLICY block lie in their ranges (R184). -/
theorem blockPolicy_inRange (b : RequestBlock) : b.policy.inRange = true := by
  rw [Policy.inRange_iff]
  simp only [RequestBlock.policy, clamp]
  omega

/-- The settings of any SET CHANNEL block lie in their ranges (R185). -/
theorem blockSettings_inRange (b : RequestBlock) : b.settings.inRange = true := by
  rw [Settings.inRange_iff]
  simp only [RequestBlock.settings, clamp]
  omega

/-! ### Acceptance (R153, R156) -/

/-- The policy and the Defect Manager changed by a SET POLICY. -/
theorem raiseThreshold_bounded {d : DefectManager} (o n : Nat) (st : Settle)
    (w : d.bounded = true) :
    DefectManager.bounded { d.raiseThreshold o n with settle := st } = true := by
  unfold DefectManager.raiseThreshold
  rw [DefectManager.bounded_iff] at w
  split
  · rw [DefectManager.bounded_iff]
    refine ⟨law9_sublist (d := d) ?_ w.1, w.2⟩
    dsimp only
    split
    · exact List.nil_sublist _
    · exact List.filter_sublist
  · rw [DefectManager.bounded_iff]
    exact ⟨law9_sublist (List.Sublist.refl _) w.1, w.2⟩

theorem raiseThreshold_staging (d : DefectManager) (o n : Nat) :
    (d.raiseThreshold o n).staging = d.staging := by
  unfold DefectManager.raiseThreshold
  split <;> rfl

theorem raiseThreshold_rest (d : DefectManager) (o n : Nat) :
    (d.raiseThreshold o n).bands = d.bands ∧ (d.raiseThreshold o n).slips = d.slips ∧
      (d.raiseThreshold o n).replacement = d.replacement ∧
        (d.raiseThreshold o n).dirty = d.dirty := by
  unfold DefectManager.raiseThreshold
  split <;> exact ⟨rfl, rfl, rfl, rfl⟩

/-- The policy taken, with what it does to the Defect Manager. -/
theorem takePolicy_outer (s : State) (p : Policy) (d : DefectManager) (hp : p.inRange = true)
    (hb : s.dm.bounded = true → d.bounded = true) (hs : d.staging = s.dm.staging)
    (hl : d.bands = s.dm.bands ∧ d.slips = s.dm.slips ∧ d.replacement = s.dm.replacement ∧
      d.dirty = s.dm.dirty) : Outer s { s with policy := p, dm := d } :=
  { Outer.refl s with
    policy := fun _ => hp
    bounded := hb
    memory := fun w => by simpa only [State.memoryWf, hs] using w
    maps := MapKept.of_lists hl.1 hl.2.1 hl.2.2.1
    phase := fun _ w => w.keep (h4 := by rw [hl.2.2.2]; exact id) }

/-- The reservation table changed alone. -/
theorem takeTable_outer (s : State) (es : List Reservation)
    (h : law10 s.reservations = true ∧ tableForm s.reservations = true →
      law10 es = true ∧ tableForm es = true) : Outer s { s with reservations := es } :=
  { Outer.refl s with table := h, phase := fun _ w => w.keep }

theorem acceptRead_inner {H P : Prop} (s : State) (c : Channel) (id : Nat) (b : RequestBlock) :
    Inner H P s (s.acceptRead c id b) :=
  Inner.trans (Inner.ite _ (Inner.refl H P s) (cancelReadAhead_inner s c)) (serveRead_inner ..)

/-- Work is accepted outside EMPTY alone, under a number given before now (R68, R155). -/
theorem acceptWork_inner {H P : Prop} (s : State) (c : Channel) (id : Nat) (k : WorkKind)
    (lsn n : Nat) (hn : s.ctl.state ≠ .empty) (hid : id < s.nextId) :
    Inner H P s (s.acceptWork c id k lsn n) :=
  (Inner.ofDm s _ (uncover_bounded lsn n) rfl).trans (startWork_inner _ _ hn hid)

/-- A RESERVE that passed its checks keeps the table's laws (R169, R171). -/
theorem acceptReserve_outer (s : State) (c : Channel) (id : Nat) (b : RequestBlock)
    (hm : (ReserveMode.ofCode b.reserveMode).isSome = true)
    (hc : s.reservationConflict c b .reserve = false) : Outer s (s.acceptReserve c id b) := by
  unfold State.acceptReserve
  split
  · exact (settleReq_inner ..).outer
  · next i hi =>
    obtain ⟨h1, h8, hn⟩ := freeReservationId_spec hi
    dsimp only
    refine Outer.trans (Outer.trans (takeTable_outer s _ ?_)
      (updReq_inner (H := True) (P := True) _ c id (fun r => { r with reservationId := some i }) ?_).outer)
        (settleReq_inner ..).outer
    · rintro ⟨w10, wf⟩
      refine ⟨insertReservation_law10 (fun f hf => ?_) w10, insertReservation_form h1 h8 hn wf⟩
      simp only [State.reservationConflict, State.otherOverlaps, State.otherExclusive] at hc
      simp only [Reservation.compatible]
      have hov : Reservation.overlaps
          { id := i, owner := c, first := b.lsn, count := s.reserveCount b,
            mode := (ReserveMode.ofCode b.reserveMode).getD .shared } f.first f.count =
          f.overlaps b.lsn (s.reserveCount b) := by
        simp only [Reservation.overlaps, Bool.and_comm]
      rw [hov]
      by_cases ho : f.owner = c
      · rw [ho]; simp
      · have hoc : (f.owner == c.other) = true := by
          cases hfo : f.owner <;> cases c <;> simp_all [Channel.other]
        split at hc
        · rw [List.any_eq_false] at hc
          have := hc f hf
          simp only [hoc, Bool.true_and] at this
          simp [this]
        · next hmode =>
          rw [List.any_eq_false] at hc
          have := hc f hf
          simp only [hoc, Bool.true_and, Bool.and_eq_true, not_and, Bool.not_eq_true] at this
          cases hfm : f.mode with
          | exclusive => simp [this (by rw [hfm]; rfl)]
          | shared =>
            have : ReserveMode.ofCode b.reserveMode = some .shared := by
              unfold ReserveMode.ofCode at hm ⊢
              split
              · rfl
              · next h => simp_all
            simp [this]
    · exact fun _ => rfl

theorem acceptRelease_outer (s : State) (c : Channel) (id : Nat) (b : RequestBlock) :
    Outer s (s.acceptRelease c id b) := by
  unfold State.acceptRelease
  split
  · exact (takeTable_outer s _ (table_sublist List.filter_sublist)).trans (settleReq_inner ..).outer
  · exact (settleReq_inner ..).outer

theorem acceptFlushMap_inner {H P : Prop} (s : State) (c : Channel) (id : Nat) :
    Inner H P s (s.acceptFlushMap c id) := Inner.ite _ (settleReq_inner ..) (Inner.refl H P s)

theorem acceptEject_inner {H P : Prop} (s : State) (c : Channel) (tag : Byte) :
    Inner H P s (s.acceptEject c tag) := by
  unfold State.acceptEject
  dsimp only
  have h := updCtl_inner (H := H) (P := P) s
    (fun k => { k with ejectRequesters := k.ejectRequesters ++ [(c, tag)] })
  split
  · next hs => exact h.trans (startUnmount_inner _ (fun _ _ => hs))
  · next hs => exact h.trans (beginEject_inner _ (fun _ w => w.mayEject (Or.inl hs)))
  · next hs =>
    split
    · exact h.trans (updCtl_inner ..)
    · next hr =>
      exact h.trans (beginEject_inner _ (fun _ w => w.mayEject (Or.inr ⟨hs, by simpa using hr⟩)))
  · exact h

theorem acceptMount_inner {H P : Prop} (s : State) (c : Channel) (tag : Byte) :
    Inner H P s (s.acceptMount c tag) := by
  unfold State.acceptMount
  dsimp only
  have h := updCtl_inner (H := H) (P := P) s
    (fun k => { k with mountRequesters := k.mountRequesters ++ [(c, tag)] })
  split
  · next hs => exact h.trans (enterSpinning_inner _ (fun _ _ => Or.inr hs))
  · next hs =>
    refine Inner.ite _ h ((h.trans (setState_inner _ (fun k => { k with recovering := true })
      (fun _ w => ?_))).trans (sendCommand_inner _ _ _ (fun _ _ w => ?_)))
    · exact
        { openIn := w.openIn
          emptied := w.emptied
          recovers := fun _ => hs
          index := w.index
          sender := w.sender }
    · exact w.outside (fun e => by cases hs.symm.trans e) (fun e => by cases hs.symm.trans e)
  · exact h

theorem deliverRecord_inner {H P : Prop} (s : State) (c : Channel) (id : Nat) (tag : Byte)
    (rec : List Byte) (hid : id ∈ (s.reqs c).map (fun r => r.id)) :
    Inner H P s (s.deliverRecord c id tag rec) := by
  refine Inner.trans (updReq_inner s c id _ ?_) (joinTransfer_inner _ c _ ?_)
  · exact fun _ => rfl
  · rw [ids_updReq]
    · exact hid
    · exact fun _ => rfl

theorem acceptStatus_outer (s : State) (c : Channel) (id : Nat) (b : RequestBlock)
    (hid : id ∈ (s.reqs c).map (fun r => r.id)) : Outer s (s.acceptStatus c id b) := by
  unfold State.acceptStatus
  dsimp only
  split
  · refine Outer.trans (deliverRecord_inner _ c id _ _ hid).outer (updPort_outer _ c
      (fun p => { p with counters := Counters.reset }) ?_ ?_ ?_ ?_)
    · exact fun _ => Or.inl rfl
    · exact fun _ => Nat.le_refl _
    · intro p h
      unfold Port.formed at h ⊢
      simp only [Bool.and_eq_true] at h ⊢
      exact ⟨h.1, by decide⟩
    · exact fun x hx => ⟨x, hx, rfl⟩
  · exact (deliverRecord_inner _ c id _ _ hid).outer

theorem acceptSetPolicy_outer (s : State) (c : Channel) (id : Nat) (b : RequestBlock) :
    Outer s (s.acceptSetPolicy c id b) := by
  unfold State.acceptSetPolicy
  dsimp only
  refine Outer.trans (Outer.trans (takePolicy_outer s _ _ (blockPolicy_inRange b)
    (raiseThreshold_bounded _ _ _) ?_ ?_) (raise_inner (H := True) (P := True) ..).outer) (settleReq_inner ..).outer
  · exact raiseThreshold_staging ..
  · exact raiseThreshold_rest ..

theorem acceptSetChannel_outer (s : State) (c : Channel) (id : Nat) (b : RequestBlock) :
    Outer s (s.acceptSetChannel c id b) := by
  unfold State.acceptSetChannel
  dsimp only
  have h : Outer s (s.updPort c (fun p => p.takeSettings b.settings)) :=
    updPort_outer s c _ (fun _ => Or.inr (blockSettings_inRange b)) (fun _ => Nat.le_refl _)
  split
  · exact (h.trans (cancelReadAhead_inner (H := True) (P := True) ..).outer).trans (settleReq_inner ..).outer
  · exact h.trans (settleReq_inner ..).outer

theorem abortWork_inner {H P : Prop} (s : State) (c : Channel) (w : WriteWork) :
    Inner H P s (s.abortWork c w) := by
  unfold State.abortWork
  dsimp only
  split
  · refine Inner.trans (Inner.trans (updWork_inner ..) (updReq_inner _ c w.id _ ?_))
      (endOpenSectors_inner ..)
    exact fun _ => rfl
  · split
    · exact endOpenSectors_inner ..
    · exact (endOpenSectors_inner ..).trans (concludeWork_inner ..)

theorem abortTarget_inner {H P : Prop} (s : State) (c : Channel) (r : Request) :
    Inner H P s (s.abortTarget c r) := by
  unfold State.abortTarget
  split
  · exact Inner.refl H P s
  · split
    all_goals first
      | exact endRead_inner ..
      | exact settleReq_inner ..
      | exact (updCtl_inner ..).trans (settleReq_inner ..)
      | exact Inner.refl H P s
      | (split
         · exact settleReq_inner ..
         · exact abortWork_inner ..)

theorem acceptAbort_inner {H P : Prop} (s : State) (c : Channel) (id : Nat) (b : RequestBlock) :
    Inner H P s (s.acceptAbort c id b) := by
  unfold State.acceptAbort
  split
  · exact settleReq_inner ..
  · exact (abortTarget_inner ..).trans (settleReq_inner ..)

/-! ### Intake (R154) -/

theorem reqs_addRequest (s : State) (c d : Channel) (b : RequestBlock) (k : RequestKind) :
    (s.addRequest c b k).reqs d = if d = c then s.reqs d ++ [s.newRequest b k] else s.reqs d := by
  simp only [State.reqs, State.addRequest, PerChannel.modify, PerChannel.get_set]
  split <;> simp_all

/-- A new record keeps the laws where there is room for it and its tag is new (R153, R154). -/
theorem addRequest_outer (s : State) (c : Channel) (b : RequestBlock) (k : RequestKind)
    (ht : s.reqByTag c b.tag = none)
    (hq : (s.reqs c).length < (s.port c).settings.queueDepth)
    (hroom : s.requestSpace c = true) : Outer s (s.addRequest c b k) :=
  { Outer.refl s with
    ids := fun w => by
      rw [idsInOrder_iff] at w ⊢
      obtain ⟨w1, w2, w3⟩ := w
      have hnew : ∀ d, ∀ i ∈ (s.reqs d).map (fun r => r.id), i < s.nextId := w2
      refine ⟨fun d => ?_, fun d i hi => ?_, ?_⟩
      · rw [reqs_addRequest]
        split
        · rw [List.map_append, List.pairwise_append]
          refine ⟨w1 d, by simp, fun i hi j hj => ?_⟩
          simp only [List.map_cons, List.map_nil, List.mem_singleton] at hj
          rw [hj]
          exact hnew d i hi
        · exact w1 d
      · show i < s.nextId + 1
        rw [reqs_addRequest] at hi
        split at hi
        · rw [List.map_append, List.mem_append] at hi
          rcases hi with hi | hi
          · have := hnew d i hi; omega
          · simp only [List.map_cons, List.map_nil, List.mem_singleton] at hi
            have : (s.newRequest b k).id = s.nextId := rfl
            omega
        · have := hnew d i hi; omega
      · have hid : (s.newRequest b k).id = s.nextId := rfl
        have key : ∀ d, s.nextId ∉ (s.reqs d).map (fun r => r.id) := fun d hd =>
          Nat.lt_irrefl _ (hnew d _ hd)
        rw [reqs_addRequest, reqs_addRequest]
        have hA := key .A
        have hB := key .B
        rw [List.nodup_append] at w3 ⊢
        obtain ⟨n1, n2, n3⟩ := w3
        cases c
        · simp only [if_true, reduceCtorEq, if_false, List.map_append, List.map_cons, List.map_nil,
            List.nodup_append, hid]
          refine ⟨⟨n1, by simp, fun a ha b hb => ?_⟩, n2, fun a ha b hb => ?_⟩
          · rintro rfl
            rw [List.mem_singleton] at hb
            rw [hb] at ha
            exact hA ha
          · rcases List.mem_append.mp ha with ha | ha
            · exact n3 a ha b hb
            · rintro rfl
              rw [List.mem_singleton] at ha
              rw [ha] at hb
              exact hB hb
        · simp only [if_true, reduceCtorEq, if_false, List.map_append, List.map_cons, List.map_nil,
            List.nodup_append, hid]
          refine ⟨n1, ⟨n2, by simp, fun a ha b hb => ?_⟩, fun a ha b hb => ?_⟩
          · rintro rfl
            rw [List.mem_singleton] at hb
            rw [hb] at ha
            exact hB ha
          · rcases List.mem_append.mp hb with hb | hb
            · exact n3 a ha b hb
            · rintro rfl
              rw [List.mem_singleton] at hb
              rw [hb] at ha
              exact hA ha
    tags := fun w => by
      rw [tagsDistinct_iff] at w ⊢
      intro d
      rw [reqs_addRequest]
      split
      · next hd =>
        subst hd
        rw [List.map_append, List.nodup_append]
        refine ⟨w d, by simp, fun x hx y hy => ?_⟩
        simp only [List.map_cons, List.map_nil, List.mem_singleton] at hy
        obtain ⟨r, hr, rfl⟩ := List.mem_map.mp hx
        rintro rfl
        have := List.find?_eq_none.mp ht r hr
        apply this
        have ht2 : (s.newRequest b k).tag = b.tag := rfl
        rw [ht2] at hy
        rw [hy]
        exact beq_self_eq_true _
      · exact w d
    formed := fun w => w
    owned := owned_of (fun d x hx => Or.inl ⟨x, hx, rfl⟩) (Nat.le_succ _)
    works := fun w => by
      rw [worksOwned_iff] at w ⊢
      exact fun v hv => Nat.lt_succ_of_lt (w v hv)
    phase := fun _ w => w.keep
    room := fun ws w => by
      rw [law1_iff, law3_iff] at w ⊢
      rw [settingsInRange_iff] at ws
      have hs := ws c
      simp only [Settings.inRange, Bool.and_eq_true, decide_eq_true_eq] at hs
      have hroom := of_decide_eq_true hroom
      simp only [Port.freePlaces, Config.outboxPlaces] at hroom
      have hp : ∀ d, (s.addRequest c b k).port d = s.port d := fun _ => rfl
      refine ⟨fun d => ?_, fun d => ?_⟩
      · rw [reqs_addRequest]
        split
        · next hd =>
          subst hd
          simp only [List.length_append, List.length_cons, List.length_nil]
          omega
        · exact w.1 d
      · rw [reqs_addRequest, hp]
        split
        · next hd =>
          subst hd
          simp only [List.length_append, List.length_cons, List.length_nil]
          omega
        · exact w.2 d }

/-- What an accepted block has passed (R154). -/
theorem refusalOf_none {s : State} {c : Channel} {b : RequestBlock} {k : RequestKind}
    (h : s.refusalOf c b k = none) : b.malformed k = false ∧ s.reqByTag c b.tag = none ∧
      (s.reqs c).length < (s.port c).settings.queueDepth ∧ s.admits c k = true ∧
        s.rangePasses b k = true ∧ (k.writesMedium = true → s.ctl.readOnly = .none) ∧
          s.reservationConflict c b k = false := by
  unfold State.refusalOf at h
  split at h
  · cases h
  next h1 =>
  split at h
  · cases h
  next h2 =>
  split at h
  · cases h
  next h3 =>
  split at h
  · cases h
  next h4 =>
  split at h
  · cases h
  next h5 =>
  split at h
  · cases h
  next h6 =>
  split at h
  · cases h
  next h7 =>
  simp only [Bool.not_eq_true, Option.isSome_eq_false_iff, Option.isNone_iff_eq_none,
    Bool.not_eq_true', Bool.not_eq_false] at h1 h2 h4 h5 h7
  refine ⟨h1, h2, by omega, h4, h5, fun hk => ?_, h7⟩
  simpa [hk] using h6

theorem accept_outer (s : State) (c : Channel) (b : RequestBlock) (k : RequestKind)
    (h : s.refusalOf c b k = none) (hroom : s.requestSpace c = true) : Outer s (s.accept c b k) := by
  obtain ⟨hm, ht, hq, had, _, _, hc⟩ := refusalOf_none h
  have hne : k.needsReady = true → (s.addRequest c b k).ctl.state ≠ .empty := by
    intro hk e
    cases k <;> simp [RequestKind.needsReady, State.admits] at hk had
    all_goals cases e.symm.trans had
  have hlt : s.nextId < (s.addRequest c b k).nextId := Nat.lt_succ_self _
  have ha := addRequest_outer s c b k ht hq hroom
  have hid : s.nextId ∈ ((s.addRequest c b k).reqs c).map (fun r => r.id) := by
    rw [reqs_addRequest, if_pos rfl, List.map_append, List.mem_append]
    exact Or.inr (List.mem_singleton.mpr rfl)
  unfold State.accept
  dsimp only
  cases k with
  | read => exact ha.trans (acceptRead_inner ..).outer
  | write => exact ha.trans (acceptWork_inner _ _ _ _ _ _ (hne rfl) hlt).outer
  | reassign => exact ha.trans (acceptWork_inner _ _ _ _ _ _ (hne rfl) hlt).outer
  | reserve =>
    refine ha.trans (acceptReserve_outer _ c _ b ?_ hc)
    cases hr : ReserveMode.ofCode b.reserveMode with
    | some m => rfl
    | none =>
      simp only [RequestBlock.malformed, RequestBlock.badValue, hr, Option.isNone_none,
        Bool.or_true] at hm
      cases hm
  | release => exact ha.trans (acceptRelease_outer ..)
  | flushMap => exact ha.trans (acceptFlushMap_inner ..).outer
  | eject => exact ha.trans (acceptEject_inner ..).outer
  | mount => exact ha.trans (acceptMount_inner ..).outer
  | status => exact ha.trans (acceptStatus_outer _ c _ b hid)
  | reportMap => exact ha.trans (deliverRecord_inner _ c _ _ _ hid).outer
  | setPolicy => exact ha.trans (acceptSetPolicy_outer ..)
  | setChannel => exact ha.trans (acceptSetChannel_outer ..)
  | abort => exact ha.trans (acceptAbort_inner ..).outer

/-- A refusal's block is posted where a place is free (R154, R167). -/
theorem refuse_outer (s : State) (c : Channel) (b : RequestBlock) (st : Status)
    (hroom : s.requestSpace c = true) : Outer s (s.refuse c b st) := by
  have hroom := of_decide_eq_true hroom
  simp only [Port.freePlaces, Config.outboxPlaces] at hroom
  refine Outer.ofPorts rfl (fun d => ?_) (fun d hd => ?_) (fun d hd => ?_) (fun d x hx => ?_)
    (fun d hd => ?_)
  · unfold State.refuse State.postBlock
    rw [port_updPort]
    split <;> exact Or.inl rfl
  rotate_left
  · unfold State.refuse State.postBlock
    rw [port_updPort]
    split <;> exact hd
  · unfold State.refuse State.postBlock at hx
    rw [port_updPort] at hx
    split at hx <;> exact ⟨x, hx, rfl⟩
  · unfold State.refuse State.postBlock
    rw [port_updPort]
    split <;> exact hd
  · unfold State.refuse State.postBlock
    rw [port_updPort]
    split
    · next h =>
      subst h
      simp only [List.length_append, List.length_cons, List.length_nil]
      omega
    · exact hd

theorem intake_outer (s : State) (c : Channel) (b : RequestBlock)
    (hroom : s.requestSpace c = true) : Outer s (s.intake c b) := by
  unfold State.intake
  split
  · exact refuse_outer _ _ _ _ hroom
  · split
    · exact refuse_outer _ _ _ _ hroom
    · next h => exact accept_outer _ _ _ _ h hroom

theorem partialBlock_outer (s : State) (c : Channel) (x : Option (List Byte)) :
    Outer s (s.updPort c (fun p => { p with partialBlock := x })) :=
  updPort_outer s c _ (fun _ => Or.inl rfl) (fun _ => Nat.le_refl _)

/-- REQUEST SPACE does not depend on the partial block. -/
theorem requestSpace_partial (s : State) (c : Channel) (x : Option (List Byte)) :
    (s.updPort c (fun p => { p with partialBlock := x })).requestSpace c = s.requestSpace c := by
  unfold State.requestSpace
  rw [port_updPort, if_pos rfl]
  rfl

theorem setOverrun_outer (s : State) (c : Channel) : Outer s (s.setOverrun c) :=
  updPort_outer s c _ (fun _ => Or.inl rfl) (fun _ => Nat.le_refl _)

theorem returnByte_outer (s : State) (c : Channel) (b : Byte) : Outer s (s.returnByte c b) :=
  updPort_outer s c _ (fun _ => Or.inl rfl) (fun _ => Nat.le_refl _)

theorem takeBlock_outer (s : State) (c : Channel) (b : RequestBlock) :
    Outer s (s.takeBlock c b) := by
  unfold State.takeBlock
  split
  · next h =>
    exact (partialBlock_outer s c none).trans
      (intake_outer _ c b (by rw [requestSpace_partial]; exact h))
  · exact setOverrun_outer s c

theorem requestByte_outer (s : State) (c : Channel) (v : Byte) : Outer s (s.requestByte c v) := by
  unfold State.requestByte
  dsimp only
  split
  · next h =>
    split
    · exact partialBlock_outer ..
    · exact (partialBlock_outer s c none).trans
        (intake_outer _ c _ (by rw [requestSpace_partial]; exact h))
  · exact setOverrun_outer s c

/-! ### The port accesses (R178–R182) -/

theorem readCompletion_outer (s : State) (c : Channel) : Outer s (s.readCompletion c) := by
  unfold State.readCompletion
  dsimp only
  split
  · exact (returnByte_outer ..).trans (setOverrun_outer ..)
  · next b bs _ =>
    have h : Outer s _ := (returnByte_outer s c (b.bytes.getD (s.port c).headRead 0)).trans
      (updPort_outer _ c (fun p => p.readHead (s.port c).headRead) (fun p => Or.inl (by
        unfold Port.readHead; split <;> rfl)) (fun p => by
          unfold Port.readHead
          split
          · exact Nat.le_refl _
          · simp only [List.length_tail]; omega) (fun p hp => by
            unfold Port.readHead Port.formed at *
            simp only [Bool.and_eq_true] at hp ⊢
            split
            · next hlt => exact ⟨decide_eq_true (Nat.le_of_lt_succ hlt), hp.2⟩
            · exact ⟨rfl, hp.2⟩) (fun x hx => by
              refine ⟨x, ?_, rfl⟩
              unfold Port.readHead at hx
              split at hx <;> exact hx) (fun p => by
                unfold Port.readHead; split <;> rfl))
    split
    · exact h
    · exact h.trans (postPending_posted ..).outer

theorem countByte_outer (s : State) (c : Channel) (t : Transfer)
    (ht : t ∈ (s.port c).transfers) : Outer s (s.countByte c t) := by
  unfold State.countByte
  refine Outer.trans (updPort_outer s c (fun p =>
    { p with transfers := { t with moved := t.moved + 1 } :: p.transfers.tail }) ?_ ?_
      (fun _ h => h) ?_) (updReq_inner (H := True) (P := True) _ c t.request _ ?_).outer
  · exact fun _ => Or.inl rfl
  · exact fun _ => Nat.le_refl _
  · intro x hx
    rcases List.mem_cons.mp hx with h | h
    · exact ⟨t, ht, by rw [h]⟩
    · exact ⟨x, List.mem_of_mem_tail h, rfl⟩
  · exact fun _ => rfl

theorem currentTransfer_mem {s : State} {c : Channel} {t : Transfer}
    (h : s.currentTransfer c = some t) : t ∈ (s.port c).transfers := List.mem_of_mem_head? h

theorem readData_outer (s : State) (c : Channel) : Outer s (s.readData c) := by
  unfold State.readData
  have hm : Outer s (s.misusedRead c) := (returnByte_outer ..).trans (setOverrun_outer ..)
  split
  · exact hm
  · next t ht =>
    split
    · split
      · exact hm
      · next r _ =>
        refine Outer.trans (t := (s.returnByte c (s.outByte r t)).countByte c t) ?_ ?_
        · refine (returnByte_outer ..).trans (countByte_outer _ c t ?_)
          unfold State.returnByte
          rw [port_updPort, if_pos rfl]
          exact currentTransfer_mem ht
        · unfold State.afterOutByte
          split
          · split
            · exact (takeSector_inner ..).outer
            · exact Outer.refl _
          · split
            · exact (settleReq_inner ..).outer
            · exact Outer.refl _
    · exact hm

theorem fillByte_only {H : Prop} (s : State) (i a : Nat) (v : Byte) (ha : a < sectorBytes) :
    PoolOnly H s (s.updSlot i (fun x => { x with content := x.content.writeByte a v })) :=
  setSlot_only s i _ (fun _ w => Memory.writeByte_wf ha (slotAt_wf w i)) rfl rfl
    (fun _ h => h)

theorem storeByte_outer (s : State) (c : Channel) (w : WriteWork) (t : Transfer) (v : Byte)
    (ht : t ∈ (s.port c).transfers) : Outer s (s.storeByte c w t v) := by
  unfold State.storeByte
  dsimp only
  have hmod : t.moved % sectorBytes < sectorBytes := Nat.mod_lt _ (by decide)
  cases w.fillSlot t.moved with
  | none =>
    dsimp only
    split
    · exact ((countByte_outer s c t ht).trans (completeFill_inner (H := True) (P := True) ..).outer).trans
        (dropTransfer_inner ..).outer
    · exact countByte_outer s c t ht
  | some i =>
    dsimp only
    have h := (fillByte_only (H := True) s i _ v hmod).inner.outer
    split
    · exact ((h.trans (countByte_outer _ c t ht)).trans (completeFill_inner (H := True) (P := True) ..).outer).trans
        (dropTransfer_inner ..).outer
    · exact h.trans (countByte_outer _ c t ht)

theorem writeData_outer (s : State) (c : Channel) (v : Byte) : Outer s (s.writeData c v) := by
  unfold State.writeData
  split
  · exact setOverrun_outer ..
  · next t ht =>
    split
    · split
      · exact setOverrun_outer ..
      · exact storeByte_outer _ c _ t v (currentTransfer_mem ht)
    · exact setOverrun_outer ..

/-! ### The resets (R137, R165, R182) -/

theorem discardRead_inner {H P : Prop} (s : State) (r : Request) : Inner H P s (s.discardRead r) :=
  (releaseBindings_only _ _ _).inner.trans (leaveSlotWait_inner ..)

/-- Slots charged to the internal side stay where they are, with what they hold. -/
theorem chargeInternal_keeps (x : Slot) (id : Nat) : Keeps x (x.chargeInternal id) := by
  unfold Slot.chargeInternal
  split
  · exact ⟨Or.inl rfl, rfl, rfl, fun _ h => by cases h⟩
  · exact Keeps.of

theorem discardWork_inner {H P : Prop} (s : State) (w : WriteWork) :
    Inner H P s (s.discardWork w) := by
  unfold State.discardWork
  dsimp only
  split
  · refine Inner.trans (Inner.trans (updWork_inner ..) (endOpenSectors_inner ..))
      (PoolOnly.inner (mapSlots_only _ (fun x => x.chargeInternal w.id) ?_))
    exact fun x => chargeInternal_keeps x w.id
  · exact ((endOpenSectors_inner ..).trans (dropWork_inner ..)).trans (leaveSlotWait_inner ..)

theorem discardRequest_inner {H P : Prop} (s : State) (r : Request) :
    Inner H P s (s.discardRequest r) := by
  unfold State.discardRequest
  split
  · exact discardRead_inner ..
  · split
    · exact Inner.refl H P s
    · exact discardWork_inner ..
  · split
    · exact Inner.refl H P s
    · exact discardWork_inner ..
  · exact Inner.refl H P s

theorem reset_port_inRange : Port.reset.settings.inRange = true := by decide

/-- What a channel reset puts in place at last (R176). -/
theorem resetChannel_outer (s : State) (c : Channel) (es : List Reservation)
    (he : es.Sublist s.reservations) :
    Outer s { s with
      requests := s.requests.set c [], reservations := es, ports := s.ports.set c Port.reset } := by
  have hr : ∀ d, (PerChannel.get (s.requests.set c []) d).Sublist (s.requests.get d) := by
    intro d
    rw [PerChannel.get_set]
    split
    · exact List.nil_sublist _
    · exact List.Sublist.refl _
  have hk : ∀ d, ((PerChannel.get (s.requests.set c []) d).map Request.key).Sublist
      ((s.requests.get d).map Request.key) := fun d => (hr d).map _
  exact
    { pending := rfl
      policy := id
      settings := fun w => by
        rw [settingsInRange_iff] at w ⊢
        intro d
        show (PerChannel.get (s.ports.set c Port.reset) d).settings.inRange = true
        rw [PerChannel.get_set]
        split
        · exact reset_port_inRange
        · exact w d
      table := table_sublist he
      law7 := id
      memory := id
      bounded := id
      sized := id
      ids := idsInOrder_sublist hk (Nat.le_refl _)
      tags := tagsDistinct_sublist hk
      room := fun _ w => room_of_le (fun d => (hr d).length_le) (fun d h => by
        have h1 : (PerChannel.get (s.requests.set c []) d).length ≤ (s.reqs d).length :=
          (hr d).length_le
        show (PerChannel.get (s.ports.set c Port.reset) d).outbox.length +
          (PerChannel.get (s.requests.set c []) d).length ≤ 16
        rw [PerChannel.get_set]
        split
        · show 0 + _ ≤ 16
          have : (PerChannel.get (s.requests.set c []) d).length = 0 := by
            rw [PerChannel.get_set, if_pos ‹_›]
            rfl
          omega
        · have h2 : (s.ports.get d).outbox.length + (s.reqs d).length ≤ 16 := h
          omega) w
      formed := fun w => by
        rw [portsFormed_iff] at w ⊢
        intro d
        show (PerChannel.get (s.ports.set c Port.reset) d).formed = true
        rw [PerChannel.get_set]
        split
        · decide
        · exact w d
      owned := owned_of (fun d x hx => by
        have hx' : x ∈ (PerChannel.get (s.ports.set c Port.reset) d).transfers := hx
        rw [PerChannel.get_set] at hx'
        split at hx'
        · cases hx'
        · exact Or.inl ⟨x, hx', rfl⟩) (Nat.le_refl _)
      works := id
      placed := id
      law5 := id
      maps := MapKept.refl _
      phase := fun _ w => w.keep
      notices := fun w => by
        rw [noticesOrdered_iff] at w ⊢
        intro d
        show noticesAscend (PerChannel.get (s.ports.set c Port.reset) d).pendingNotices = true
        rw [PerChannel.get_set]
        split
        · rfl
        · exact w d }

theorem channelReset_outer (s : State) (c : Channel) : Outer s (s.channelReset c) := by
  unfold State.channelReset
  dsimp only
  refine Outer.trans (Outer.trans (Outer.trans (Inner.outer
    (Inner.foldl _ discardRequest_inner _ s)) (cancelReadAhead_inner (H := True) (P := True) _ c).outer)
      (updCtl_inner (H := True) (P := True) _ (fun k => { k with
        ejectRequesters := k.ejectRequesters.filter (fun e => e.1 != c)
        mountRequesters := k.mountRequesters.filter (fun e => e.1 != c) })).outer)
          (resetChannel_outer _ c _ List.filter_sublist)

theorem portControl_outer (s : State) (c : Channel) (v : Byte) : Outer s (s.portControl c v) := by
  unfold State.portControl
  split
  · exact channelReset_outer s c
  · split
    · exact updPort_outer s c _ (fun _ => Or.inl rfl) (fun _ => Nat.le_refl _)
    · exact Outer.refl s

/-! ### Internal steps (R68, R77, R143) -/

theorem serveWaiter_inner {H P : Prop} (s : State) (id : Nat) : Inner H P s (s.serveWaiter id).1 := by
  unfold State.serveWaiter
  split
  · exact (serveRead_inner ..).trans (settleRead_inner ..)
  · split
    · exact leaveSlotWait_inner ..
    · next hw =>
      split
      · exact Inner.refl H P s
      · exact allocate_inner _ _ (fun _ => findWork_ne hw)

theorem serveWaiters_inner {H P : Prop} (ids : List Nat) (s : State) :
    Inner H P s (s.serveWaiters ids) := by
  induction ids generalizing s with
  | nil => exact Inner.refl H P s
  | cons id ids ih =>
    unfold State.serveWaiters
    dsimp only
    exact Inner.ite _ (serveWaiter_inner ..) ((serveWaiter_inner ..).trans (ih _))

theorem examineWaiting_inner {H P : Prop} (s : State) (id : Nat) :
    Inner H P s (s.examineWaiting id) := by
  unfold State.examineWaiting
  split
  · exact Inner.refl H P s
  · next hw =>
    exact Inner.ite _ (rescueDataStep_inner ..)
      (Inner.ite _ (allocate_inner _ _ (fun _ => findWork_ne hw)) (Inner.refl H P s))

/-! ### Time (R50, R125, R158, R181) -/

theorem tickRequests_keys (rs : List Request) :
    (tickRequests rs).map Request.key = rs.map Request.key := by
  rw [tickRequests, List.map_map]
  rfl

theorem tickPort_frame (s : State) (c : Channel) : (s.tickPort c).frame = (s.port c).frame := by
  unfold State.tickPort
  split <;> rfl

theorem port_tick (s : State) (c : Channel) : s.tick.port c = s.tickPort c := by
  cases c <;> rfl

theorem reqs_tick (s : State) (c : Channel) : s.tick.reqs c = tickRequests (s.reqs c) := by
  cases c <;> rfl

theorem countDown_isSome (n : Option Nat) : (countDown n).isSome = n.isSome := by
  cases n <;> rfl

theorem tick_law7 (l : Link) (w : l.law7 = true) : l.tick.law7 = true := by
  unfold Link.tick
  split
  · next h =>
    unfold Link.law7 at w ⊢
    cases ho : l.outstanding with
    | none => simp [ho, h] at w
    | some c =>
      simp only [ho] at w ⊢
      rw [countDown_isSome]
      exact w
  · exact w
  · exact w

theorem tick_received (l : Link) : l.tick.received = l.received := by
  unfold Link.tick
  split <;> rfl

theorem tick_outstanding (l : Link) : l.tick.outstanding = l.outstanding := by
  unfold Link.tick
  split <;> rfl

theorem tick_outer (s : State) : Outer s s.tick := by
  have hk : ∀ c, ((s.tick.reqs c).map Request.key).Sublist ((s.reqs c).map Request.key) := by
    intro c
    rw [reqs_tick, tickRequests_keys] <;> exact List.Sublist.refl _
  have hp : ∀ c, (s.tick.port c).settings = (s.port c).settings ∧
      (s.tick.port c).outbox = (s.port c).outbox := by
    intro c
    have := Port.frame_fields (tickPort_frame s c)
    rw [port_tick]
    exact ⟨this.1, this.2.2.2.2.2.1⟩
  exact
    { pending := rfl
      policy := id
      settings := fun w => by
        rw [settingsInRange_iff] at w ⊢
        intro c
        rw [(hp c).1]
        exact w c
      table := id
      law7 := tick_law7 _
      memory := fun w => by
        simp only [State.memoryWf, Bool.and_eq_true, Link.receivedWf] at w ⊢
        exact ⟨⟨⟨w.1.1.1, by
          show (s.link.tick.received.all _) = true
          rw [tick_received]
          exact w.1.1.2⟩, w.1.2⟩, w.2⟩
      bounded := fun w => by
        rw [DefectManager.bounded_iff] at w ⊢
        exact ⟨law9_sublist (List.Sublist.refl _) w.1, w.2⟩
      sized := id
      ids := idsInOrder_sublist hk (Nat.le_refl _)
      tags := tagsDistinct_sublist hk
      room := fun _ w => room_of_le (keySublist_length hk) (fun c h => by
        have := keySublist_length hk c
        rw [(hp c).2]
        omega) w
      formed := fun w => by
        rw [portsFormed_iff] at w ⊢
        intro c
        have := Port.frame_fields (tickPort_frame s c)
        rw [port_tick]
        exact formed_of this.2.2.1 this.2.2.2.2.2.2 (w c)
      owned := owned_of (fun c x hx => by
        rw [port_tick] at hx
        unfold State.tickPort at hx
        split at hx <;> exact Or.inl ⟨x, hx, rfl⟩) (Nat.le_refl _)
      works := id
      placed := id
      law5 := id
      maps := MapKept.refl _
      phase := fun _ w => w.keep (h7 := tick_outstanding _)
      notices := ordered_of (fun c => by
        rw [port_tick]
        exact Port.frame_notices (tickPort_frame s c)) }

theorem expireRead_inner {H P : Prop} (s : State) (c : Channel) (r : Request) :
    Inner H P s (s.expireRead c r) := by
  unfold State.expireRead
  split
  · refine updReq_inner s c r.id _ ?_
    exact fun _ => rfl
  · refine Inner.trans (updReq_inner s c r.id _ ?_) (endRead_inner ..)
    exact fun _ => rfl

theorem timeOutTransfer_inner {H P : Prop} (s : State) (c : Channel) (t : Transfer) :
    Inner H P s (s.timeOutTransfer c t) := by
  unfold State.timeOutTransfer
  split
  · exact Inner.refl H P s
  · split
    · exact cutRead_inner ..
    · unfold State.timeOutFill
      dsimp only
      split
      · exact endOpenSectors_inner ..
      · exact (endOpenSectors_inner ..).trans (concludeWork_inner ..)
    · exact settleReq_inner ..

/-! ### Every command -/

theorem reset_laws : State.reset.policy.inRange = true ∧ State.reset.settingsInRange = true ∧
    (law10 State.reset.reservations = true ∧ tableForm State.reset.reservations = true) ∧
      State.reset.link.law7 = true ∧ State.reset.memoryWf = true ∧
        State.reset.dm.bounded = true ∧ State.reset.pool.sized = true ∧
          State.reset.idsInOrder = true ∧ State.reset.tagsDistinct = true ∧
            (State.reset.law1 = true ∧ State.reset.law3 = true) ∧
              State.reset.portsFormed = true ∧ State.reset.transfersOwned = true ∧
                State.reset.worksOwned = true ∧ State.reset.pool.placed = true ∧
                  State.reset.law5 = true ∧
                  (State.reset.dm.mapForm = true ∧ State.reset.dm.mapSound = true) ∧
                    State.reset.phased = true ∧ State.reset.noticesOrdered = true := by decide

theorem externalReset_outer (s : State) : Outer s { State.reset with pending := s.pending } := by
  obtain ⟨h1, h2, h3, h4, h5, h6, h7, h8, h9, h10, h11, h12, h13, h14, h15, h16, h17, h18⟩ :=
    reset_laws
  exact ⟨rfl, fun _ => h1, fun _ => h2, fun _ => h3, fun _ => h4, fun _ => h5, fun _ => h6,
    fun _ => h7, fun _ => h8, fun _ => h9, fun _ _ => h10, fun _ => h11, fun _ _ => h12,
    fun _ => h13, fun _ => h14, fun _ => h15, ⟨fun _ => h16.1, fun _ => h16.2⟩,
    fun _ _ => ((phased_iff _).mp h17).keep, fun _ => h18⟩

/-- A step whose outcome is the end of a step on an effect that keeps the laws. -/
theorem Outer.next {s u t : State} (a : Outer s u)
    (h : Host.Outcome.next (φ := Fault) (ρ := Refusal) (State.finish s u) = .next t) : Outer s t := by
  injection h with h
  rw [← h]
  exact a.finish

/-- A step whose outcome is the effect itself. -/
theorem Outer.plain {s u t : State} (a : Outer s u)
    (h : Host.Outcome.next (φ := Fault) (ρ := Refusal) u = .next t) : Outer s t := by
  injection h with h
  rw [← h]
  exact a

theorem block_outer {s t : State} {c : Channel} {b : RequestBlock}
    (h : s.blockStep c b = .next t) : Outer s t :=
  (takeBlock_outer s c b).next h

theorem registerWrite_outer (s : State) (c : Channel) (loc : WriteLocation) (v : Byte) :
    Outer s (match loc with
      | .request => s.requestByte c v
      | .completion => s.setOverrun c
      | .transfer => s.setOverrun c) := by
  cases loc
  · exact requestByte_outer s c v
  · exact setOverrun_outer s c
  · exact setOverrun_outer s c

theorem deadlineExpiry_outer (s : State) (c : Channel) (tag : Byte) :
    Outer s (match s.reqByTag c tag with
      | none => s
      | some r => if r.deadline = some 0 then s.expireRead c r else s) := by
  split
  · exact Outer.refl s
  · exact (Inner.ite _ (expireRead_inner ..) (Inner.refl True True s)).outer

theorem dataTimeout_outer (s : State) (c : Channel) :
    Outer s (match s.currentTransfer c with
      | none => s
      | some t => if (s.port c).idle = some 0 then s.timeOutTransfer c t else s) := by
  split
  · exact Outer.refl s
  · exact (Inner.ite _ (timeOutTransfer_inner ..) (Inner.refl True True s)).outer

/-- Every command keeps every law. -/
theorem exec_outer (i : Instr) (s t : State) (h : exec i s = .next t) : Outer s t := by
  cases i with
  | externalReset => exact (externalReset_outer s).plain h
  | channelReset c v => exact (portControl_outer s c v).next h
  | clearOverrun c v => exact (portControl_outer s c v).next h
  | registerWrite c loc v => exact (registerWrite_outer s c loc v).next h
  | completionRead c => exact (readCompletion_outer s c).next h
  | dataRead c => exact (readData_outer s c).next h
  | dataWrite c v => exact (writeData_outer s c v).next h
  | read => exact block_outer h
  | write => exact block_outer h
  | reassign => exact block_outer h
  | reserve => exact block_outer h
  | release => exact block_outer h
  | flushMap => exact block_outer h
  | eject => exact block_outer h
  | mount => exact block_outer h
  | status => exact block_outer h
  | reportMap => exact block_outer h
  | setPolicy => exact block_outer h
  | setChannel => exact block_outer h
  | abort => exact block_outer h
  | unknownRequest => exact block_outer h
  | pendingNoticePost c => exact (postPending_posted s c).outer.next h
  | slotWaitServe => exact (serveWaiters_inner _ s).outer.next h
  | overlapWaitRelease =>
    exact (Inner.foldl _ (fun s id => examineWaiting_inner s id) _ s).outer.next h
  | headSchedulerChoice => exact (choose_inner s).outer.next h
  | response n a => exact (responseTaken_inner s n a).outer.next h
  | mechDataFrame n x f => exact (dataFrameTaken_inner s n x f).outer.next h
  | damagedFrame => exact (damagedTaken_inner s).outer.next h
  | commandTimeout => exact (commandTimesOut_inner s).outer.next h
  | mediaIn n wp => exact (eventTaken_inner s n _ (fun t => mediaInTaken_inner t wp)).outer.next h
  | mediaOut n =>
    exact (eventTaken_inner s n _
      (fun t => (cancelCommand_inner t).trans (removal_inner _))).outer.next h
  | button n => exact (eventTaken_inner s n _ buttonTaken_inner).outer.next h
  | mechFault n =>
    exact (eventTaken_inner s n _
      (fun t => (cancelCommand_inner t).trans (mechFaultTaken_inner _))).outer.next h
  | deadlineExpiry c tag => exact (deadlineExpiry_outer s c tag).next h
  | dataTimeout c => exact (dataTimeout_outer s c).next h
  | settleDelayExpiry => exact (Inner.ite _ (settle_inner s _) (Inner.refl True True s)).outer.plain h
  | unmountDrainEnd =>
    exact (Inner.ite _ (askUnmountWriteback_inner s) (Inner.refl True True s)).outer.next h
  | timebaseTick => exact (tick_outer s).plain h

/-- Every step keeps every law, whatever the queue holds. -/
theorem step_outer (s t : State) (h : step s = .next t) :
    Outer { s with pending := s.pending.tail } t := by
  unfold step at h
  split at h
  · next hp =>
    injection h with h
    rw [← h]
    have : ({ s with pending := s.pending.tail } : State) = s := by rw [hp]; cases s; simp_all
    rw [this]
    exact Outer.refl s
  · next c rest hp =>
    have : ({ s with pending := s.pending.tail } : State) = { s with pending := rest } := by
      rw [hp]; rfl
    rw [this]
    exact exec_outer c _ t h

end Sys2Proof.Machine
end

