-- ==== Sys2Proof/Laws/Quiet.lean ====
section
/-! SUPPORT. Between steps the READs agree with their sectors and nothing is left to be posted: the end
of a step makes the state quiet. -/

set_option Elab.async false

namespace Sys2Proof.Machine

/-! ### Availability does not grow -/

theorem slotAt_setSlot (s : State) (i j : Nat) (x : Slot) : (s.setSlot i x).slotAt j =
    if j = i ∧ i < s.pool.slots.length then x else s.slotAt j := by
  unfold State.slotAt State.setSlot
  simp only [List.getD_eq_getElem?_getD, List.getElem?_set]
  by_cases h : i = j
  · subst h
    by_cases hl : i < s.pool.slots.length
    · simp [hl]
    · simp [hl]
  · have : ¬(j = i) := fun e => h e.symm
    simp [h, this]

/-- No slot has become available. -/
def AvailLe (s t : State) : Prop :=
  ∀ i, (t.slotAt i).available = true → (s.slotAt i).available = true

theorem AvailLe.refl (s : State) : AvailLe s s := fun _ h => h

theorem AvailLe.trans {s t u : State} (a : AvailLe s t) (b : AvailLe t u) : AvailLe s u :=
  fun i h => a i (b i h)

theorem AvailLe.ofPool {s t : State} (h : t.pool = s.pool) : AvailLe s t := by
  intro i hi
  unfold State.slotAt at hi ⊢
  rwa [h] at hi

theorem setSlot_avail (s : State) (i : Nat) (x : Slot)
    (h : x.available = true → (s.slotAt i).available = true) : AvailLe s (s.setSlot i x) := by
  intro j hj
  rw [slotAt_setSlot] at hj
  split at hj
  · next hc => rw [hc.1]; exact h hj
  · exact hj

theorem settleCharge_state (x : Slot) : x.settleCharge.state = x.state := by
  unfold Slot.settleCharge
  split
  · rfl
  · split
    · split <;> rfl
    · rfl
    · rfl

theorem settleCharge_available (x : Slot) : x.settleCharge.available = x.available := by
  simp only [Slot.available, settleCharge_state]

theorem freeSlot_avail (s : State) (i : Nat) : AvailLe s (s.freeSlot i) := by
  refine AvailLe.trans (t := s.unmapSlot i) (fun _ h => h) (setSlot_avail _ i _ (fun h => ?_))
  cases h

theorem tidySlot_avail (s : State) (i : Nat) : AvailLe s (s.tidySlot i) := by
  unfold State.tidySlot
  dsimp only
  split
  · exact freeSlot_avail s i
  · exact setSlot_avail s i _ (fun h => by rwa [settleCharge_available] at h)

theorem afterRelease_avail (s : State) (id i : Nat) : AvailLe s (s.afterRelease id i) := by
  unfold State.afterRelease
  dsimp only
  split
  · split
    · exact freeSlot_avail s i
    · exact setSlot_avail s i _ (fun h => by rw [settleCharge_available] at h; exact h)
  · exact tidySlot_avail s i

theorem releaseBinding_avail (s : State) (id i : Nat) (b : Bool) :
    AvailLe s (s.releaseBinding id i b) := by
  refine AvailLe.trans (setSlot_avail s i _ (fun h => ?_)) (afterRelease_avail _ id i)
  cases b <;> exact h

theorem releaseBindings_avail (id : Nat) (slots : List Nat) (s : State) :
    AvailLe s (s.releaseBindings id slots) := by
  unfold State.releaseBindings
  induction slots generalizing s with
  | nil => exact AvailLe.refl s
  | cons i is ih => exact AvailLe.trans (releaseBinding_avail s id i false) (ih _)

theorem sectorAvailable_mono {s t : State} (a : AvailLe s t) (r : Request) (k : Nat)
    (h : t.sectorAvailable r k = true) : s.sectorAvailable r k = true := by
  unfold State.sectorAvailable at h ⊢
  cases hk : r.sectors[k]? with
  | none => rw [hk] at h; exact h
  | some x =>
    rw [hk] at h
    dsimp only at h ⊢
    cases hx : x.st with
    | bound i => rw [hx] at h; exact a i h
    | waiting => rw [hx] at h; exact h
    | failed _ => rw [hx] at h; exact h
    | taken => rw [hx] at h; exact h
    | gaveUp => rw [hx] at h; exact h

/-- A READ that agrees with its sectors goes on to, as long as no slot becomes available. -/
theorem readFollowed_mono {s t : State} (a : AvailLe s t) (r : Request)
    (h : s.readFollowed r = true) : t.readFollowed r = true := by
  unfold State.readFollowed at h ⊢
  simp only [Bool.and_eq_true, Bool.or_eq_true, Bool.not_eq_true'] at h ⊢
  refine ⟨h.1, ?_⟩
  rcases h.2 with h2 | h2
  · exact Or.inl h2
  · refine Or.inr ⟨?_, h2.2⟩
    cases ht : t.sectorAvailable r 0 with
    | false => rfl
    | true => rw [sectorAvailable_mono a r 0 ht] at h2; cases h2.1

/-- Not a READ, or settled, or in agreement with its sectors. -/
def State.Good (s : State) (r : Request) : Prop :=
  r.kind ≠ .read ∨ r.state = .done ∨ s.readFollowed r = true

theorem Good.mono {s t : State} (a : AvailLe s t) {r : Request} (h : s.Good r) : t.Good r := by
  rcases h with h | h | h
  · exact Or.inl h
  · exact Or.inr (Or.inl h)
  · exact Or.inr (Or.inr (readFollowed_mono a r h))

/-! ### One READ following its sectors (R157) -/

theorem mem_unique {rs : List Request} (h : (rs.map (fun r => r.id)).Pairwise (· < ·))
    {r q : Request} (hr : r ∈ rs) (hq : q ∈ rs) (e : r.id = q.id) : r = q := by
  induction rs with
  | nil => cases hr
  | cons x xs ih =>
    rw [List.map_cons, List.pairwise_cons] at h
    rcases List.mem_cons.mp hr with rfl | hr
    · rcases List.mem_cons.mp hq with rfl | hq
      · rfl
      · have := h.1 q.id (List.mem_map.mpr ⟨q, hq, rfl⟩)
        omega
    · rcases List.mem_cons.mp hq with hqe | hq
      · have := h.1 r.id (List.mem_map.mpr ⟨r, hr, rfl⟩)
        rw [hqe] at e
        omega
      · exact ih h.2 hr hq

/-- What a change of one request leaves of the others. -/
theorem mem_updReq {s : State} {c d : Channel} {id : Nat} {f : Request → Request} {r : Request}
    (h : r ∈ (s.updReq c id f).reqs d) :
    (d = c ∧ ∃ q ∈ s.reqs c, q.id = id ∧ r = f q) ∨ (r ∈ s.reqs d ∧ ¬(d = c ∧ r.id = id)) := by
  rw [reqs_updReq] at h
  split at h
  · next hd =>
    subst hd
    obtain ⟨q, hq, rfl⟩ := List.mem_map.mp h
    by_cases he : q.id = id
    · rw [if_pos (by rw [he]; exact beq_self_eq_true _)]
      exact Or.inl ⟨rfl, q, hq, he, rfl⟩
    · rw [if_neg (by simpa using he)]
      exact Or.inr ⟨hq, fun hh => he hh.2⟩
  · next hd => exact Or.inr ⟨h, fun hh => hd hh.1⟩

/-- What following one READ does to the requests and the pool. -/
structure Followed (s t : State) (c : Channel) (id : Nat) : Prop where
  avail : AvailLe s t
  others : ∀ d r, r ∈ t.reqs d → ¬(d = c ∧ r.id = id) → r ∈ s.reqs d
  good : ∀ r ∈ t.reqs c, r.id = id → t.Good r

theorem endRead_followed (s : State) (c : Channel) (id : Nat) (st : Status) (short : Bool)
    (ff : Option Nat) (r0 : Request) (hf : s.findReq c id = some r0) :
    Followed s (s.endRead c id st short ff) c id := by
  unfold State.endRead
  rw [hf]
  dsimp only
  generalize hg : (fun r : Request => { r with
    sectors := r.sectors.map ReadSector.giveUp
    worstLoad := r.deliveredLoad
    corrected := correctedBy r.deliveredLoad
    short := short
    firstFailing := ff }) = g
  have hid : ∀ r, (g r).id = r.id := by intro r; rw [← hg]
  have hreq : ∀ d, ((((s.updReq c id g).settleReq c id st).releaseBindings id
      (r0.boundSlotsFrom 0)).leaveSlotWait id).reqs d = ((s.updReq c id g).settleReq c id st).reqs d := by
    intro d
    have h := (releaseBindings_only (H := True) ((s.updReq c id g).settleReq c id st) id
      (r0.boundSlotsFrom 0)).trans (leaveSlotWait_only _ id)
    rw [h.rest]
    rfl
  refine ⟨?_, fun d r hr hn => ?_, fun r hr hi => ?_⟩
  · refine AvailLe.trans (t := (s.updReq c id g).settleReq c id st) (AvailLe.ofPool rfl) ?_
    refine AvailLe.trans (releaseBindings_avail id (r0.boundSlotsFrom 0) _) ?_
    exact fun _ h => h
  · rw [hreq] at hr
    rcases mem_updReq (s := s.updReq c id g) (c := c) (d := d) hr with ⟨hd, q, _, hqi, rfl⟩ | ⟨h1, _⟩
    · exact absurd ⟨hd, hqi⟩ hn
    · rcases mem_updReq h1 with ⟨hd, q, _, hqi, rfl⟩ | ⟨h2, _⟩
      · exact absurd ⟨hd, by rw [hid]; exact hqi⟩ hn
      · exact h2
  · rw [hreq] at hr
    rcases mem_updReq (s := s.updReq c id g) (c := c) (d := c) hr with ⟨_, q, _, _, rfl⟩ | ⟨_, h2⟩
    · exact Or.inr (Or.inl rfl)
    · exact absurd ⟨rfl, hi⟩ h2

theorem findReq_mem {s : State} {c : Channel} {id : Nat} {r : Request}
    (h : s.findReq c id = some r) : r ∈ s.reqs c ∧ r.id = id := by
  refine ⟨List.mem_of_find?_eq_some h, ?_⟩
  have := List.find?_some h
  simpa using this

/-- A change of one READ's state alone. -/
theorem updState_followed (s : State) (c : Channel) (id : Nat) (x : RequestState) (r0 : Request)
    (hp : ((s.reqs c).map (fun r => r.id)).Pairwise (· < ·)) (hf : s.findReq c id = some r0)
    (hgood : s.Good { r0 with state := x }) :
    Followed s (s.updReq c id (fun r => { r with state := x })) c id := by
  refine ⟨AvailLe.ofPool rfl, fun d r hr hn => ?_, fun r hr hi => ?_⟩
  · rcases mem_updReq hr with ⟨hd, q, _, hqi, rfl⟩ | ⟨h1, _⟩
    · exact absurd ⟨hd, hqi⟩ hn
    · exact h1
  · rcases mem_updReq hr with ⟨_, q, hq, hqi, rfl⟩ | ⟨_, h2⟩
    · have hm := findReq_mem hf
      have : q = r0 := mem_unique hp hq hm.1 (by rw [hqi, hm.2])
      rw [this]
      exact Good.mono (AvailLe.ofPool rfl) hgood
    · exact absurd ⟨rfl, hi⟩ h2

/-- A READ whose first sector is not available, put in the state its bindings give. -/
theorem waiting_followed (s : State) (q : Request) (h1 : q.nextNotFailed = true)
    (h2 : ¬s.sectorAvailable q 0 = true) : s.readFollowed { q with
      state := if q.noneBound then RequestState.slotWait else .active } = true := by
  have e1 : Request.nextNotFailed { q with
      state := if q.noneBound then RequestState.slotWait else .active } = true := h1
  have e2 : s.sectorAvailable { q with
      state := if q.noneBound then RequestState.slotWait else .active } 0 = false := by
    have : s.sectorAvailable { q with
        state := if q.noneBound then RequestState.slotWait else .active } 0 =
          s.sectorAvailable q 0 := rfl
    rw [this]
    simpa using h2
  unfold State.readFollowed
  rw [e1, e2]
  simp [Request.noneBound]

theorem settleRead_followed (s : State) (c : Channel) (id : Nat)
    (hp : ((s.reqs c).map (fun r => r.id)).Pairwise (· < ·)) :
    Followed s (s.settleRead c id) c id := by
  have same : ∀ r0, s.findReq c id = some r0 → s.Good r0 → Followed s s c id := by
    intro r0 hf hg
    refine ⟨AvailLe.refl s, fun _ _ h _ => h, fun r hr hi => ?_⟩
    have hm := findReq_mem hf
    rw [mem_unique hp hr hm.1 (by rw [hi, hm.2])]
    exact hg
  unfold State.settleRead
  split
  · next hf =>
    refine ⟨AvailLe.refl s, fun _ _ h _ => h, fun r hr hi => ?_⟩
    have := List.find?_eq_none.mp hf r hr
    rw [hi] at this
    exact absurd (beq_self_eq_true _) this
  · next r0 hf =>
    split
    · split
      · exact endRead_followed s c id _ _ _ r0 hf
      · next hnf =>
        have hnext : r0.nextNotFailed = true := by
          unfold Request.nextNotFailed
          split
          · next st hst => exact absurd hst (hnf st)
          · rfl
        split
        · next hd =>
          refine same r0 hf (Or.inr (Or.inr ?_))
          unfold State.readFollowed
          rw [hnext, hd]
          rfl
        · split
          · have h := updState_followed s c id .delivering r0 hp hf (Or.inr (Or.inr (by
              have : Request.nextNotFailed { r0 with state := .delivering } = true := hnext
              unfold State.readFollowed
              rw [this]
              rfl)))
            exact ⟨AvailLe.trans h.avail (AvailLe.ofPool rfl), fun d r hr => h.others d r hr,
              fun r hr hi => Good.mono (AvailLe.ofPool rfl) (h.good r hr hi)⟩
          · next hav =>
            refine ⟨AvailLe.ofPool rfl, fun d r hr hn => ?_, fun r hr hi => ?_⟩
            · rcases mem_updReq hr with ⟨hd, q, _, hqi, rfl⟩ | ⟨h1, _⟩
              · exact absurd ⟨hd, hqi⟩ hn
              · exact h1
            · rcases mem_updReq hr with ⟨_, q, hq, hqi, rfl⟩ | ⟨_, h2⟩
              · have hm := findReq_mem hf
                have he : q = r0 := mem_unique hp hq hm.1 (by rw [hqi, hm.2])
                subst he
                refine Good.mono (s := s) (AvailLe.ofPool rfl) (Or.inr (Or.inr ?_))
                exact waiting_followed s q hnext hav
              · exact absurd ⟨rfl, hi⟩ h2
    · next hn =>
      refine same r0 hf ?_
      by_cases hk : r0.kind = .read
      · refine Or.inr (Or.inl ?_)
        simpa [hk] using hn
      · exact Or.inl hk

/-! ### All READs of a channel -/

theorem pairwise_keys {s t : State} {c : Channel}
    (h : (t.reqs c).map Request.key = (s.reqs c).map Request.key)
    (hp : ((s.reqs c).map (fun r => r.id)).Pairwise (· < ·)) :
    ((t.reqs c).map (fun r => r.id)).Pairwise (· < ·) := by
  rw [← keyIds, h, keyIds]
  exact hp

theorem settleList_good (c : Channel) (ids : List Nat) (s : State)
    (hp : ((s.reqs c).map (fun r => r.id)).Pairwise (· < ·)) :
    AvailLe s (ids.foldl (fun s id => s.settleRead c id) s) ∧
      (∀ d, d ≠ c → ∀ r ∈ (ids.foldl (fun s id => s.settleRead c id) s).reqs d, r ∈ s.reqs d) ∧
        ∀ r ∈ (ids.foldl (fun s id => s.settleRead c id) s).reqs c,
          (r.id ∈ ids → (ids.foldl (fun s id => s.settleRead c id) s).Good r) ∧
            (r.id ∉ ids → r ∈ s.reqs c) := by
  induction ids generalizing s with
  | nil =>
    exact ⟨AvailLe.refl s, fun _ _ r h => h, fun r hr => ⟨fun h => (List.not_mem_nil h).elim,
      fun _ => hr⟩⟩
  | cons id ids ih =>
    have hs := settleRead_followed s c id hp
    obtain ⟨h1, h2, h3⟩ := ih (s.settleRead c id) (pairwise_keys ((settleRead_reads s c id).keys c) hp)
    simp only [List.foldl_cons]
    refine ⟨hs.avail.trans h1, fun d hd r hr => ?_, fun r hr => ⟨fun hm => ?_, fun hm => ?_⟩⟩
    · exact hs.others d r (h2 d hd r hr) (fun hh => hd hh.1)
    · by_cases hi : r.id ∈ ids
      · exact (h3 r hr).1 hi
      · have hid : r.id = id := by
          rcases List.mem_cons.mp hm with h | h
          · exact h
          · exact absurd h hi
        exact Good.mono h1 (hs.good r ((h3 r hr).2 hi) hid)
    · simp only [List.mem_cons, not_or] at hm
      exact hs.others c r ((h3 r hr).2 hm.2) (fun hh => hm.1 hh.2)

theorem settleReadsOf_good (s : State) (c : Channel)
    (hp : ((s.reqs c).map (fun r => r.id)).Pairwise (· < ·)) :
    AvailLe s (s.settleReadsOf c) ∧
      (∀ d, d ≠ c → ∀ r ∈ (s.settleReadsOf c).reqs d, r ∈ s.reqs d) ∧
        ∀ r ∈ (s.settleReadsOf c).reqs c, (s.settleReadsOf c).Good r := by
  obtain ⟨h1, h2, h3⟩ := settleList_good c ((s.reqs c).map (fun r => r.id)) s hp
  refine ⟨h1, h2, fun r hr => (h3 r hr).1 ?_⟩
  have hk : ((s.settleReadsOf c).reqs c).map Request.key = (s.reqs c).map Request.key :=
    (ReadsOnly.foldl _ (fun s id => settleRead_reads s c id) _ s).keys c
  rw [← keyIds, ← hk, keyIds]
  exact List.mem_map.mpr ⟨r, hr, rfl⟩

/-- After the READs have followed, every one agrees with its sectors or is settled (R157). -/
theorem settleReads_good (s : State) (hi : s.idsInOrder = true) (c : Channel) :
    ∀ r ∈ s.settleReads.reqs c, s.settleReads.Good r := by
  rw [idsInOrder_iff] at hi
  have ha := settleReadsOf_good s .A (hi.1 .A)
  have hkb : ((s.settleReadsOf .A).reqs .B).map Request.key = (s.reqs .B).map Request.key :=
    (ReadsOnly.foldl _ (fun s id => settleRead_reads s .A id) _ s).keys .B
  have hb := settleReadsOf_good (s.settleReadsOf .A) .B (pairwise_keys hkb (hi.1 .B))
  intro r hr
  cases c with
  | A => exact Good.mono hb.1 (ha.2.2 r (hb.2.1 .A (by decide) r hr))
  | B => exact hb.2.2 r hr

/-! ### The read-ahead moments (R117) -/

/-- Not a READ, or settled in a way that misses the moment, or with no read-ahead moment owed. -/
def State.Moment (s : State) (r : Request) : Prop :=
  r.kind ≠ .read ∨ r.reachesMoment = false ∨ s.momentTaken r = true

/-- A READ that is not settled reaches its moment (R117). -/
theorem reachesMoment_of {r : Request} (h : r.state ≠ .done) : r.reachesMoment = true := by
  simp [Request.reachesMoment, h]

/-- A state whose pool is the same asks the same of a READ. -/
theorem Moment.congr {s t : State} (h : t.pool = s.pool) {r : Request} (m : s.Moment r) :
    t.Moment r := by
  unfold State.Moment State.momentTaken State.fetchesOver State.slotAt at m ⊢
  rw [h]
  exact m

theorem Good.congr {s t : State} (h : t.pool = s.pool) {r : Request} (m : s.Good r) : t.Good r :=
  Good.mono (AvailLe.ofPool h) m

/-- What one moment does: the pool stays; only the READ changes, and it stays good. -/
structure Moved (s t : State) (c : Channel) (id : Nat) : Prop where
  pool : t.pool = s.pool
  others : ∀ d r, r ∈ t.reqs d → ¬(d = c ∧ r.id = id) → r ∈ s.reqs d
  this : ∀ r ∈ t.reqs c, r.id = id → t.Moment r
  good : (∀ d, ∀ r ∈ s.reqs d, s.Good r) → ∀ d, ∀ r ∈ t.reqs d, t.Good r

theorem readAheadMoment_moved (s : State) (c : Channel) (id : Nat)
    (hp : ((s.reqs c).map (fun r => r.id)).Pairwise (· < ·)) :
    Moved s (s.readAheadMoment c id) c id := by
  unfold State.readAheadMoment
  split
  · next hf =>
    refine ⟨rfl, fun _ _ h _ => h, fun r hr hi => ?_, fun h => h⟩
    have := List.find?_eq_none.mp hf r hr
    rw [hi] at this
    exact absurd (beq_self_eq_true _) this
  · next r0 hf =>
    have hm := findReq_mem hf
    split
    · refine ⟨rfl, fun d r hr hn => ?_, fun r hr hi => ?_, fun h d r hr => ?_⟩
      · rcases mem_updReq (s := s.setReadAhead c (s.readAheadOf c r0)) hr with
          ⟨hd, q, _, hqi, rfl⟩ | ⟨h1, _⟩
        · exact absurd ⟨hd, hqi⟩ hn
        · exact h1
      · rcases mem_updReq (s := s.setReadAhead c (s.readAheadOf c r0)) hr with
          ⟨_, q, _, _, rfl⟩ | ⟨_, h2⟩
        · refine Or.inr (Or.inr ?_)
          unfold State.momentTaken
          simp
        · exact absurd ⟨rfl, hi⟩ h2
      · rcases mem_updReq (s := s.setReadAhead c (s.readAheadOf c r0)) hr with
          ⟨hd, q, hq, _, rfl⟩ | ⟨h1, _⟩
        · have := h c q hq
          exact Good.congr (s := s) rfl this
        · exact Good.congr (s := s) rfl (h d r h1)
    · next hn =>
      refine ⟨rfl, fun _ _ h _ => h, fun r hr hi => ?_, fun h => h⟩
      have : r = r0 := mem_unique hp hr hm.1 (by rw [hi, hm.2])
      subst this
      by_cases hk : r.kind = .read
      · cases hd : r.reachesMoment with
        | false => exact Or.inr (Or.inl hd)
        | true =>
          refine Or.inr (Or.inr ?_)
          unfold State.momentTaken
          have hk' : (r.kind == .read) = true := by simpa using hk
          simp only [hk', hd, Bool.true_and, Bool.and_true, Bool.not_eq_true] at hn
          rw [hn]
          rfl
      · exact Or.inl hk

theorem momentList_moved (c : Channel) (ids : List Nat) (s : State)
    (hp : ((s.reqs c).map (fun r => r.id)).Pairwise (· < ·)) :
    (ids.foldl (fun s id => s.readAheadMoment c id) s).pool = s.pool ∧
      (∀ d, d ≠ c → ∀ r ∈ (ids.foldl (fun s id => s.readAheadMoment c id) s).reqs d, r ∈ s.reqs d) ∧
        (∀ r ∈ (ids.foldl (fun s id => s.readAheadMoment c id) s).reqs c,
          (r.id ∈ ids → (ids.foldl (fun s id => s.readAheadMoment c id) s).Moment r) ∧
            (r.id ∉ ids → r ∈ s.reqs c)) ∧
          ((∀ d, ∀ r ∈ s.reqs d, s.Good r) →
            ∀ d, ∀ r ∈ (ids.foldl (fun s id => s.readAheadMoment c id) s).reqs d,
              (ids.foldl (fun s id => s.readAheadMoment c id) s).Good r) := by
  induction ids generalizing s with
  | nil =>
    exact ⟨rfl, fun _ _ r h => h, fun r hr => ⟨fun h => (List.not_mem_nil h).elim, fun _ => hr⟩,
      fun h => h⟩
  | cons id ids ih =>
    have hs := readAheadMoment_moved s c id hp
    obtain ⟨h1, h2, h3, h4⟩ := ih (s.readAheadMoment c id)
      (pairwise_keys ((readAheadMoment_reads s c id).keys c) hp)
    simp only [List.foldl_cons]
    refine ⟨h1.trans hs.pool, fun d hd r hr => ?_, fun r hr => ⟨fun hm => ?_, fun hm => ?_⟩,
      fun hg => h4 (hs.good hg)⟩
    · exact hs.others d r (h2 d hd r hr) (fun hh => hd hh.1)
    · by_cases hi : r.id ∈ ids
      · exact (h3 r hr).1 hi
      · have hid : r.id = id := by
          rcases List.mem_cons.mp hm with h | h
          · exact h
          · exact absurd h hi
        exact Moment.congr h1 (hs.this r ((h3 r hr).2 hi) hid)
    · simp only [List.mem_cons, not_or] at hm
      exact hs.others c r ((h3 r hr).2 hm.2) (fun hh => hm.1 hh.2)

/-- After the READs have followed and the moments are taken, every request is settled or stands as it
does between steps. -/
theorem momentsTaken (s : State) (hi : s.idsInOrder = true) (c : Channel) :
    ∀ r ∈ s.settleReads.readAheadMoments.reqs c,
      s.settleReads.readAheadMoments.Good r ∧ s.settleReads.readAheadMoments.Moment r := by
  have hg := settleReads_good s hi
  have hu : s.settleReads.idsInOrder = true := (settleReads_inner s).outer.ids hi
  generalize s.settleReads = u at hg hu
  rw [idsInOrder_iff] at hu
  have hk : ∀ d, ((u.readAheadMomentsOf .A).reqs d).map Request.key = (u.reqs d).map Request.key :=
    (ReadsOnly.foldl _ (fun s id => readAheadMoment_reads s .A id) _ u).keys
  have hk2 : ∀ d, (u.readAheadMoments.reqs d).map Request.key =
      ((u.readAheadMomentsOf .A).reqs d).map Request.key :=
    (ReadsOnly.foldl _ (fun s id => readAheadMoment_reads s .B id) _ _).keys
  obtain ⟨p1, o1, m1, g1⟩ := momentList_moved .A ((u.reqs .A).map (fun r => r.id)) u (hu.1 .A)
  obtain ⟨p2, o2, m2, g2⟩ := momentList_moved .B
    (((u.readAheadMomentsOf .A).reqs .B).map (fun r => r.id)) (u.readAheadMomentsOf .A)
      (pairwise_keys (hk .B) (hu.1 .B))
  intro r hr
  refine ⟨g2 (g1 hg) c r hr, ?_⟩
  cases c with
  | A =>
    have hrA := o2 .A (by decide) r hr
    refine Moment.congr p2 ((m1 r hrA).1 ?_)
    have := hk .A
    rw [← keyIds, ← this, keyIds]
    exact List.mem_map.mpr ⟨r, hrA, rfl⟩
  | B =>
    refine (m2 r hr).1 ?_
    have := hk2 .B
    rw [← keyIds, ← this, keyIds]
    exact List.mem_map.mpr ⟨r, hr, rfl⟩

/-! ### The end of a step is quiet -/

/-- An answered unmount that waits for nothing (R143). -/
def State.ejectDue (s : State) : Bool :=
  s.ctl.state == .unmounting && s.ctl.unmountAnswer.isSome && s.engine.isNone &&
    s.sched.openRun.isNone

theorem ejectWhenAnswered_done (s : State) : s.ejectWhenAnswered.ejectDue = false := by
  unfold State.ejectWhenAnswered State.ejectDue
  split
  · have h : (s.beginEject).ctl.state = .ejecting := by
      unfold State.beginEject State.sendCommand State.updCtl
      dsimp only
      split <;> rfl
    rw [h]
    rfl
  · next h =>
    exact Bool.eq_false_iff.mpr h

/-- A request left after a step stands as it does between steps. -/
theorem requestQuiet_of {s : State} {r : Request} (hd : r.state ≠ .done) (hg : s.Good r)
    (hm : s.Moment r) : s.requestQuiet r = true := by
  unfold State.requestQuiet
  simp only [Bool.and_eq_true, Bool.or_eq_true, bne_iff_ne, ne_eq]
  refine ⟨hd, ?_⟩
  by_cases hk : r.kind = .read
  · refine Or.inr ⟨?_, ?_⟩
    · rcases hg with h | h | h
      · exact absurd hk h
      · exact absurd h hd
      · exact h
    · rcases hm with h | h | h
      · exact absurd hk h
      · rw [reachesMoment_of hd] at h
        cases h
      · exact h
  · exact Or.inl hk

theorem refreshIdle_absent (old s : State) (c : Channel)
    (h : ((State.refreshIdle old s c).port c).transfers.isEmpty = true) :
    ((State.refreshIdle old s c).port c).idle = none := by
  unfold State.refreshIdle at h ⊢
  split at h
  · next hc =>
    rw [port_updPort, if_pos rfl]
  · next t hc =>
    have hne : (s.port c).transfers.isEmpty = false := by
      unfold State.currentTransfer at hc
      cases hx : (s.port c).transfers with
      | nil => rw [hx] at hc; cases hc
      | cons => rfl
    split at h
    · rw [hne] at h; cases h
    · rw [port_updPort, if_pos rfl] at h
      rw [show ({ s.port c with idle := idleCount (s.port c).settings.idleLimit } :
        Port).transfers = (s.port c).transfers from rfl, hne] at h
      cases h

theorem refreshIdle_other (old s : State) {c d : Channel} (h : d ≠ c) :
    (State.refreshIdle old s c).port d = s.port d := by
  obtain ⟨n, e⟩ := refreshIdle_eq old s c
  rw [e, port_updPort, if_neg h]

/-- The end of a step leaves a quiet state. -/
theorem finish_quiet (old s : State) (hi : s.idsInOrder = true) :
    (State.finish old s).quiet = true := by
  have hf := finish_finished old s
  have hmom := momentsTaken s hi
  have hreqs := finish_reqs old s
  have hpool : (State.finish old s).pool = s.beforePosting.pool := by
    have h1 := (flush_flushed s.beforePosting).rest
    have h2 := ((refreshIdle_only old s.beforePosting.flush .A).trans
      (refreshIdle_only old (State.refreshIdle old s.beforePosting.flush .A) .B)).rest
    rw [finish_eq, h2, h1]
  have hbr : ∀ c, s.beforePosting.reqs c = s.settleReads.readAheadMoments.reqs c := by
    intro c
    unfold State.beforePosting
    rw [ejectWhenAnswered_rest]
    rfl
  have hbp : s.beforePosting.pool = s.settleReads.readAheadMoments.pool := by
    unfold State.beforePosting
    rw [ejectWhenAnswered_rest]
  unfold State.quiet
  simp only [Bool.and_eq_true, both_iff, Bool.not_eq_true']
  refine ⟨⟨⟨?_, fun c => ?_⟩, ?_⟩, fun c => ?_⟩
  · rw [hf.raised]
    rfl
  · rw [List.all_eq_true]
    intro r hr
    rw [hreqs, hbr, List.mem_filter] at hr
    have hd : r.state ≠ .done := by simpa using hr.2
    have hp : (State.finish old s).pool = s.settleReads.readAheadMoments.pool := hpool.trans hbp
    exact requestQuiet_of hd (Good.congr hp (hmom c r hr.1).1) (Moment.congr hp (hmom c r hr.1).2)
  · have h := ejectWhenAnswered_done s
    unfold State.ejectDue at h
    rw [show s.ejectWhenAnswered.engine = s.engine by rw [ejectWhenAnswered_rest],
      show s.ejectWhenAnswered.sched = s.sched by rw [ejectWhenAnswered_rest]] at h
    rw [hf.ctl, hf.engine, hf.sched]
    exact h
  · rw [Bool.or_eq_true, Bool.not_eq_true', Option.isNone_iff_eq_none]
    cases he : ((State.finish old s).port c).transfers.isEmpty with
    | false => exact Or.inl rfl
    | true =>
      refine Or.inr ?_
      rw [finish_eq] at he ⊢
      cases c with
      | B => exact refreshIdle_absent _ _ .B he
      | A =>
        rw [refreshIdle_other _ _ (by decide)] at he ⊢
        exact refreshIdle_absent _ _ .A he

/-! ### Every step leaves a quiet state -/

theorem tick_quiet (s : State) (h : s.quiet = true) : s.tick.quiet = true := by
  unfold State.quiet at h ⊢
  simp only [Bool.and_eq_true, both_iff, Bool.not_eq_true'] at h ⊢
  obtain ⟨⟨⟨h1, h2⟩, h3⟩, h4⟩ := h
  refine ⟨⟨⟨h1, fun c => ?_⟩, h3⟩, fun c => ?_⟩
  · rw [reqs_tick, List.all_eq_true]
    intro r hr
    obtain ⟨q, hq, rfl⟩ := List.mem_map.mp hr
    exact List.all_eq_true.mp (h2 c) q hq
  · have := h4 c
    rw [port_tick]
    unfold State.tickPort
    split
    · have hn : (countDown (s.port c).idle).isNone = (s.port c).idle.isNone := by
        cases (s.port c).idle <;> rfl
      simp only [hn]
      exact this
    · exact this

theorem reset_quiet : State.reset.quiet = true := by decide

theorem quiet_pending (s : State) (q : List Instr) :
    State.quiet { s with pending := q } = s.quiet := rfl

theorem settle_quiet (s : State) (x : Settle) :
    State.quiet { s with dm := { s.dm with settle := x } } = s.quiet := rfl

theorem quiet_next {s u t : State} (a : Outer s u) (hi : s.idsInOrder = true)
    (h : Host.Outcome.next (φ := Fault) (ρ := Refusal) (State.finish s u) = .next t) :
    t.quiet = true :=
  Host.Outcome.next.inj h ▸ finish_quiet s u (a.ids hi)

theorem quiet_block {s t : State} {c : Channel} {b : RequestBlock} (hi : s.idsInOrder = true)
    (h : s.blockStep c b = .next t) : t.quiet = true :=
  quiet_next (takeBlock_outer s c b) hi h

/-- Every command leaves a quiet state quiet. -/
theorem exec_quiet (i : Instr) (s t : State) (hi : s.idsInOrder = true) (hq : s.quiet = true)
    (h : exec i s = .next t) : t.quiet = true := by
  cases i with
  | externalReset =>
    have h' : Host.Outcome.next (φ := Fault) (ρ := Refusal)
      { State.reset with pending := s.pending } = .next t := h
    injection h' with h'
    rw [← h', quiet_pending]
    exact reset_quiet
  | channelReset c v => exact quiet_next (portControl_outer s c v) hi h
  | clearOverrun c v => exact quiet_next (portControl_outer s c v) hi h
  | registerWrite c loc v => exact quiet_next (registerWrite_outer s c loc v) hi h
  | completionRead c => exact quiet_next (readCompletion_outer s c) hi h
  | dataRead c => exact quiet_next (readData_outer s c) hi h
  | dataWrite c v => exact quiet_next (writeData_outer s c v) hi h
  | read => exact quiet_block hi h
  | write => exact quiet_block hi h
  | reassign => exact quiet_block hi h
  | reserve => exact quiet_block hi h
  | release => exact quiet_block hi h
  | flushMap => exact quiet_block hi h
  | eject => exact quiet_block hi h
  | mount => exact quiet_block hi h
  | status => exact quiet_block hi h
  | reportMap => exact quiet_block hi h
  | setPolicy => exact quiet_block hi h
  | setChannel => exact quiet_block hi h
  | abort => exact quiet_block hi h
  | unknownRequest => exact quiet_block hi h
  | pendingNoticePost c => exact quiet_next (postPending_posted s c).outer hi h
  | slotWaitServe => exact quiet_next (serveWaiters_inner _ s).outer hi h
  | overlapWaitRelease =>
    exact quiet_next (Inner.foldl _ (fun s id => examineWaiting_inner s id) _ s).outer hi h
  | headSchedulerChoice => exact quiet_next (choose_inner s).outer hi h
  | response n a => exact quiet_next (responseTaken_inner s n a).outer hi h
  | mechDataFrame n x f => exact quiet_next (dataFrameTaken_inner s n x f).outer hi h
  | damagedFrame => exact quiet_next (damagedTaken_inner s).outer hi h
  | commandTimeout => exact quiet_next (commandTimesOut_inner s).outer hi h
  | mediaIn n wp =>
    exact quiet_next (eventTaken_inner s n _ (fun t => mediaInTaken_inner t wp)).outer hi h
  | mediaOut n =>
    exact quiet_next (eventTaken_inner s n _
      (fun t => (cancelCommand_inner t).trans (removal_inner _))).outer hi h
  | button n => exact quiet_next (eventTaken_inner s n _ buttonTaken_inner).outer hi h
  | mechFault n =>
    exact quiet_next (eventTaken_inner s n _
      (fun t => (cancelCommand_inner t).trans (mechFaultTaken_inner _))).outer hi h
  | deadlineExpiry c tag => exact quiet_next (deadlineExpiry_outer s c tag) hi h
  | dataTimeout c => exact quiet_next (dataTimeout_outer s c) hi h
  | settleDelayExpiry =>
    have h' : Host.Outcome.next (φ := Fault) (ρ := Refusal)
      (if s.dm.settle = .running 0 then { s with dm := { s.dm with settle := .reached } } else s) =
        .next t := h
    injection h' with h'
    rw [← h']
    split
    · rw [settle_quiet]; exact hq
    · exact hq
  | unmountDrainEnd =>
    exact quiet_next (Inner.ite _ (askUnmountWriteback_inner s) (Inner.refl True True s)).outer hi h
  | timebaseTick =>
    have h' : Host.Outcome.next (φ := Fault) (ρ := Refusal) s.tick = .next t := h
    injection h' with h'
    rw [← h']
    exact tick_quiet s hq

end Sys2Proof.Machine
end

