-- ==== Sys2Proof/Laws/Still.lean ====
section
/-! SUPPORT. What the end of a step does, exactly, when no READ has anything to follow: only the
postings, the eject of an answered unmount, and idle remaining are left. -/

set_option Elab.async false

namespace Sys2Proof.Machine

/-- Every READ is settled or stands as it does between steps: the end of the step leaves them. -/
def State.Still (s : State) : Prop :=
  s.idsInOrder = true ∧ ∀ c, ∀ r ∈ s.reqs c, s.Good r ∧ s.Moment r

theorem quiet_iff (s : State) : s.quiet = true ↔ s.raised = [] ∧
    (∀ c, ∀ r ∈ s.reqs c, s.requestQuiet r = true) ∧
      s.ejectDue = false ∧
        ∀ c, (s.port c).transfers = [] → (s.port c).idle = none := by
  unfold State.quiet State.ejectDue
  simp only [Bool.and_eq_true, both_iff, Bool.not_eq_true', List.all_eq_true, List.isEmpty_iff,
    Bool.or_eq_true, Option.isNone_iff_eq_none, and_assoc]
  refine and_congr_right (fun _ => and_congr_right (fun _ => and_congr_right (fun _ =>
    forall_congr' (fun c => ?_))))
  cases (s.port c).transfers <;> simp

theorem requestQuiet_iff (s : State) (r : Request) : s.requestQuiet r = true ↔
    r.state ≠ .done ∧ (r.kind = .read → s.readFollowed r = true ∧ s.momentTaken r = true) := by
  unfold State.requestQuiet
  simp only [Bool.and_eq_true, Bool.or_eq_true, bne_iff_ne, ne_eq]
  refine and_congr_right (fun _ => ?_)
  by_cases h : r.kind = .read <;> simp [h]

theorem requestQuiet_good {s : State} {r : Request} (h : s.requestQuiet r = true) :
    s.Good r ∧ s.Moment r := by
  rw [requestQuiet_iff] at h
  by_cases hk : r.kind = .read
  · exact ⟨Or.inr (Or.inr (h.2 hk).1), Or.inr (Or.inr (h.2 hk).2)⟩
  · exact ⟨Or.inl hk, Or.inl hk⟩

theorem quiet_still {s : State} (hq : s.quiet = true) (hi : s.idsInOrder = true) : s.Still :=
  ⟨hi, fun c r hr => requestQuiet_good (((quiet_iff s).mp hq).2.1 c r hr)⟩

theorem updReq_id (s : State) (c : Channel) (id : Nat) (f : Request → Request)
    (h : ∀ r ∈ s.reqs c, r.id = id → f r = r) : s.updReq c id f = s := by
  have key : (s.reqs c).map (fun r => if r.id == id then f r else r) = s.reqs c := by
    have : ∀ (rs : List Request), (∀ r ∈ rs, r.id = id → f r = r) →
        rs.map (fun r => if r.id == id then f r else r) = rs := by
      intro rs hrs
      induction rs with
      | nil => rfl
      | cons x xs ih =>
        rw [List.map_cons, ih (fun r hr => hrs r (List.mem_cons_of_mem _ hr))]
        congr 1
        split
        · next hx => exact hrs x (List.mem_cons_self ..) (by simpa using hx)
        · rfl
    exact this _ h
  unfold State.updReq PerChannel.modify
  have e : s.requests.set c ((s.requests.get c).map (fun r => if r.id == id then f r else r)) =
      s.requests := by
    have := key
    unfold State.reqs at this
    rw [this, PerChannel.set_get]
  rw [e]

theorem settleRead_id (s : State) (c : Channel) (id : Nat)
    (hp : ((s.reqs c).map (fun r => r.id)).Pairwise (· < ·))
    (hg : ∀ r ∈ s.reqs c, s.Good r) : s.settleRead c id = s := by
  unfold State.settleRead
  split
  · rfl
  · next r hf =>
    have hm := findReq_mem hf
    split
    · next hk =>
      simp only [Bool.and_eq_true, beq_iff_eq, bne_iff_ne, ne_eq] at hk
      rcases hg r hm.1 with h | h | h
      · exact absurd hk.1 h
      · exact absurd h hk.2
      · unfold State.readFollowed at h
        simp only [Bool.and_eq_true, Bool.or_eq_true, Bool.not_eq_true', beq_iff_eq] at h
        split
        · next st hst =>
          have := h.1
          unfold Request.nextNotFailed at this
          rw [hst] at this
          cases this
        · split
          · rfl
          · next hd =>
            rcases h.2 with h2 | h2
            · exact absurd h2 (by simpa using hd)
            · rw [if_neg (by rw [h2.1]; exact Bool.false_ne_true)]
              refine updReq_id s c id _ (fun q hq hqi => ?_)
              have : q = r := mem_unique hp hq hm.1 (by rw [hqi, hm.2])
              subst this
              rw [← h2.2]
    · rfl

theorem settleReads_id {s : State} (h : s.Still) : s.settleReads = s := by
  have hp := ((idsInOrder_iff s).mp h.1).1
  have key : ∀ (c : Channel) (ids : List Nat),
      ids.foldl (fun s id => s.settleRead c id) s = s := by
    intro c ids
    induction ids with
    | nil => rfl
    | cons id ids ih =>
      rw [List.foldl_cons, settleRead_id s c id (hp c) (fun r hr => (h.2 c r hr).1), ih]
  show (s.settleReadsOf .A).settleReadsOf .B = s
  have hA : s.settleReadsOf .A = s := key .A _
  have hB : s.settleReadsOf .B = s := key .B _
  rw [hA, hB]

theorem readAheadMoment_id (s : State) (c : Channel) (id : Nat)
    (hm : ∀ r ∈ s.reqs c, s.Moment r) : s.readAheadMoment c id = s := by
  unfold State.readAheadMoment
  split
  · rfl
  · next r hf =>
    split
    · next h =>
      simp only [Bool.and_eq_true, beq_iff_eq, Bool.not_eq_true'] at h
      rcases hm r (findReq_mem hf).1 with h2 | h2 | h2
      · exact absurd h.1.1.1.1 h2
      · rw [h.1.2] at h2
        cases h2
      · unfold State.momentTaken at h2
        rw [h.1.1.1.2, h.1.1.2, h.2] at h2
        cases h2
    · rfl

theorem readAheadMoments_id {s : State} (h : s.Still) : s.readAheadMoments = s := by
  have key : ∀ (c : Channel) (ids : List Nat),
      ids.foldl (fun s id => s.readAheadMoment c id) s = s := by
    intro c ids
    induction ids with
    | nil => rfl
    | cons id ids ih =>
      rw [List.foldl_cons, readAheadMoment_id s c id (fun r hr => (h.2 c r hr).2), ih]
  show (s.readAheadMomentsOf .A).readAheadMomentsOf .B = s
  have hA : s.readAheadMomentsOf .A = s := key .A _
  have hB : s.readAheadMomentsOf .B = s := key .B _
  rw [hA, hB]

/-- With the READs still, the end of a step is the eject of an answered unmount, the postings, and idle
remaining. -/
theorem beforePosting_still {s : State} (h : s.Still) : s.beforePosting = s.ejectWhenAnswered := by
  unfold State.beforePosting
  rw [settleReads_id h, readAheadMoments_id h]

theorem ejectWhenAnswered_id {s : State} (h : s.ejectDue = false) : s.ejectWhenAnswered = s := by
  unfold State.ejectDue at h
  unfold State.ejectWhenAnswered
  rw [h]
  rfl

theorem finish_still (old : State) {s : State} (h : s.Still) (he : s.ejectDue = false) :
    State.finish old s = State.refreshIdle old (State.refreshIdle old s.flush .A) .B := by
  rw [finish_eq, beforePosting_still h, ejectWhenAnswered_id he]

/-- Nothing to post: the postings change nothing. -/
theorem flush_id {s : State} (hr : s.raised = []) (hd : ∀ c, ∀ r ∈ s.reqs c, r.state ≠ .done) :
    s.flush = s := by
  have hdone : ∀ c, s.doneOf c = [] := by
    intro c
    unfold State.doneOf
    rw [List.filter_eq_nil_iff]
    intro r hr'
    have := hd c r hr'
    simpa using this
  have hfil : ∀ c, (s.reqs c).filter (fun r => r.state != .done) = s.reqs c := by
    intro c
    rw [List.filter_eq_self]
    intro r hr'
    have := hd c r hr'
    simpa using this
  have hp : ∀ p : Port, p.posted [] s.timebase = p := by
    intro p
    simp [Port.posted]
  show State.flushNotices s.completionsPosted = s
  rw [completionsPosted_eq, hdone, hdone, hp, hp]
  have ha : s.requests.a.filter (fun r => r.state != .done) = s.requests.a := hfil .A
  have hb : s.requests.b.filter (fun r => r.state != .done) = s.requests.b := hfil .B
  rw [ha, hb]
  unfold State.flushNotices
  rw [hr]
  dsimp only [List.foldl_nil]
  cases s
  cases hr
  rfl

/-- The port of the other channel, and the same port, after idle remaining is set again. -/
theorem port_refreshIdle (old s : State) (c d : Channel) :
    ∃ n, (State.refreshIdle old s c).port d = { s.port d with idle := n } := by
  obtain ⟨n, h⟩ := refreshIdle_eq old s c
  rw [h, port_updPort]
  split
  · exact ⟨n, rfl⟩
  · exact ⟨(s.port d).idle, rfl⟩

/-- A change of a port that changes nothing. -/
theorem updPort_id (s : State) (c : Channel) (f : Port → Port) (h : f (s.port c) = s.port c) :
    s.updPort c f = s := by
  unfold State.updPort PerChannel.modify
  have h' : f (s.ports.get c) = s.ports.get c := h
  rw [h', PerChannel.set_get]

/-- Idle remaining stays where the current transfer is the one it was with as many bytes moved, and
DATA READY has not come; without a transfer it is absent already. -/
theorem refreshIdle_id {old s : State} {c : Channel}
    (h : match s.currentTransfer c with
      | none => (s.port c).idle = none
      | some t => sameTransfer (old.currentTransfer c) t = true ∧
          (old.dataReady c || !s.dataReady c) = true) : State.refreshIdle old s c = s := by
  unfold State.refreshIdle
  split
  · next hc =>
    rw [hc] at h
    dsimp only at h
    exact updPort_id s c _ (by rw [← h])
  · next t hc =>
    rw [hc] at h
    dsimp only at h
    rw [h.1, h.2]
    rfl

end Sys2Proof.Machine
end

