-- ==== Sys2Proof/Laws/Results.lean ====
section
/-! SUPPORT. What a command leaves, exactly: the end of a step that posts nothing, and the end of a step
in which the new request completes at once. The proofs of the statements about commands cite these. -/

set_option Elab.async false

namespace Sys2Proof.Machine

/-! ### The state between steps -/

theorem between_iff (s : State) : s.between = true ↔
    s.quiet = true ∧ s.idsInOrder = true ∧ s.portsFormed = true ∧ s.transfersOwned = true := by
  unfold State.between
  simp only [Bool.and_eq_true, and_assoc]

theorem between_still {s : State} (h : s.between = true) : s.Still :=
  quiet_still ((between_iff s).mp h).1 ((between_iff s).mp h).2.1

theorem between_notDone {s : State} (h : s.between = true) (c : Channel) {r : Request}
    (hr : r ∈ s.reqs c) : r.state ≠ .done :=
  ((requestQuiet_iff s r).mp (((quiet_iff s).mp ((between_iff s).mp h).1).2.1 c r hr)).1

theorem between_raised {s : State} (h : s.between = true) : s.raised = [] :=
  ((quiet_iff s).mp ((between_iff s).mp h).1).1

theorem between_ejectDue {s : State} (h : s.between = true) : s.ejectDue = false :=
  ((quiet_iff s).mp ((between_iff s).mp h).1).2.2.1

theorem between_idle {s : State} (h : s.between = true) (c : Channel)
    (ht : (s.port c).transfers = []) : (s.port c).idle = none :=
  ((quiet_iff s).mp ((between_iff s).mp h).1).2.2.2 c ht

theorem between_owned {s : State} (h : s.between = true) (c : Channel) {t : Transfer}
    (ht : t ∈ (s.port c).transfers) : t.request < s.nextId :=
  (transfersOwned_iff s).mp ((between_iff s).mp h).2.2.2 c t ht

theorem between_ids {s : State} (h : s.between = true) (c : Channel) {r : Request}
    (hr : r ∈ s.reqs c) : r.id < s.nextId :=
  ((idsInOrder_iff s).mp ((between_iff s).mp h).2.1).2.1 c r.id (List.mem_map_of_mem hr)

/-! ### A step that posts nothing -/

/-- Idle remaining of a channel needs no setting at the end of a step from `old` to `s`. -/
def IdleKept (old s : State) (c : Channel) : Prop :=
  match s.currentTransfer c with
  | none => (s.port c).idle = none
  | some t => sameTransfer (old.currentTransfer c) t = true ∧
      (old.dataReady c || !s.dataReady c) = true

theorem sameTransfer_self (t : Transfer) : sameTransfer (some t) t = true := by
  simp [sameTransfer]

/-- The end of a step that has nothing to follow: what the postings leave is the result. -/
theorem finish_posts {old t : State} (h : t.Still) (he : t.ejectDue = false)
    (hi : ∀ c, IdleKept old t.flush c) : State.finish old t = t.flush := by
  rw [finish_still old h he, refreshIdle_id (hi .A), refreshIdle_id (hi .B)]

/-- The end of a step that posts nothing and has nothing to follow. -/
theorem finish_silent {old t : State} (h : t.Still) (he : t.ejectDue = false)
    (hr : t.raised = []) (hd : ∀ c, ∀ r ∈ t.reqs c, r.state ≠ .done)
    (hi : ∀ c, IdleKept old t c) : State.finish old t = t := by
  have hf : t.flush = t := flush_id hr hd
  rw [finish_posts h he (by rw [hf]; exact hi), hf]

/-- What a READ's following looks at: the states of the slots, the requests, the transfers. -/
structure SameReads (s t : State) : Prop where
  slots : ∀ i, (t.slotAt i).state = (s.slotAt i).state
  reqs : t.requests = s.requests
  transfers : ∀ c, (t.port c).transfers = (s.port c).transfers

/-- The same slots have the same states. -/
theorem slotStates_congr {s t : State} (h : t.pool.slots = s.pool.slots) (i : Nat) :
    (t.slotAt i).state = (s.slotAt i).state := by
  unfold State.slotAt
  rw [h]

theorem sectorAvailable_congr {s t : State} (h : ∀ i, (t.slotAt i).state = (s.slotAt i).state)
    (r : Request) (k : Nat) : t.sectorAvailable r k = s.sectorAvailable r k := by
  unfold State.sectorAvailable Slot.available
  simp only [h]

theorem good_congr {s t : State} (h : ∀ i, (t.slotAt i).state = (s.slotAt i).state) {r : Request} :
    t.Good r ↔ s.Good r := by
  unfold State.Good State.readFollowed
  rw [sectorAvailable_congr h]

theorem moment_congr {s t : State} (h : ∀ i, (t.slotAt i).state = (s.slotAt i).state)
    {r : Request} : t.Moment r ↔ s.Moment r := by
  unfold State.Moment State.momentTaken State.fetchesOver
  simp only [h]

theorem dataReady_congr {s t : State} (h : SameReads s t) (c : Channel) :
    t.dataReady c = s.dataReady c := by
  unfold State.dataReady State.currentTransfer State.outByteReady State.findReq State.reqs
  simp only [h.transfers, h.reqs, sectorAvailable_congr h.slots]

/-- A step that changes nothing that the READs and the transfers look at, that raises nothing and leaves
no answered unmount waiting, is its own end. -/
theorem finish_aside {s t : State} (hb : s.between = true) (h : SameReads s t)
    (hn : s.nextId ≤ t.nextId) (he : t.ejectDue = false) (hr : t.raised = [])
    (hi : ∀ c, (t.port c).idle = (s.port c).idle) : State.finish s t = t := by
  have hreqs : ∀ c, t.reqs c = s.reqs c := fun c => by unfold State.reqs; rw [h.reqs]
  have hst := between_still hb
  refine finish_silent ⟨?_, fun c r hr => ?_⟩ he hr (fun c r hr => ?_) (fun c => ?_)
  · have := hst.1
    rw [idsInOrder_iff] at this ⊢
    refine ⟨fun c => by rw [hreqs]; exact this.1 c, fun c i hi => ?_, by
      rw [hreqs, hreqs]; exact this.2.2⟩
    rw [hreqs] at hi
    exact Nat.lt_of_lt_of_le (this.2.1 c i hi) hn
  · rw [hreqs] at hr
    exact ⟨(good_congr h.slots).mpr (hst.2 c r hr).1, (moment_congr h.slots).mpr (hst.2 c r hr).2⟩
  · rw [hreqs] at hr
    exact between_notDone hb c hr
  · have hc : t.currentTransfer c = s.currentTransfer c := by
      unfold State.currentTransfer
      rw [h.transfers]
    unfold IdleKept
    rw [hc, dataReady_congr h]
    cases hx : s.currentTransfer c with
    | none =>
      rw [hi]
      refine between_idle hb c ?_
      unfold State.currentTransfer at hx
      simpa using hx
    | some x =>
      refine ⟨sameTransfer_self x, ?_⟩
      cases s.dataReady c <;> rfl

/-- The end of a step without effect. -/
theorem finish_self {s : State} (hb : s.between = true) : State.finish s s = s :=
  finish_aside hb ⟨fun _ => rfl, rfl, fun _ => rfl⟩ (Nat.le_refl _) (between_ejectDue hb)
    (between_raised hb) (fun _ => rfl)

theorem port_setPorts (s : State) (c d : Channel) (p : Port) :
    State.port { s with ports := s.ports.set c p } d = if d = c then p else s.port d := by
  cases c <;> cases d <;> rfl

/-- A step that changes a port alone, its transfers and idle remaining as they were. -/
theorem finish_port {s : State} (hb : s.between = true) (c : Channel) (p : Port)
    (ht : p.transfers = (s.port c).transfers) (hi : p.idle = (s.port c).idle) :
    State.finish s { s with ports := s.ports.set c p } = { s with ports := s.ports.set c p } := by
  refine finish_aside hb ⟨fun _ => rfl, rfl, fun d => ?_⟩ (Nat.le_refl _) ?_ ?_ (fun d => ?_)
  · rw [port_setPorts]; split
    · next h => rw [ht, h]
    · rfl
  · exact between_ejectDue (s := s) hb
  · exact between_raised (s := s) hb
  · rw [port_setPorts]; split
    · next h => rw [hi, h]
    · rfl

/-! ### Intake -/

/-- The state with a channel's partial block gone to the Request Unit (R177). -/
def State.handed (s : State) (c : Channel) : State :=
  { s with ports := s.ports.set c { s.port c with partialBlock := none } }

theorem handed_eq (s : State) (c : Channel) :
    s.updPort c (fun p => { p with partialBlock := none }) = s.handed c := rfl

theorem handed_refusalOf (s : State) (c : Channel) (b : RequestBlock) (k : RequestKind) :
    (s.handed c).refusalOf c b k = s.refusalOf c b k := by cases c <;> rfl

/-- A refused block (R154). -/
theorem takeBlock_refused {s : State} {c : Channel} {b : RequestBlock} {st : Status}
    (hs : s.requestSpace c = true) (h : s.refusalStatus c b = some st) :
    s.takeBlock c b = { s with
      ports := s.ports.set c
        ((s.port c).posted1 (refusalBlock b.kind b.tag st s.timebase)) } := by
  have hp : (s.handed c).refuse c b st = { s with
      ports := s.ports.set c
        ((s.port c).posted1 (refusalBlock b.kind b.tag st s.timebase)) } := by
    cases c <;> rfl
  unfold State.takeBlock
  rw [if_pos hs, handed_eq, ← hp]
  unfold State.refusalStatus at h
  unfold State.intake
  cases hk : RequestKind.ofCode b.kind with
  | none => rw [hk] at h; cases h; rfl
  | some k =>
    rw [hk] at h
    dsimp only at h ⊢
    rw [handed_refusalOf, h]

/-- An accepted block (R154, R156). -/
theorem takeBlock_accepted {s : State} {c : Channel} {b : RequestBlock} {k : RequestKind}
    (h : s.accepts c b = true) (hk : RequestKind.ofCode b.kind = some k) :
    s.takeBlock c b = (s.handed c).accept c b k ∧ s.requestSpace c = true ∧
      s.refusalOf c b k = none := by
  unfold State.accepts at h
  rw [hk, Bool.and_eq_true] at h
  have hn : s.refusalOf c b k = none := by simpa using h.2
  refine ⟨?_, h.1, hn⟩
  unfold State.takeBlock
  rw [if_pos h.1, handed_eq]
  unfold State.intake
  rw [hk]
  dsimp only
  rw [handed_refusalOf, hn]

end Sys2Proof.Machine
end

