-- ==== Sys2Proof/Laws/Blocks.lean ====
section
/-! SUPPORT. The fields of the request blocks, and the new request of an accepted block. -/

set_option Elab.async false

namespace Sys2Proof.Machine

/-! ### Multi-byte fields (11.6) -/

theorem valueOf_append_single (bs : List Byte) (b : Byte) :
    valueOf (bs ++ [b]) = valueOf bs * 256 + b.toNat := by
  unfold valueOf
  rw [List.foldl_append]
  rfl

theorem foldl_value (bs : List Byte) (n : Nat) :
    bs.foldl (fun v b => v * 256 + b.toNat) n = n * 256 ^ bs.length + valueOf bs := by
  unfold valueOf
  induction bs generalizing n with
  | nil => simp
  | cons b bs ih =>
    rw [List.foldl_cons, ih, List.foldl_cons, ih (0 * 256 + b.toNat), List.length_cons]
    rw [Nat.pow_succ, Nat.add_mul, Nat.zero_mul, Nat.zero_add, Nat.mul_assoc,
      Nat.mul_comm 256 (256 ^ bs.length), Nat.add_assoc]

/-- The bytes of a value that fits give it back (11.6). -/
theorem valueOf_bytesOf (n v : Nat) : valueOf (bytesOf n v) = v % 256 ^ n := by
  induction n with
  | zero => simp [bytesOf, valueOf, Nat.mod_one]
  | succ n ih =>
    show valueOf (BitVec.ofNat 8 (v / 256 ^ n) :: bytesOf n v) = _
    unfold valueOf
    rw [List.foldl_cons, foldl_value, bytesOf_length, ih, BitVec.toNat_ofNat]
    rw [@Nat.pow_succ 256 n, @Nat.mod_mul (256 ^ n) 256 v, Nat.zero_mul, Nat.zero_add, Nat.mul_comm, Nat.add_comm]

theorem valueOf_bytesOf_toNat {n : Nat} (k : Nat) (v : BitVec n) (h : n = 8 * k) :
    valueOf (bytesOf k v.toNat) = v.toNat := by
  rw [valueOf_bytesOf]
  refine Nat.mod_eq_of_lt ?_
  subst h
  have := v.isLt
  rwa [Nat.pow_mul] at this

theorem valueOf_single (b : Byte) : valueOf [b] = b.toNat := by
  simp [valueOf]

/-- Three bytes, two bytes and one byte as a list. -/
theorem bytesOf3 (v : Nat) : bytesOf 3 v =
    [BitVec.ofNat 8 (v / 256 ^ 2), BitVec.ofNat 8 (v / 256), BitVec.ofNat 8 v] := by
  simp [bytesOf]

theorem bytesOf2 (v : Nat) : bytesOf 2 v = [BitVec.ofNat 8 (v / 256), BitVec.ofNat 8 v] := by
  simp [bytesOf]

theorem value3 (v : BitVec 24) : valueOf [BitVec.ofNat 8 (v.toNat / 256 ^ 2),
    BitVec.ofNat 8 (v.toNat / 256), BitVec.ofNat 8 v.toNat] = v.toNat := by
  rw [← bytesOf3]
  exact valueOf_bytesOf_toNat 3 v rfl

theorem value2 (v : BitVec 16) : valueOf [BitVec.ofNat 8 (v.toNat / 256),
    BitVec.ofNat 8 v.toNat] = v.toNat := by
  rw [← bytesOf2]
  exact valueOf_bytesOf_toNat 2 v rfl

theorem readBlock_fields (tag : Byte) (lsn : BitVec 24) (count : Byte) (deadline : BitVec 16)
    (flags : Byte) :
    (readBlock tag lsn count deadline flags).lsn = lsn.toNat ∧
      (readBlock tag lsn count deadline flags).count = count.toNat ∧
        (readBlock tag lsn count deadline flags).deadline = deadline.toNat ∧
          (readBlock tag lsn count deadline flags).readFlags = flags.toNat := by
  simp only [RequestBlock.lsn, RequestBlock.count, RequestBlock.deadline, RequestBlock.readFlags,
    RequestBlock.field, readBlock, bytesOf3, bytesOf2, List.cons_append, List.nil_append,
    List.drop_succ_cons, List.drop_zero, List.take_succ_cons, List.take_zero, value3, value2,
    valueOf_single, and_self]

theorem writeBlock_fields (tag : Byte) (lsn : BitVec 24) (count : Byte) :
    (writeBlock tag lsn count).lsn = lsn.toNat ∧ (writeBlock tag lsn count).count = count.toNat := by
  simp only [RequestBlock.lsn, RequestBlock.count, RequestBlock.field, writeBlock, bytesOf3,
    List.cons_append, List.nil_append, List.drop_succ_cons, List.drop_zero, List.take_succ_cons,
    List.take_zero, value3, valueOf_single, and_self]

theorem reassignBlock_fields (tag : Byte) (lsn : BitVec 24) :
    (reassignBlock tag lsn).lsn = lsn.toNat := by
  simp only [RequestBlock.lsn, RequestBlock.field, reassignBlock, bytesOf3, List.drop_zero,
    List.take_succ_cons, List.take_zero, value3]

theorem reserveBlock_fields (tag : Byte) (lsn count : BitVec 24) (mode : Byte) :
    (reserveBlock tag lsn count mode).lsn = lsn.toNat ∧
      (reserveBlock tag lsn count mode).reserveCount = count.toNat ∧
        (reserveBlock tag lsn count mode).reserveMode = mode.toNat := by
  simp only [RequestBlock.lsn, RequestBlock.reserveCount, RequestBlock.reserveMode,
    RequestBlock.field, reserveBlock, bytesOf3, List.cons_append, List.nil_append,
    List.drop_succ_cons, List.drop_zero, List.take_succ_cons, List.take_zero, value3,
    valueOf_single, and_self]

theorem byteBlock_field (k : Byte) (tag v : Byte) :
    (RequestBlock.mk k tag [v]).byteParam = v.toNat := by
  simp only [RequestBlock.byteParam, RequestBlock.field, List.drop_zero, List.take_succ_cons,
    List.take_zero, valueOf_single]

/-- The policy values a SET POLICY's block gives (R184). -/
theorem setPolicyBlock_policy (tag v r n m i : Byte) (u d : BitVec 16) :
    (setPolicyBlock tag v r n m i u d).policy =
      { verifyLimit := clamp 0 6 v.toNat
        rescueThreshold := clamp (max 2 (clamp 0 6 v.toNat + 1)) 7 r.toNat
        readRetries := clamp 0 7 n.toNat
        mechRetries := clamp 0 3 m.toNat
        insertionLimit := clamp 0 8 i.toNat
        urgencyWindow := clamp 0 1000 u.toNat
        settleDelay := clamp 0 10000 d.toNat } := by
  simp only [RequestBlock.policy, RequestBlock.field, setPolicyBlock, bytesOf2, List.cons_append,
    List.nil_append, List.drop_succ_cons, List.drop_zero, List.take_succ_cons, List.take_zero,
    value2, valueOf_single]

/-- The settings a SET CHANNEL's block gives (R185). -/
theorem setChannelBlock_settings (tag depth : Byte) (limit : BitVec 16) (window enables : Byte) :
    (setChannelBlock tag depth limit window enables).settings =
      { queueDepth := clamp 1 12 depth.toNat
        idleLimit := clamp 0 10000 limit.toNat
        readAheadWindow := clamp 0 16 window.toNat
        completionEnable := enables.toNat.testBit 0
        dataEnable := enables.toNat.testBit 1 } := by
  simp only [RequestBlock.settings, RequestBlock.field, setChannelBlock, bytesOf2,
    List.cons_append, List.nil_append, List.drop_succ_cons, List.drop_zero, List.take_succ_cons,
    List.take_zero, value2, valueOf_single]

/-! ### The new request -/

/-- The state with one more request at the end of a channel's list, numbered with the next acceptance
number. -/
def State.withNew (s : State) (c : Channel) (r : Request) : State :=
  { s with requests := s.requests.set c (s.reqs c ++ [r]), nextId := s.nextId + 1 }

theorem handed_addRequest (s : State) (c : Channel) (b : RequestBlock) (k : RequestKind) :
    (s.handed c).addRequest c b k = (s.handed c).withNew c (s.newRequest b k) := by
  cases c <;> rfl

theorem reqs_withNew (s : State) (c d : Channel) (r : Request) :
    (s.withNew c r).reqs d = if d = c then s.reqs c ++ [r] else s.reqs d := by
  cases c <;> cases d <;> rfl

/-- A change of the new request reaches it alone. -/
theorem updReq_new {s : State} {c : Channel} {r : Request} {id : Nat} (f : Request → Request)
    (h : ∀ q ∈ s.reqs c, q.id ≠ id) (hr : r.id = id) :
    (s.withNew c r).updReq c id f = s.withNew c (f r) := by
  have key : ((s.withNew c r).reqs c).map (fun q => if q.id == id then f q else q) =
      s.reqs c ++ [f r] := by
    rw [reqs_withNew, if_pos rfl, List.map_append]
    congr 1
    · refine (List.map_congr_left (fun q hq => ?_)).trans (List.map_id _)
      rw [if_neg (by simpa using h q hq)]
      rfl
    · simp [hr]
  unfold State.updReq PerChannel.modify
  unfold State.reqs at key
  dsimp only
  rw [key]
  cases c <;> rfl

/-- No transfer belongs to a number, so none leaves with it. -/
theorem dropTransfer_none {s : State} {c : Channel} {id : Nat}
    (h : ∀ t ∈ (s.port c).transfers, t.request ≠ id) : s.dropTransfer c id = s := by
  refine updPort_id s c _ ?_
  have : (s.port c).transfers.filter (fun t => t.request != id) = (s.port c).transfers := by
    rw [List.filter_eq_self]
    intro t ht
    simpa using h t ht
  rw [this]

/-- The new request is settled at once. -/
theorem settleReq_new {s : State} {c : Channel} {r : Request} {id : Nat} (st : Status)
    (h : ∀ q ∈ s.reqs c, q.id ≠ id) (hr : r.id = id)
    (ht : ∀ t ∈ (s.port c).transfers, t.request ≠ id) :
    (s.withNew c r).settleReq c id st =
      s.withNew c { r with state := .done, result := some st } := by
  unfold State.settleReq
  rw [updReq_new _ h hr]
  exact dropTransfer_none ht

/-- The completion of a request that is settled as the only one of its channel in a step. -/
theorem completionsPosted_new {s : State} {c : Channel} {r : Request}
    (hn : ∀ d, ∀ q ∈ s.reqs d, q.state ≠ .done) (hr : r.state = .done) :
    (s.withNew c r).completionsPosted =
      { s with ports := s.ports.set c ((s.port c).posted [r] s.timebase), nextId := s.nextId + 1 } := by
  have hk : ∀ d, (s.reqs d).filter (fun q => q.state != .done) = s.reqs d := by
    intro d
    rw [List.filter_eq_self]
    intro q hq
    simpa using hn d q hq
  have hz : ∀ d, (s.reqs d).filter (fun q => q.state == .done) = [] := by
    intro d
    rw [List.filter_eq_nil_iff]
    intro q hq
    simpa using hn d q hq
  have hp : ∀ p : Port, p.posted [] s.timebase = p := by
    intro p
    simp [Port.posted]
  rw [completionsPosted_eq]
  have ka := hk .A
  have kb := hk .B
  have za := hz .A
  have zb := hz .B
  unfold State.reqs PerChannel.get at ka kb za zb
  dsimp only at ka kb za zb
  cases c
  · have d1 : (s.withNew .A r).doneOf .A = [r] := by
      show (s.requests.a ++ [r]).filter (fun q => q.state == .done) = _
      rw [List.filter_append, za]
      simp [hr]
    have d2 : (s.withNew .A r).doneOf .B = [] := zb
    have f1 : ((s.withNew .A r).requests.a).filter (fun q => q.state != .done) = s.requests.a := by
      show (s.requests.a ++ [r]).filter (fun q => q.state != .done) = _
      rw [List.filter_append, ka]
      simp [hr]
    have f2 : ((s.withNew .A r).requests.b).filter (fun q => q.state != .done) = s.requests.b := kb
    rw [d1, d2, f1, f2]
    have := hp s.ports.b
    show { s with ports := _, requests := _, nextId := _ } = _
    dsimp only [State.withNew, PerChannel.set, State.port, PerChannel.get]
    rw [this]
  · have d1 : (s.withNew .B r).doneOf .B = [r] := by
      show (s.requests.b ++ [r]).filter (fun q => q.state == .done) = _
      rw [List.filter_append, zb]
      simp [hr]
    have d2 : (s.withNew .B r).doneOf .A = [] := za
    have f1 : ((s.withNew .B r).requests.b).filter (fun q => q.state != .done) = s.requests.b := by
      show (s.requests.b ++ [r]).filter (fun q => q.state != .done) = _
      rw [List.filter_append, kb]
      simp [hr]
    have f2 : ((s.withNew .B r).requests.a).filter (fun q => q.state != .done) = s.requests.a := ka
    rw [d1, d2, f1, f2]
    have := hp s.ports.a
    dsimp only [State.withNew, PerChannel.set, State.port, PerChannel.get]
    rw [this]

/-- The counters at the completion of a request that read and wrote nothing (R186). -/
theorem count_plain {k : Counters} {r : Request} (hk : k.inRange = true)
    (h1 : r.kind ≠ .read) (h2 : r.kind ≠ .write) (h3 : r.kind ≠ .reassign)
    (h4 : r.result ≠ some .expired) (h5 : r.late = false) :
    k.count r = { k with completed := saturate (k.completed + 1) } := by
  unfold Counters.inRange at hk
  simp only [Bool.and_eq_true, decide_eq_true_eq] at hk
  unfold Counters.count
  have e1 : (r.kind == .read) = false := by simpa using h1
  have e2 : (r.kind == .write) = false := by simpa using h2
  have e3 : (r.kind == .reassign) = false := by simpa using h3
  have e4 : (r.result == some .expired) = false := by simpa using h4
  obtain ⟨k1, k2, k3, k4, k5, k6⟩ := k
  simp only [e1, e2, e3, e4, h5, bitOf, Bool.or_self, Bool.false_eq_true, if_false, Nat.add_zero,
    saturate] at hk ⊢
  congr 1 <;> omega

/-! ### A request that completes at once -/

/-- What the steps of an immediate request may change before its completion: nothing that the READs and
the transfers look at. -/
structure Aside (s u : State) : Prop where
  reads : SameReads s u
  nextId : u.nextId = s.nextId
  idle : ∀ c, (u.port c).idle = (s.port c).idle
  ejectDue : u.ejectDue = false

theorem idleKept_of {s v : State} (hb : s.between = true) (h : SameReads s v)
    (hi : ∀ c, (v.port c).idle = (s.port c).idle) (c : Channel) : IdleKept s v c := by
  have hc : v.currentTransfer c = s.currentTransfer c := by
    unfold State.currentTransfer
    rw [h.transfers]
  unfold IdleKept
  rw [hc, dataReady_congr h]
  cases hx : s.currentTransfer c with
  | none =>
    rw [hi]
    refine between_idle hb c ?_
    unfold State.currentTransfer at hx
    simpa using hx
  | some x =>
    refine ⟨sameTransfer_self x, ?_⟩
    cases s.dataReady c <;> rfl

theorem withNew_ids {s u : State} {c : Channel} {r : Request} (hb : s.between = true)
    (hu : Aside s u) (hr : r.id = s.nextId) : (u.withNew c r).idsInOrder = true := by
  have hreqs : ∀ d, u.reqs d = s.reqs d := fun d => by unfold State.reqs; rw [hu.reads.reqs]
  have hi := (idsInOrder_iff s).mp ((between_iff s).mp hb).2.1
  have hlt : ∀ d, ∀ i ∈ (s.reqs d).map (fun q => q.id), i < s.nextId := hi.2.1
  rw [idsInOrder_iff]
  refine ⟨fun d => ?_, fun d i hm => ?_, ?_⟩
  · rw [reqs_withNew]
    split
    · rw [hreqs, List.map_append, List.pairwise_append]
      refine ⟨hi.1 c, by simp, fun i hm j hj => ?_⟩
      simp only [List.map_cons, List.map_nil, List.mem_singleton] at hj
      rw [hj, hr]
      exact hlt c i hm
    · rw [hreqs]; exact hi.1 d
  · show i < u.nextId + 1
    rw [hu.nextId]
    rw [reqs_withNew] at hm
    split at hm
    · rw [hreqs, List.map_append, List.mem_append] at hm
      rcases hm with hm | hm
      · have := hlt c i hm; omega
      · simp only [List.map_cons, List.map_nil, List.mem_singleton] at hm
        omega
    · rw [hreqs] at hm
      have := hlt d i hm; omega
  · have hd := hi.2.2
    cases c
    · rw [reqs_withNew, reqs_withNew, if_pos rfl, if_neg (by decide), hreqs, hreqs, List.map_append,
        List.append_assoc]
      refine List.Perm.nodup (l := r.id :: ((s.reqs .A).map (fun q => q.id) ++
        (s.reqs .B).map (fun q => q.id))) (List.perm_middle).symm ?_
      · rw [List.nodup_cons]
        refine ⟨fun hm => ?_, hd⟩
        rw [hr, List.mem_append] at hm
        rcases hm with hm | hm
        · exact Nat.lt_irrefl _ (hlt .A _ hm)
        · exact Nat.lt_irrefl _ (hlt .B _ hm)
    · rw [reqs_withNew, reqs_withNew, if_pos rfl, if_neg (by decide), hreqs, hreqs, List.map_append,
        ← List.append_assoc]
      refine List.Perm.nodup (l := r.id :: ((s.reqs .A).map (fun q => q.id) ++
        (s.reqs .B).map (fun q => q.id))) (List.perm_append_singleton _ _).symm ?_
      · rw [List.nodup_cons]
        refine ⟨fun hm => ?_, hd⟩
        rw [hr, List.mem_append] at hm
        rcases hm with hm | hm
        · exact Nat.lt_irrefl _ (hlt .A _ hm)
        · exact Nat.lt_irrefl _ (hlt .B _ hm)

theorem withNew_still {s u : State} {c : Channel} {r : Request} (hb : s.between = true)
    (hu : Aside s u) (hr : r.id = s.nextId) (hg : u.Good r ∧ u.Moment r) :
    (u.withNew c r).Still := by
  have hreqs : ∀ d, u.reqs d = s.reqs d := fun d => by unfold State.reqs; rw [hu.reads.reqs]
  refine ⟨withNew_ids hb hu hr, fun d q hq => ?_⟩
  have old : ∀ q ∈ s.reqs d, (u.withNew c r).Good q ∧ (u.withNew c r).Moment q := fun q hq =>
    ⟨(good_congr (t := u.withNew c r) hu.reads.slots).mpr ((between_still hb).2 d q hq).1,
      (moment_congr (t := u.withNew c r) hu.reads.slots).mpr ((between_still hb).2 d q hq).2⟩
  rw [reqs_withNew] at hq
  split at hq
  · next h =>
    subst h
    rw [hreqs, List.mem_append] at hq
    rcases hq with hq | hq
    · exact old q hq
    · rw [List.mem_singleton] at hq
      subst hq
      exact hg
  · rw [hreqs] at hq
    exact old q hq

/-- The end of the step of a request that completes in it: its completion is posted, then the notices
raised, and nothing else happens. -/
theorem finish_new {s u : State} {c : Channel} {r : Request} (hb : s.between = true)
    (hu : Aside s u) (hr : r.id = s.nextId) (hd : r.state = .done) (hk : r.kind ≠ .read) :
    State.finish s (u.withNew c r) =
      { u.raised.foldl (fun v n => (v.postNotice .A n).postNotice .B n)
        ({ u with ports := u.ports.set c ((u.port c).posted [r] u.timebase),
                  nextId := u.nextId + 1 } : State) with raised := [] } := by
  have hreqs : ∀ d, u.reqs d = s.reqs d := fun d => by unfold State.reqs; rw [hu.reads.reqs]
  have hn : ∀ d, ∀ q ∈ u.reqs d, q.state ≠ .done := fun d q hq => by
    rw [hreqs] at hq
    exact between_notDone hb d hq
  have hc := completionsPosted_new (c := c) hn hd
  have hf : (u.withNew c r).flush = { u.raised.foldl
      (fun v n => (v.postNotice .A n).postNotice .B n)
        ({ u with ports := u.ports.set c ((u.port c).posted [r] u.timebase),
                  nextId := u.nextId + 1 } : State) with raised := [] } := by
    show State.flushNotices (u.withNew c r).completionsPosted = _
    rw [hc]
    rfl
  rw [← hf]
  have hp := postNotices_posted u.raised ({ u with
    ports := u.ports.set c ((u.port c).posted [r] u.timebase), nextId := u.nextId + 1 } : State)
  have he : (u.withNew c r).ejectDue = false := hu.ejectDue
  refine finish_posts (withNew_still hb hu hr ⟨Or.inl hk, Or.inl hk⟩) he
    (fun d => ?_)
  have hport : ∀ d, (((u.withNew c r).flush).port d).noticeFrame =
      (if d = c then (u.port c).posted [r] u.timebase else u.port d).noticeFrame := by
    intro d
    rw [hf]
    refine (hp.frame d).trans ?_
    rw [port_setPorts (s := { u with nextId := u.nextId + 1 })]
    rfl
  have hfields := fun d => Port.noticeFrame_fields (hport d)
  have ht : ∀ d, (((u.withNew c r).flush).port d).transfers = (s.port d).transfers := by
    intro d
    rw [← hu.reads.transfers d]
    have := congrArg Port.transfers (hport d)
    refine Eq.trans this ?_
    split
    · next h => rw [h]; rfl
    · rfl
  have hid : ∀ d, (((u.withNew c r).flush).port d).idle = (s.port d).idle := by
    intro d
    rw [← hu.idle d]
    have := congrArg Port.idle (hport d)
    refine Eq.trans this ?_
    split
    · next h => rw [h]; rfl
    · rfl
  refine idleKept_of hb ⟨?_, ?_, ht⟩ hid d
  · intro i
    rw [← hu.reads.slots i]
    refine slotStates_congr ?_ i
    rw [hf]
    show (List.foldl _ _ _ : State).pool.slots = _
    rw [hp.rest]
  · rw [hf, ← hu.reads.reqs]
    show (List.foldl _ _ _ : State).requests = _
    rw [hp.rest]

/-- The same with no notice raised. -/
theorem finish_new_silent {s u : State} {c : Channel} {r : Request} (hb : s.between = true)
    (hu : Aside s u) (hr : r.id = s.nextId) (hd : r.state = .done) (hk : r.kind ≠ .read)
    (hn : u.raised = []) : State.finish s (u.withNew c r) =
      { u with ports := u.ports.set c ((u.port c).posted [r] u.timebase), nextId := u.nextId + 1 } := by
  rw [finish_new hb hu hr hd hk, hn]
  cases u
  cases hn
  rfl

/-- A port with one completion that delivered and wrote no sector. -/
theorem posted_plain {p : Port} {r : Request} {time : BitVec 32} (hk : p.counters.inRange = true)
    (h1 : r.kind ≠ .read) (h2 : r.kind ≠ .write) (h3 : r.kind ≠ .reassign)
    (h4 : r.result ≠ some .expired) (h5 : r.late = false) :
    ({ p with partialBlock := none } : Port).posted [r] time =
      p.completed1 (r.completion time) := by
  unfold Port.posted Port.completed1 Port.posted1
  dsimp only [List.map_cons, List.map_nil, List.foldl_cons, List.foldl_nil]
  rw [count_plain hk h1 h2 h3 h4 h5]
  rfl

theorem between_counters {s : State} (hb : s.between = true) (c : Channel) :
    (s.port c).counters.inRange = true := by
  have := (portsFormed_iff s).mp ((between_iff s).mp hb).2.2.1 c
  unfold Port.formed at this
  rw [Bool.and_eq_true] at this
  exact this.2

theorem handed_port (s : State) (c d : Channel) : (s.handed c).port d =
    if d = c then { s.port c with partialBlock := none } else s.port d := by
  unfold State.handed
  rw [port_setPorts]

theorem handed_aside {s : State} (hb : s.between = true) (c : Channel) : Aside s (s.handed c) where
  reads := ⟨fun _ => rfl, rfl, fun d => by
    rw [handed_port]
    split
    · next h => rw [h]
    · rfl⟩
  nextId := rfl
  idle d := by
    rw [handed_port]
    split
    · next h => rw [h]
    · rfl
  ejectDue := between_ejectDue (s := s) hb

/-- The new request settled at once, in a state whose requests and transfers are those before. -/
theorem settle_new {s u : State} (hb : s.between = true) {c : Channel} {r : Request} (st : Status)
    (h1 : u.requests = s.requests) (h2 : (u.port c).transfers = (s.port c).transfers)
    (hr : r.id = s.nextId) : (u.withNew c r).settleReq c s.nextId st =
      u.withNew c { r with state := .done, result := some st } := by
  have h1' : u.reqs c = s.reqs c := by unfold State.reqs; rw [h1]
  refine settleReq_new st (fun q hq => ?_) hr (fun t ht => ?_)
  · rw [h1'] at hq
    have := between_ids hb c hq
    omega
  · rw [h2] at ht
    have := between_owned hb c ht
    omega

theorem PerChannel.set_set {α : Type} (p : PerChannel α) (c : Channel) (x y : α) :
    (p.set c x).set c y = p.set c y := by cases c <;> rfl

/-- An accepted request that completes in its step, having read and written nothing and raised no notice:
its completion is posted, and what it did besides stands. -/
theorem request_plain {s u : State} {i : Instr} {c : Channel} {b : RequestBlock} {k : RequestKind}
    {r : Request} (hb : s.between = true) (hr : requestOf i = some (c, b))
    (ha : s.accepts c b = true) (hk : RequestKind.ofCode b.kind = some k)
    (he : (s.handed c).accept c b k = u.withNew c r) (hu : Aside s u)
    (hp : u.ports = (s.handed c).ports) (hn : u.raised = []) (hid : r.id = s.nextId)
    (hd : r.state = .done) (h1 : r.kind ≠ .read) (h2 : r.kind ≠ .write) (h3 : r.kind ≠ .reassign)
    (h4 : r.result ≠ some .expired) (h5 : r.late = false) :
    exec i s = .next { u with
      nextId := s.nextId + 1
      ports := s.ports.set c ((s.port c).completed1 (r.completion u.timebase)) } := by
  rw [exec_request hr, (takeBlock_accepted ha hk).1, he, finish_new_silent hb hu hid hd h1 hn]
  have e1 : u.port c = { s.port c with partialBlock := none } := by
    have : u.port c = (s.handed c).port c := by unfold State.port; rw [hp]
    rw [this, handed_port, if_pos rfl]
  rw [e1, posted_plain (between_counters hb c) h1 h2 h3 h4 h5, hp, hu.nextId]
  have : (s.handed c).ports.set c ((s.port c).completed1 (r.completion u.timebase)) =
      s.ports.set c ((s.port c).completed1 (r.completion u.timebase)) := PerChannel.set_set ..
  rw [this]

end Sys2Proof.Machine
end

