-- ==== Sys2Proof/Laws/Lookups.lean ====
section
/-! SUPPORT. What looking a request, a piece of work or a slot up gives after one update of it. -/

set_option Elab.async false

namespace Sys2Proof.Machine

theorem find?_map_upd {α : Type} (p : α → Bool) (f : α → α) (xs : List α)
    (h : ∀ x ∈ xs, p x = true → p (f x) = true) :
    (xs.map (fun x => if p x then f x else x)).find? p = (xs.find? p).map f := by
  induction xs with
  | nil => rfl
  | cons x xs ih =>
    rw [List.map_cons]
    by_cases hx : p x = true
    · rw [if_pos hx, List.find?_cons_of_pos (h x (List.mem_cons_self ..) hx),
        List.find?_cons_of_pos hx]
      rfl
    · rw [if_neg hx, List.find?_cons_of_neg hx, List.find?_cons_of_neg hx]
      exact ih (fun y hy => h y (List.mem_cons_of_mem _ hy))

theorem find?_map_other {α : Type} (p q : α → Bool) (f : α → α) (xs : List α)
    (h : ∀ x, q x = true → p (f x) = p x) (hd : ∀ x, p x = true → q x = false) :
    (xs.map (fun x => if q x then f x else x)).find? p = xs.find? p := by
  induction xs with
  | nil => rfl
  | cons x xs ih =>
    rw [List.map_cons]
    by_cases hp : p x = true
    · rw [hd x hp]
      simp only [Bool.false_eq_true, if_false]
      rw [List.find?_cons_of_pos hp, List.find?_cons_of_pos hp]
    · have : p (if q x = true then f x else x) = false := by
        split
        · next hq => rw [h x hq]; simpa using hp
        · simpa using hp
      rw [List.find?_cons_of_neg (by simpa using this), List.find?_cons_of_neg hp, ih]

theorem findReq_updReq (s : State) (c : Channel) (id : Nat) (f : Request → Request)
    (h : ∀ r, (f r).id = r.id) :
    (s.updReq c id f).findReq c id = (s.findReq c id).map f := by
  unfold State.findReq
  rw [reqs_updReq, if_pos rfl]
  exact find?_map_upd (fun r => r.id == id) f _ (fun r _ hr => by rw [h]; exact hr)

theorem findReq_updReq_other (s : State) (c d : Channel) (id j : Nat) (f : Request → Request)
    (h : ∀ r, (f r).id = r.id) (ho : d ≠ c ∨ j ≠ id) :
    (s.updReq c id f).findReq d j = s.findReq d j := by
  unfold State.findReq
  rw [reqs_updReq]
  split
  · next e =>
    refine find?_map_other (fun r => r.id == j) (fun r => r.id == id) f _
      (fun r _ => by rw [h]) (fun r hr => ?_)
    simp only [beq_iff_eq, beq_eq_false_iff_ne, ne_eq] at hr ⊢
    rw [hr]
    rcases ho with ho | ho
    · exact absurd e ho
    · exact ho
  · rfl

theorem findWork_updWork (s : State) (id : Nat) (f : WriteWork → WriteWork)
    (h : ∀ w, (f w).id = w.id) : (s.updWork id f).findWork id = (s.findWork id).map f :=
  find?_map_upd (fun (w : WriteWork) => w.id == id) f _ (fun w _ hw => by rw [h]; exact hw)

theorem findWork_updWork_other (s : State) (id j : Nat) (f : WriteWork → WriteWork)
    (h : ∀ w, (f w).id = w.id) (ho : j ≠ id) : (s.updWork id f).findWork j = s.findWork j := by
  refine find?_map_other (fun (w : WriteWork) => w.id == j) (fun w => w.id == id) f _
    (fun w _ => by rw [h]) (fun w hw => ?_)
  simp only [beq_iff_eq, beq_eq_false_iff_ne, ne_eq] at hw ⊢
  rw [hw]
  exact ho

theorem slotAt_setSlot_self {s : State} {i : Nat} (x : Slot) (h : i < s.pool.slots.length) :
    (s.setSlot i x).slotAt i = x := by
  rw [slotAt_setSlot]
  simp [h]

theorem slotAt_setSlot_other {s : State} {i j : Nat} (x : Slot) (h : j ≠ i) :
    (s.setSlot i x).slotAt j = s.slotAt j := by
  rw [slotAt_setSlot]
  simp [h]

theorem slotAt_some {s : State} {i : Nat} {x : Slot}
    (h : s.pool.slots[i]? = some x) : s.slotAt i = x := by
  simp [State.slotAt, List.getD_eq_getElem?_getD, h]

theorem some_slotAt {s : State} {i : Nat} (h : i < s.pool.slots.length) : s.pool.slots[i]? = some
    (s.slotAt i) := by
  rw [List.getElem?_eq_getElem h, slotAt_getElem h]

/-! ### The directory (R59) -/

/-- A slot that becomes the LSN's current one is it (R59). -/
theorem currentSlot_mapSlot (s : State) (lsn i : Nat) :
    (s.mapSlot lsn i).currentSlot lsn = some i := by
  unfold State.currentSlot State.mapSlot
  simp only [List.find?_append]
  have : List.find? (fun d => d.1 == lsn) (s.pool.directory.filter
      (fun d => d.1 != lsn && d.2 != i)) = none := by
    rw [List.find?_eq_none]
    intro d hd
    simp only [List.mem_filter, Bool.and_eq_true, bne_iff_ne, ne_eq] at hd
    simpa using hd.2.1
  rw [this]
  simp

/-- In a directory that is placed, an LSN's current slot is its pair's (R59). -/
theorem currentSlot_iff {s : State} (hp : s.pool.placed = true) (l i : Nat) :
    s.currentSlot l = some i ↔ (l, i) ∈ s.pool.directory := by
  refine ⟨currentSlot_some, fun h => ?_⟩
  cases hc : s.currentSlot l with
  | none => exact absurd h (currentSlot_none hc i)
  | some j =>
    rw [key_unique ((placed_iff _).mp hp).1 (currentSlot_some hc) h]

/-- What a current slot is. -/
theorem current_slot {s : State} (hp : s.pool.placed = true) {l i : Nat}
    (h : s.currentSlot l = some i) :
    i < s.pool.slots.length ∧ (s.slotAt i).stale = false ∧ (s.slotAt i).lsn = some l := by
  obtain ⟨x, h1, h2, h3⟩ := ((placed_iff _).mp hp).2.2 l i (currentSlot_some h)
  rw [slotAt_some h1]
  exact ⟨(List.getElem?_eq_some_iff.mp h1).1, h2, h3⟩

theorem current_other {s : State} (hp : s.pool.placed = true) {l m i j : Nat}
    (h : s.currentSlot l = some i) (h2 : s.currentSlot m = some j) (hn : l ≠ m) : i ≠ j := by
  rintro rfl
  have h3 := (current_slot hp h).2.2
  rw [(current_slot hp h2).2.2] at h3
  exact hn (Option.some.inj h3).symm

end Sys2Proof.Machine
end

