-- ==== Sys2Proof/Laws/Choice.lean ====
section
/-! SUPPORT. What is chosen: the slot that new work takes (R62), and the least of the
urgent fetches (R112). -/

set_option Elab.async false

namespace Sys2Proof.Machine

/-! ### The slot that new work takes (R62) -/

/-- The index that a search over an indexed list finds: the first place where the test holds. -/
theorem find?_zipIdx {α : Type} (p : α → Bool) (xs : List α) (i : Nat) :
    (xs.zipIdx.find? (fun xi => p xi.1)).map (fun xi => xi.2) = some i ↔
      (∃ x, xs[i]? = some x ∧ p x = true) ∧ ∀ j < i, ∀ x, xs[j]? = some x → p x = false := by
  have key : ∀ (xs : List α) (n : Nat),
    ((xs.zipIdx n).find? (fun xi => p xi.1)).map (fun xi => xi.2) = some i ↔
      n ≤ i ∧ (∃ x, xs[i - n]? = some x ∧ p x = true) ∧ ∀ j, n ≤ j → j < i → ∀ x,
          xs[j - n]? = some x → p x = false := by
    intro xs
    induction xs with
    | nil => intro n; simp
    | cons y ys ih =>
      intro n
      rw [List.zipIdx_cons]
      by_cases hy : p y = true
      · rw [List.find?_cons_of_pos (by exact hy)]
        simp only [Option.map_some, Option.some.injEq]
        constructor
        · rintro rfl
          refine ⟨Nat.le_refl _, ⟨y, by simp, hy⟩, fun j h1 h2 => by omega⟩
        · rintro ⟨h1, h2, h3⟩
          by_cases e : n = i
          · exact e
          · have := h3 n (Nat.le_refl _) (by omega) y (by simp)
            rw [hy] at this
            cases this
      · rw [List.find?_cons_of_neg (by exact hy), ih]
        have hcons : ∀ j, n + 1 ≤ j → (y :: ys)[j - n]? = ys[j - (n + 1)]? := by
          intro j hj
          have : j - n = (j - (n + 1)) + 1 := by omega
          rw [this, List.getElem?_cons_succ]
        constructor
        · rintro ⟨h1, ⟨x, h2, h4⟩, h3⟩
          refine ⟨by omega, ⟨x, by rw [hcons i h1]; exact h2, h4⟩, fun j h5 h6 x hx => ?_⟩
          by_cases e : j = n
          · subst e
            simp at hx
            subst hx
            simpa using hy
          · rw [hcons j (by omega)] at hx
            exact h3 j (by omega) h6 x hx
        · rintro ⟨h1, ⟨x, h2, h4⟩, h3⟩
          have : n ≠ i := by
            rintro rfl
            simp at h2
            subst h2
            exact hy h4
          refine ⟨by omega, ⟨x, by rw [← hcons i (by omega)]; exact h2, h4⟩, fun j h5 h6 x hx => ?_⟩
          exact h3 j (by omega) h6 x (by rw [hcons j h5]; exact hx)
  have := key xs 0
  simpa using this

/-- The FREE slot with the lowest index (R62 item 1). -/
theorem firstFree_iff (s : State) (i : Nat) : s.firstFree = some i ↔
    i < s.pool.slots.length ∧ (s.slotAt i).state = .free ∧ ∀ j < i, (s.slotAt j).state ≠ .free := by
  unfold State.firstFree
  rw [find?_zipIdx (fun x : Slot => x.state == .free)]
  constructor
  · rintro ⟨⟨x, h1, h2⟩, h3⟩
    have hi := (List.getElem?_eq_some_iff.mp h1).1
    refine ⟨hi, by rw [slotAt_some h1]; simpa using h2, fun j hj => ?_⟩
    have := h3 j hj _ (some_slotAt (by omega))
    simpa using this
  · rintro ⟨h1, h2, h3⟩
    refine ⟨⟨_, some_slotAt h1, by simpa using h2⟩, fun j hj x hx => ?_⟩
    have := h3 j hj
    rw [slotAt_some hx] at this
    simpa using this

theorem firstFree_iff_none (s : State) : s.firstFree = none ↔
    ∀ j < s.pool.slots.length, (s.slotAt j).state ≠ .free := by
  unfold State.firstFree
  simp only [Option.map_eq_none_iff, List.find?_eq_none]
  constructor
  · intro h j hj
    have := h (s.slotAt j, j) (List.mem_zipIdx_iff_getElem?.mpr (by simpa using some_slotAt hj))
    simpa using this
  · rintro h ⟨x, j⟩ hx
    have hx := List.mem_zipIdx_iff_getElem?.mp hx
    have hj := (List.getElem?_eq_some_iff.mp hx).1
    have := h j hj
    rw [slotAt_some hx] at this
    simpa using this

/-- The replaceable slot of the greatest age, if there is one (R62 item 2). -/
theorem oldestClean_data (s : State) (out : List Nat) :
    let cand := fun (i : Nat) => i < s.pool.slots.length ∧ (s.slotAt i).replaceable = true ∧ i ∉ out
    (s.oldestClean out = none → ∀ i < s.pool.slots.length, (s.slotAt i).replaceable = true →
        i ∉ out → False) ∧
    ∀ i, s.oldestClean out = some i → cand i ∧ ∀ j, cand j →
      s.stampAge (s.slotAt j) < s.stampAge (s.slotAt i) ∨
          (s.stampAge (s.slotAt j) = s.stampAge (s.slotAt i) ∧ i ≤ j) := by
  intro cand
  let f := fun (best : Option (Nat × Nat)) (xi : Slot × Nat) =>
        if xi.1.replaceable && !out.contains xi.2 then
          match best with
          | none => some (s.stampAge xi.1, xi.2)
          | some b => if b.1 < s.stampAge xi.1 then some (s.stampAge xi.1, xi.2) else some b
        else best
  have key : ∀ (xs : List (Slot × Nat)) (best : Option (Nat × Nat)),
      (xs.map (fun x => x.2)).Pairwise (· < ·) → (∀ b, best = some b → ∀ x ∈ xs, b.2 < x.2) →
      let cand := fun (q : Nat × Nat) => best = some q ∨
        ∃ x ∈ xs, x.1.replaceable = true ∧ x.2 ∉ out ∧ q = (s.stampAge x.1, x.2)
      let r := xs.foldl f best
      (r = none → ∀ q, ¬cand q) ∧
      ∀ b, r = some b → cand b ∧ ∀ q, cand q → q.1 < b.1 ∨ (q.1 = b.1 ∧ b.2 ≤ q.2) := by
    intro xs
    induction xs with
    | nil =>
      intro best _ _ cand r
      refine ⟨fun h q hq => ?_, fun b h => ⟨Or.inl h, fun q hq => ?_⟩⟩
      · rcases hq with hq | ⟨x, hx, _⟩
        · have : best = none := h
          rw [this] at hq
          cases hq
        · cases hx
      · rcases hq with hq | ⟨x, hx, _⟩
        · have : best = some b := h
          rw [hq] at this
          cases this
          exact Or.inr ⟨rfl, Nat.le_refl _⟩
        · cases hx
    | cons x xs ih =>
      intro best hp hb cand r
      rw [List.map_cons, List.pairwise_cons] at hp
      have hlt : ∀ y ∈ xs, x.2 < y.2 := fun y hy => hp.1 _ (List.mem_map_of_mem hy)
      by_cases he : x.1.replaceable = true ∧ x.2 ∉ out
      · have hc : (x.1.replaceable && !out.contains x.2) = true := by simp [he.1, he.2]
        cases best with
        | none =>
          have h := ih (some (s.stampAge x.1, x.2)) hp.2 (by rintro b ⟨⟩ y hy; exact hlt y hy)
          have hr : r = xs.foldl f (some (s.stampAge x.1, x.2)) := by
            have : f none x = some (s.stampAge x.1, x.2) := by simp only [f, hc, if_true]
            simp only [r, List.foldl_cons, this]
          have hcand : ∀ q, cand q ↔ (some (s.stampAge x.1, x.2) = some q ∨
              ∃ x ∈ xs, x.1.replaceable = true ∧ x.2 ∉ out ∧ q = (s.stampAge x.1, x.2)) := by
            intro q
            simp only [cand, List.mem_cons, exists_eq_or_imp]
            constructor
            · rintro (h | h | h)
              · cases h
              · exact Or.inl (by rw [h.2.2])
              · exact Or.inr h
            · rintro (h | h)
              · cases h; exact Or.inr (Or.inl ⟨he.1, he.2, rfl⟩)
              · exact Or.inr (Or.inr h)
          refine ⟨fun h1 q hq => h.1 (hr.symm.trans h1) q ((hcand q).mp hq), fun b h1 => ?_⟩
          have := h.2 b (hr.symm.trans h1)
          exact ⟨(hcand b).mpr this.1, fun q hq => this.2 q ((hcand q).mp hq)⟩
        | some b0 =>
          have hb0 := hb b0 rfl x (List.mem_cons_self ..)
          by_cases hl : b0.1 < s.stampAge x.1
          · have h := ih (some (s.stampAge x.1, x.2)) hp.2 (by rintro b ⟨⟩ y hy; exact hlt y hy)
            have hr : r = xs.foldl f (some (s.stampAge x.1, x.2)) := by
              have : f (some b0) x = some (s.stampAge x.1, x.2) := by simp only [f, hc, if_true, hl]
              simp only [r, List.foldl_cons, this]
            refine ⟨fun h1 q hq => ?_, fun b h1 => ?_⟩
            · exact absurd (Or.inl rfl) (h.1 (hr.symm.trans h1) (s.stampAge x.1, x.2))
            · have := h.2 b (hr.symm.trans h1)
              refine ⟨?_, fun q hq => ?_⟩
              · rcases this.1 with h3 | ⟨y, h3, h4⟩
                · cases h3
                  exact Or.inr ⟨x, List.mem_cons_self .., he.1, he.2, rfl⟩
                · exact Or.inr ⟨y, List.mem_cons_of_mem _ h3, h4⟩
              · rcases hq with hq | ⟨y, hy, h4⟩
                · cases hq
                  have := this.2 _ (Or.inl rfl)
                  simp only at this
                  omega
                · rcases List.mem_cons.mp hy with rfl | hy
                  · rw [h4.2.2]; exact this.2 _ (Or.inl rfl)
                  · exact this.2 _ (Or.inr ⟨y, hy, h4⟩)
          · have h := ih (some b0) hp.2
                (by rintro b ⟨⟩ y hy; exact hb b0 rfl y (List.mem_cons_of_mem _ hy))
            have hr : r = xs.foldl f (some b0) := by
              have : f (some b0) x = some b0 := by simp only [f, hc, if_true, hl, if_false]
              simp only [r, List.foldl_cons, this]
            refine ⟨fun h1 q hq => ?_, fun b h1 => ?_⟩
            · exact absurd (Or.inl rfl) (h.1 (hr.symm.trans h1) b0)
            · have := h.2 b (hr.symm.trans h1)
              refine ⟨?_, fun q hq => ?_⟩
              · rcases this.1 with h3 | ⟨y, h3, h4⟩
                · exact Or.inl h3
                · exact Or.inr ⟨y, List.mem_cons_of_mem _ h3, h4⟩
              · rcases hq with hq | ⟨y, hy, h4⟩
                · exact this.2 q (Or.inl hq)
                · rcases List.mem_cons.mp hy with rfl | hy
                  · have := this.2 _ (Or.inl rfl)
                    rw [h4.2.2]
                    dsimp only at this ⊢
                    omega
                  · exact this.2 _ (Or.inr ⟨y, hy, h4⟩)
      · have hc : (x.1.replaceable && !out.contains x.2) = false := by
          cases h1 : x.1.replaceable
          · rfl
          · have : x.2 ∈ out := Decidable.byContradiction (fun h2 => he ⟨h1, h2⟩)
            simp [this]
        have h := ih best hp.2 (fun b hb' y hy => hb b hb' y (List.mem_cons_of_mem _ hy))
        have hr : r = xs.foldl f best := by
          have : f best x = best := by simp only [f, hc, Bool.false_eq_true, if_false]
          simp only [r, List.foldl_cons, this]
        have hcand : ∀ q, cand q ↔ (best = some q ∨
            ∃ x ∈ xs, x.1.replaceable = true ∧ x.2 ∉ out ∧ q = (s.stampAge x.1, x.2)) := by
          intro q
          simp only [cand, List.mem_cons, exists_eq_or_imp]
          constructor
          · rintro (h | h | h)
            · exact Or.inl h
            · exact absurd ⟨h.1, h.2.1⟩ he
            · exact Or.inr h
          · rintro (h | h)
            · exact Or.inl h
            · exact Or.inr (Or.inr h)
        refine ⟨fun h1 q hq => h.1 (hr.symm.trans h1) q ((hcand q).mp hq), fun b h1 => ?_⟩
        have := h.2 b (hr.symm.trans h1)
        exact ⟨(hcand b).mpr this.1, fun q hq => this.2 q ((hcand q).mp hq)⟩
  have hp : (s.pool.slots.zipIdx.map (fun x => x.2)).Pairwise (· < ·) := by
    have : s.pool.slots.zipIdx.map (fun x => x.2) = List.range' 0 s.pool.slots.length := by
      simp
    rw [this]
    exact List.pairwise_lt_range'
  obtain ⟨h1, h2⟩ := key s.pool.slots.zipIdx none hp (by rintro b ⟨⟩)
  have hmem : ∀ x j, (x, j) ∈ s.pool.slots.zipIdx ↔ j < s.pool.slots.length ∧ x = s.slotAt j := by
    intro x j
    rw [List.mem_zipIdx_iff_getElem?]
    constructor
    · intro h
      exact ⟨(List.getElem?_eq_some_iff.mp h).1, (slotAt_some h).symm⟩
    · rintro ⟨h, rfl⟩
      exact some_slotAt h
  have hcand : ∀ i, cand i → none = some (s.stampAge (s.slotAt i), i) ∨ ∃ x ∈ s.pool.slots.zipIdx,
        x.1.replaceable = true ∧ x.2 ∉ out ∧ (s.stampAge (s.slotAt i), i) = (s.stampAge x.1, x.2) :=
    fun i h => Or.inr ⟨(s.slotAt i, i), (hmem _ _).mpr ⟨h.1, rfl⟩, h.2.1, h.2.2, rfl⟩
  have he : s.oldestClean out = (s.pool.slots.zipIdx.foldl f none).map (fun b => b.2) := rfl
  refine ⟨fun h i hi hr hn => ?_, fun i h => ?_⟩
  · rw [he, Option.map_eq_none_iff] at h
    exact h1 h _ (hcand i ⟨hi, hr, hn⟩)
  · rw [he, Option.map_eq_some_iff] at h
    obtain ⟨b, hb, rfl⟩ := h
    obtain ⟨h3, h4⟩ := h2 b hb
    rcases h3 with h3 | ⟨⟨x, j⟩, h3, h5, h6, rfl⟩
    · cases h3
    · obtain ⟨h7, rfl⟩ := (hmem x j).mp h3
      exact ⟨⟨h7, h5, h6⟩, fun k hk => h4 _ (hcand k hk)⟩

theorem oldestClean_iff (s : State) (out : List Nat) (i : Nat) : s.oldestClean out = some i ↔
    i < s.pool.slots.length ∧ (s.slotAt i).replaceable = true ∧ i ∉ out ∧
      ∀ j < s.pool.slots.length, (s.slotAt j).replaceable = true → j ∉ out →
        s.stampAge (s.slotAt j) < s.stampAge (s.slotAt i) ∨
          (s.stampAge (s.slotAt j) = s.stampAge (s.slotAt i) ∧ i ≤ j) := by
  obtain ⟨h1, h2⟩ := oldestClean_data s out
  constructor
  · intro h
    obtain ⟨h3, h4⟩ := h2 i h
    exact ⟨h3.1, h3.2.1, h3.2.2, fun j hj hr hn => h4 j ⟨hj, hr, hn⟩⟩
  · rintro ⟨h3, h4, h5, h6⟩
    cases hr : s.oldestClean out with
    | none => exact absurd (h1 hr i h3 h4 h5) id
    | some k =>
      obtain ⟨h7, h8⟩ := h2 k hr
      have a1 := h8 i ⟨h3, h4, h5⟩
      have a2 := h6 k h7.1 h7.2.1 h7.2.2
      congr 1
      omega

theorem oldestClean_none {s : State} {out : List Nat} (h : s.oldestClean out = none) :
    ∀ i < s.pool.slots.length, (s.slotAt i).replaceable = true → i ∈ out := by
  intro i hi hr
  apply Decidable.byContradiction
  intro hn
  exact (oldestClean_data s out).1 h i hi hr hn

/-- The slot that work needing a new slot takes (R62). -/
theorem chooseSlot_iff (s : State) (out : List Nat) (i : Nat) : s.chooseSlot out = some i ↔
      i < s.pool.slots.length ∧
        (((s.slotAt i).state = .free ∧ ∀ j < i, (s.slotAt j).state ≠ .free) ∨
          ((∀ j < s.pool.slots.length, (s.slotAt j).state ≠ .free) ∧
            (s.slotAt i).replaceable = true ∧ i ∉ out ∧
            ∀ j < s.pool.slots.length, (s.slotAt j).replaceable = true → j ∉ out →
              (s.timebase - (s.slotAt j).stamp).toNat < (s.timebase - (s.slotAt i).stamp).toNat ∨
                ((s.timebase - (s.slotAt j).stamp).toNat =
                  (s.timebase - (s.slotAt i).stamp).toNat ∧ i ≤ j))) := by
  unfold State.chooseSlot
  cases h : s.firstFree with
  | some k =>
    have hk := (firstFree_iff s k).mp h
    simp only [Option.some.injEq]
    constructor
    · rintro rfl
      exact ⟨hk.1, Or.inl hk.2⟩
    · rintro ⟨h1, h2 | h2⟩
      · by_cases e1 : k < i
        · exact absurd hk.2.1 (h2.2 k e1)
        · by_cases e2 : i < k
          · exact absurd h2.1 (hk.2.2 i e2)
          · omega
      · exact absurd hk.2.1 (h2.1 k hk.1)
  | none =>
    have hn := (firstFree_iff_none s).mp h
    simp only
    rw [oldestClean_iff]
    constructor
    · rintro ⟨h1, h2⟩
      exact ⟨h1, Or.inr ⟨hn, h2⟩⟩
    · rintro ⟨h1, h2 | h2⟩
      · exact absurd h2.1 (hn i h1)
      · exact ⟨h1, h2.2⟩

theorem chooseSlot_lt {s : State} {out : List Nat} {i : Nat} (h : s.chooseSlot out = some i) :
    i < s.pool.slots.length := ((chooseSlot_iff s out i).mp h).1

/-! ### The least by a key (R111–R114) -/

theorem lexLt_irrefl (xs : List Nat) : lexLt xs xs = false := by
  induction xs with
  | nil => rfl
  | cons x xs ih => simp [lexLt, ih]

theorem lexLt_trans {xs ys zs : List Nat} (hl : ys.length = zs.length) (h1 : lexLt xs ys = false)
    (h2 : lexLt ys zs = false) :
    lexLt xs zs = false := by
  induction xs generalizing ys zs with
  | nil => rfl
  | cons x xs ih =>
    cases zs with
    | nil => rfl
    | cons z zs =>
      cases ys with
      | nil => cases hl
      | cons y ys =>
        simp only [lexLt, Bool.or_eq_false_iff, decide_eq_false_iff_not, Bool.and_eq_false_iff,
            beq_eq_false_iff_ne] at h1 h2 ⊢
        refine ⟨by omega, ?_⟩
        by_cases e : x = z
        · have e1 : x = y := by omega
          have e2 : y = z := by omega
          right
          exact ih (by simpa using hl) (h1.2.resolve_left (fun h => h e1)) (h2.2.resolve_left
              (fun h => h e2))
        · exact Or.inl e

/-- The least element by a key: one of the list, and none has a lesser key. -/
theorem leastBy_spec {α : Type} (key : α → List Nat) (n : Nat) (hk : ∀ x, (key x).length = n)
    (xs : List α) :
    (leastBy key xs = none ↔ xs = []) ∧
    ∀ x, leastBy key xs = some x → x ∈ xs ∧ ∀ y ∈ xs, lexLt (key y) (key x) = false := by
  induction xs with
  | nil => exact ⟨by simp [leastBy], fun x h => by cases h⟩
  | cons a xs ih =>
    unfold leastBy
    cases h : leastBy key xs with
    | none =>
      have : xs = [] := ih.1.mp h
      subst this
      exact ⟨by simp, fun x hx => by cases hx; exact ⟨List.mem_singleton.mpr rfl,
          fun y hy => by rw [List.mem_singleton.mp hy]; exact lexLt_irrefl _⟩⟩
    | some b =>
      obtain ⟨h1, h2⟩ := ih.2 b h
      by_cases hb : lexLt (key b) (key a) = true
      · simp only [hb, if_true]
        refine ⟨by simp, fun x hx => ?_⟩
        cases hx
        refine ⟨List.mem_cons_of_mem _ h1, fun y hy => ?_⟩
        rcases List.mem_cons.mp hy with rfl | hy
        · have asym : ∀ xs ys : List Nat, lexLt xs ys = true → lexLt ys xs = false := by
            intro xs
            induction xs with
            | nil => intro ys; cases ys <;> simp [lexLt]
            | cons x xs ih =>
              intro ys
              cases ys with
              | nil => simp [lexLt]
              | cons y ys =>
                simp only [lexLt, Bool.or_eq_true, decide_eq_true_eq, Bool.and_eq_true, beq_iff_eq,
                    Bool.or_eq_false_iff, decide_eq_false_iff_not, Bool.and_eq_false_iff,
                        beq_eq_false_iff_ne]
                rintro (h | ⟨h, h2⟩)
                · exact ⟨by omega, Or.inl (by omega)⟩
                · exact ⟨by omega, Or.inr (ih _ h2)⟩
          exact asym _ _ hb
        · exact h2 y hy
      · have hb' : lexLt (key b) (key a) = false := by simpa using hb
        simp only [hb', Bool.false_eq_true, if_false]
        refine ⟨by simp, fun x hx => ?_⟩
        cases hx
        refine ⟨List.mem_cons_self .., fun y hy => ?_⟩
        rcases List.mem_cons.mp hy with rfl | hy
        · exact lexLt_irrefl _
        · exact lexLt_trans (by rw [hk, hk]) (h2 y hy) hb'

/-- The works that carry fetches not yet begun (R111). -/
theorem mem_fetchWorks (s : State) (w : Work) : w ∈ s.fetchWorks ↔
    ∃ x ∈ s.pool.slots, x.state = .fetching ∧ x.fetchBegun = false ∧ x.work = some w := by
  have key : ∀ (xs : List Slot) (ws : List Work), w ∈ xs.foldl
    (fun ws x =>
      match x.work with
      | none => ws
      | some w => if x.unbegun && !ws.contains w then ws ++ [w] else ws) ws ↔
      w ∈ ws ∨ ∃ x ∈ xs, x.state = .fetching ∧ x.fetchBegun = false ∧ x.work = some w := by
    intro xs
    induction xs with
    | nil => intro ws; simp
    | cons x xs ih =>
      intro ws
      rw [List.foldl_cons, ih]
      cases h : x.work with
      | none => simp [h]
      | some v =>
        simp only [Slot.unbegun]
        by_cases hc : (x.state == .fetching && !x.fetchBegun) = true
        · by_cases hv : v ∈ ws
          · have hcv : ws.contains v = true := by simpa using hv
            simp only [hcv, hc, Bool.not_true, Bool.and_false, Bool.false_eq_true, if_false,
                List.mem_cons, exists_eq_or_imp, h]
            constructor
            · rintro (h1 | h1)
              · exact Or.inl h1
              · exact Or.inr (Or.inr h1)
            · rintro (h1 | h1 | h1)
              · exact Or.inl h1
              · left; have := h1.2.2; cases this; exact hv
              · exact Or.inr h1
          · have hcv : ws.contains v = false := by simpa using hv
            simp only [hcv, hc, Bool.not_false, Bool.and_self, if_true, List.mem_append,
                List.mem_cons, List.not_mem_nil, or_false, exists_eq_or_imp, h, Option.some.injEq]
            simp only [Bool.and_eq_true, beq_iff_eq, Bool.not_eq_true'] at hc
            constructor
            · rintro ((h1 | h1) | h1)
              · exact Or.inl h1
              · exact Or.inr (Or.inl ⟨hc.1, hc.2, h1.symm⟩)
              · exact Or.inr (Or.inr h1)
            · rintro (h1 | h1 | h1)
              · exact Or.inl (Or.inl h1)
              · exact Or.inl (Or.inr h1.2.2.symm)
              · exact Or.inr h1
        · have hc' : (x.state == .fetching && !x.fetchBegun) = false := by simpa using hc
          simp only [hc', Bool.false_and, Bool.false_eq_true, if_false, List.mem_cons,
              exists_eq_or_imp]
          constructor
          · rintro (h1 | h1)
            · exact Or.inl h1
            · exact Or.inr (Or.inr h1)
          · rintro (h1 | h1 | h1)
            · exact Or.inl h1
            · exfalso; apply hc; simp [h1.1, h1.2.1]
            · exact Or.inr h1
  have := key s.pool.slots []
  rw [show (w ∈ ([] : List Work)) = False from by simp, false_or] at this
  exact this

/-- A READ bound that is urgent, with its remaining time (R111). -/
theorem urgentReader_some (s : State) (w : Work) (b : Binding)
    (u : UrgentFetch) : s.urgentReader w b = some u ↔
    ∃ r n, s.findReq b.ch b.id = some r ∧ r.urgency s.policy.urgencyWindow = some n ∧
      u = { work := w, remaining := n, reader := b.id, ch := b.ch } := by
  unfold State.urgentReader
  cases h : s.findReq b.ch b.id with
  | none => simp
  | some r =>
    simp only [Option.map_eq_some_iff, Option.some.injEq]
    constructor
    · rintro ⟨n, h1, rfl⟩; exact ⟨r, n, rfl, h1, rfl⟩
    · rintro ⟨r, n, rfl, h1, rfl⟩; exact ⟨n, h1, rfl⟩

/-! ### Lists put in order -/

theorem insertNat_mem (n m : Nat) (xs : List Nat) : m ∈ insertNat n xs ↔ m = n ∨ m ∈ xs := by
  induction xs with
  | nil => simp [insertNat]
  | cons x xs ih =>
    unfold insertNat
    split
    · simp
    · simp only [List.mem_cons, ih]
      constructor
      · rintro (h | h | h)
        · exact Or.inr (Or.inl h)
        · exact Or.inl h
        · exact Or.inr (Or.inr h)
      · rintro (h | h | h)
        · exact Or.inr (Or.inl h)
        · exact Or.inl h
        · exact Or.inr (Or.inr h)

theorem insertNat_sorted (n : Nat) (xs : List Nat) (h : xs.Pairwise (· ≤ ·)) :
    (insertNat n xs).Pairwise (· ≤ ·) := by
  induction xs with
  | nil => simp [insertNat]
  | cons x xs ih =>
    rw [List.pairwise_cons] at h
    unfold insertNat
    split
    · next hle =>
      rw [List.pairwise_cons, List.pairwise_cons]
      refine ⟨fun y hy => ?_, h⟩
      rcases List.mem_cons.mp hy with rfl | hy
      · exact hle
      · exact Nat.le_trans hle (h.1 y hy)
    · next hle =>
      rw [List.pairwise_cons]
      refine ⟨fun y hy => ?_, ih h.2⟩
      rcases (insertNat_mem n y xs).mp hy with rfl | hy
      · omega
      · exact h.1 y hy

end Sys2Proof.Machine
end

