-- ==== Sys2Proof/Laws/Fetches.lean ====
section
/-! SUPPORT. What a fetch's end does to the READs bound: their loads and their failures (R65, R86,
R157). -/

set_option Elab.async false

namespace Sys2Proof.Machine

/-- The slot whose fetch is in flight for an LSN (R84). -/
theorem fetchSlot_spec (s : State) (lsn i : Nat) (h : s.fetchSlot lsn = some i) :
    i < s.pool.slots.length ∧ (s.slotAt i).state = .fetching ∧ (s.slotAt i).fetchBegun = true ∧
    (s.slotAt i).lsn = some lsn := by
  unfold State.fetchSlot at h
  simp only [Option.map_eq_some_iff] at h
  obtain ⟨⟨x, j⟩, h1, rfl⟩ := h
  have h2 := List.find?_some h1
  have h3 := List.mem_of_find?_eq_some h1
  rw [List.mem_zipIdx_iff_getElem?] at h3
  simp only at h3 h2 ⊢
  have hlt : j < s.pool.slots.length := by
    exact (List.getElem?_eq_some_iff.mp (by simpa using h3)).1
  have hx : s.slotAt j = x := by simp [State.slotAt, List.getD_eq_getElem?_getD, h3]
  rw [hx]
  simp only [Bool.and_eq_true, beq_iff_eq] at h2
  exact ⟨hlt, h2.1.1, h2.1.2, h2.2⟩

/-- The READs bound record a sector's load; no slot changes (R65). -/
theorem recordLoads_spec (bs : List Binding) (lsn load : Nat) (s : State) :
    (bs.foldl (fun s b => s.recordLoad b.ch b.id lsn load) s).pool = s.pool ∧
    ∀ c id r, s.findReq c id = some r →
      State.findReq (bs.foldl (fun s b => s.recordLoad b.ch b.id lsn load) s) c id =
        some (if (∃ b ∈ bs, b.ch = c ∧ b.id = id) then
          { r with sectors :=
              r.sectors.modify (lsn - r.lsn) (fun y => { y with load := some load }) }
          else r) := by
  induction bs generalizing s with
  | nil => exact ⟨rfl, fun c id r h => by simpa using h⟩
  | cons b bs ih =>
    obtain ⟨h1, h2⟩ := ih (s.recordLoad b.ch b.id lsn load)
    refine ⟨h1, fun c id r h => ?_⟩
    rw [List.foldl_cons]
    by_cases hb : b.ch = c ∧ b.id = id
    · have := findReq_updReq s c id
          (fun r => { r with sectors :=
              r.sectors.modify (lsn - r.lsn) (fun y => { y with load := some load }) })
                  (fun _ => rfl)
      rw [h] at this
      obtain ⟨rfl, rfl⟩ := hb
      rw [h2 _ _ _ this]
      congr 1
      rw [if_pos (c := ∃ b_1 ∈ b :: bs, _) ⟨b, List.mem_cons_self .., rfl, rfl⟩]
      split
      · simp [List.modify_modify_eq, Function.comp_def]
      · rfl
    · have := findReq_updReq_other s b.ch c b.id id
          (fun r => { r with sectors :=
              r.sectors.modify (lsn - r.lsn) (fun y => { y with load := some load }) })
                  (fun _ => rfl)
        (by by_cases e : c = b.ch
            · exact Or.inr (fun e2 => hb ⟨e.symm, e2.symm⟩)
            · exact Or.inl e)
      rw [h] at this
      rw [h2 _ _ _ this]
      congr 1
      by_cases hm : ∃ b ∈ bs, b.ch = c ∧ b.id = id
      · rw [if_pos hm, if_pos]
        obtain ⟨b', h3, h4⟩ := hm
        exact ⟨b', List.mem_cons_of_mem _ h3, h4⟩
      · rw [if_neg hm, if_neg]
        rintro ⟨b', h3, h4⟩
        rcases List.mem_cons.mp h3 with rfl | h3
        · exact hb h4
        · exact hm ⟨b', h3, h4⟩

/-- Failing a sector twice is failing it once (R157). -/
theorem failFrom_idem (st : Status) (k : Nat) (xs : List ReadSector) :
    failFrom st k (failFrom st k xs) = failFrom st k xs := by
  induction xs generalizing k with
  | nil => cases k <;> rfl
  | cons x xs ih =>
    cases k with
    | zero =>
      simp only [failFrom, List.map_map]
      congr 1
      refine List.map_congr_left (fun y _ => ?_)
      unfold Function.comp ReadSector.giveUp
      cases h : y.st <;> simp [h]
    | succ k => simp only [failFrom, ih]

/-- A sector's failure reaches the READ named alone (R65, R157). -/
theorem failSector_find (s : State) (c : Channel) (id lsn : Nat) (st : Status) :
    (s.failSector c id lsn st).pool.slots.length = s.pool.slots.length ∧
    ∀ d j, (s.failSector c id lsn st).findReq d j = if d = c ∧ j = id then
      (s.findReq d j).map (fun r => { r with sectors := failFrom st (lsn - r.lsn) r.sectors })
      else s.findReq d j := by
  unfold State.failSector
  split
  · next h =>
    refine ⟨rfl, fun d j => ?_⟩
    split
    · next e => rw [e.1, e.2, h]; rfl
    · rfl
  · next r h =>
    have key : ∀ (f : Request → Request), (∀ r, (f r).id = r.id) →
        (((s.updReq c id f).releaseBindings id (r.boundSlotsFrom (lsn - r.lsn + 1))).leaveSlotWait
          id).pool.slots.length = s.pool.slots.length ∧ ∀ d j,
        (((s.updReq c id f).releaseBindings id (r.boundSlotsFrom (lsn - r.lsn + 1))).leaveSlotWait
          id).findReq d j = if d = c ∧ j = id then (s.findReq d j).map f else s.findReq d j := by
      intro f hf
      have ho := releaseBindings_only (H := True) (s.updReq c id f) id (r.boundSlotsFrom
          (lsn - r.lsn + 1))
      refine ⟨ho.sized, fun d j => ?_⟩
      have : (((s.updReq c id f).releaseBindings id (r.boundSlotsFrom
          (lsn - r.lsn + 1))).leaveSlotWait
          id).findReq d j = (s.updReq c id f).findReq d j := by
        unfold State.findReq State.reqs
        rw [ho.rest]
        rfl
      rw [this]
      split
      · next e =>
        obtain ⟨rfl, rfl⟩ := e
        exact findReq_updReq _ _ _ _ hf
      · next e =>
        refine findReq_updReq_other _ _ _ _ _ _ hf ?_
        by_cases e1 : d = c
        · exact Or.inr (fun e2 => e ⟨e1, e2⟩)
        · exact Or.inl e1
    obtain ⟨h1, h2⟩ := key (fun q => { q with sectors := failFrom st (lsn - r.lsn) q.sectors })
        (fun _ => rfl)
    refine ⟨h1, fun d j => (h2 d j).trans ?_⟩
    split
    · next e =>
      rw [e.1, e.2, h]
      rfl
    · rfl

/-- A failed sector's READs each fail there, and no other request changes (R65, R157). -/
theorem failSectors_spec (bs : List Binding) (lsn : Nat) (st : Status) (s : State) :
    (bs.foldl (fun s b => s.failSector b.ch b.id lsn st) s).pool.slots.length = s.pool.slots.length ∧
    ∀ c id r, s.findReq c id = some r →
      State.findReq (bs.foldl (fun s b => s.failSector b.ch b.id lsn st) s) c id =
        some (if (∃ b ∈ bs, b.ch = c ∧ b.id = id) then
          { r with sectors := failFrom st (lsn - r.lsn) r.sectors } else r) := by
  induction bs generalizing s with
  | nil => exact ⟨rfl, fun c id r h => by simpa using h⟩
  | cons b bs ih =>
    obtain ⟨h1, h2⟩ := ih (s.failSector b.ch b.id lsn st)
    obtain ⟨h3, h4⟩ := failSector_find s b.ch b.id lsn st
    refine ⟨h1.trans h3, fun c id r h => ?_⟩
    rw [List.foldl_cons]
    by_cases hb : c = b.ch ∧ id = b.id
    · have := h4 c id
      rw [if_pos hb, h] at this
      rw [h2 _ _ _ this, if_pos (c := ∃ b_1 ∈ b :: bs, _) ⟨b, List.mem_cons_self .., hb.1.symm,
          hb.2.symm⟩]
      split
      · simp [failFrom_idem]
      · rfl
    · have := h4 c id
      rw [if_neg hb, h] at this
      rw [h2 _ _ _ this]
      congr 1
      by_cases hm : ∃ b ∈ bs, b.ch = c ∧ b.id = id
      · rw [if_pos hm, if_pos]
        obtain ⟨b', h3, h4⟩ := hm
        exact ⟨b', List.mem_cons_of_mem _ h3, h4⟩
      · rw [if_neg hm, if_neg]
        rintro ⟨b', h5, h6⟩
        rcases List.mem_cons.mp h5 with rfl | h5
        · exact hb ⟨h6.1.symm, h6.2.symm⟩
        · exact hm ⟨b', h5, h6⟩

end Sys2Proof.Machine
end

