-- ==== Sys2Proof/Laws/IndexTracks.lean ====
section
/-! SUPPORT. The records of the index tracks: which are good, the bands of a header, and the entries
of sectors in list order (R7–R16). -/

set_option Elab.async false

namespace Sys2Proof.Machine

/-- Bands that begin at a track, are contiguous and end by track 65,535 (R12). -/
theorem bandsContiguous_iff (bs : List BandRecord) (n : Nat) : bandsContiguous n bs = true ↔
    (∀ b, bs.head? = some b → b.firstTrack = n) ∧
    (∀ i b c, bs[i]? = some b → bs[i+1]? = some c → c.firstTrack = b.firstTrack + b.trackCount) ∧
    (∀ b, bs.getLast? = some b → b.firstTrack + b.trackCount ≤ 65536) ∧ (bs = [] → n ≤ 65536) := by
  induction bs generalizing n with
  | nil => simp [bandsContiguous]
  | cons x xs ih =>
    simp only [bandsContiguous, Bool.and_eq_true, beq_iff_eq, ih]
    constructor
    · rintro ⟨h1, h2, h3, h4, h5⟩
      refine ⟨fun b h => by cases h; exact h1, fun i b c hb hc => ?_, fun b hb => ?_,
          fun h => by cases h⟩
      · cases i with
        | zero =>
          simp only [List.getElem?_cons_zero, Option.some.injEq] at hb
          subst hb
          simp only [Nat.zero_add, List.getElem?_cons_succ] at hc
          rw [h2 c (by rw [List.head?_eq_getElem?]; exact hc), h1]
        | succ i => exact h3 i b c (by simpa using hb) (by simpa using hc)
      · cases xs with
        | nil => simp only [List.getLast?_singleton,
            Option.some.injEq] at hb; subst hb; rw [h1]; exact h5 rfl
        | cons y ys => exact h4 b (by simpa using hb)
    · rintro ⟨h1, h2, h3, _⟩
      have hx := h1 x rfl
      refine ⟨hx, fun b hb => ?_, fun i b c hb hc => h2 (i+1) b c (by simpa using hb)
          (by simpa using hc), fun b hb => ?_, fun h => ?_⟩
      · rw [List.head?_eq_getElem?] at hb
        rw [← hx]
        exact h2 0 x b rfl (by simpa using hb)
      · cases xs with
        | nil => cases hb
        | cons y ys => exact h3 b (by simpa using hb)
      · subst h; rw [← hx]; exact h3 x rfl

theorem headerBands_get (m : Memory) (i : Nat) : (headerBands m)[i]? = if i < m.field8 1 then some
    (headerBand m i) else none := by
  unfold headerBands
  rw [List.getElem?_map]
  by_cases h : i < m.field8 1 <;> simp [h]

/-- All records of some sectors are good (R7, R11). -/
theorem goodRecords_some (outs : List DecoderOutcome) (is : List Nat) (ms : List Memory) :
    goodRecords outs is = some ms ↔ ms.length = is.length ∧ ∀ (k i : Nat) (m : Memory),
        is[k]? = some i → ms[k]? = some m → goodRecord outs i = some m := by
  induction is generalizing ms with
  | nil => cases ms <;> simp [goodRecords]
  | cons i is ih =>
    unfold goodRecords
    constructor
    · intro h
      split at h
      · next m ms' h1 h2 =>
        cases h
        obtain ⟨h3, h4⟩ := (ih ms').mp h2
        refine ⟨by simp [h3], fun k j m' hj hm => ?_⟩
        cases k with
        | zero => simp at hj hm; subst hj; subst hm; exact h1
        | succ k => exact h4 k j m' (by simpa using hj) (by simpa using hm)
      · cases h
    · rintro ⟨h1, h2⟩
      cases ms with
      | nil => cases h1
      | cons m ms =>
        have e1 := h2 0 i m rfl rfl
        have e2 : goodRecords outs is = some ms := (ih ms).mpr ⟨by simpa using h1,
            fun k j m' hj hm => h2 (k+1) j m' (by simpa using hj) (by simpa using hm)⟩
        rw [e1, e2]

theorem goodRecords_none (outs : List DecoderOutcome) (is : List Nat) (h : ∃ i ∈ is,
    goodRecord outs i = none) :
    goodRecords outs is = none := by
  cases hg : goodRecords outs is with
  | none => rfl
  | some ms =>
    obtain ⟨h1, h2⟩ := (goodRecords_some _ _ _).mp hg
    obtain ⟨i, hi, hn⟩ := h
    obtain ⟨k, hk⟩ := List.mem_iff_getElem?.mp hi
    have hlt : k < ms.length := by rw [h1]; exact (List.getElem?_eq_some_iff.mp hk).1
    have := h2 k i ms[k] hk (List.getElem?_eq_getElem hlt)
    rw [hn] at this
    cases this

/-- chunked range -/
theorem range_chunks {α : Type} (f : Nat → Nat → α) (w : Nat) (hw : 0 < w) (k total : Nat)
    (h1 : total ≤ w * k) :
    ((List.range k).map (fun i => (List.range (min w (total - w * i))).map (f i))).flatten =
      (List.range total).map (fun n => f (n / w) (n % w)) := by
  induction k generalizing total f with
  | zero => simp at h1; subst h1; rfl
  | succ k ih =>
    rw [List.range_succ_eq_map, List.map_cons, List.flatten_cons]
    simp only [List.map_map, Function.comp_def, Nat.mul_zero, Nat.sub_zero]
    have : ∀ i, total - w * Nat.succ i = (total - w) - w * i := by intro i; rw [Nat.mul_succ]; omega
    simp only [this]
    rw [ih (fun i => f (i+1)) (total - w) (by rw [Nat.mul_succ] at h1; omega)]
    by_cases ht : w ≤ total
    · have e : total = w + (total - w) := by omega
      rw [Nat.min_eq_left ht]
      conv => rhs; rw [e, List.range_add, List.map_append]
      congr 1
      · refine List.map_congr_left (fun n hn => ?_)
        have := List.mem_range.mp hn
        rw [Nat.div_eq_of_lt this, Nat.mod_eq_of_lt this]
      · rw [List.map_map]
        refine List.map_congr_left (fun n _ => ?_)
        simp only [Function.comp]
        rw [Nat.add_div_left _ hw, Nat.add_mod_left]
    · rw [Nat.min_eq_right (by omega), Nat.sub_eq_zero_of_le (by omega)]
      simp only [List.range_zero, List.map_nil, List.append_nil]
      refine List.map_congr_left (fun n hn => ?_)
      have := List.mem_range.mp hn
      rw [Nat.div_eq_of_lt (by omega), Nat.mod_eq_of_lt (by omega)]

theorem map_zipIdx_range {β : Type} (ms : List Memory) (g : Memory → Nat → β) :
    ms.zipIdx.map (fun mi => g mi.1 mi.2) = (List.range ms.length).map (fun i => g
        (ms.getD i []) i) := by
  refine List.ext_getElem (by simp) (fun i h1 h2 => ?_)
  have : i < ms.length := by simpa using h1
  simp [List.getD_eq_getElem?_getD, this]

end Sys2Proof.Machine
end

