-- ==== Sys2Proof/Laws/Posting.lean ====
section
/-! SUPPORT. The pending notices that a place allows (R168). -/

set_option Elab.async false

namespace Sys2Proof.Machine

/-- The pending notices posted are a front part of the set; what stays finds no place (R168). -/
theorem postPendingList_eq (c : Channel) (ns : List Notice) (s : State) (hn : ns.Nodup)
    (hp : (s.port c).pendingNotices = ns) :
    ∃ xs ys, ns = xs ++ ys ∧ (ys = [] ∨ (s.postPendingList c ns).noticeRoom c = false) ∧
      (xs = [] ∨ (s.reqs c).length + bitOf (s.port c).partialBlock.isSome +
        (s.port c).outbox.length + xs.length ≤ 16) ∧
      s.postPendingList c ns = { s with ports := s.ports.set c { s.port c with
        outbox := (s.port c).outbox ++ xs.map (fun n => noticeBlock n s.timebase)
        pendingNotices := ys } } := by
  induction ns generalizing s with
  | nil =>
    refine ⟨[], [], rfl, Or.inl rfl, Or.inl rfl, ?_⟩
    have e : ({ s.port c with
        outbox := (s.port c).outbox ++ [].map (fun n => noticeBlock n s.timebase)
        pendingNotices := [] } : Port) = s.port c := by
      rw [List.map_nil, List.append_nil]
      cases h : s.port c
      rw [h] at hp
      simp_all
    rw [e]
    cases c <;> rfl
  | cons n ns ih =>
    rw [List.nodup_cons] at hn
    unfold State.postPendingList
    by_cases hr : s.noticeRoom c = true
    · rw [if_pos hr]
      have hpend : (((s.postBlock c (noticeBlock n s.timebase)).updPort c (fun p =>
          { p with pendingNotices := p.pendingNotices.filter (fun m => m != n) })).port c) =
          { s.port c with
            outbox := (s.port c).outbox ++ [noticeBlock n s.timebase], pendingNotices := ns } := by
        have hf : (n :: ns).filter (fun m => m != n) = ns := by
          rw [List.filter_cons_of_neg (by simp), List.filter_eq_self]
          intro m hm
          have : m ≠ n := fun e => hn.1 (by rw [← e]; exact hm)
          simpa using this
        unfold State.postBlock
        simp only [port_updPort, if_true, hp, hf]
      obtain ⟨xs, ys, h1, h2, h3, h4⟩ := ih _ hn.2 (by rw [hpend])
      refine ⟨n :: xs, ys, by rw [h1]; rfl, h2, Or.inr ?_, ?_⟩
      · unfold State.noticeRoom at hr
        have hr := of_decide_eq_true hr
        simp only [Port.freePlaces, Config.outboxPlaces] at hr
        rw [hpend] at h3
        have hq : (((s.postBlock c (noticeBlock n s.timebase)).updPort c (fun p =>
          { p with pendingNotices :=
              p.pendingNotices.filter (fun m => m != n) })).reqs c) = s.reqs c := rfl
        rw [hq] at h3
        rcases h3 with h3 | h3
        · subst h3; simp only [List.length_cons, List.length_nil]; omega
        · simp only [List.length_append, List.length_cons, List.length_nil] at h3 ⊢
          omega
      · rw [h4, hpend]
        unfold State.postBlock
        cases c <;> simp [State.port, PerChannel.get, PerChannel.set, State.updPort,
            PerChannel.modify]
    · rw [if_neg hr]
      refine ⟨[], n :: ns, rfl, Or.inr (by simpa using hr), Or.inl rfl, ?_⟩
      rw [← hp, List.map_nil, List.append_nil]
      cases c <;> rfl

end Sys2Proof.Machine
end

