-- ==== Sys2Proof/Laws/State.lean ====
section
/-! SUPPORT. What the updates of the state do to each of its fields: the field they change, and the
fields they leave. Each lemma holds by `rfl`; a proof rewrites with them and unfolds no update. -/

set_option Elab.async false

namespace Sys2Proof.Machine

/-! ### `State.updPort` -/

@[simp] theorem State.updPort_timebase (s : State) (c : Channel) (f : Port → Port) :
    (s.updPort c f).timebase = s.timebase := rfl
@[simp] theorem State.updPort_policy (s : State) (c : Channel) (f : Port → Port) :
    (s.updPort c f).policy = s.policy := rfl
@[simp] theorem State.updPort_ports (s : State) (c : Channel) (f : Port → Port) :
    (s.updPort c f).ports = s.ports.modify c f := rfl
@[simp] theorem State.updPort_requests (s : State) (c : Channel) (f : Port → Port) :
    (s.updPort c f).requests = s.requests := rfl
@[simp] theorem State.updPort_reservations (s : State) (c : Channel) (f : Port → Port) :
    (s.updPort c f).reservations = s.reservations := rfl
@[simp] theorem State.updPort_works (s : State) (c : Channel) (f : Port → Port) :
    (s.updPort c f).works = s.works := rfl
@[simp] theorem State.updPort_dm (s : State) (c : Channel) (f : Port → Port) :
    (s.updPort c f).dm = s.dm := rfl
@[simp] theorem State.updPort_pool (s : State) (c : Channel) (f : Port → Port) :
    (s.updPort c f).pool = s.pool := rfl
@[simp] theorem State.updPort_engine (s : State) (c : Channel) (f : Port → Port) :
    (s.updPort c f).engine = s.engine := rfl
@[simp] theorem State.updPort_sched (s : State) (c : Channel) (f : Port → Port) :
    (s.updPort c f).sched = s.sched := rfl
@[simp] theorem State.updPort_medium (s : State) (c : Channel) (f : Port → Port) :
    (s.updPort c f).medium = s.medium := rfl
@[simp] theorem State.updPort_link (s : State) (c : Channel) (f : Port → Port) :
    (s.updPort c f).link = s.link := rfl
@[simp] theorem State.updPort_ctl (s : State) (c : Channel) (f : Port → Port) :
    (s.updPort c f).ctl = s.ctl := rfl
@[simp] theorem State.updPort_raised (s : State) (c : Channel) (f : Port → Port) :
    (s.updPort c f).raised = s.raised := rfl
@[simp] theorem State.updPort_nextId (s : State) (c : Channel) (f : Port → Port) :
    (s.updPort c f).nextId = s.nextId := rfl
@[simp] theorem State.updPort_pending (s : State) (c : Channel) (f : Port → Port) :
    (s.updPort c f).pending = s.pending := rfl

/-! ### `State.updReq` -/

@[simp] theorem State.updReq_timebase (s : State) (c : Channel) (id : Nat) (f : Request → Request) :
    (s.updReq c id f).timebase = s.timebase := rfl
@[simp] theorem State.updReq_policy (s : State) (c : Channel) (id : Nat) (f : Request → Request) :
    (s.updReq c id f).policy = s.policy := rfl
@[simp] theorem State.updReq_ports (s : State) (c : Channel) (id : Nat) (f : Request → Request) :
    (s.updReq c id f).ports = s.ports := rfl
@[simp] theorem State.updReq_requests (s : State) (c : Channel) (id : Nat) (f : Request → Request) :
    (s.updReq c id f).requests =
      s.requests.modify c (fun rs => rs.map (fun r => if r.id == id then f r else r)) := rfl
@[simp] theorem State.updReq_reservations (s : State) (c : Channel) (id : Nat) (f : Request → Request) :
    (s.updReq c id f).reservations = s.reservations := rfl
@[simp] theorem State.updReq_works (s : State) (c : Channel) (id : Nat) (f : Request → Request) :
    (s.updReq c id f).works = s.works := rfl
@[simp] theorem State.updReq_dm (s : State) (c : Channel) (id : Nat) (f : Request → Request) :
    (s.updReq c id f).dm = s.dm := rfl
@[simp] theorem State.updReq_pool (s : State) (c : Channel) (id : Nat) (f : Request → Request) :
    (s.updReq c id f).pool = s.pool := rfl
@[simp] theorem State.updReq_engine (s : State) (c : Channel) (id : Nat) (f : Request → Request) :
    (s.updReq c id f).engine = s.engine := rfl
@[simp] theorem State.updReq_sched (s : State) (c : Channel) (id : Nat) (f : Request → Request) :
    (s.updReq c id f).sched = s.sched := rfl
@[simp] theorem State.updReq_medium (s : State) (c : Channel) (id : Nat) (f : Request → Request) :
    (s.updReq c id f).medium = s.medium := rfl
@[simp] theorem State.updReq_link (s : State) (c : Channel) (id : Nat) (f : Request → Request) :
    (s.updReq c id f).link = s.link := rfl
@[simp] theorem State.updReq_ctl (s : State) (c : Channel) (id : Nat) (f : Request → Request) :
    (s.updReq c id f).ctl = s.ctl := rfl
@[simp] theorem State.updReq_raised (s : State) (c : Channel) (id : Nat) (f : Request → Request) :
    (s.updReq c id f).raised = s.raised := rfl
@[simp] theorem State.updReq_nextId (s : State) (c : Channel) (id : Nat) (f : Request → Request) :
    (s.updReq c id f).nextId = s.nextId := rfl
@[simp] theorem State.updReq_pending (s : State) (c : Channel) (id : Nat) (f : Request → Request) :
    (s.updReq c id f).pending = s.pending := rfl

/-! ### `State.dropTransfer` -/

@[simp] theorem State.dropTransfer_timebase (s : State) (c : Channel) (id : Nat) :
    (s.dropTransfer c id).timebase = s.timebase := rfl
@[simp] theorem State.dropTransfer_policy (s : State) (c : Channel) (id : Nat) :
    (s.dropTransfer c id).policy = s.policy := rfl
@[simp] theorem State.dropTransfer_ports (s : State) (c : Channel) (id : Nat) :
    (s.dropTransfer c id).ports =
      s.ports.modify c (fun p => { p with transfers := p.transfers.filter (fun t => t.request != id) }) := rfl
@[simp] theorem State.dropTransfer_requests (s : State) (c : Channel) (id : Nat) :
    (s.dropTransfer c id).requests = s.requests := rfl
@[simp] theorem State.dropTransfer_reservations (s : State) (c : Channel) (id : Nat) :
    (s.dropTransfer c id).reservations = s.reservations := rfl
@[simp] theorem State.dropTransfer_works (s : State) (c : Channel) (id : Nat) :
    (s.dropTransfer c id).works = s.works := rfl
@[simp] theorem State.dropTransfer_dm (s : State) (c : Channel) (id : Nat) :
    (s.dropTransfer c id).dm = s.dm := rfl
@[simp] theorem State.dropTransfer_pool (s : State) (c : Channel) (id : Nat) :
    (s.dropTransfer c id).pool = s.pool := rfl
@[simp] theorem State.dropTransfer_engine (s : State) (c : Channel) (id : Nat) :
    (s.dropTransfer c id).engine = s.engine := rfl
@[simp] theorem State.dropTransfer_sched (s : State) (c : Channel) (id : Nat) :
    (s.dropTransfer c id).sched = s.sched := rfl
@[simp] theorem State.dropTransfer_medium (s : State) (c : Channel) (id : Nat) :
    (s.dropTransfer c id).medium = s.medium := rfl
@[simp] theorem State.dropTransfer_link (s : State) (c : Channel) (id : Nat) :
    (s.dropTransfer c id).link = s.link := rfl
@[simp] theorem State.dropTransfer_ctl (s : State) (c : Channel) (id : Nat) :
    (s.dropTransfer c id).ctl = s.ctl := rfl
@[simp] theorem State.dropTransfer_raised (s : State) (c : Channel) (id : Nat) :
    (s.dropTransfer c id).raised = s.raised := rfl
@[simp] theorem State.dropTransfer_nextId (s : State) (c : Channel) (id : Nat) :
    (s.dropTransfer c id).nextId = s.nextId := rfl
@[simp] theorem State.dropTransfer_pending (s : State) (c : Channel) (id : Nat) :
    (s.dropTransfer c id).pending = s.pending := rfl

/-! ### `State.joinTransfer` -/

@[simp] theorem State.joinTransfer_timebase (s : State) (c : Channel) (t : Transfer) :
    (s.joinTransfer c t).timebase = s.timebase := rfl
@[simp] theorem State.joinTransfer_policy (s : State) (c : Channel) (t : Transfer) :
    (s.joinTransfer c t).policy = s.policy := rfl
@[simp] theorem State.joinTransfer_ports (s : State) (c : Channel) (t : Transfer) :
    (s.joinTransfer c t).ports =
      s.ports.modify c (fun p => { p with transfers := p.transfers ++ [t] }) := rfl
@[simp] theorem State.joinTransfer_requests (s : State) (c : Channel) (t : Transfer) :
    (s.joinTransfer c t).requests = s.requests := rfl
@[simp] theorem State.joinTransfer_reservations (s : State) (c : Channel) (t : Transfer) :
    (s.joinTransfer c t).reservations = s.reservations := rfl
@[simp] theorem State.joinTransfer_works (s : State) (c : Channel) (t : Transfer) :
    (s.joinTransfer c t).works = s.works := rfl
@[simp] theorem State.joinTransfer_dm (s : State) (c : Channel) (t : Transfer) :
    (s.joinTransfer c t).dm = s.dm := rfl
@[simp] theorem State.joinTransfer_pool (s : State) (c : Channel) (t : Transfer) :
    (s.joinTransfer c t).pool = s.pool := rfl
@[simp] theorem State.joinTransfer_engine (s : State) (c : Channel) (t : Transfer) :
    (s.joinTransfer c t).engine = s.engine := rfl
@[simp] theorem State.joinTransfer_sched (s : State) (c : Channel) (t : Transfer) :
    (s.joinTransfer c t).sched = s.sched := rfl
@[simp] theorem State.joinTransfer_medium (s : State) (c : Channel) (t : Transfer) :
    (s.joinTransfer c t).medium = s.medium := rfl
@[simp] theorem State.joinTransfer_link (s : State) (c : Channel) (t : Transfer) :
    (s.joinTransfer c t).link = s.link := rfl
@[simp] theorem State.joinTransfer_ctl (s : State) (c : Channel) (t : Transfer) :
    (s.joinTransfer c t).ctl = s.ctl := rfl
@[simp] theorem State.joinTransfer_raised (s : State) (c : Channel) (t : Transfer) :
    (s.joinTransfer c t).raised = s.raised := rfl
@[simp] theorem State.joinTransfer_nextId (s : State) (c : Channel) (t : Transfer) :
    (s.joinTransfer c t).nextId = s.nextId := rfl
@[simp] theorem State.joinTransfer_pending (s : State) (c : Channel) (t : Transfer) :
    (s.joinTransfer c t).pending = s.pending := rfl

/-! ### `State.settleReq` -/

@[simp] theorem State.settleReq_timebase (s : State) (c : Channel) (id : Nat) (st : Status) :
    (s.settleReq c id st).timebase = s.timebase := rfl
@[simp] theorem State.settleReq_policy (s : State) (c : Channel) (id : Nat) (st : Status) :
    (s.settleReq c id st).policy = s.policy := rfl
@[simp] theorem State.settleReq_ports (s : State) (c : Channel) (id : Nat) (st : Status) :
    (s.settleReq c id st).ports = (s.dropTransfer c id).ports := rfl
@[simp] theorem State.settleReq_requests (s : State) (c : Channel) (id : Nat) (st : Status) :
    (s.settleReq c id st).requests =
      (s.updReq c id (fun r => { r with state := .done, result := some st })).requests := rfl
@[simp] theorem State.settleReq_reservations (s : State) (c : Channel) (id : Nat) (st : Status) :
    (s.settleReq c id st).reservations = s.reservations := rfl
@[simp] theorem State.settleReq_works (s : State) (c : Channel) (id : Nat) (st : Status) :
    (s.settleReq c id st).works = s.works := rfl
@[simp] theorem State.settleReq_dm (s : State) (c : Channel) (id : Nat) (st : Status) :
    (s.settleReq c id st).dm = s.dm := rfl
@[simp] theorem State.settleReq_pool (s : State) (c : Channel) (id : Nat) (st : Status) :
    (s.settleReq c id st).pool = s.pool := rfl
@[simp] theorem State.settleReq_engine (s : State) (c : Channel) (id : Nat) (st : Status) :
    (s.settleReq c id st).engine = s.engine := rfl
@[simp] theorem State.settleReq_sched (s : State) (c : Channel) (id : Nat) (st : Status) :
    (s.settleReq c id st).sched = s.sched := rfl
@[simp] theorem State.settleReq_medium (s : State) (c : Channel) (id : Nat) (st : Status) :
    (s.settleReq c id st).medium = s.medium := rfl
@[simp] theorem State.settleReq_link (s : State) (c : Channel) (id : Nat) (st : Status) :
    (s.settleReq c id st).link = s.link := rfl
@[simp] theorem State.settleReq_ctl (s : State) (c : Channel) (id : Nat) (st : Status) :
    (s.settleReq c id st).ctl = s.ctl := rfl
@[simp] theorem State.settleReq_raised (s : State) (c : Channel) (id : Nat) (st : Status) :
    (s.settleReq c id st).raised = s.raised := rfl
@[simp] theorem State.settleReq_nextId (s : State) (c : Channel) (id : Nat) (st : Status) :
    (s.settleReq c id st).nextId = s.nextId := rfl
@[simp] theorem State.settleReq_pending (s : State) (c : Channel) (id : Nat) (st : Status) :
    (s.settleReq c id st).pending = s.pending := rfl

/-! ### `State.raise` -/

@[simp] theorem State.raise_timebase (s : State) (n : Notice) :
    (s.raise n).timebase = s.timebase := rfl
@[simp] theorem State.raise_policy (s : State) (n : Notice) : (s.raise n).policy = s.policy := rfl
@[simp] theorem State.raise_ports (s : State) (n : Notice) : (s.raise n).ports = s.ports := rfl
@[simp] theorem State.raise_requests (s : State) (n : Notice) :
    (s.raise n).requests = s.requests := rfl
@[simp] theorem State.raise_reservations (s : State) (n : Notice) :
    (s.raise n).reservations = s.reservations := rfl
@[simp] theorem State.raise_works (s : State) (n : Notice) : (s.raise n).works = s.works := rfl
@[simp] theorem State.raise_dm (s : State) (n : Notice) : (s.raise n).dm = s.dm := rfl
@[simp] theorem State.raise_pool (s : State) (n : Notice) : (s.raise n).pool = s.pool := rfl
@[simp] theorem State.raise_engine (s : State) (n : Notice) : (s.raise n).engine = s.engine := rfl
@[simp] theorem State.raise_sched (s : State) (n : Notice) : (s.raise n).sched = s.sched := rfl
@[simp] theorem State.raise_medium (s : State) (n : Notice) : (s.raise n).medium = s.medium := rfl
@[simp] theorem State.raise_link (s : State) (n : Notice) : (s.raise n).link = s.link := rfl
@[simp] theorem State.raise_ctl (s : State) (n : Notice) : (s.raise n).ctl = s.ctl := rfl
@[simp] theorem State.raise_raised (s : State) (n : Notice) :
    (s.raise n).raised = s.raised ++ [n] := rfl
@[simp] theorem State.raise_nextId (s : State) (n : Notice) : (s.raise n).nextId = s.nextId := rfl
@[simp] theorem State.raise_pending (s : State) (n : Notice) :
    (s.raise n).pending = s.pending := rfl

/-! ### `State.updWork` -/

@[simp] theorem State.updWork_timebase (s : State) (id : Nat) (f : WriteWork → WriteWork) :
    (s.updWork id f).timebase = s.timebase := rfl
@[simp] theorem State.updWork_policy (s : State) (id : Nat) (f : WriteWork → WriteWork) :
    (s.updWork id f).policy = s.policy := rfl
@[simp] theorem State.updWork_ports (s : State) (id : Nat) (f : WriteWork → WriteWork) :
    (s.updWork id f).ports = s.ports := rfl
@[simp] theorem State.updWork_requests (s : State) (id : Nat) (f : WriteWork → WriteWork) :
    (s.updWork id f).requests = s.requests := rfl
@[simp] theorem State.updWork_reservations (s : State) (id : Nat) (f : WriteWork → WriteWork) :
    (s.updWork id f).reservations = s.reservations := rfl
@[simp] theorem State.updWork_works (s : State) (id : Nat) (f : WriteWork → WriteWork) :
    (s.updWork id f).works = s.works.map (fun w => if w.id == id then f w else w) := rfl
@[simp] theorem State.updWork_dm (s : State) (id : Nat) (f : WriteWork → WriteWork) :
    (s.updWork id f).dm = s.dm := rfl
@[simp] theorem State.updWork_pool (s : State) (id : Nat) (f : WriteWork → WriteWork) :
    (s.updWork id f).pool = s.pool := rfl
@[simp] theorem State.updWork_engine (s : State) (id : Nat) (f : WriteWork → WriteWork) :
    (s.updWork id f).engine = s.engine := rfl
@[simp] theorem State.updWork_sched (s : State) (id : Nat) (f : WriteWork → WriteWork) :
    (s.updWork id f).sched = s.sched := rfl
@[simp] theorem State.updWork_medium (s : State) (id : Nat) (f : WriteWork → WriteWork) :
    (s.updWork id f).medium = s.medium := rfl
@[simp] theorem State.updWork_link (s : State) (id : Nat) (f : WriteWork → WriteWork) :
    (s.updWork id f).link = s.link := rfl
@[simp] theorem State.updWork_ctl (s : State) (id : Nat) (f : WriteWork → WriteWork) :
    (s.updWork id f).ctl = s.ctl := rfl
@[simp] theorem State.updWork_raised (s : State) (id : Nat) (f : WriteWork → WriteWork) :
    (s.updWork id f).raised = s.raised := rfl
@[simp] theorem State.updWork_nextId (s : State) (id : Nat) (f : WriteWork → WriteWork) :
    (s.updWork id f).nextId = s.nextId := rfl
@[simp] theorem State.updWork_pending (s : State) (id : Nat) (f : WriteWork → WriteWork) :
    (s.updWork id f).pending = s.pending := rfl

/-! ### `State.dropWork` -/

@[simp] theorem State.dropWork_timebase (s : State) (id : Nat) :
    (s.dropWork id).timebase = s.timebase := rfl
@[simp] theorem State.dropWork_policy (s : State) (id : Nat) :
    (s.dropWork id).policy = s.policy := rfl
@[simp] theorem State.dropWork_ports (s : State) (id : Nat) : (s.dropWork id).ports = s.ports := rfl
@[simp] theorem State.dropWork_requests (s : State) (id : Nat) :
    (s.dropWork id).requests = s.requests := rfl
@[simp] theorem State.dropWork_reservations (s : State) (id : Nat) :
    (s.dropWork id).reservations = s.reservations := rfl
@[simp] theorem State.dropWork_works (s : State) (id : Nat) :
    (s.dropWork id).works = s.works.filter (fun w => w.id != id) := rfl
@[simp] theorem State.dropWork_dm (s : State) (id : Nat) : (s.dropWork id).dm = s.dm := rfl
@[simp] theorem State.dropWork_pool (s : State) (id : Nat) : (s.dropWork id).pool = s.pool := rfl
@[simp] theorem State.dropWork_engine (s : State) (id : Nat) :
    (s.dropWork id).engine = s.engine := rfl
@[simp] theorem State.dropWork_sched (s : State) (id : Nat) : (s.dropWork id).sched = s.sched := rfl
@[simp] theorem State.dropWork_medium (s : State) (id : Nat) :
    (s.dropWork id).medium = s.medium := rfl
@[simp] theorem State.dropWork_link (s : State) (id : Nat) : (s.dropWork id).link = s.link := rfl
@[simp] theorem State.dropWork_ctl (s : State) (id : Nat) : (s.dropWork id).ctl = s.ctl := rfl
@[simp] theorem State.dropWork_raised (s : State) (id : Nat) :
    (s.dropWork id).raised = s.raised := rfl
@[simp] theorem State.dropWork_nextId (s : State) (id : Nat) :
    (s.dropWork id).nextId = s.nextId := rfl
@[simp] theorem State.dropWork_pending (s : State) (id : Nat) :
    (s.dropWork id).pending = s.pending := rfl

/-! ### `State.setSlot` -/

@[simp] theorem State.setSlot_timebase (s : State) (i : Nat) (x : Slot) :
    (s.setSlot i x).timebase = s.timebase := rfl
@[simp] theorem State.setSlot_policy (s : State) (i : Nat) (x : Slot) :
    (s.setSlot i x).policy = s.policy := rfl
@[simp] theorem State.setSlot_ports (s : State) (i : Nat) (x : Slot) :
    (s.setSlot i x).ports = s.ports := rfl
@[simp] theorem State.setSlot_requests (s : State) (i : Nat) (x : Slot) :
    (s.setSlot i x).requests = s.requests := rfl
@[simp] theorem State.setSlot_reservations (s : State) (i : Nat) (x : Slot) :
    (s.setSlot i x).reservations = s.reservations := rfl
@[simp] theorem State.setSlot_works (s : State) (i : Nat) (x : Slot) :
    (s.setSlot i x).works = s.works := rfl
@[simp] theorem State.setSlot_dm (s : State) (i : Nat) (x : Slot) : (s.setSlot i x).dm = s.dm := rfl
@[simp] theorem State.setSlot_pool (s : State) (i : Nat) (x : Slot) :
    (s.setSlot i x).pool = { s.pool with slots := s.pool.slots.set i x } := rfl
@[simp] theorem State.setSlot_engine (s : State) (i : Nat) (x : Slot) :
    (s.setSlot i x).engine = s.engine := rfl
@[simp] theorem State.setSlot_sched (s : State) (i : Nat) (x : Slot) :
    (s.setSlot i x).sched = s.sched := rfl
@[simp] theorem State.setSlot_medium (s : State) (i : Nat) (x : Slot) :
    (s.setSlot i x).medium = s.medium := rfl
@[simp] theorem State.setSlot_link (s : State) (i : Nat) (x : Slot) :
    (s.setSlot i x).link = s.link := rfl
@[simp] theorem State.setSlot_ctl (s : State) (i : Nat) (x : Slot) :
    (s.setSlot i x).ctl = s.ctl := rfl
@[simp] theorem State.setSlot_raised (s : State) (i : Nat) (x : Slot) :
    (s.setSlot i x).raised = s.raised := rfl
@[simp] theorem State.setSlot_nextId (s : State) (i : Nat) (x : Slot) :
    (s.setSlot i x).nextId = s.nextId := rfl
@[simp] theorem State.setSlot_pending (s : State) (i : Nat) (x : Slot) :
    (s.setSlot i x).pending = s.pending := rfl

/-! ### `State.updSlot` -/

@[simp] theorem State.updSlot_timebase (s : State) (i : Nat) (f : Slot → Slot) :
    (s.updSlot i f).timebase = s.timebase := rfl
@[simp] theorem State.updSlot_policy (s : State) (i : Nat) (f : Slot → Slot) :
    (s.updSlot i f).policy = s.policy := rfl
@[simp] theorem State.updSlot_ports (s : State) (i : Nat) (f : Slot → Slot) :
    (s.updSlot i f).ports = s.ports := rfl
@[simp] theorem State.updSlot_requests (s : State) (i : Nat) (f : Slot → Slot) :
    (s.updSlot i f).requests = s.requests := rfl
@[simp] theorem State.updSlot_reservations (s : State) (i : Nat) (f : Slot → Slot) :
    (s.updSlot i f).reservations = s.reservations := rfl
@[simp] theorem State.updSlot_works (s : State) (i : Nat) (f : Slot → Slot) :
    (s.updSlot i f).works = s.works := rfl
@[simp] theorem State.updSlot_dm (s : State) (i : Nat) (f : Slot → Slot) :
    (s.updSlot i f).dm = s.dm := rfl
@[simp] theorem State.updSlot_pool (s : State) (i : Nat) (f : Slot → Slot) :
    (s.updSlot i f).pool = { s.pool with slots := s.pool.slots.set i (f (s.slotAt i)) } := rfl
@[simp] theorem State.updSlot_engine (s : State) (i : Nat) (f : Slot → Slot) :
    (s.updSlot i f).engine = s.engine := rfl
@[simp] theorem State.updSlot_sched (s : State) (i : Nat) (f : Slot → Slot) :
    (s.updSlot i f).sched = s.sched := rfl
@[simp] theorem State.updSlot_medium (s : State) (i : Nat) (f : Slot → Slot) :
    (s.updSlot i f).medium = s.medium := rfl
@[simp] theorem State.updSlot_link (s : State) (i : Nat) (f : Slot → Slot) :
    (s.updSlot i f).link = s.link := rfl
@[simp] theorem State.updSlot_ctl (s : State) (i : Nat) (f : Slot → Slot) :
    (s.updSlot i f).ctl = s.ctl := rfl
@[simp] theorem State.updSlot_raised (s : State) (i : Nat) (f : Slot → Slot) :
    (s.updSlot i f).raised = s.raised := rfl
@[simp] theorem State.updSlot_nextId (s : State) (i : Nat) (f : Slot → Slot) :
    (s.updSlot i f).nextId = s.nextId := rfl
@[simp] theorem State.updSlot_pending (s : State) (i : Nat) (f : Slot → Slot) :
    (s.updSlot i f).pending = s.pending := rfl

/-! ### `State.unmapSlot` -/

@[simp] theorem State.unmapSlot_timebase (s : State) (i : Nat) :
    (s.unmapSlot i).timebase = s.timebase := rfl
@[simp] theorem State.unmapSlot_policy (s : State) (i : Nat) :
    (s.unmapSlot i).policy = s.policy := rfl
@[simp] theorem State.unmapSlot_ports (s : State) (i : Nat) : (s.unmapSlot i).ports = s.ports := rfl
@[simp] theorem State.unmapSlot_requests (s : State) (i : Nat) :
    (s.unmapSlot i).requests = s.requests := rfl
@[simp] theorem State.unmapSlot_reservations (s : State) (i : Nat) :
    (s.unmapSlot i).reservations = s.reservations := rfl
@[simp] theorem State.unmapSlot_works (s : State) (i : Nat) : (s.unmapSlot i).works = s.works := rfl
@[simp] theorem State.unmapSlot_dm (s : State) (i : Nat) : (s.unmapSlot i).dm = s.dm := rfl
@[simp] theorem State.unmapSlot_pool (s : State) (i : Nat) :
    (s.unmapSlot i).pool =
      { s.pool with directory := s.pool.directory.filter (fun d => d.2 != i) } := rfl
@[simp] theorem State.unmapSlot_engine (s : State) (i : Nat) :
    (s.unmapSlot i).engine = s.engine := rfl
@[simp] theorem State.unmapSlot_sched (s : State) (i : Nat) : (s.unmapSlot i).sched = s.sched := rfl
@[simp] theorem State.unmapSlot_medium (s : State) (i : Nat) :
    (s.unmapSlot i).medium = s.medium := rfl
@[simp] theorem State.unmapSlot_link (s : State) (i : Nat) : (s.unmapSlot i).link = s.link := rfl
@[simp] theorem State.unmapSlot_ctl (s : State) (i : Nat) : (s.unmapSlot i).ctl = s.ctl := rfl
@[simp] theorem State.unmapSlot_raised (s : State) (i : Nat) :
    (s.unmapSlot i).raised = s.raised := rfl
@[simp] theorem State.unmapSlot_nextId (s : State) (i : Nat) :
    (s.unmapSlot i).nextId = s.nextId := rfl
@[simp] theorem State.unmapSlot_pending (s : State) (i : Nat) :
    (s.unmapSlot i).pending = s.pending := rfl

/-! ### `State.mapSlot` -/

@[simp] theorem State.mapSlot_timebase (s : State) (l i : Nat) :
    (s.mapSlot l i).timebase = s.timebase := rfl
@[simp] theorem State.mapSlot_policy (s : State) (l i : Nat) :
    (s.mapSlot l i).policy = s.policy := rfl
@[simp] theorem State.mapSlot_ports (s : State) (l i : Nat) : (s.mapSlot l i).ports = s.ports := rfl
@[simp] theorem State.mapSlot_requests (s : State) (l i : Nat) :
    (s.mapSlot l i).requests = s.requests := rfl
@[simp] theorem State.mapSlot_reservations (s : State) (l i : Nat) :
    (s.mapSlot l i).reservations = s.reservations := rfl
@[simp] theorem State.mapSlot_works (s : State) (l i : Nat) : (s.mapSlot l i).works = s.works := rfl
@[simp] theorem State.mapSlot_dm (s : State) (l i : Nat) : (s.mapSlot l i).dm = s.dm := rfl
@[simp] theorem State.mapSlot_pool (s : State) (l i : Nat) :
    (s.mapSlot l i).pool =
      { s.pool with directory := s.pool.directory.filter (fun d => d.1 != l && d.2 != i) ++ [(l, i)] } := rfl
@[simp] theorem State.mapSlot_engine (s : State) (l i : Nat) :
    (s.mapSlot l i).engine = s.engine := rfl
@[simp] theorem State.mapSlot_sched (s : State) (l i : Nat) : (s.mapSlot l i).sched = s.sched := rfl
@[simp] theorem State.mapSlot_medium (s : State) (l i : Nat) :
    (s.mapSlot l i).medium = s.medium := rfl
@[simp] theorem State.mapSlot_link (s : State) (l i : Nat) : (s.mapSlot l i).link = s.link := rfl
@[simp] theorem State.mapSlot_ctl (s : State) (l i : Nat) : (s.mapSlot l i).ctl = s.ctl := rfl
@[simp] theorem State.mapSlot_raised (s : State) (l i : Nat) :
    (s.mapSlot l i).raised = s.raised := rfl
@[simp] theorem State.mapSlot_nextId (s : State) (l i : Nat) :
    (s.mapSlot l i).nextId = s.nextId := rfl
@[simp] theorem State.mapSlot_pending (s : State) (l i : Nat) :
    (s.mapSlot l i).pending = s.pending := rfl

/-! ### `State.leaveSlotWait` -/

@[simp] theorem State.leaveSlotWait_timebase (s : State) (id : Nat) :
    (s.leaveSlotWait id).timebase = s.timebase := rfl
@[simp] theorem State.leaveSlotWait_policy (s : State) (id : Nat) :
    (s.leaveSlotWait id).policy = s.policy := rfl
@[simp] theorem State.leaveSlotWait_ports (s : State) (id : Nat) :
    (s.leaveSlotWait id).ports = s.ports := rfl
@[simp] theorem State.leaveSlotWait_requests (s : State) (id : Nat) :
    (s.leaveSlotWait id).requests = s.requests := rfl
@[simp] theorem State.leaveSlotWait_reservations (s : State) (id : Nat) :
    (s.leaveSlotWait id).reservations = s.reservations := rfl
@[simp] theorem State.leaveSlotWait_works (s : State) (id : Nat) :
    (s.leaveSlotWait id).works = s.works := rfl
@[simp] theorem State.leaveSlotWait_dm (s : State) (id : Nat) :
    (s.leaveSlotWait id).dm = s.dm := rfl
@[simp] theorem State.leaveSlotWait_pool (s : State) (id : Nat) :
    (s.leaveSlotWait id).pool =
      { s.pool with slotWait := s.pool.slotWait.filter (fun x => x != id) } := rfl
@[simp] theorem State.leaveSlotWait_engine (s : State) (id : Nat) :
    (s.leaveSlotWait id).engine = s.engine := rfl
@[simp] theorem State.leaveSlotWait_sched (s : State) (id : Nat) :
    (s.leaveSlotWait id).sched = s.sched := rfl
@[simp] theorem State.leaveSlotWait_medium (s : State) (id : Nat) :
    (s.leaveSlotWait id).medium = s.medium := rfl
@[simp] theorem State.leaveSlotWait_link (s : State) (id : Nat) :
    (s.leaveSlotWait id).link = s.link := rfl
@[simp] theorem State.leaveSlotWait_ctl (s : State) (id : Nat) :
    (s.leaveSlotWait id).ctl = s.ctl := rfl
@[simp] theorem State.leaveSlotWait_raised (s : State) (id : Nat) :
    (s.leaveSlotWait id).raised = s.raised := rfl
@[simp] theorem State.leaveSlotWait_nextId (s : State) (id : Nat) :
    (s.leaveSlotWait id).nextId = s.nextId := rfl
@[simp] theorem State.leaveSlotWait_pending (s : State) (id : Nat) :
    (s.leaveSlotWait id).pending = s.pending := rfl

/-! ### `State.linkToIdle` -/

@[simp] theorem State.linkToIdle_timebase (s : State) : (s.linkToIdle).timebase = s.timebase := rfl
@[simp] theorem State.linkToIdle_policy (s : State) : (s.linkToIdle).policy = s.policy := rfl
@[simp] theorem State.linkToIdle_ports (s : State) : (s.linkToIdle).ports = s.ports := rfl
@[simp] theorem State.linkToIdle_requests (s : State) : (s.linkToIdle).requests = s.requests := rfl
@[simp] theorem State.linkToIdle_reservations (s : State) :
    (s.linkToIdle).reservations = s.reservations := rfl
@[simp] theorem State.linkToIdle_works (s : State) : (s.linkToIdle).works = s.works := rfl
@[simp] theorem State.linkToIdle_dm (s : State) : (s.linkToIdle).dm = s.dm := rfl
@[simp] theorem State.linkToIdle_pool (s : State) : (s.linkToIdle).pool = s.pool := rfl
@[simp] theorem State.linkToIdle_engine (s : State) : (s.linkToIdle).engine = s.engine := rfl
@[simp] theorem State.linkToIdle_sched (s : State) : (s.linkToIdle).sched = s.sched := rfl
@[simp] theorem State.linkToIdle_medium (s : State) : (s.linkToIdle).medium = s.medium := rfl
@[simp] theorem State.linkToIdle_link (s : State) :
    (s.linkToIdle).link =
      { s.link with state := .idle, outstanding := none, remaining := none, retryCount := none, lastFailure := none, received := [] } := rfl
@[simp] theorem State.linkToIdle_ctl (s : State) : (s.linkToIdle).ctl = s.ctl := rfl
@[simp] theorem State.linkToIdle_raised (s : State) : (s.linkToIdle).raised = s.raised := rfl
@[simp] theorem State.linkToIdle_nextId (s : State) : (s.linkToIdle).nextId = s.nextId := rfl
@[simp] theorem State.linkToIdle_pending (s : State) : (s.linkToIdle).pending = s.pending := rfl

/-! ### `State.mediumErased` -/

@[simp] theorem State.mediumErased_timebase (s : State) (run : Run) :
    (s.mediumErased run).timebase = s.timebase := rfl
@[simp] theorem State.mediumErased_policy (s : State) (run : Run) :
    (s.mediumErased run).policy = s.policy := rfl
@[simp] theorem State.mediumErased_ports (s : State) (run : Run) :
    (s.mediumErased run).ports = s.ports := rfl
@[simp] theorem State.mediumErased_requests (s : State) (run : Run) :
    (s.mediumErased run).requests = s.requests := rfl
@[simp] theorem State.mediumErased_reservations (s : State) (run : Run) :
    (s.mediumErased run).reservations = s.reservations := rfl
@[simp] theorem State.mediumErased_works (s : State) (run : Run) :
    (s.mediumErased run).works = s.works := rfl
@[simp] theorem State.mediumErased_dm (s : State) (run : Run) :
    (s.mediumErased run).dm = s.dm := rfl
@[simp] theorem State.mediumErased_pool (s : State) (run : Run) :
    (s.mediumErased run).pool = s.pool := rfl
@[simp] theorem State.mediumErased_engine (s : State) (run : Run) :
    (s.mediumErased run).engine = s.engine := rfl
@[simp] theorem State.mediumErased_sched (s : State) (run : Run) :
    (s.mediumErased run).sched = s.sched := rfl
@[simp] theorem State.mediumErased_medium (s : State) (run : Run) :
    (s.mediumErased run).medium =
      run.sectors.foldl (fun m x => setPlace m run.track x.sector [.erased]) s.medium := rfl
@[simp] theorem State.mediumErased_link (s : State) (run : Run) :
    (s.mediumErased run).link = s.link := rfl
@[simp] theorem State.mediumErased_ctl (s : State) (run : Run) :
    (s.mediumErased run).ctl = s.ctl := rfl
@[simp] theorem State.mediumErased_raised (s : State) (run : Run) :
    (s.mediumErased run).raised = s.raised := rfl
@[simp] theorem State.mediumErased_nextId (s : State) (run : Run) :
    (s.mediumErased run).nextId = s.nextId := rfl
@[simp] theorem State.mediumErased_pending (s : State) (run : Run) :
    (s.mediumErased run).pending = s.pending := rfl

/-! ### `State.mediumRecorded` -/

@[simp] theorem State.mediumRecorded_timebase (s : State) (fs : List SentSector) :
    (s.mediumRecorded fs).timebase = s.timebase := rfl
@[simp] theorem State.mediumRecorded_policy (s : State) (fs : List SentSector) :
    (s.mediumRecorded fs).policy = s.policy := rfl
@[simp] theorem State.mediumRecorded_ports (s : State) (fs : List SentSector) :
    (s.mediumRecorded fs).ports = s.ports := rfl
@[simp] theorem State.mediumRecorded_requests (s : State) (fs : List SentSector) :
    (s.mediumRecorded fs).requests = s.requests := rfl
@[simp] theorem State.mediumRecorded_reservations (s : State) (fs : List SentSector) :
    (s.mediumRecorded fs).reservations = s.reservations := rfl
@[simp] theorem State.mediumRecorded_works (s : State) (fs : List SentSector) :
    (s.mediumRecorded fs).works = s.works := rfl
@[simp] theorem State.mediumRecorded_dm (s : State) (fs : List SentSector) :
    (s.mediumRecorded fs).dm = s.dm := rfl
@[simp] theorem State.mediumRecorded_pool (s : State) (fs : List SentSector) :
    (s.mediumRecorded fs).pool = s.pool := rfl
@[simp] theorem State.mediumRecorded_engine (s : State) (fs : List SentSector) :
    (s.mediumRecorded fs).engine = s.engine := rfl
@[simp] theorem State.mediumRecorded_sched (s : State) (fs : List SentSector) :
    (s.mediumRecorded fs).sched = s.sched := rfl
@[simp] theorem State.mediumRecorded_medium (s : State) (fs : List SentSector) :
    (s.mediumRecorded fs).medium =
      fs.foldl (fun m f => setPlace m f.track f.sector [.recorded f.data]) s.medium := rfl
@[simp] theorem State.mediumRecorded_link (s : State) (fs : List SentSector) :
    (s.mediumRecorded fs).link = s.link := rfl
@[simp] theorem State.mediumRecorded_ctl (s : State) (fs : List SentSector) :
    (s.mediumRecorded fs).ctl = s.ctl := rfl
@[simp] theorem State.mediumRecorded_raised (s : State) (fs : List SentSector) :
    (s.mediumRecorded fs).raised = s.raised := rfl
@[simp] theorem State.mediumRecorded_nextId (s : State) (fs : List SentSector) :
    (s.mediumRecorded fs).nextId = s.nextId := rfl
@[simp] theorem State.mediumRecorded_pending (s : State) (fs : List SentSector) :
    (s.mediumRecorded fs).pending = s.pending := rfl

/-! ### `State.updLink` -/

@[simp] theorem State.updLink_timebase (s : State) (f : Link → Link) :
    (s.updLink f).timebase = s.timebase := rfl
@[simp] theorem State.updLink_policy (s : State) (f : Link → Link) :
    (s.updLink f).policy = s.policy := rfl
@[simp] theorem State.updLink_ports (s : State) (f : Link → Link) :
    (s.updLink f).ports = s.ports := rfl
@[simp] theorem State.updLink_requests (s : State) (f : Link → Link) :
    (s.updLink f).requests = s.requests := rfl
@[simp] theorem State.updLink_reservations (s : State) (f : Link → Link) :
    (s.updLink f).reservations = s.reservations := rfl
@[simp] theorem State.updLink_works (s : State) (f : Link → Link) :
    (s.updLink f).works = s.works := rfl
@[simp] theorem State.updLink_dm (s : State) (f : Link → Link) : (s.updLink f).dm = s.dm := rfl
@[simp] theorem State.updLink_pool (s : State) (f : Link → Link) :
    (s.updLink f).pool = s.pool := rfl
@[simp] theorem State.updLink_engine (s : State) (f : Link → Link) :
    (s.updLink f).engine = s.engine := rfl
@[simp] theorem State.updLink_sched (s : State) (f : Link → Link) :
    (s.updLink f).sched = s.sched := rfl
@[simp] theorem State.updLink_medium (s : State) (f : Link → Link) :
    (s.updLink f).medium = s.medium := rfl
@[simp] theorem State.updLink_link (s : State) (f : Link → Link) :
    (s.updLink f).link = f s.link := rfl
@[simp] theorem State.updLink_ctl (s : State) (f : Link → Link) : (s.updLink f).ctl = s.ctl := rfl
@[simp] theorem State.updLink_raised (s : State) (f : Link → Link) :
    (s.updLink f).raised = s.raised := rfl
@[simp] theorem State.updLink_nextId (s : State) (f : Link → Link) :
    (s.updLink f).nextId = s.nextId := rfl
@[simp] theorem State.updLink_pending (s : State) (f : Link → Link) :
    (s.updLink f).pending = s.pending := rfl

/-! ### `State.updCtl` -/

@[simp] theorem State.updCtl_timebase (s : State) (f : Controller → Controller) :
    (s.updCtl f).timebase = s.timebase := rfl
@[simp] theorem State.updCtl_policy (s : State) (f : Controller → Controller) :
    (s.updCtl f).policy = s.policy := rfl
@[simp] theorem State.updCtl_ports (s : State) (f : Controller → Controller) :
    (s.updCtl f).ports = s.ports := rfl
@[simp] theorem State.updCtl_requests (s : State) (f : Controller → Controller) :
    (s.updCtl f).requests = s.requests := rfl
@[simp] theorem State.updCtl_reservations (s : State) (f : Controller → Controller) :
    (s.updCtl f).reservations = s.reservations := rfl
@[simp] theorem State.updCtl_works (s : State) (f : Controller → Controller) :
    (s.updCtl f).works = s.works := rfl
@[simp] theorem State.updCtl_dm (s : State) (f : Controller → Controller) :
    (s.updCtl f).dm = s.dm := rfl
@[simp] theorem State.updCtl_pool (s : State) (f : Controller → Controller) :
    (s.updCtl f).pool = s.pool := rfl
@[simp] theorem State.updCtl_engine (s : State) (f : Controller → Controller) :
    (s.updCtl f).engine = s.engine := rfl
@[simp] theorem State.updCtl_sched (s : State) (f : Controller → Controller) :
    (s.updCtl f).sched = s.sched := rfl
@[simp] theorem State.updCtl_medium (s : State) (f : Controller → Controller) :
    (s.updCtl f).medium = s.medium := rfl
@[simp] theorem State.updCtl_link (s : State) (f : Controller → Controller) :
    (s.updCtl f).link = s.link := rfl
@[simp] theorem State.updCtl_ctl (s : State) (f : Controller → Controller) :
    (s.updCtl f).ctl = f s.ctl := rfl
@[simp] theorem State.updCtl_raised (s : State) (f : Controller → Controller) :
    (s.updCtl f).raised = s.raised := rfl
@[simp] theorem State.updCtl_nextId (s : State) (f : Controller → Controller) :
    (s.updCtl f).nextId = s.nextId := rfl
@[simp] theorem State.updCtl_pending (s : State) (f : Controller → Controller) :
    (s.updCtl f).pending = s.pending := rfl

/-! ### `State.setOverrun` -/

@[simp] theorem State.setOverrun_timebase (s : State) (c : Channel) :
    (s.setOverrun c).timebase = s.timebase := rfl
@[simp] theorem State.setOverrun_policy (s : State) (c : Channel) :
    (s.setOverrun c).policy = s.policy := rfl
@[simp] theorem State.setOverrun_ports (s : State) (c : Channel) :
    (s.setOverrun c).ports = s.ports.modify c (fun p => { p with overrun := true }) := rfl
@[simp] theorem State.setOverrun_requests (s : State) (c : Channel) :
    (s.setOverrun c).requests = s.requests := rfl
@[simp] theorem State.setOverrun_reservations (s : State) (c : Channel) :
    (s.setOverrun c).reservations = s.reservations := rfl
@[simp] theorem State.setOverrun_works (s : State) (c : Channel) :
    (s.setOverrun c).works = s.works := rfl
@[simp] theorem State.setOverrun_dm (s : State) (c : Channel) : (s.setOverrun c).dm = s.dm := rfl
@[simp] theorem State.setOverrun_pool (s : State) (c : Channel) :
    (s.setOverrun c).pool = s.pool := rfl
@[simp] theorem State.setOverrun_engine (s : State) (c : Channel) :
    (s.setOverrun c).engine = s.engine := rfl
@[simp] theorem State.setOverrun_sched (s : State) (c : Channel) :
    (s.setOverrun c).sched = s.sched := rfl
@[simp] theorem State.setOverrun_medium (s : State) (c : Channel) :
    (s.setOverrun c).medium = s.medium := rfl
@[simp] theorem State.setOverrun_link (s : State) (c : Channel) :
    (s.setOverrun c).link = s.link := rfl
@[simp] theorem State.setOverrun_ctl (s : State) (c : Channel) : (s.setOverrun c).ctl = s.ctl := rfl
@[simp] theorem State.setOverrun_raised (s : State) (c : Channel) :
    (s.setOverrun c).raised = s.raised := rfl
@[simp] theorem State.setOverrun_nextId (s : State) (c : Channel) :
    (s.setOverrun c).nextId = s.nextId := rfl
@[simp] theorem State.setOverrun_pending (s : State) (c : Channel) :
    (s.setOverrun c).pending = s.pending := rfl

/-! ### `State.returnByte` -/

@[simp] theorem State.returnByte_timebase (s : State) (c : Channel) (b : Byte) :
    (s.returnByte c b).timebase = s.timebase := rfl
@[simp] theorem State.returnByte_policy (s : State) (c : Channel) (b : Byte) :
    (s.returnByte c b).policy = s.policy := rfl
@[simp] theorem State.returnByte_ports (s : State) (c : Channel) (b : Byte) :
    (s.returnByte c b).ports = s.ports.modify c (fun p => { p with busOut := b }) := rfl
@[simp] theorem State.returnByte_requests (s : State) (c : Channel) (b : Byte) :
    (s.returnByte c b).requests = s.requests := rfl
@[simp] theorem State.returnByte_reservations (s : State) (c : Channel) (b : Byte) :
    (s.returnByte c b).reservations = s.reservations := rfl
@[simp] theorem State.returnByte_works (s : State) (c : Channel) (b : Byte) :
    (s.returnByte c b).works = s.works := rfl
@[simp] theorem State.returnByte_dm (s : State) (c : Channel) (b : Byte) :
    (s.returnByte c b).dm = s.dm := rfl
@[simp] theorem State.returnByte_pool (s : State) (c : Channel) (b : Byte) :
    (s.returnByte c b).pool = s.pool := rfl
@[simp] theorem State.returnByte_engine (s : State) (c : Channel) (b : Byte) :
    (s.returnByte c b).engine = s.engine := rfl
@[simp] theorem State.returnByte_sched (s : State) (c : Channel) (b : Byte) :
    (s.returnByte c b).sched = s.sched := rfl
@[simp] theorem State.returnByte_medium (s : State) (c : Channel) (b : Byte) :
    (s.returnByte c b).medium = s.medium := rfl
@[simp] theorem State.returnByte_link (s : State) (c : Channel) (b : Byte) :
    (s.returnByte c b).link = s.link := rfl
@[simp] theorem State.returnByte_ctl (s : State) (c : Channel) (b : Byte) :
    (s.returnByte c b).ctl = s.ctl := rfl
@[simp] theorem State.returnByte_raised (s : State) (c : Channel) (b : Byte) :
    (s.returnByte c b).raised = s.raised := rfl
@[simp] theorem State.returnByte_nextId (s : State) (c : Channel) (b : Byte) :
    (s.returnByte c b).nextId = s.nextId := rfl
@[simp] theorem State.returnByte_pending (s : State) (c : Channel) (b : Byte) :
    (s.returnByte c b).pending = s.pending := rfl

/-! ### `State.postBlock` -/

@[simp] theorem State.postBlock_timebase (s : State) (c : Channel) (b : OutBlock) :
    (s.postBlock c b).timebase = s.timebase := rfl
@[simp] theorem State.postBlock_policy (s : State) (c : Channel) (b : OutBlock) :
    (s.postBlock c b).policy = s.policy := rfl
@[simp] theorem State.postBlock_ports (s : State) (c : Channel) (b : OutBlock) :
    (s.postBlock c b).ports =
      s.ports.modify c (fun p => { p with outbox := p.outbox ++ [b] }) := rfl
@[simp] theorem State.postBlock_requests (s : State) (c : Channel) (b : OutBlock) :
    (s.postBlock c b).requests = s.requests := rfl
@[simp] theorem State.postBlock_reservations (s : State) (c : Channel) (b : OutBlock) :
    (s.postBlock c b).reservations = s.reservations := rfl
@[simp] theorem State.postBlock_works (s : State) (c : Channel) (b : OutBlock) :
    (s.postBlock c b).works = s.works := rfl
@[simp] theorem State.postBlock_dm (s : State) (c : Channel) (b : OutBlock) :
    (s.postBlock c b).dm = s.dm := rfl
@[simp] theorem State.postBlock_pool (s : State) (c : Channel) (b : OutBlock) :
    (s.postBlock c b).pool = s.pool := rfl
@[simp] theorem State.postBlock_engine (s : State) (c : Channel) (b : OutBlock) :
    (s.postBlock c b).engine = s.engine := rfl
@[simp] theorem State.postBlock_sched (s : State) (c : Channel) (b : OutBlock) :
    (s.postBlock c b).sched = s.sched := rfl
@[simp] theorem State.postBlock_medium (s : State) (c : Channel) (b : OutBlock) :
    (s.postBlock c b).medium = s.medium := rfl
@[simp] theorem State.postBlock_link (s : State) (c : Channel) (b : OutBlock) :
    (s.postBlock c b).link = s.link := rfl
@[simp] theorem State.postBlock_ctl (s : State) (c : Channel) (b : OutBlock) :
    (s.postBlock c b).ctl = s.ctl := rfl
@[simp] theorem State.postBlock_raised (s : State) (c : Channel) (b : OutBlock) :
    (s.postBlock c b).raised = s.raised := rfl
@[simp] theorem State.postBlock_nextId (s : State) (c : Channel) (b : OutBlock) :
    (s.postBlock c b).nextId = s.nextId := rfl
@[simp] theorem State.postBlock_pending (s : State) (c : Channel) (b : OutBlock) :
    (s.postBlock c b).pending = s.pending := rfl

end Sys2Proof.Machine
end

