-- ==== Sys2Proof/Laws/WriteSlots.lean ====
section
/-! SUPPORT. The slots a WRITE takes: claims, slots made stale, and the whole allocation (R59,
R69). -/

set_option Elab.async false

namespace Sys2Proof.Machine

/-- A claimed slot's record (R59, R62). -/
theorem claimSlot_at {s : State} {i : Nat} (lsn : Nat) (st : SlotState) (w : Work) (ch : Charge)
    (id : Option Nat) (h : i < s.pool.slots.length) :
    (s.claimSlot i lsn st w ch id).slotAt i = { Slot.reset with
      state := st, lsn := some lsn, work := some w, charged := ch, chargedFor := id,
      stamp := (s.slotAt i).stamp } := by
  unfold State.claimSlot
  exact slotAt_setSlot_self _ h

theorem claimSlot_other {s : State} {i j : Nat} (lsn : Nat) (st : SlotState) (w : Work)
    (ch : Charge)
    (id : Option Nat) (h : j ≠ i) : (s.claimSlot i lsn st w ch id).slotAt j = s.slotAt j := by
  unfold State.claimSlot
  rw [slotAt_setSlot_other _ h]
  rfl

theorem claimSlot_current {s : State} {i : Nat} (lsn : Nat) (st : SlotState) (w : Work)
    (ch : Charge)
    (id : Option Nat) : (s.claimSlot i lsn st w ch id).currentSlot lsn = some i :=
  currentSlot_mapSlot s lsn i

/-- A list without repeats is no longer than one that holds its elements. -/
theorem length_le_of_subset {α : Type} [DecidableEq α] {xs ys : List α} (h : xs.Nodup)
    (hs : ∀ x ∈ xs, x ∈ ys) : xs.length ≤ ys.length := by
  induction xs generalizing ys with
  | nil => exact Nat.zero_le _
  | cons x xs ih =>
    rw [List.nodup_cons] at h
    have hx := hs x (List.mem_cons_self ..)
    have := ih (ys := ys.erase x) h.2 (fun y hy => by
      have hne : y ≠ x := fun e => h.1 (by rw [← e]; exact hy)
      exact (List.mem_erase_of_ne hne).mpr (hs y (List.mem_cons_of_mem _ hy)))
    rw [List.length_erase_of_mem hx] at this
    have hp := List.length_pos_of_mem hx
    simp only [List.length_cons]
    omega

/-- A slot a WRITE may count on (R69). -/
def Slot.usable (x : Slot) : Bool := x.state == .free || x.replaceable

theorem availableSlots_eq (s : State) : s.availableSlots = s.pool.slots.countP Slot.usable :=
  List.countP_eq_length_filter.symm

/-- When every usable slot is one of some slots, there are no more of them. -/
theorem availableSlots_le {s : State} {is : List Nat}
    (h : ∀ i < s.pool.slots.length, (s.slotAt i).usable = true → i ∈ is) :
    s.availableSlots ≤ is.length := by
  have e : s.availableSlots = ((List.range s.pool.slots.length).filter (fun i =>
      (s.slotAt i).usable)).length := by
    rw [availableSlots_eq, ← List.countP_eq_length_filter]
    have : s.pool.slots = (List.range s.pool.slots.length).map s.slotAt := by
      refine List.ext_getElem (by simp) (fun i h1 h2 => ?_)
      simp [slotAt_getElem h1]
    conv => lhs; rw [this]
    rw [List.countP_map]
    rfl
  rw [e]
  refine length_le_of_subset ?_ (fun i hi => ?_)
  · exact List.Pairwise.filter _ List.nodup_range
  · simp only [List.mem_filter, List.mem_range] at hi
    exact h i hi.1 hi.2

/-- One slot changed, the slots that a WRITE may count on change by it alone (R69). -/
theorem availableSlots_setSlot {s : State} {i : Nat} (x : Slot) (h : i < s.pool.slots.length) :
    (s.setSlot i x).availableSlots + bitOf
        (s.slotAt i).usable = s.availableSlots + bitOf x.usable := by
  simp only [availableSlots_eq, State.setSlot]
  rw [List.countP_set h, ← slotAt_getElem h]
  have hp : (s.slotAt i).usable = true → 0 < s.pool.slots.countP Slot.usable := by
    intro hu
    rw [List.countP_pos_iff]
    exact ⟨_, List.getElem_mem h, by rw [← slotAt_getElem h]; exact hu⟩
  cases h1 : (s.slotAt i).usable <;> cases h2 : x.usable <;> simp [bitOf]
  all_goals have := hp h1
  all_goals omega

/-! ### Stale slots (R59) -/

/-- Settling a charge changes the charge alone (R61). -/
theorem settleCharge_kept (x : Slot) : x.settleCharge.state = x.state ∧
    x.settleCharge.stale = x.stale ∧
    x.settleCharge.lsn = x.lsn ∧ x.settleCharge.work = x.work ∧ x.settleCharge.content = x.content ∧
    x.settleCharge.bindings = x.bindings ∧ x.settleCharge.stamp = x.stamp ∧
    x.settleCharge.stage = x.stage := by
  unfold Slot.settleCharge
  split
  · exact ⟨rfl, rfl, rfl, rfl, rfl, rfl, rfl, rfl⟩
  · split
    · split <;> exact ⟨rfl, rfl, rfl, rfl, rfl, rfl, rfl, rfl⟩
    · exact ⟨rfl, rfl, rfl, rfl, rfl, rfl, rfl, rfl⟩
    · exact ⟨rfl, rfl, rfl, rfl, rfl, rfl, rfl, rfl⟩

/-- What tidying a slot does. -/
theorem tidySlot_spec {s : State} {i : Nat} (h : i < s.pool.slots.length) :
    (∀ j, j ≠ i → (s.tidySlot i).slotAt j = s.slotAt j) ∧
    ((s.slotAt i).stale = true ∧ (s.slotAt i).bindings = [] ∧
        ((s.slotAt i).state ≠ .fetching ∨ (s.slotAt i).fetchBegun = false) →
      (s.tidySlot i).slotAt i = (s.slotAt i).freed ∧
        (s.tidySlot i).pool.directory = s.pool.directory.filter (fun d => d.2 != i)) ∧
    (¬((s.slotAt i).stale = true ∧ (s.slotAt i).bindings = [] ∧
        ((s.slotAt i).state ≠ .fetching ∨ (s.slotAt i).fetchBegun = false)) →
      (s.tidySlot i).slotAt i = (s.slotAt i).settleCharge ∧
        (s.tidySlot i).pool.directory = s.pool.directory) := by
  have hc : ((s.slotAt i).stale && (s.slotAt i).bindings.isEmpty &&
      !((s.slotAt i).state == .fetching && (s.slotAt i).fetchBegun)) = true ↔
      ((s.slotAt i).stale = true ∧ (s.slotAt i).bindings = [] ∧
        ((s.slotAt i).state ≠ .fetching ∨ (s.slotAt i).fetchBegun = false)) := by
    simp only [Bool.and_eq_true, List.isEmpty_iff, Bool.not_eq_true', Bool.and_eq_false_iff,
      beq_eq_false_iff_ne, ne_eq, and_assoc]
  unfold State.tidySlot
  dsimp only
  by_cases hh : ((s.slotAt i).stale = true ∧ (s.slotAt i).bindings = [] ∧
        ((s.slotAt i).state ≠ .fetching ∨ (s.slotAt i).fetchBegun = false))
  · rw [if_pos (hc.mpr hh)]
    refine ⟨fun j hj => ?_, fun _ => ⟨slotAt_setSlot_self _ h, rfl⟩, fun hn => absurd hh hn⟩
    unfold State.freeSlot
    rw [slotAt_setSlot_other _ hj]
    rfl
  · rw [if_neg (fun e => hh (hc.mp e))]
    exact ⟨fun j hj => slotAt_setSlot_other _ hj, fun hn => absurd hn hh,
      fun _ => ⟨slotAt_setSlot_self _ h, rfl⟩⟩

/-- What making a slot stale does (R59). -/
theorem makeStale_spec {s : State} {i : Nat} (h : i < s.pool.slots.length) :
    (∀ j, j ≠ i → (s.makeStale i).slotAt j = s.slotAt j) ∧
    (s.makeStale i).pool.directory = s.pool.directory.filter (fun d => d.2 != i) ∧
    ((s.makeStale i).slotAt i = (s.slotAt i).freed ∨
      ((s.makeStale i).slotAt i).state = (s.slotAt i).state ∧
        ((s.makeStale i).slotAt i).stale = true) := by
  have hl : i < ((s.unmapSlot i).updSlot i (fun x => { x with stale := true })).pool.slots.length :=
      by
    show i < (List.set _ _ _).length
    rw [List.length_set]
    exact h
  have hat : ((s.unmapSlot i).updSlot i (fun x => { x with stale := true })).slotAt i =
      { s.slotAt i with stale := true } := slotAt_setSlot_self _ h
  have hot : ∀ j, j ≠ i → ((s.unmapSlot i).updSlot i (fun x => { x with stale := true })).slotAt j =
      s.slotAt j := fun j hj => slotAt_setSlot_other _ hj
  obtain ⟨h1, h2, h3⟩ := tidySlot_spec hl
  refine ⟨fun j hj => (h1 j hj).trans (hot j hj), ?_, ?_⟩
  · rcases Classical.em _ with hc | hc
    · refine (h2 hc).2.trans ?_
      show List.filter _ (List.filter _ _) = _
      rw [List.filter_filter]
      simp
    · exact (h3 hc).2
  · rcases Classical.em _ with hc | hc
    · exact Or.inl ((h2 hc).1.trans (by rw [hat]; rfl))
    · have e : (s.makeStale i).slotAt i = _ := (h3 hc).1
      rw [hat] at e
      refine Or.inr ⟨?_, ?_⟩
      · rw [e, (settleCharge_kept _).1]
      · rw [e, (settleCharge_kept _).2.1]

/-! ### The allocation (R69) -/

/-- The slot `i` stands FILLING for an LSN of the WRITE `id`. -/
structure Filled (s : State) (c : Channel) (id i l : Nat) : Prop where
  lt : i < s.pool.slots.length
  state : (s.slotAt i).state = .filling
  lsn : (s.slotAt i).lsn = some l
  fresh : (s.slotAt i).stale = false
  work : (s.slotAt i).work = some (.write id)
  charged : (s.slotAt i).charged = .channel c
  current : s.currentSlot l = some i

/-- What the allocation of a WRITE's slots goes by: room for the sectors still to come,
    and the slots
set aside for takeover are current slots of these. -/
structure Room (s : State) (excluded : List Nat) (ls : List Nat) : Prop where
  placed : s.pool.placed = true
  room : ls.length ≤ s.availableSlots
  aside : ∀ i < s.pool.slots.length, (s.slotAt i).replaceable = true → i ∈ excluded →
    ∃ l ∈ ls, s.currentSlot l = some i

/-- A slot claimed for a WRITE. -/
theorem claim_fills {s : State} {excluded ls : List Nat} {l k : Nat} (c : Channel) (id : Nat)
    (hr : Room s excluded (l :: ls)) (hn : l ∉ ls) (hk : k < s.pool.slots.length)
    (hu : (s.slotAt k).usable = true) (hc : s.currentSlot l = none ∨ s.currentSlot l = some k) :
    let t := s.claimSlot k l .filling (.write id) (.channel c) (some id)
    Room t excluded ls ∧ Filled t c id k l ∧ t = { s with pool := t.pool } ∧
      t.pool.slotWait = s.pool.slotWait ∧ t.pool.slots.length = s.pool.slots.length ∧
      ∀ i m, Filled s c id i m → m ≠ l → Filled t c id i m := by
  intro t
  have hat : t.slotAt k = _ := claimSlot_at l .filling (.write id) (.channel c) (some id) hk
  have hot : ∀ j, j ≠ k → t.slotAt j = s.slotAt j := fun j hj => claimSlot_other l _ _ _ _ hj
  have hlen : t.pool.slots.length = s.pool.slots.length := List.length_set
  have hpl : t.pool.placed = true := claimSlot_placed s k l _ _ _ _ hk hc hr.placed
  have hcur : ∀ m i, m ≠ l → i ≠ k → s.currentSlot m = some i → t.currentSlot m = some i := by
    intro m i h1 h2 h3
    rw [currentSlot_iff hpl]
    have := (currentSlot_iff hr.placed m i).mp h3
    show (m, i) ∈ (State.mapSlot s l k).pool.directory
    unfold State.mapSlot
    simp only [List.mem_append, List.mem_filter, Bool.and_eq_true, bne_iff_ne, ne_eq]
    exact Or.inl ⟨this, h1, h2⟩
  refine ⟨⟨hpl, ?_, fun i hi h1 h2 => ?_⟩, ⟨Nat.lt_of_lt_of_eq hk hlen.symm, by rw [hat],
      by rw [hat],
    by rw [hat]; rfl, by rw [hat], by rw [hat], claimSlot_current ..⟩, rfl, rfl, hlen,
    fun i m hf hm => ?_⟩
  · have := availableSlots_setSlot (s := s.mapSlot l k) (i := k) { Slot.reset with
      state := .filling, lsn := some l, work := some (.write id), charged := .channel c,
      chargedFor := some id, stamp := (s.slotAt k).stamp } hk
    have e2 : ((s.mapSlot l k).slotAt k).usable = true := hu
    have e3 := hr.room
    have e4 : Slot.usable { Slot.reset with
      state := .filling, lsn := some l, work := some (.write id), charged := .channel c,
      chargedFor := some id, stamp := (s.slotAt k).stamp } = false := rfl
    rw [e2, e4] at this
    have e5 : t.availableSlots + 1 = s.availableSlots + 0 := this
    rw [List.length_cons] at e3
    omega
  · have hik : i ≠ k := by
      rintro rfl
      rw [hat] at h1
      cases h1
    rw [hot i hik] at h1
    obtain ⟨m, hm, h3⟩ := hr.aside i (by rw [← hlen]; exact hi) h1 h2
    rcases List.mem_cons.mp hm with rfl | hm
    · rcases hc with hc | hc
      · rw [hc] at h3; cases h3
      · rw [hc] at h3; exact absurd (Option.some.inj h3).symm hik
    · exact ⟨m, hm, hcur m i (fun e => hn (by rw [← e]; exact hm)) hik h3⟩
  · have hik : i ≠ k := by
      rintro rfl
      have h1 := hf.state
      unfold Slot.usable Slot.replaceable at hu
      rw [h1] at hu
      cases hu
    have hs := hot i hik
    exact ⟨by rw [hlen]; exact hf.lt, by rw [hs]; exact hf.state, by rw [hs]; exact hf.lsn,
      by rw [hs]; exact hf.fresh, by rw [hs]; exact hf.work, by rw [hs]; exact hf.charged,
      hcur m i hm hik hf.current⟩

/-- With room left there is a slot for the next sector. -/
theorem room_chooses {s : State} {excluded ls : List Nat} {l : Nat} (hr : Room s excluded (l :: ls))
    (hc : s.currentSlot l = none) : ∃ k, s.chooseSlot excluded = some k := by
  cases h : s.chooseSlot excluded with
  | some k => exact ⟨k, rfl⟩
  | none =>
    have hff : s.firstFree = none := by
      unfold State.chooseSlot at h
      split at h
      · cases h
      · assumption
    have hoc : s.oldestClean excluded = none := by
      unfold State.chooseSlot at h
      rw [hff] at h
      exact h
    have hle : s.availableSlots ≤ (ls.filterMap s.currentSlot).length := by
      refine availableSlots_le (fun i hi hu => ?_)
      have hnf := (firstFree_iff_none s).mp hff i hi
      have hre : (s.slotAt i).replaceable = true := by
        unfold Slot.usable at hu
        simp only [Bool.or_eq_true, beq_iff_eq] at hu
        exact hu.resolve_left hnf
      have hex : i ∈ excluded := oldestClean_none hoc i hi hre
      obtain ⟨m, hm, h3⟩ := hr.aside i hi hre hex
      rcases List.mem_cons.mp hm with rfl | hm
      · rw [hc] at h3; cases h3
      · exact List.mem_filterMap.mpr ⟨m, hm, h3⟩
    have h1 := List.length_filterMap_le s.currentSlot ls
    have h2 := hr.room
    rw [List.length_cons] at h2
    omega

/-- The current slot of a sector made stale leaves the room. -/
theorem makeStale_room {s : State} {excluded ls : List Nat} {l j : Nat} (c : Channel) (id : Nat)
    (hr : Room s excluded (l :: ls)) (hj : s.currentSlot l = some j)
    (hp : (s.slotAt j).replaceable = false) :
    Room (s.makeStale j) excluded (l :: ls) ∧ (s.makeStale j).currentSlot l = none ∧
      (s.makeStale j) = { s with pool := (s.makeStale j).pool } ∧
      (s.makeStale j).pool.slotWait = s.pool.slotWait ∧
      (s.makeStale j).pool.slots.length = s.pool.slots.length ∧
      ∀ i m, Filled s c id i m → m ≠ l → Filled (s.makeStale j) c id i m := by
  have hlt := (current_slot hr.placed hj).1
  have hpo := makeStale_only (H := True) s j
  have hpl := hpo.placed hr.placed
  obtain ⟨hot, hdir, hst⟩ := makeStale_spec hlt
  have hcur : ∀ m i, i ≠ j → s.currentSlot m = some i → (s.makeStale j).currentSlot m = some i := by
    intro m i h1 h2
    rw [currentSlot_iff hpl, hdir, List.mem_filter]
    exact ⟨currentSlot_some h2, by simpa using h1⟩
  have hnone : (s.makeStale j).currentSlot l = none := by
    cases hc : (s.makeStale j).currentSlot l with
    | none => rfl
    | some k =>
      have := currentSlot_some hc
      rw [hdir, List.mem_filter] at this
      have h2 := (currentSlot_iff hr.placed l k).mpr this.1
      rw [hj] at h2
      cases h2
      simp at this
  refine ⟨⟨hpl, ?_, fun i hi h1 h2 => ?_⟩, hnone, hpo.rest, ?_, hpo.sized, fun i m hf hm => ?_⟩
  · refine Nat.le_trans hr.room ?_
    have e : (s.makeStale j).availableSlots =
        (s.setSlot j ((s.makeStale j).slotAt j)).availableSlots := by
      have : (s.makeStale j).pool.slots = (s.setSlot j ((s.makeStale j).slotAt j)).pool.slots := by
        refine List.ext_getElem ?_ (fun i h1 h2 => ?_)
        · rw [hpo.sized]; exact List.length_set.symm
        · rw [← slotAt_getElem h1, ← slotAt_getElem h2]
          by_cases hi : i = j
          · rw [hi, slotAt_setSlot_self _ hlt]
          · rw [hot i hi, slotAt_setSlot_other _ hi]
      unfold State.availableSlots
      rw [this]
    have h1 := availableSlots_setSlot ((s.makeStale j).slotAt j) hlt
    have h2 : bitOf (s.slotAt j).usable ≤ bitOf ((s.makeStale j).slotAt j).usable := by
      rcases hst with h | h
      · rw [h]
        exact Nat.le_trans (show bitOf (s.slotAt j).usable ≤ 1 by unfold bitOf; split <;> omega)
          (Nat.le_refl 1)
      · unfold Slot.usable
        rw [hp, h.1, Bool.or_false]
        unfold bitOf
        split <;> simp_all
    rw [e]
    omega
  · have hij : i ≠ j := by
      rintro rfl
      rcases hst with h | h
      · rw [h] at h1; cases h1
      · unfold Slot.replaceable at h1
        rw [h.2] at h1
        simp at h1
    rw [hot i hij] at h1
    obtain ⟨m, hm, h3⟩ := hr.aside i (by rw [← hpo.sized]; exact hi) h1 h2
    exact ⟨m, hm, hcur m i hij h3⟩
  · unfold State.makeStale State.tidySlot
    dsimp only
    split <;> rfl
  · have hij : i ≠ j := current_other hr.placed hf.current hj hm
    have hs := hot i hij
    exact ⟨by rw [hpo.sized]; exact hf.lt, by rw [hs]; exact hf.state, by rw [hs]; exact hf.lsn,
      by rw [hs]; exact hf.fresh, by rw [hs]; exact hf.work, by rw [hs]; exact hf.charged,
      hcur m i hij hf.current⟩

/-- The slots a WRITE takes: one for each of its sectors, FILLING for it (R69). -/
theorem takeWriteSlots_fills (c : Channel) (id : Nat) (excluded : List Nat) (xs : List WorkSector)
    (s : State) (hr : Room s excluded (xs.map (fun x => x.lsn)))
    (hn : (xs.map (fun x => x.lsn)).Nodup) :
    let t := s.takeWriteSlots c id excluded xs
    t.1 = { s with pool := t.1.pool } ∧ t.1.pool.slotWait = s.pool.slotWait ∧
      t.2.map (fun x => { x with slot := none }) = xs.map (fun x => { x with slot := none }) ∧
      (∀ x ∈ t.2, ∃ i, x.slot = some i ∧ Filled t.1 c id i x.lsn) ∧
      (∀ i m, Filled s c id i m → m ∉ xs.map (fun x => x.lsn) → Filled t.1 c id i m) := by
  induction xs generalizing s with
  | nil => exact ⟨rfl, rfl, rfl, fun x h => (List.not_mem_nil h).elim, fun _ _ h _ => h⟩
  | cons x xs ih =>
    rw [List.map_cons] at hr hn
    rw [List.nodup_cons] at hn
    have step : ∃ k u, s.takeWriteSlot c id x.lsn excluded = (u, some k) ∧
        Room u excluded (xs.map (fun x => x.lsn)) ∧ Filled u c id k x.lsn ∧
        u = { s with pool := u.pool } ∧ u.pool.slotWait = s.pool.slotWait ∧
        ∀ i m, Filled s c id i m → m ≠ x.lsn → Filled u c id i m := by
      have fresh : ∀ t : State, Room t excluded (x.lsn :: xs.map (fun x => x.lsn)) →
          t.currentSlot x.lsn = none → ∃ k u, t.newFillSlot c id x.lsn excluded = (u, some k) ∧
            Room u excluded (xs.map (fun x => x.lsn)) ∧ Filled u c id k x.lsn ∧
            u = { t with pool := u.pool } ∧ u.pool.slotWait = t.pool.slotWait ∧
            ∀ i m, Filled t c id i m → m ≠ x.lsn → Filled u c id i m := by
        intro t ht hc
        obtain ⟨k, hk⟩ := room_chooses ht hc
        have hlt := chooseSlot_lt hk
        have hu : (t.slotAt k).usable = true := by
          unfold Slot.usable
          rcases ((chooseSlot_iff t excluded k).mp hk).2 with h | h
          · rw [h.1]; rfl
          · rw [h.2.1]; exact Bool.or_true _
        obtain ⟨h1, h2, h3, h4, h5, h6⟩ := claim_fills c id ht hn.1 hlt hu (Or.inl hc)
        refine ⟨k, _, ?_, h1, h2, h3, h4, h6⟩
        unfold State.newFillSlot
        rw [hk]
      unfold State.takeWriteSlot
      cases hc : s.currentSlot x.lsn with
      | none => exact fresh s hr hc
      | some i =>
        dsimp only
        cases hrep : (s.slotAt i).replaceable with
        | true =>
          have hu : (s.slotAt i).usable = true := by
            unfold Slot.usable
            rw [hrep]; exact Bool.or_true _
          obtain ⟨h1, h2, h3, h4, h5, h6⟩ := claim_fills c id hr hn.1
              (current_slot hr.placed hc).1 hu (Or.inr hc)
          exact ⟨i, _, rfl, h1, h2, h3, h4, h6⟩
        | false =>
          obtain ⟨h1, h2, h3, h4, h5, h6⟩ := makeStale_room c id hr hc hrep
          obtain ⟨k, u, g1, g2, g3, g4, g5, g6⟩ := fresh _ h1 h2
          refine ⟨k, u, g1, g2, g3, ?_, g5.trans h4, fun i m hf hm => g6 i m (h6 i m hf hm) hm⟩
          rw [g4, h3]
    obtain ⟨k, u, e, h1, h2, h3, h4, h5⟩ := step
    obtain ⟨g1, g2, g3, g4, g5⟩ := ih u h1 hn.2
    have et : s.takeWriteSlots c id excluded (x :: xs) =
        ((u.takeWriteSlots c id excluded xs).1,
          { x with slot := some k } :: (u.takeWriteSlots c id excluded xs).2) := by
      rw [State.takeWriteSlots, e]
    rw [et]
    refine ⟨?_, g2.trans h4, ?_, fun y hy => ?_, fun i m hf hm => ?_⟩
    · show (u.takeWriteSlots c id excluded xs).1 = _
      rw [g1, h3]
    · rw [List.map_cons, g3, List.map_cons]
    · rcases List.mem_cons.mp hy with rfl | hy
      · exact ⟨k, rfl, g5 k x.lsn h2 hn.1⟩
      · exact g4 y hy
    · rw [List.map_cons, List.mem_cons, not_or] at hm
      exact g5 i m (h5 i m hf hm.1) hm.2

/-- A WRITE that is served, where there is room for its slots (R69, R179). -/
theorem serveWrite_spec (s : State) (c : Channel) (w : WriteWork) (r : Request)
    (hp : s.pool.placed = true)
    (hf : s.findWork w.id = some w) (ho : w.owner = some c)
    (hn : (w.sectors.map (fun x => x.lsn)).Nodup) (hr : s.findReq c w.id = some r)
    (hroom : w.sectors.length ≤ s.availableSlots) :
    ∃ (v : WriteWork),
      (s.serveWrite c w).findWork w.id = some v ∧
      v = { w with phase := .filling, sectors := v.sectors } ∧
      v.sectors.map (fun x => { x with slot := none }) =
        w.sectors.map (fun x => { x with slot := none }) ∧
      (∀ x ∈ v.sectors, ∃ i, x.slot = some i ∧ Filled (s.serveWrite c w) c w.id i x.lsn) ∧
      s.serveWrite c w = { s with
        ports := s.ports.modify c (fun p => { p with transfers :=
            p.transfers ++ [{ request := w.id, tag := r.tag, dir := .inward, length :=
                r.count * 1024, moved := 0, record := [] }] }),
        requests := s.requests.modify c (fun rs => rs.map
            (fun q => if q.id == w.id then { q with state := .filling } else q)),
        pool := (s.serveWrite c w).pool,
        works := s.works.map (fun x => if x.id == w.id then { x with phase := .filling, sectors :=
            v.sectors } else x) } ∧
      (s.serveWrite c w).pool.slotWait = s.pool.slotWait := by
  have room : Room s (s.takeoverSlots (w.sectors.map (fun x => x.lsn))) (w.sectors.map
      (fun x => x.lsn)) := by
    refine ⟨hp, by simpa using hroom, fun i _ _ hm => ?_⟩
    unfold State.takeoverSlots at hm
    simp only [List.mem_filter, List.mem_filterMap] at hm
    exact hm.1
  obtain ⟨h1, h2, h3, h4, h5⟩ := takeWriteSlots_fills c w.id _ w.sectors s room hn
  generalize hx : s.takeoverSlots (w.sectors.map (fun x => x.lsn)) = ex at *
  have hq : (((s.takeWriteSlots c w.id ex w.sectors).1.updWork w.id
      (fun v => { v with sectors :=
          (s.takeWriteSlots c w.id ex w.sectors).2 })).setPhase w .filling .filling).findReq c w.id =
      some { r with state := .filling } := by
    unfold State.setPhase
    rw [ho]
    dsimp only
    rw [findReq_updReq]
    · have : (((s.takeWriteSlots c w.id ex w.sectors).1.updWork w.id
      (fun v => { v with sectors := (s.takeWriteSlots c w.id ex w.sectors).2 })).updWork w.id
          (fun w => { w with phase := .filling })).findReq c w.id = s.findReq c w.id := by
        unfold State.findReq State.reqs State.updWork
        rw [h1]
      rw [this, hr]; rfl
    · exact fun _ => rfl
  have e : s.serveWrite c w = ((((s.takeWriteSlots c w.id ex w.sectors).1.updWork w.id
      (fun v => { v with sectors :=
          (s.takeWriteSlots c w.id ex w.sectors).2 })).setPhase w .filling .filling).joinTransfer c
      { request := w.id, tag := r.tag, dir := .inward, length := r.count * sectorBytes, moved := 0,
        record := [] }) := by
    unfold State.serveWrite
    dsimp only
    rw [hx, hq]
  have hfw : (s.serveWrite c w).findWork w.id = some { w with phase := .filling, sectors :=
      (s.takeWriteSlots c w.id ex w.sectors).2 } := by
    rw [e]
    unfold State.setPhase
    rw [ho]
    show State.findWork (State.updWork (State.updWork _ _ _) _ _) _ = _
    rw [findWork_updWork, findWork_updWork]
    · have : (s.takeWriteSlots c w.id ex w.sectors).1.findWork w.id = some w := by
        rw [← hf]; unfold State.findWork; rw [h1]
      rw [this, ← ho]; rfl
    · exact fun _ => rfl
    · exact fun _ => rfl
  have hpool : (s.serveWrite c w).pool = (s.takeWriteSlots c w.id ex w.sectors).1.pool := by
    rw [e]
    unfold State.setPhase
    rw [ho]
    rfl
  have hfill : ∀ i m, Filled (s.takeWriteSlots c w.id ex w.sectors).1 c w.id i m → Filled
      (s.serveWrite c w) c w.id i m := by
    intro i m h
    have hs : (s.serveWrite c w).slotAt i = (s.takeWriteSlots c w.id ex w.sectors).1.slotAt i := by
      unfold State.slotAt; rw [hpool]
    exact ⟨by rw [hpool]; exact h.lt, by rw [hs]; exact h.state, by rw [hs]; exact h.lsn,
        by rw [hs]; exact h.fresh,
      by rw [hs]; exact h.work, by rw [hs]; exact h.charged,
          by unfold State.currentSlot; rw [hpool]; exact h.current⟩
  refine ⟨_, hfw, rfl, h3, fun x hx => ?_, ?_, by rw [hpool]; exact h2⟩
  · obtain ⟨i, h6, h7⟩ := h4 x hx
    exact ⟨i, h6, hfill i _ h7⟩
  · rw [hpool, e]
    unfold State.setPhase
    rw [ho]
    dsimp only
    have hw : ((s.takeWriteSlots c w.id ex w.sectors).1.works.map
        (fun v => if v.id == w.id then { v with sectors :=
            (s.takeWriteSlots c w.id ex w.sectors).2 } else v)).map
                (fun v => if v.id == w.id then { v with phase :=
                    WorkPhase.filling } else v) = s.works.map
                        (fun x => if x.id == w.id then { x with phase := .filling, sectors :=
                            (s.takeWriteSlots c w.id ex w.sectors).2 } else x) := by
      have : (s.takeWriteSlots c w.id ex w.sectors).1.works = s.works := by rw [h1]
      rw [this, List.map_map]
      refine List.map_congr_left (fun v _ => ?_)
      simp only [Function.comp]
      by_cases hv : v.id = w.id <;> simp [hv]
    unfold State.joinTransfer State.updPort State.updReq State.updWork
    dsimp only
    rw [hw]
    rw [h1]

end Sys2Proof.Machine
end

