-- ==== Sys2Proof/Tests/Slice0.lean ====
section
/-! SUPPORT. The model's own tests: which commands are well formed, what a command does on a small
state, and for every statement of the certificate a state and operands that meet its hypotheses
together. -/

set_option Elab.async false

namespace Sys2Proof.Tests

open Sys2Proof.Machine

/-! ### Small states -/

/-- The state a command leaves, or the state it found where it answers none. -/
def after (i : Instr) (s : State) : State :=
  match exec i s with
  | .next t => t
  | .fault _ => s
  | .refused _ => s

/-- The command answers a next state. -/
def completes (i : Instr) (s : State) : Bool :=
  match exec i s with
  | .next _ => true
  | .fault _ => false
  | .refused _ => false

/-- A link that holds no command. -/
def idleLink : Link := { Link.reset with nextNumber := 7, lastEvent := some 3 }

/-- A link that awaits the response to a command with number 6. -/
def busyLink (cmd : LinkCommand) (who : Sender) (left tries : Nat) : Link :=
  { idleLink with
    state := .awaitingResponse
    outstanding := some { number := 6, command := cmd, sender := who }
    remaining := some left
    retryCount := some tries }

/-- A band of 162 data positions and 18 spares: 18 sectors a track from track 16. -/
def band0 : BandRecord :=
  { firstTrack := 16, trackCount := 10, sectorsPerTrack := 18, spareTracks := 1 }

/-- A cartridge state with one band mounted, nothing outstanding and the link IDLE. -/
def inState (st : CartridgeState) : State :=
  { State.resetValues with
    dm := { DefectManager.reset with bands := [band0] }
    link := idleLink
    ctl := { Controller.reset with state := st, startupReport := false }
    nextId := 1 }

/-- READY with nothing outstanding. -/
def ready : State := inState .ready

/-- A request of Port A with acceptance number 0 and tag 9. -/
def request (k : RequestKind) (st : RequestState) : Request :=
  { id := 0, tag := 9, kind := k, lsn := 5, count := 1, sequential := false, deadline := none,
    state := st, sectorsDone := 0, worstLoad := none, firstFailing := none, result := none,
    late := false, corrected := false, rescueQueued := false, reassigned := false, short := false,
    abortMark := false, reservationId := none, started := false, sectors := [],
    readAheadPassed := false, served := false }

/-- A state with one request outstanding in Channel A. -/
def holding (s : State) (r : Request) : State := { s with requests := { a := [r], b := [] } }

/-- The transfer of request 0. -/
def transfer (d : Direction) (length moved : Nat) (record : List Byte) : Transfer :=
  { request := 0, tag := 9, dir := d, length := length, moved := moved, record := record }

/-- A state with one transfer of request 0 at Port A. -/
def moving (s : State) (t : Transfer) (idle : Nat) : State :=
  s.updPort .A (fun p => { p with transfers := [t], idle := some idle })

/-- A READ of LSN 5 that is being delivered from slot 0. -/
def readFrom0 (moved : Nat) : Request :=
  { request .read .delivering with
    sectors := [{ st := .bound 0, load := some 2 }], started := decide (0 < moved) }

/-- That READ, with slot 0 CLEAN, at byte `moved` of its transfer. -/
def delivering (moved idle : Nat) : State :=
  let t := moving (holding ready (readFrom0 moved)) (transfer .outward 1024 moved []) idle
  (t.setSlot 0 { Slot.reset with
    state := .clean, lsn := some 5, bindings := [{ ch := .A, id := 0, waiting := false }],
    content := [(0, 0x55), (1023, 0x77)] }).mapSlot 5 0

/-- A STATUS at Port A whose two-byte record is at byte `moved`. -/
def reporting (moved : Nat) : State :=
  moving (holding ready (request .status .delivering)) (transfer .outward 2 moved [0x12, 0x34]) 40

/-- One LSN of write work, in a slot or not. -/
def workSector (slot : Option Nat) : WorkSector :=
  { lsn := 5, slot := slot, result := none, covered := false, dropped := false, spares := 0 }

/-- The write work of request 0 over LSN 5. -/
def work (p : WorkPhase) (slot : Option Nat) : WriteWork :=
  { id := 0, kind := .write, owner := some .A, phase := p, sectors := [workSector slot],
    followUps := [], worstLoad := none, fetchLoad := none, reassigned := false, abortMark := false,
    eraseOnly := false }

/-- A WRITE of LSN 5 in its fill, at byte `moved`, its slot being slot 3. -/
def filling (moved idle : Nat) : State :=
  let s := holding ready (request .write .filling)
  let t := moving { s with works := [work .filling (some 3)] } (transfer .inward 1024 moved []) idle
  (t.setSlot 3 { Slot.reset with
    state := .filling, lsn := some 5, work := some (.write 0), holdCount := 1,
    charged := .channel .A, chargedFor := some 0 }).mapSlot 5 3

/-- The run of LSN 5. -/
def run5 : Run := { track := 16, sectors := [{ sector := 5, lsn := some 5 }], serial := 0 }

/-- READY with the run of LSN 5 open at a pass, for the write work of request 0 in slot 3. -/
def writing (p : Pass) : State :=
  let s := holding ready (request .write .active)
  let t := { s with
    works := [{ work .runs (some 3) with sectors := [{ workSector (some 3) with covered := true }] }]
    sched := { Scheduler.reset with
      openRun := some { run := run5, work := .write 0, pass := p, insertions := 0,
                        eraseOnly := false } } }
  (t.setSlot 3 { Slot.reset with
    state := .writing, lsn := some 5, work := some (.write 0), holdCount := 1,
    charged := .channel .A, chargedFor := some 0, stage := some .queued,
    content := [(0, 0x55)] }).mapSlot 5 3

/-- The same with the pass in flight. -/
def passing (k : OperationKind) (p : Pass) (cmd : LinkCommand) : State :=
  { writing p with
    engine := some { kind := k, work := .write 0, run := run5, reread := none, outcomes := [] }
    link := busyLink cmd .mediaEngine 40 0 }

/-- A sector frame of LSN 5's place. -/
def frame5 : SectorFrame :=
  { erasedPattern := false, track := 16, sector := 5, errors0 := 0, errors1 := 0, errors2 := 0,
    errors3 := 0, data := [(0, 0x55)] }

/-- READY with a READ SECTORS of the sectors of LSN 5 outstanding. -/
def reading (left tries : Nat) : State :=
  { ready with link := busyLink (.readSectors 16 [5]) .mediaEngine left tries }

/-- A reservation of Channel A over LSNs 0 to 3. -/
def reserved : Reservation := { id := 1, owner := .A, first := 0, count := 4, mode := .exclusive }

/-- The state record of a drive that holds a cartridge, at speed. -/
def atSpeed : StateRecord :=
  { mediaPresent := true, writeProtected := false, spindle := .stable, faultPresent := false }

/-- The state record of a drive that holds none. -/
def noMedia : StateRecord :=
  { mediaPresent := false, writeProtected := false, spindle := .stopped, faultPresent := false }

/-- Port A's outbox holds n blocks. -/
def withOutbox (n : Nat) (s : State) : State :=
  s.updPort .A (fun p => { p with outbox := List.replicate n (noticeBlock .readOnly 0) })

/-- Eight reservations of Channel A, one LSN each. -/
def fullTable : List Reservation :=
  (List.range 8).map (fun i => { id := i + 1, owner := .A, first := i, count := 1, mode := .shared })

/-! ### Which commands are well formed -/

theorem test_channelReset_needs_bit7 :
    (Instr.channelReset .A 0x80).wf = true ∧ (Instr.channelReset .A 0x01).wf = false := by decide

theorem test_clearOverrun_needs_bit0_alone :
    (Instr.clearOverrun .B 0x01).wf = true ∧ (Instr.clearOverrun .B 0x81).wf = false ∧
      (Instr.clearOverrun .B 0x02).wf = false := by decide

theorem test_unknownRequest_needs_an_unknown_kind :
    (Instr.unknownRequest .A 0x99 1 []).wf = true ∧
      (Instr.unknownRequest .A 0x01 1 []).wf = false := by decide

theorem test_unknownRequest_has_at_most_255_bytes :
    (Instr.unknownRequest .A 0x99 1 (List.replicate 255 0)).wf = true ∧
      (Instr.unknownRequest .A 0x99 1 (List.replicate 256 0)).wf = false := by decide +kernel

theorem test_response_record_agrees :
    (Instr.response 1 (.done atSpeed)).wf = true ∧
      (Instr.response 1 (.done { noMedia with writeProtected := true })).wf = false := by decide

theorem test_mechDataFrame_has_a_place :
    (Instr.mechDataFrame 1 39 frame5).wf = true ∧ (Instr.mechDataFrame 1 40 frame5).wf = false ∧
      (Instr.mechDataFrame 1 5 { frame5 with track := 65536 }).wf = false ∧
      (Instr.mechDataFrame 1 5 { frame5 with sector := 40 }).wf = false := by decide

theorem test_mechDataFrame_data_is_a_buffer :
    (Instr.mechDataFrame 1 5 { frame5 with data := [(3, 1), (1, 2)] }).wf = false ∧
      (Instr.mechDataFrame 1 5 { frame5 with data := [(3, 0)] }).wf = false ∧
      (Instr.mechDataFrame 1 5 { frame5 with data := [(1024, 1)] }).wf = false := by decide

theorem test_the_table_spells_no_command : decodeTableWord 8 0x01 = none := by decide

/-! ### What a command does (one step on a small state) -/

theorem test_reset_awaits_the_startup_report :
    State.reset.link.outstanding =
      some { number := 0, command := .reportState, sender := .cartridgeController } ∧
      after .externalReset ready = State.reset := by decide +kernel

theorem test_channelReset_empties_its_list :
    (after (.channelReset .A 0x80) (delivering 1 5)).reqs .A = [] ∧
      ((after (.channelReset .A 0x80) (delivering 1 5)).slotAt 0).bindings = [] := by
  decide +kernel

theorem test_clearOverrun : ((after (.clearOverrun .A 1) (ready.setOverrun .A)).port .A).overrun = false := by
  decide +kernel

theorem test_registerWrite_joins :
    ((after (.registerWrite .A .request 0x30) ready).port .A).partialBlock = some [0x30] ∧
      ((after (.registerWrite .A .transfer 0x30) ready).port .A).overrun = true := by decide +kernel

theorem test_completionRead_returns_the_tag :
    ((after (.completionRead .A) (ready.postBlock .A (noticeBlock .readOnly 0))).port .A).headRead = 1 ∧
      ((after (.completionRead .A) ready).port .A).overrun = true := by decide +kernel

theorem test_dataRead_returns_bytes :
    ((after (.dataRead .A) (delivering 0 5)).port .A).busOut = 0x55 ∧
      ((after (.dataRead .A) (delivering 1 5)).port .A).busOut = 0 := by decide +kernel

theorem test_dataRead_last_byte_completes :
    ((after (.dataRead .A) (delivering 1023 5)).port .A).busOut = 0x77 ∧
      ((after (.dataRead .A) (delivering 1023 5)).port .A).outbox =
        [{ tag := 9, kind := 0x01, status := 0x00, flags := 0x02, result := 1, load := 2,
           lsn := 0xFFFFFF, time := 0 }] := by decide +kernel

theorem test_dataWrite_stores :
    ((after (.dataWrite .A 0xAB) (filling 4 5)).slotAt 3).content = [(4, 0xAB)] ∧
      ((after (.dataWrite .A 0xAB) (filling 1023 5)).slotAt 3).state = .writing := by
  decide +kernel

theorem test_read_waits_for_its_fetch :
    ((after (.read .A 1 5 1 0 0) ready).reqs .A).map (fun r => r.state) = [.active] ∧
      ((after (.read .A 1 5 1 0 0) ready).slotAt 0).state = .fetching := by decide +kernel

theorem test_read_out_of_range :
    ((after (.read .A 1 162 1 0 0) ready).port .A).outbox.map (fun b => b.status) = [0x07] := by
  decide +kernel

theorem test_write_starts_its_fill :
    ((after (.write .B 1 5 2) ready).port .B).transfers.map (fun t => t.length) = [2048] := by
  decide +kernel

theorem test_reassign_fetches_its_sector :
    (after (.reassign .A 1 5) ready).works.map (fun w => w.phase) = [.dataStep] := by decide +kernel

theorem test_reserve_takes_id_1 :
    (after (.reserve .A 1 0 4 2) ready).reservations = [reserved] := by decide +kernel

theorem test_release_frees_its_entry :
    (after (.release .A 1 1) { ready with reservations := [reserved] }).reservations = [] := by
  decide +kernel

theorem test_flushMap_of_a_clean_map :
    ((after (.flushMap .A 1) ready).port .A).outbox =
      [plainCompletion 1 0x20 0x00 0 0] := by decide +kernel

theorem test_eject_starts_the_unmount :
    (after (.eject .A 1) ready).ctl.state = .unmounting ∧
      (after (.eject .A 1) (inState .unreadable)).link.state = .awaitingResponse := by decide +kernel

theorem test_mount_spins_up :
    (after (.mount .A 1) (inState .unreadable)).ctl.state = .spinning := by decide +kernel

theorem test_status_and_reportMap_have_records :
    ((after (.status .A 1 0) ready).port .A).transfers.length = 1 ∧
      ((after (.reportMap .A 1 0) ready).port .A).transfers.length = 1 := by decide +kernel

theorem test_setPolicy_clamps :
    (after (.setPolicy .A 1 9 0 9 9 9 2000 20000) ready).policy =
      { verifyLimit := 6, rescueThreshold := 7, readRetries := 7, mechRetries := 3,
        insertionLimit := 8, urgencyWindow := 1000, settleDelay := 10000 } := by decide +kernel

theorem test_setChannel_clamps :
    ((after (.setChannel .A 1 0 20000 20 2) ready).port .A).settings =
      { queueDepth := 1, idleLimit := 10000, readAheadWindow := 16, completionEnable := false,
        dataEnable := true } := by decide +kernel

theorem test_abort_ends_a_read :
    ((after (.abort .A 1 9) (delivering 0 5)).port .A).outbox.map (fun b => (b.tag, b.status)) =
      [(9, 0x0D), (1, 0x00)] := by decide +kernel

theorem test_unknownRequest_is_refused :
    ((after (.unknownRequest .A 0x99 1 [7]) ready).port .A).outbox.map (fun b => b.status) =
      [0x01] := by decide +kernel

theorem test_pendingNoticePost :
    ((after (.pendingNoticePost .A)
      (ready.updPort .A (fun p => { p with pendingNotices := [.readOnly] }))).port .A).outbox =
        [noticeBlock .readOnly 0] := by decide +kernel

theorem test_headSchedulerChoice_sends_the_pass :
    (after .headSchedulerChoice (writing .erase)).link.outstanding =
      some { number := 7, command := .eraseSectors 16 [5], sender := .mediaEngine } ∧
      (after .headSchedulerChoice ready) = ready := by decide +kernel

theorem test_response_ends_the_erase_pass :
    (after (.response 6 (.done atSpeed))
      (passing .erasePass .erase (.eraseSectors 16 [5]))).sched.openRun.map (fun r => r.pass) =
        some .record := by decide +kernel

theorem test_mechDataFrame_is_kept :
    (after (.mechDataFrame 6 5 frame5) (reading 100 0)).link.received = [(5, frame5)] := by
  decide +kernel

theorem test_damagedFrame_reissues :
    (after .damagedFrame (reading 100 0)).link.retryCount = some 1 ∧
      (after .damagedFrame (reading 100 2)).ctl.state = .faulted := by decide +kernel

theorem test_commandTimeout_needs_the_limit :
    (after .commandTimeout (reading 0 0)).link.lastFailure = some .timeout ∧
      after .commandTimeout (reading 1 0) = reading 1 0 := by decide +kernel

theorem test_mediaIn_spins_up :
    (after (.mediaIn 4 true) (inState .empty)).ctl.writeProtect = true ∧
      (after (.mediaIn 4 true) (inState .empty)).ctl.state = .spinning := by decide +kernel

theorem test_mediaOut_fails_what_waits :
    ((after (.mediaOut 4) (delivering 0 5)).port .A).outbox.map (fun b => b.tag) = [9, 0] ∧
      (after (.mediaOut 4) (delivering 0 5)).ctl.state = .empty := by decide +kernel

theorem test_button_by_reservation :
    (after (.button 4) ready).ctl.state = .unmounting ∧
      (after (.button 4) { ready with reservations := [reserved] }).ctl.state = .ready := by
  decide +kernel

theorem test_mechFault_faults :
    (after (.mechFault 4) ready).ctl.state = .faulted ∧
      (after (.mechFault 4) (inState .empty)).ctl.state = .empty := by decide +kernel

theorem test_deadlineExpiry :
    ((after (.deadlineExpiry .A 9) (holding ready { request .read .active with
      deadline := some 0, sectors := [{ st := .bound 0, load := none }] })).port .A).outbox.map
        (fun b => b.status) = [0x0E] := by decide +kernel

theorem test_dataTimeout :
    ((after (.dataTimeout .A) (filling 4 0)).port .A).outbox.map (fun b => b.status) = [0x0F] ∧
      (after (.dataTimeout .A) (filling 4 0)).works = [] := by decide +kernel

theorem test_settleDelayExpiry :
    (after .settleDelayExpiry { ready with dm := { ready.dm with settle := .running 0 } }).dm.settle =
      .reached := by decide +kernel

theorem test_unmountDrainEnd_of_a_clean_map :
    (after .unmountDrainEnd (inState .unmounting)).ctl.state = .ejecting := by decide +kernel

theorem test_timebaseTick :
    (after .timebaseTick (reading 100 0)).link.remaining = some 99 ∧
      (after .timebaseTick ready).timebase = 1 := by decide +kernel

/-! ### The hypotheses of the statements are met -/

theorem test_witness_StepRunsFrontCommand : ready.pending = [] := by decide

theorem test_witness_PortControl :
    ready.between = true ∧ (0x00 : Byte).getLsbD 7 = false ∧ (0x7F : Byte).getLsbD 7 = false ∧
      (0x80 : Byte).getLsbD 7 = true ∧ (0xFF : Byte).getLsbD 7 = true ∧
      (delivering 4 5).between = true := by decide +kernel

theorem test_witness_RegisterWrites :
    ready.between = true ∧ (withOutbox 16 ready).between = true ∧
      (withOutbox 16 ready).requestSpace .A = false ∧
      (withOutbox 15 ready).requestSpace .A = true ∧
      RequestBlock.ofBytes ((ready.port .A).partialBlock.getD [] ++ [0x20]) = none := by
  decide +kernel

theorem test_witness_RegisterWrites_last_byte :
    let s := ready.updPort .A (fun p => { p with partialBlock := some [0x20, 0] })
    (Instr.flushMap .A 1).wf = true ∧
      requestOf (.flushMap .A 1) = some (.A, bareBlock .flushMap 1) ∧ s.requestSpace .A = true ∧
      (s.port .A).partialBlock.getD [] ++ [1] = (bareBlock .flushMap 1).bytes := by decide +kernel

theorem test_witness_RequestBytesMakeUpTheirBlock :
    (statusBlock 1 0).params.length ≤ 255 ∧ (List.replicate 255 (0 : Byte)).length ≤ 255 ∧
      0 < (bareBlock .eject 1).bytes.length ∧ 2 < (bareBlock .eject 1).bytes.length := by
  decide +kernel

theorem test_witness_CompletionReads :
    let s := fun n => (withOutbox 1 ready).updPort .A (fun p => { p with headRead := n })
    (s 0).between = true ∧ (s 11).between = true ∧ (s 12).between = true ∧
      ((s 12).port .A).outbox = [noticeBlock .readOnly 0] ∧ ((s 11).port .A).headRead < 12 ∧
      ((s 12).port .A).headRead = 12 ∧ (ready.port .A).outbox = [] := by decide +kernel

theorem test_witness_DataReadReturnsNextByte_of_a_read (m : Nat) (h : m = 0 ∨ m = 1022) :
    (delivering m 5).between = true ∧
      (delivering m 5).currentTransfer .A = some (transfer .outward 1024 m []) ∧
      (delivering m 5).dataReady .A = true ∧
      (delivering m 5).findReq .A 0 = some (readFrom0 m) ∧ (m + 1) % 1024 ≠ 0 ∧
      (readFrom0 m).sectors[m / 1024]? = some { st := .bound 0, load := some 2 } := by
  rcases h with rfl | rfl <;> decide +kernel

theorem test_witness_DataReadReturnsNextByte_of_a_record (m : Nat) (h : m = 0 ∨ m = 1) :
    (reporting m).between = true ∧
      (reporting m).currentTransfer .A = some (transfer .outward 2 m [0x12, 0x34]) ∧
      (reporting m).dataReady .A = true ∧
      (reporting m).findReq .A 0 = some (request .status .delivering) ∧
      ((m = 0 ∧ m + 1 ≠ 2) ∨ m + 1 = 2) := by
  rcases h with rfl | rfl <;> decide +kernel

theorem test_witness_ReadsLastByteCompletes :
    (delivering 1023 5).between = true ∧
      (delivering 1023 5).currentTransfer .A = some (transfer .outward 1024 1023 []) ∧
      (delivering 1023 5).dataReady .A = true ∧
      (delivering 1023 5).findReq .A 0 = some (readFrom0 1023) ∧
      (1023 + 1) % 1024 = 0 ∧ 1023 / 1024 + 1 = (readFrom0 1023).count := by decide +kernel

theorem test_witness_DataWrite (m : Nat) (h : m = 0 ∨ m = 1022 ∨ m = 1023) :
    (filling m 5).between = true ∧
      (filling m 5).currentTransfer .A = some (transfer .inward 1024 m []) ∧
      (m + 1 < 1024 ∨ m + 1 = 1024) ∧
      (filling m 5).findWork 0 = some (work .filling (some 3)) ∧
      (work .filling (some 3)).fillSlot m = some 3 ∧ 3 < (filling m 5).pool.slots.length ∧
      (work .filling (some 3)).sectors = [workSector (some 3)] := by
  rcases h with rfl | rfl | rfl <;> decide +kernel

theorem test_witness_MisusedDataAccessSetsOverrun :
    ready.between = true ∧ ready.dataSide .A ≠ 1 ∧ ready.dataSide .A ≠ 2 ∧
      (filling 0 5).between = true ∧ (filling 0 5).dataSide .A ≠ 1 ∧
      (delivering 0 5).dataSide .A ≠ 2 ∧ ready.dataReady .A = false := by decide +kernel

theorem test_witness_BlocksTurnedAway :
    ready.between = true ∧ ready.requestSpace .A = true ∧
      ready.refusalStatus .A (readBlock 1 162 1 0 0) = some .outOfRange ∧
      requestOf (.read .A 1 162 1 0 0) = some (.A, readBlock 1 162 1 0 0) ∧
      (Instr.unknownRequest .A 0 0 []).wf = true ∧
      (withOutbox 16 ready).between = true ∧ (withOutbox 16 ready).requestSpace .A = false := by
  decide +kernel

theorem test_witness_ChecksAreMadeInOrder :
    ready.refusalStatus .A { kind := 0, tag := 0, params := [] } = some .unknownRequest ∧
      ready.refusalStatus .A (bareBlock .eject 0) = some .malformed ∧
      (delivering 0 5).refusalStatus .A (bareBlock .eject 9) = some .duplicateTag ∧
      (holding (ready.updPort .A (fun p => { p with settings :=
        { p.settings with queueDepth := 1 } })) (request .flushMap .queued)).refusalStatus .A
          (bareBlock .eject 1) = some .queueFull ∧
      (inState .empty).refusalStatus .A (bareBlock .eject 1) = some .noCartridge ∧
      (inState .spinning).refusalStatus .A (bareBlock .eject 1) = some .notReady ∧
      ready.refusalStatus .A (writeBlock 1 161 2) = some .outOfRange ∧
      ({ ready with ctl := { ready.ctl with readOnly := .writeProtected } } : State).refusalStatus
        .A (writeBlock 1 160 2) = some .writeProtected ∧
      ({ ready with reservations := [reserved] } : State).refusalStatus .B (writeBlock 1 3 1) =
        some .reserved ∧
      ({ ready with reservations := [reserved] } : State).refusalStatus .B (writeBlock 1 4 1) =
        none := by decide +kernel

theorem test_witness_CartridgeStatesAdmitKinds :
    ready.admits .A .read = true ∧ (inState .unreadable).admits .A .mount = true ∧
      (inState .faulted).admits .A .eject = true ∧ (inState .empty).admits .A .abort = true := by
  decide +kernel

theorem test_witness_ReservationCheck :
    RequestKind.status ≠ .write ∧ RequestKind.status ≠ .reassign ∧ RequestKind.status ≠ .read ∧
      RequestKind.status ≠ .reserve ∧ RequestKind.status ≠ .eject := by decide

theorem test_witness_ReadAccepted :
    (delivering 0 5).between = true ∧
      (delivering 0 5).accepts .A (readBlock 1 161 1 0 0) = true ∧
      (delivering 0 5).accepts .A (readBlock 1 146 16 65535 1) = true ∧
      ((delivering 0 5).slotAt 0).state ≠ .free ∧
      ((delivering 0 5).slotAt 0).replaceable = false := by decide +kernel

theorem test_witness_WriteAccepted :
    (filling 0 5).between = true ∧ (filling 0 5).worksOwned = true ∧
      (filling 0 5).pool.placed = true ∧
      (filling 0 5).accepts .A (writeBlock 1 146 16) = true ∧
      (filling 0 5).accepts .A (writeBlock 1 5 1) = true := by decide +kernel

theorem test_witness_ReassignAccepted :
    ready.between = true ∧ ready.worksOwned = true ∧
      ready.accepts .A (reassignBlock 1 161) = true := by decide +kernel

theorem test_witness_ReserveAccepted :
    ready.between = true ∧ ready.accepts .A (reserveBlock 1 161 1 1) = true ∧
      ready.accepts .A (reserveBlock 1 0 0xFFFFFF 2) = true ∧
      ({ ready with reservations := fullTable } : State).between = true ∧
      ({ ready with reservations := fullTable } : State).accepts .A (reserveBlock 1 0 1 1) = true ∧
      tableForm fullTable = true ∧ freeReservationId fullTable = none ∧ tableForm [] = true ∧
      freeReservationId [] = some 1 ∧ freeReservationId (fullTable.take 7) = some 8 := by
  decide +kernel

theorem test_witness_ReleaseAccepted :
    ({ ready with reservations := [reserved] } : State).between = true ∧
      ({ ready with reservations := [reserved] } : State).accepts .A (releaseBlock 1 1) = true ∧
      ({ ready with reservations := [reserved] } : State).accepts .B (releaseBlock 1 255) = true := by
  decide +kernel

theorem test_witness_FlushMapAccepted :
    ready.between = true ∧ ready.accepts .A (bareBlock .flushMap 1) = true ∧
      ({ ready with dm := { ready.dm with dirty := true } } : State).accepts .A
        (bareBlock .flushMap 1) = true := by decide +kernel

theorem test_witness_EjectAccepted (st : CartridgeState)
    (h : st = .ready ∨ st = .unmounting ∨ st = .unreadable ∨ st = .faulted) (r : Bool) :
    let s : State := { inState st with ctl := { (inState st).ctl with recovering := r } }
    s.between = true ∧ s.accepts .A (bareBlock .eject 1) = true ∧ s.ctl.state = st ∧
      s.ctl.unmountAnswer = none ∧ s.rescue = none ∧ s.ctl.recovering = r := by
  rcases h with rfl | rfl | rfl | rfl <;> cases r <;> decide +kernel

theorem test_witness_MountAccepted :
    (inState .unreadable).between = true ∧
      (inState .unreadable).accepts .A (bareBlock .mount 1) = true ∧
      (inState .faulted).between = true ∧
      (inState .faulted).accepts .B (bareBlock .mount 1) = true := by decide +kernel

theorem test_witness_RecordRequestsAccepted :
    ready.between = true ∧ ready.accepts .A (statusBlock 1 0) = true ∧
      ready.accepts .A (statusBlock 1 1) = true ∧ ready.accepts .A (reportMapBlock 1 0) = true := by
  decide +kernel

theorem test_witness_SetPolicyAccepted :
    ready.between = true ∧ ready.accepts .A (setPolicyBlock 1 0 0 0 0 0 0 0) = true ∧
      ready.accepts .A (setPolicyBlock 1 255 255 255 255 255 65535 65535) = true := by
  decide +kernel

theorem test_witness_SetChannelAccepted :
    ready.between = true ∧ ready.accepts .A (setChannelBlock 1 0 0 0 0) = true ∧
      ready.accepts .A (setChannelBlock 1 255 65535 255 255) = true := by decide +kernel

theorem test_witness_Aborts :
    ready.accepts .A (abortBlock 1 9) = true ∧ (∀ r ∈ ready.reqs .A, r.tag ≠ 9) ∧
      (holding ready (request .flushMap .queued)).between = true ∧
      (holding ready (request .flushMap .queued)).accepts .A (abortBlock 1 9) = true ∧
      ((holding ready (request .flushMap .queued)).reqs .A).filter (fun x => x.tag == 9) =
        [request .flushMap .queued] ∧
      (delivering 4 5).between = true ∧ (delivering 4 5).accepts .A (abortBlock 1 9) = true ∧
      ((delivering 4 5).reqs .A).filter (fun x => x.tag == 9) = [readFrom0 4] ∧
      (readFrom0 4).abortMark = false ∧ (readFrom0 4).kind = .read := by decide +kernel

theorem test_witness_PendingNoticesArePosted :
    let s := (withOutbox 15 ready).updPort .A (fun p => { p with
      pendingNotices := [.readOnly, .mapLost] })
    s.between = true ∧ (s.port .A).pendingNotices.Nodup ∧
      ([] : List Notice).Pairwise (fun a b => a.index < b.index) ∧
      [Notice.readOnly, .mapLost].Pairwise (fun a b => a.index < b.index) := by decide +kernel

/-- A READ of LSN 5 on the slot-wait list, with the LSN's slot FETCHING. -/
def waitingRead : State :=
  let s := holding ready { request .read .slotWait with
    sectors := [{ st := .waiting, load := none }] }
  let t := (s.setSlot 31 { Slot.reset with
    state := .fetching, lsn := some 5, work := some (.readAhead .A) }).mapSlot 5 31
  { t with pool := { t.pool with slotWait := [0] } }

theorem test_witness_WaitsEnd :
    waitingRead.between = true ∧ waitingRead.pool.slotWait = [0] ∧
      (waitingRead.reqs .A).map (fun r => (r.id, r.kind, r.lsn)) = [(0, .read, 5)] ∧
      waitingRead.currentSlot 5 = some 31 ∧ 31 < waitingRead.pool.slots.length ∧
      (waitingRead.slotAt 31).state = .fetching ∧ ready.pool.slotWait = [] := by decide +kernel

theorem test_witness_WaitsEnd_overlap :
    let s := { holding ready (request .write .overlapWait) with works := [work .overlapWait none] }
    s.between = true ∧ s.findWork 0 = some (work .overlapWait none) ∧
      s.heldBack (work .overlapWait none) = false ∧
      (∀ w ∈ ready.works, w.phase ≠ .overlapWait ∧ w.kind ≠ .rescue) := by decide +kernel

theorem test_witness_HeadSchedulerChoice_none :
    (passing .erasePass .erase (.eraseSectors 16 [5])).between = true ∧
      (passing .erasePass .erase (.eraseSectors 16 [5])).engine.isSome ∧
      (reading 5 0).between = true ∧ (reading 5 0).link.outstanding.isSome ∧
      (inState .empty).between = true ∧ (inState .mounting).between = true ∧
      (inState .mounting).ctl.indexWanted = none := by decide +kernel

theorem test_witness_HeadSchedulerChoice_next_pass (p : Pass) :
    (writing p).between = true ∧ (writing p).engine = none ∧ (writing p).link.outstanding = none ∧
      (writing p).ctl.state = .ready ∧
      (writing p).sched.openRun =
        some { run := run5, work := .write 0, pass := p, insertions := 0, eraseOnly := false } ∧
      (writing p).selectUrgent = none := by
  cases p <;> decide +kernel

theorem test_witness_HeadSchedulerChoice_index (track : Nat) (h : track = 0 ∨ track = 1) :
    let s : State := { inState .mounting with
      ctl := { (inState .mounting).ctl with indexWanted := some track } }
    s.between = true ∧ s.engine = none ∧ s.link.outstanding = none ∧ s.ctl.state = .mounting ∧
      s.ctl.indexWanted = some track := by
  rcases h with rfl | rfl <;> decide +kernel

theorem test_witness_CommandIsSent : ready.link.outstanding = none := by decide

theorem test_witness_DrainsEndAsksForTheMap (dirty : Bool) (w : ReadOnly) :
    let s : State := { inState .unmounting with
      dm := { (inState .unmounting).dm with dirty := dirty }
      ctl := { (inState .unmounting).ctl with readOnly := w } }
    s.between = true ∧ s.ctl.state = .unmounting ∧ s.ctl.unmountAnswer = none ∧
      s.ctl.unmountAsked = false ∧ s.draining = false := by
  cases dirty <;> cases w <;> decide +kernel

theorem test_witness_DataFrameIsReceived :
    (reading 5 0).between = true ∧
      (reading 5 0).link.outstanding =
        some { number := 6, command := .readSectors 16 [5], sender := .mediaEngine } ∧
      5 ∈ [5] ∧ (∀ e ∈ (reading 5 0).link.received, e.1 < 5) := by decide +kernel

theorem test_witness_FailedAnswers :
    (reading 0 1).between = true ∧ (reading 0 1).link.state = .awaitingResponse ∧
      (reading 0 1).link.outstanding =
        some { number := 6, command := .readSectors 16 [5], sender := .mediaEngine } ∧
      (reading 0 1).link.retryCount.getD 0 < (reading 0 1).policy.mechRetries ∧
      (reading 0 1).link.remaining = some 0 ∧ 4 ∉ [5] ∧
      (LinkCommand.readSectors 16 [5]).accepts (.refused .writeProtected) = false ∧
      (LinkCommand.readSectors 16 [5]).accepts (.refused .seekError) = true := by decide +kernel

theorem test_witness_LinkFaultEntersFaulted :
    (reading 0 2).between = true ∧ (reading 0 2).link.state = .awaitingResponse ∧
      (reading 0 2).link.outstanding =
        some { number := 6, command := .readSectors 16 [5], sender := .mediaEngine } ∧
      (reading 0 2).policy.mechRetries ≤ (reading 0 2).link.retryCount.getD 0 ∧
      (reading 0 2).ctl.recovering = false ∧ (reading 0 2).link.remaining = some 0 ∧
      (reading 0 2).reqs .A = [] := by decide +kernel

theorem test_witness_StartupReportEnds :
    State.reset.between = true ∧ State.reset.ctl.startupReport = true ∧
      State.reset.ctl.state = .empty ∧
      State.reset.link.outstanding =
        some { number := 0, command := .reportState, sender := .cartridgeController } ∧
      noMedia.faultPresent = false ∧ atSpeed.faultPresent = false := by decide +kernel

theorem test_witness_WritePassesEnd_erase :
    let s := passing .erasePass .erase (.eraseSectors 16 [5])
    s.between = true ∧
      s.link.outstanding =
        some { number := 6, command := .eraseSectors 16 [5], sender := .mediaEngine } ∧
      s.engine = some { kind := .erasePass, work := .write 0, run := run5, reread := none,
                        outcomes := [] } ∧
      s.sched.openRun = some { run := run5, work := .write 0, pass := .erase, insertions := 0,
                               eraseOnly := false } ∧ s.ctl.unmountAnswer = none := by
  decide +kernel

theorem test_witness_WritePassesEnd_record :
    let f : SentSector := { track := 16, sector := 5, data := [(0, 0x55)] }
    let s := passing .recordPass .record (.recordSectors 16 [f])
    s.between = true ∧
      s.link.outstanding =
        some { number := 6, command := .recordSectors 16 [f], sender := .mediaEngine } ∧
      s.engine = some { kind := .recordPass, work := .write 0, run := run5, reread := none,
                        outcomes := [] } ∧
      s.sched.openRun = some { run := run5, work := .write 0, pass := .record, insertions := 0,
                               eraseOnly := false } ∧ s.ctl.unmountAnswer = none := by
  decide +kernel

theorem test_witness_FramesWithoutEffect :
    ready.between = true ∧ ready.link.outstanding = none ∧ ready.link.state = .idle ∧
      (reading 1 0).between = true ∧ (reading 1 0).link.remaining ≠ some 0 ∧
      (reading 1 0).link.outstanding.map (fun o => o.number) = some 6 ∧ (6 : Byte) ≠ 5 ∧
      ready.link.lastEvent = some 3 := by decide +kernel

theorem test_witness_MediaInIsTaken :
    (inState .empty).between = true ∧ (inState .empty).link.lastEvent ≠ some 4 ∧
      (inState .empty).ctl.state = .empty ∧ ready.between = true ∧ ready.ctl.state ≠ .empty ∧
      State.reset.between = true ∧ State.reset.link.lastEvent ≠ some 4 := by decide +kernel

theorem test_witness_MediaOutEmptiesTheMachine :
    (inState .empty).between = true ∧ (inState .empty).link.law7 = true ∧
      (inState .empty).link.outstanding = none ∧ (delivering 0 5).between = true ∧
      (delivering 0 5).link.law7 = true ∧ (delivering 0 5).link.lastEvent ≠ some 4 ∧
      (delivering 0 5).ctl.state ≠ .empty := by decide +kernel

theorem test_witness_ButtonActsByState (st : CartridgeState) :
    (inState st).between = true ∧ (inState st).link.lastEvent ≠ some 4 ∧
      (inState st).ctl.unmountAnswer = none ∧ (inState st).ctl.state = st ∧
      (inState st).reservations = [] ∧ (inState st).rescue = none ∧
      (inState st).ctl.recovering = false ∧
      ({ inState st with reservations := [reserved] } : State).between = true ∧
      ({ inState st with ctl := { (inState st).ctl with recovering := true } } : State).between =
        true := by
  cases st <;> decide +kernel

theorem test_witness_MechFaultEntersFaulted (st : CartridgeState) :
    (inState st).between = true ∧ (inState st).link.law7 = true ∧
      (inState st).link.lastEvent ≠ some 4 ∧ (inState st).ctl.recovering = false ∧
      (inState st).ctl.state = st ∧ (inState st).link.outstanding = none ∧
      (inState st).reqs .A = [] := by
  cases st <;> decide +kernel

/-- The READ being delivered, its deadline run down. -/
def expiring (started : Bool) : State :=
  { delivering 0 5 with
    requests := { a := [{ readFrom0 0 with deadline := some 0, started := started }], b := [] } }

theorem test_witness_DeadlineExpires (started : Bool) :
    (expiring started).between = true ∧
      (expiring started).reqByTag .A 9 =
        some { readFrom0 0 with deadline := some 0, started := started } ∧
      (delivering 0 5).reqByTag .A 9 = some (readFrom0 0) ∧ (readFrom0 0).deadline ≠ some 0 := by
  cases started <;> decide +kernel

theorem test_witness_DataIdleLimitExpires :
    (delivering 0 0).between = true ∧ ((delivering 0 0).port .A).idle = some 0 ∧
      (delivering 0 0).currentTransfer .A = some (transfer .outward 1024 0 []) ∧
      (delivering 0 0).findReq .A 0 = some (readFrom0 0) ∧
      (filling 4 0).between = true ∧ ((filling 4 0).port .A).idle = some 0 ∧
      (filling 4 0).currentTransfer .A = some (transfer .inward 1024 4 []) ∧
      (filling 4 0).findReq .A 0 = some (request .write .filling) ∧
      (filling 4 0).findWork 0 = some (work .filling (some 3)) ∧
      ready.currentTransfer .A = none ∧ ((delivering 0 1).port .A).idle ≠ some 0 := by
  decide +kernel

theorem test_witness_InterruptLine : (0x80 : Byte).getLsbD 7 = true := by decide

/-- A band whose data tracks hold no sector. -/
def emptyBand : BandRecord :=
  { firstTrack := 2, trackCount := 1, sectorsPerTrack := 18, spareTracks := 1 }

theorem test_witness_ValidLsnsHaveAPlace :
    let d := { DefectManager.reset with bands := [emptyBand, band0] }
    d.bandCapacity 0 = 0 ∧ d.capacity = 162 ∧ (d.home 0).isSome ∧ (d.translate 161).isSome ∧
      (d.translate 162).isNone := by decide +kernel

theorem test_witness_SlipWalk :
    [1, 3].Pairwise (fun x y => x < y) ∧ slipWalk [1, 3] 0 = 0 ∧ slipWalk [1, 3] 1 = 2 ∧
      slipWalk [1, 3] 2 = 4 ∧ ready.dm.home 161 = some { band := 0, pos := 161, spare := none } ∧
      ascending slipLt [(0, 1), (0, 3), (1, 0)] = true := by decide +kernel

theorem test_witness_RangeChecks :
    (readBlock 1 161 2 0 0).malformed .read = false ∧
      ready.rangePasses (readBlock 1 161 2 0 0) .read = false ∧
      ready.dm.capacity ≤ (readBlock 1 162 1 0 0).lsn ∧ (inState .empty).dm.capacity = 162 ∧
      State.reset.dm.capacity = 0 ∧ ready.reqByTag .A 1 = none ∧
      (ready.reqs .A).length < (ready.port .A).settings.queueDepth ∧
      ready.admits .A .read = true ∧
      (reassignBlock 1 162).malformed .reassign = false ∧
      ready.rangePasses (reassignBlock 1 162) .reassign = false ∧
      ready.rangePasses (reserveBlock 1 161 9 1) .reserve = true ∧
      ready.rangePasses (reserveBlock 1 162 9 1) .reserve = false ∧
      (reserveBlock 1 162 9 1).malformed .reserve = false ∧
      ready.rangePasses (reportMapBlock 1 1) .reportMap = false ∧
      (reportMapBlock 1 1).malformed .reportMap = false ∧ ready.admits .A .reportMap = true ∧
      ready.admits .A .reassign = true ∧ ready.admits .A .reserve = true := by decide +kernel

theorem test_witness_SparesAndReassignment :
    ready.dm.law8 = true ∧
      ascending (fun x y => keyLt x.key y.key) ready.dm.replacement = true ∧
      (match (ready.dm.translate 5).map (fun q => ready.dm.reassign 5 q 500) with
        | some (.done e) => e.replacement == [.moved 0 5 0]
        | _ => false) = true := by decide +kernel

theorem test_witness_StagedListReadsBack :
    let d := { ready.dm with replacement := [.moved 0 5 0, .retired 0 1] }
    d.listValid d.replacement = true ∧ d.replacement.length ≤ 1024 ∧
      (0 < 256 ∧ 5 < 2 ^ 24 ∧ 0 < 65536 ∧ 1 < 65536) ∧
      d.track1Verdict (d.stage.staging.map DecoderOutcome.clean) =
        some (d.generation + 1, d.replacement) := by decide +kernel

theorem test_witness_kept :
    State.reset.policy.inRange = true ∧ State.reset.settingsInRange = true ∧
      State.reset.law1 = true ∧ State.reset.law3 = true ∧ law10 State.reset.reservations = true ∧
      tableForm State.reset.reservations = true ∧ State.reset.link.law7 = true ∧
      State.reset.memoryWf = true ∧ State.reset.pool.sized = true ∧
      State.reset.dm.bounded = true ∧ State.reset.idsInOrder = true ∧
      State.reset.tagsDistinct = true ∧ State.reset.between = true ∧
      completes .timebaseTick State.reset = true := by decide +kernel

/-! ### The hypotheses of the statements, clause by clause -/

/-- Port A has read 12 bytes of the head of an outbox of n blocks, and two notices wait. -/
def lastByteDue (n : Nat) : State :=
  (withOutbox n ready).updPort .A (fun p => { p with
    headRead := 12, pendingNotices := [.readOnly, .mapLost] })

theorem test_witness_CompletionReads_with_notices (n : Nat) (h : n = 1 ∨ n = 16) :
    (lastByteDue n).between = true ∧ ((lastByteDue n).port .A).pendingNotices.Nodup ∧
      ((lastByteDue n).port .A).headRead = 12 ∧
      ((lastByteDue n).port .A).outbox =
        noticeBlock .readOnly 0 :: List.replicate (n - 1) (noticeBlock .readOnly 0) ∧
      ((after (.completionRead .A) (lastByteDue n)).port .A).pendingNotices =
        (if n = 16 then [.mapLost] else []) := by
  rcases h with rfl | rfl <;> decide +kernel

/-- A READ of LSNs 5 and 6, at the last byte of its first sector. -/
def readTwo (second : ReadSectorState) : Request :=
  { request .read .delivering with
    count := 2, started := true,
    sectors := [{ st := .bound 0, load := some 2 }, { st := second, load := none }] }

/-- READY with that READ being delivered from slot 0. -/
def deliveringTwo (second : ReadSectorState) : State :=
  let t := moving (holding ready (readTwo second)) (transfer .outward 2048 1023 []) 5
  (t.setSlot 0 { Slot.reset with
    state := .clean, lsn := some 5, bindings := [{ ch := .A, id := 0, waiting := false }],
    content := [(0, 0x55), (1023, 0x77)] }).mapSlot 5 0

theorem test_witness_ReadsLastByteCompletes_a_sector (second : ReadSectorState)
    (h : second = .waiting ∨ second = .failed .mediumError) :
    (deliveringTwo second).between = true ∧
      (deliveringTwo second).currentTransfer .A = some (transfer .outward 2048 1023 []) ∧
      (deliveringTwo second).dataReady .A = true ∧
      (deliveringTwo second).findReq .A 0 = some (readTwo second) ∧ (1023 + 1) % 1024 = 0 ∧
      1023 / 1024 + 1 ≠ (readTwo second).count ∧
      (readTwo second).sectors[1023 / 1024]? = some { st := .bound 0, load := some 2 } ∧
      (readTwo second).sectorState ((readTwo second).sectorsDone + 1) = some second := by
  rcases h with rfl | rfl <;> decide +kernel

theorem test_witness_ReadsLastByteCompletes_release :
    let s := deliveringTwo .waiting
    let t := s.setSlot 0 { s.slotAt 0 with stale := true }
    0 < s.pool.slots.length ∧ (s.slotAt 0).stale = false ∧ (s.slotAt 0).state = .clean ∧
      (t.slotAt 0).stale = true ∧ (t.slotAt 0).state ≠ .fetching ∧
      (∀ b ∈ (t.slotAt 0).bindings, b.id = 0) ∧ ∃ b ∈ (t.slotAt 0).bindings, b.id ≠ 1 := by
  decide +kernel

theorem test_witness_DataWrite_is_canonical :
    (filling 0 5).memoryWf = true ∧ (filling 1022 5).memoryWf = true ∧
      (filling 1023 5).memoryWf = true := by decide +kernel

theorem test_witness_ChecksAreMadeInOrder_values :
    RequestKind.ofCode 0x41 = some .setChannel ∧ RequestKind.ofCode 0x42 = none ∧
      RequestKind.eject ≠ .read ∧ RequestKind.eject ≠ .write ∧ RequestKind.eject ≠ .reserve ∧
      RequestKind.eject ≠ .status ∧ (readBlock 1 0 16 0 1).badValue .read = false ∧
      (readBlock 1 0 17 0 1).badValue .read = true ∧ (readBlock 1 0 16 0 2).badValue .read = true ∧
      (writeBlock 1 0 0).badValue .write = true ∧ (writeBlock 1 0 16).badValue .write = false ∧
      (reserveBlock 1 0 0 1).badValue .reserve = true ∧
      (reserveBlock 1 0 1 2).badValue .reserve = false ∧
      (reserveBlock 1 0 1 3).badValue .reserve = true ∧
      (statusBlock 1 1).badValue .status = false ∧ (statusBlock 1 2).badValue .status = true := by
  decide +kernel

/-- READY with n slots FETCHING read-ahead, charged to Channel A, and the rest FREE. -/
def busyPool (n : Nat) : State :=
  { ready with pool := { ready.pool with
    slots := List.replicate n { Slot.reset with
      state := .fetching, work := some (.readAhead .A), fetchBegun := true,
      charged := .channel .A } ++ List.replicate (32 - n) Slot.reset } }

/-- The slot of LSN 5 is CLEAN and unclaimed. -/
def cleanAt (i : Nat) (s : State) : State :=
  (s.setSlot i { Slot.reset with
    state := .clean, lsn := some 5, content := [(0, 0x55)] }).mapSlot 5 i

/-- How many slots are charged to Channel A. -/
def chargedToA (s : State) : Nat :=
  (s.pool.slots.filter (fun x => x.charged == .channel .A)).length

theorem test_witness_ReadAccepted_current_slot (n : Nat) (h : n = 15 ∨ n = 16) :
    (cleanAt n (busyPool n)).currentSlot 5 = some n ∧
      ((cleanAt n (busyPool n)).slotAt n).state = .clean ∧
      ((cleanAt n (busyPool n)).slotAt n).claimed = false ∧
      n < (cleanAt n (busyPool n)).pool.slots.length ∧ chargedToA (cleanAt n (busyPool n)) = n ∧
      ((cleanAt n (busyPool n)).slotAt n).replaceable = true ∧
      (filling 0 5).currentSlot 5 = some 3 ∧ ((filling 0 5).slotAt 3).state = .filling := by
  rcases h with rfl | rfl <;> decide +kernel

theorem test_witness_ReadAccepted_new_slot :
    (busyPool 15).currentSlot 5 = none ∧ (busyPool 15).chooseSlot [] = some 15 ∧
      chargedToA (busyPool 15) = 15 ∧ (busyPool 16).chooseSlot [] = some 16 ∧
      chargedToA (busyPool 16) = 16 ∧ 16 < (busyPool 16).pool.slots.length ∧
      (busyPool 32).currentSlot 5 = none ∧ (busyPool 32).chooseSlot [] = none ∧
      (cleanAt 31 (busyPool 32)).chooseSlot [] = some 31 ∧
      (cleanAt 31 (busyPool 32)).chooseSlot [31] = none := by decide +kernel

/-- The sector binds, to which slot. -/
def bindsTo : BindResult → Option Nat
  | .bound _ i => some i
  | .barred _ => none

theorem test_witness_ReadAccepted_sectors :
    bindsTo ((busyPool 15).bindSector .A 0 5) = some 15 ∧
      bindsTo ((busyPool 16).bindSector .A 0 5) = none ∧
      bindsTo ((busyPool 32).bindSector .A 0 5) = none ∧
      (holding ready (request .read .slotWait)).findReq .A 0 = some (request .read .slotWait) ∧
      ((busyPool 32).bindSectors .A 0 5 [{ st := .waiting, load := none }]).2.2 = some .slots ∧
      ((busyPool 15).bindSectors .A 0 5 [{ st := .waiting, load := none }]).2.2 = none := by
  decide +kernel

theorem test_witness_WriteAccepted_held :
    (filling 0 5).worksOwned = true ∧ (filling 0 5).pool.placed = true ∧
      (∃ e ∈ (filling 0 5).works, ∃ x ∈ e.sectors, 5 ≤ x.lsn ∧ x.lsn < 5 + 1) ∧
      ((after (.write .A 1 5 1) (filling 0 5)).works.map (fun w => w.phase)) =
        [.filling, .overlapWait] := by decide +kernel

/-- How many slots a WRITE may take. -/
def takeable (s : State) : Nat :=
  (s.pool.slots.filter (fun x => x.state == .free ||
    (x.state == .clean && !x.stale && !x.claimed))).length

theorem test_witness_WriteAccepted_slots (n : Nat) (h : n = 0 ∨ n = 15 ∨ n = 16 ∨ n = 32) :
    (busyPool n).between = true ∧ (busyPool n).worksOwned = true ∧
      (busyPool n).pool.placed = true ∧ (busyPool n).accepts .A (writeBlock 1 5 1) = true ∧
      (busyPool n).works = [] ∧ takeable (busyPool n) = 32 - n ∧ chargedToA (busyPool n) = n ∧
      (after (.write .A 1 5 1) (busyPool n)).works.map (fun w => w.phase) =
        [if n ≤ 15 then .filling else .slotWait] := by
  rcases h with rfl | rfl | rfl | rfl <;> decide +kernel

theorem test_witness_RecordRequestsAccepted_entries :
    let s := { ready with dm := { ready.dm with replacement := [.moved 0 5 0, .retired 0 1] } }
    (s.mapRecord 0).length = 38 ∧ (s.statusRecord .A).length = 53 ∧ (0 < 2 ∧ 1 < 2) ∧
      (s.mapRecord 0).drop 30 = [2, 0, 0, 0, 0, 0, 1, 0] := by decide +kernel

theorem test_witness_Aborts_marked :
    let r := { request .write .active with abortMark := true }
    (holding ready r).between = true ∧ (holding ready r).accepts .A (abortBlock 1 9) = true ∧
      ((holding ready r).reqs .A).filter (fun x => x.tag == 9) = [r] := by decide +kernel

theorem test_witness_Aborts_write_at_once :
    (filling 4 5).between = true ∧ (filling 4 5).accepts .A (abortBlock 1 9) = true ∧
      ((filling 4 5).reqs .A).filter (fun x => x.tag == 9) = [request .write .filling] ∧
      (filling 4 5).findWork 0 = some (work .filling (some 3)) ∧
      (filling 4 5).sched.openRun = none ∧ (work .filling (some 3)).followUps = [] := by
  decide +kernel

/-- Write work with a follow-up run due. -/
def dueWork (s : State) : State :=
  { s with works := s.works.map (fun w => { w with followUps := [run5] }) }

theorem test_witness_Aborts_write_with_a_run (p : Pass) :
    (writing p).between = true ∧ (writing p).accepts .A (abortBlock 1 9) = true ∧
      ((writing p).reqs .A).filter (fun x => x.tag == 9) = [request .write .active] ∧
      (writing p).works.map (fun w => (w.id, w.name)) = [(0, .write 0)] ∧
      (writing p).sched.openRun.map (fun r => r.work) = some (.write 0) ∧
      (dueWork (writing p)).between = true ∧
      (dueWork (writing p)).works.map (fun w => w.followUps) = [[run5]] := by
  cases p <;> decide +kernel

theorem test_witness_PendingNoticesArePosted_reads :
    let failed := { request .read .active with
      sectors := [{ st := .failed .mediumError, load := none }] }
    let first := { readFrom0 0 with state := .active }
    let s := { delivering 0 5 with requests := { a := [first], b := [] } }
    (holding ready failed).findReq .A failed.id = some failed ∧
      failed.sectorState failed.sectorsDone = some (.failed .mediumError) ∧
      s.findReq .A first.id = some first ∧ s.sectorAvailable first 0 = true ∧
      first.sectorState first.sectorsDone = some (.bound 0) ∧
      (∀ r ∈ (holding ready failed).reqs .A, r.state ≠ .done) := by decide +kernel

theorem test_witness_PendingNoticesArePosted_answered :
    let s : State := { inState .unmounting with
      ctl := { (inState .unmounting).ctl with unmountAnswer := some .saved } }
    s.ctl.state = .unmounting ∧ s.ctl.unmountAnswer ≠ none ∧ s.engine = none ∧
      s.sched.openRun = none := by decide +kernel

theorem test_witness_WaitsEnd_read_turn :
    waitingRead.readChannel 0 = some .A ∧
      waitingRead.findReq .A 0 = some { request .read .slotWait with
        sectors := [{ st := .waiting, load := none }] } ∧
      (waitingRead.serveWaiter 0).2 = none ∧ ready.serveWaiters [] = ready := by decide +kernel

/-- Write work of request 0 over LSN 5 on the slot-wait list of a state. -/
def waitingWork (k : WorkKind) (s : State) : State :=
  { holding s (request (if k = .write then .write else .reassign) .slotWait) with
    works := [{ work .slotWait none with kind := k }]
    pool := { s.pool with slotWait := [0] } }

theorem test_witness_WaitsEnd_work_turn (k : WorkKind) (h : k = .write ∨ k = .reassign) (n : Nat)
    (hn : n = 0 ∨ n = 15 ∨ n = 16 ∨ n = 32) :
    let s := waitingWork k (busyPool n)
    s.between = true ∧ s.pool.placed = true ∧ s.readChannel 0 = none ∧
      s.findWork 0 = some { work .slotWait none with kind := k } ∧
      (s.findReq .A 0).isSome ∧ takeable s = 32 - n ∧ chargedToA s = n ∧
      (s.serveWaiter 0).2 = (if n = 32 then some .slots else if n = 16 then some .quota else none) ∧
      ([5].Nodup) := by
  rcases h with rfl | rfl <;> rcases hn with rfl | rfl | rfl | rfl <;> decide +kernel

theorem test_witness_WaitsEnd_reassign_slots :
    let s := waitingWork .reassign (cleanAt 0 ready)
    let t := waitingWork .reassign ready
    s.currentSlot 5 = some 0 ∧ (s.slotAt 0).replaceable = true ∧ t.currentSlot 5 = none ∧
      t.chooseSlot [] = some 0 ∧ waitingRead.currentSlot 5 = some 31 ∧
      (waitingRead.slotAt 31).replaceable = false ∧
      (waitingRead.makeStale 31).chooseSlot [] = some 0 := by decide +kernel

/-- The spares of the one band are used up. -/
def noSpares (s : State) : State :=
  { s with dm := { s.dm with replacement := (List.range 18).map (fun i => .moved 0 (i + 40) i) } }

theorem test_witness_WaitsEnd_allocation :
    let s := waitingWork .reassign ready
    s.findWork 0 = some { work .slotWait none with kind := .reassign } ∧
      (match s.dm.reassign 5 ((s.dm.translate 5).getD (0, 0)) s.policy.settleDelay with
        | .done d => d.replacement == [.moved 0 5 0]
        | _ => false) = true ∧
      (match (noSpares s).dm.reassign 5 (((noSpares s).dm.translate 5).getD (0, 0))
          s.policy.settleDelay with
        | .refused st => st == .sparesExhausted
        | _ => false) = true := by decide +kernel

theorem test_witness_WaitsEnd_overlap_work (n : Nat) (h : n = 0 ∨ n = 15 ∨ n = 16 ∨ n = 32) :
    let s := { holding (busyPool n) (request .write .overlapWait) with
      works := [work .overlapWait none] }
    let t := { s with works := [{ work .overlapWait none with kind := .reassign }] }
    s.between = true ∧ s.findWork 0 = some (work .overlapWait none) ∧
      s.heldBack (work .overlapWait none) = false ∧ takeable s = 32 - n ∧ chargedToA s = n ∧
      t.findWork 0 = some { work .overlapWait none with kind := .reassign } ∧
      t.heldBack { work .overlapWait none with kind := .reassign } = false := by
  rcases h with rfl | rfl | rfl | rfl <;> decide +kernel

/-- The rescue of LSN 5 is in progress, with the number 1. -/
def rescuing (s : State) : State := { s with works := s.works ++ [rescueWork 1 5], nextId := 2 }

theorem test_witness_WaitsEnd_rescue :
    (rescuing ready).findWork 1 = some (rescueWork 1 5) ∧
      (rescuing ready).heldBack (rescueWork 1 5) = false ∧
      (rescuing (filling 0 5)).findWork 1 = some (rescueWork 1 5) ∧
      (rescuing (filling 0 5)).heldBack (rescueWork 1 5) = true ∧
      (rescuing (cleanAt 0 ready)).currentSlot 5 = some 0 ∧
      ((rescuing (cleanAt 0 ready)).slotAt 0).state = .clean ∧
      (rescuing waitingRead).currentSlot 5 = some 31 ∧
      ((rescuing waitingRead).slotAt 31).state ≠ .clean ∧
      (rescuing waitingRead).pool.slotWait ≠ [] ∧ (rescuing (busyPool 32)).chooseSlot [] = none ∧
      (rescuing ready).currentSlot 5 = none ∧ (rescuing ready).pool.slotWait = [] ∧
      (rescuing ready).chooseSlot [] = some 0 := by decide +kernel

/-- A READ of LSN 5, with a deadline or none, whose fetch has not begun. -/
def fetchDue (deadline : Option Nat) : State :=
  let s := holding ready { request .read .active with
    deadline := deadline, sectors := [{ st := .bound 0, load := none }] }
  (s.setSlot 0 { Slot.reset with
    state := .fetching, lsn := some 5, work := some (.read .A 0),
    bindings := [{ ch := .A, id := 0, waiting := false }], holdCount := 1,
    charged := .channel .A, chargedFor := some 0 }).mapSlot 5 0

theorem test_witness_HeadSchedulerChoice_urgent (n : Nat) (h : n = 1 ∨ n = 100) :
    let s := fetchDue (some n)
    s.between = true ∧ s.engine = none ∧ s.link.outstanding = none ∧ s.ctl.state = .ready ∧
      s.selectUrgent = some { work := .read .A 0, remaining := n, reader := 0, ch := .A } ∧
      s.sched.openRun = none ∧ s.unbegunLsns (.read .A 0) = [5] ∧
      (s.dm.firstRun [5]).isSome = true := by
  rcases h with rfl | rfl <;> decide +kernel

theorem test_witness_HeadSchedulerChoice_not_urgent (d : Option Nat)
    (h : d = none ∨ d = some 0 ∨ d = some 101) :
    let s := fetchDue d
    s.between = true ∧ s.selectUrgent = none ∧ s.sched.openRun = none ∧
      s.selectCarried = none ∧ s.selectNormal = some (.A, .fetch (.read .A 0)) ∧
      (s.dm.firstRun (s.unbegunLsns (.read .A 0))).isSome = true := by
  rcases h with rfl | rfl | rfl <;> decide +kernel

theorem test_witness_HeadSchedulerChoice_insertion :
    let s := fetchDue (some 5)
    let t := { s with sched := { s.sched with
      openRun := some { run := run5, work := .write 7, pass := .erase, insertions := 3,
                        eraseOnly := false } } }
    t.between = true ∧ t.selectUrgent.isSome = true ∧ 3 < t.policy.insertionLimit ∧
      t.engine = none ∧ t.link.outstanding = none := by decide +kernel

/-- Write work of request 0 with its run still to be opened. -/
def runDue (owner : Option Channel) (followUps : List Run) : State :=
  { writing .erase with
    sched := Scheduler.reset
    works := [{ work .runs (some 3) with owner := owner, followUps := followUps }] }

theorem test_witness_HeadSchedulerChoice_carried :
    let w := { work .runs (some 3) with owner := none, followUps := [run5] }
    let s := runDue none [run5]
    s.between = true ∧ s.selectUrgent = none ∧ s.selectCarried = some (0, w, run5) ∧
      w ∈ s.works ∧ s.nextRun w = some run5 ∧ s.sched.openRun = none ∧ s.engine = none := by
  decide +kernel

theorem test_witness_HeadSchedulerChoice_normal_run :
    let w := work .runs (some 3)
    let s := runDue (some .A) []
    s.between = true ∧ s.selectUrgent = none ∧ s.selectCarried = none ∧
      s.selectNormal.map (fun o => o.1) = some .A ∧ s.nextRun w = s.dm.firstRun w.uncovered ∧
      (s.nextRun w).isSome = true ∧ s.findWork 0 = some w ∧ w.phase = .runs ∧
      s.sched.openRun = none := by decide +kernel

/-- The map is dirty, and a FLUSH MAP waits. -/
def flushing : State :=
  { holding ready (request .flushMap .queued) with
    dm := { ready.dm with dirty := true, settle := .running 9 } }

theorem test_witness_HeadSchedulerChoice_writeback :
    flushing.between = true ∧ flushing.selectUrgent = none ∧ flushing.selectCarried = none ∧
      flushing.selectNormal = some (.A, .writeback) ∧ flushing.idsInOrder = true ∧
      flushing.link.outstanding = none ∧ flushing.sched.openRun = none ∧
      flushing.writebackInFlight = false ∧ flushing.dm.dirty = true := by decide +kernel

theorem test_witness_HeadSchedulerChoice_channels :
    let s := fetchDue none
    (s.channelWork .A).isSome = true ∧ (s.channelWork .B).isSome = false ∧
      (ready.channelWork .A).isSome = false ∧ (ready.channelWork .B).isSome = false ∧
      (let t : State := { s with
        requests := { s.requests with b := [{ request .flushMap .queued with id := 1 }] }
        dm := { s.dm with dirty := true }
        nextId := 2 }
       (t.channelWork .A).isSome = true ∧ (t.channelWork .B).isSome = true) := by decide +kernel

/-- LSN 5 stands on the rescue list. -/
def rescueDue : State := { ready with dm := { ready.dm with rescueList := [(5, 6)] } }

theorem test_witness_HeadSchedulerChoice_rescue :
    rescueDue.between = true ∧ rescueDue.selectUrgent = none ∧ rescueDue.selectNormal = none ∧
      rescueDue.rescue = none ∧ rescueDue.ctl.state = .ready ∧
      rescueDue.dm.rescueList = [(5, 6)] ∧
      rescueDue.beginRescue.examineRescue.rescueOffered.isSome = true ∧
      (rescuing ready).rescue = some (rescueWork 1 5) ∧ ready.rescue = none := by decide +kernel

theorem test_witness_HeadSchedulerChoice_wanted :
    let s := { ready with dm := { ready.dm with dirty := true, settle := .reached } }
    s.between = true ∧ s.selectNormal = none ∧
      s.beginRescue.examineRescue.rescueOffered = none ∧
      s.beginRescue.examineRescue.writebackWanted = true ∧
      ready.beginRescue.examineRescue.writebackWanted = false := by decide +kernel

/-- Channel A's read-ahead stands at LSN 5, before its window end. -/
def prefetching (b : Option ReadAhead) : State :=
  { ready with sched := { ready.sched with
    readAhead := { a := some { windowEnd := 9, next := 5 }, b := b } } }

theorem test_witness_HeadSchedulerChoice_readAhead :
    (prefetching none).between = true ∧ (prefetching none).readAheadReady .A = true ∧
      (prefetching none).readAheadReady .B = false ∧
      (prefetching (some { windowEnd := 4, next := 3 })).readAheadReady .B = true ∧
      (prefetching none).sched.prefetchMarker.other = .A ∧
      ready.readAheadReady .A = false ∧ ready.readAheadReady .B = false ∧
      ((prefetching none).dm.firstRun [5, 6, 7, 8]).isSome = true ∧
      (prefetching none).dm.firstRun [] = none ∧ (prefetching none).link.outstanding = none ∧
      ready.currentSlot 5 = none ∧ (ready.slotAt 0).state = .free ∧
      (cleanAt 0 ready).currentSlot 5 ≠ none ∧
      (∀ x ∈ (busyPool 32).pool.slots, x.state ≠ .free) := by decide +kernel

theorem test_witness_HeadSchedulerChoice_held_run :
    let w := { work .runs (some 3) with followUps := [run5] }
    (writing .erase).nextRun (work .runs (some 3)) = none ∧
      (runDue (some .A) [run5]).nextRun w = some run5 ∧
      (let s := runDue (some .A) []
       let t := s.setSlot 9 { Slot.reset with state := .fetching, stale := true, lsn := some 5 }
       t.nextRun (work .runs (some 3)) = none ∧
         (t.slotAt 9) ∈ t.pool.slots ∧ 5 ∈ (work .runs (some 3)).uncovered) := by decide +kernel

theorem test_witness_StartupReportEnds_spin_up :
    let s := { inState .spinning with link := busyLink .spinUp .cartridgeController 40 0 }
    s.between = true ∧ s.ctl.recovering = false ∧
      s.link.outstanding =
        some { number := 6, command := .spinUp, sender := .cartridgeController } ∧
      (after (.response 6 (.done atSpeed)) s).ctl.state = .mounting := by decide +kernel

/-- A recovery under way with its command outstanding, a verdict held or not, an eject pending or
not. -/
def recovering (cmd : LinkCommand) (held eject : Bool) : State :=
  let s := inState .faulted
  { s with
    link := busyLink cmd .cartridgeController 40 0
    dm := { s.dm with verdictHeld := held, dirty := held }
    ctl := { s.ctl with recovering := true, ejectPending := eject } }

theorem test_witness_StartupReportEnds_recovery (cmd : LinkCommand) (held eject : Bool)
    (h : cmd = .reportState ∨ cmd = .spinUp) :
    let s := recovering cmd held eject
    s.between = true ∧
      s.link.outstanding = some { number := 6, command := cmd, sender := .cartridgeController } ∧
      s.ctl.startupReport = false ∧ s.ctl.state = .faulted ∧ s.ctl.recovering = true ∧
      s.ctl.unmountAnswer = none ∧ s.ctl.unmountAsked = false := by
  rcases h with rfl | rfl <;> cases held <;> cases eject <;> decide +kernel

theorem test_witness_StartupReportEnds_records :
    noMedia.mediaPresent = false ∧ atSpeed.mediaPresent = true ∧ atSpeed.faultPresent = false ∧
      atSpeed.spindle = .stable ∧
      ({ atSpeed with spindle := .stopped } : StateRecord).spindle = .stopped ∧
      ({ atSpeed with faultPresent := true } : StateRecord).faultPresent = true ∧
      (after (.response 6 (.done atSpeed)) (recovering .reportState true true)).ctl.state =
        .unmounting ∧
      (after (.response 6 (.done atSpeed)) (recovering .reportState false false)).ctl.state =
        .mounting ∧
      (after (.response 6 (.done { atSpeed with faultPresent := true }))
        (recovering .reportState true true)).ctl.state = .ejecting ∧
      (after (.response 6 (.done { noMedia with faultPresent := true }))
        (recovering .reportState true true)).ctl.state = .empty := by decide +kernel

/-- The verify pass of LSN 5's run, its frame received or not. -/
def verifying (frames : List (Nat × SectorFrame)) : State :=
  let s := passing .verifyPass .verify (.readSectors 16 [5])
  { s with link := { s.link with received := frames } }

theorem test_witness_WritePassesEnd_verify (frames : List (Nat × SectorFrame))
    (h : frames = [] ∨ frames = [(5, frame5)]) :
    let s := verifying frames
    s.between = true ∧
      s.link.outstanding =
        some { number := 6, command := .readSectors 16 [5], sender := .mediaEngine } ∧
      s.engine.map (fun op => op.kind) = some .verifyPass ∧
      s.sched.openRun.map (fun r => (r.run, r.work.id?)) = some (run5, some 0) ∧
      (s.findWork 0).map (fun w => w.sectors) =
        some [{ workSector (some 3) with covered := true }] ∧
      (s.slotAt 3).workId = some 0 ∧ (s.slotAt 3).state = .writing ∧ 3 < s.pool.slots.length ∧
      verifyPasses s.policy.verifyLimit (s.slotAt 3).content
        (decodeFrame 16 5 (frameFor frames 5)) = !frames.isEmpty := by
  rcases h with rfl | rfl <;> decide +kernel

theorem test_witness_WritePassesEnd_verify_fails :
    let s := verifying []
    s.ctl.readOnly = .none ∧ (workSector (some 3)).spares < 3 ∧
      (match s.dm.reassign 5 (16, 5) s.policy.settleDelay with
        | .done d => d.replacement == [.moved 0 5 0]
        | _ => false) = true ∧
      (match (noSpares s).dm.reassign 5 (16, 5) s.policy.settleDelay with
        | .refused st => st == .sparesExhausted
        | _ => false) = true ∧
      3 ≤ ({ workSector (some 3) with spares := 3 } : WorkSector).spares ∧
      ({ s with ctl := { s.ctl with readOnly := .mapDamaged } } : State).ctl.readOnly ≠ .none := by
  decide +kernel

/-- The verify pass of a writeback, all of whose 16 sectors come back as staged or none does, with a
FLUSH MAP that it serves. -/
def savingMap (back : Bool) : State :=
  let s := holding ready { request .flushMap .queued with served := true }
  let t : State := { s with dm := ({ s.dm with dirty := true } : DefectManager).stage }
  { t with
    sched := { t.sched with
      openRun := some { run := indexRun 1, work := .writeback, pass := .verify, insertions := 0,
                        eraseOnly := false } }
    engine := some { kind := .verifyPass, work := .writeback, run := indexRun 1, reread := none,
                     outcomes := [] }
    link := { busyLink (.readSectors 1 (List.range 16)) .mediaEngine 40 2 with
      received := if back then (List.range 16).map (fun i =>
        (i, { frame5 with track := 1, sector := i, data := t.dm.staging.getD i [] })) else [] } }

theorem test_witness_WritePassesEnd_writeback (back : Bool) :
    let s := savingMap back
    s.between = true ∧ s.engine.map (fun op => op.kind) = some .verifyPass ∧
      s.sched.openRun.map (fun r => r.work) = some .writeback ∧ s.findWork 0 = none ∧
      s.link.outstanding.map (fun o => (o.number, o.sender)) = some (6, .mediaEngine) ∧
      (List.range 16).all (fun i => verifyPasses s.policy.verifyLimit (s.dm.staging.getD i [])
        (decodeFrame 1 i (frameFor s.link.received i))) = back ∧
      s.policy.mechRetries ≤ s.link.retryCount.getD 0 ∧
      (LinkCommand.readSectors 1 (List.range 16)).accepts (.refused .seekError) = true ∧
      ((after (.response 6 (.done atSpeed)) s).port .A).outbox.map (fun b => b.status) =
        (if back then [0x00] else [0x17, 0x84]) := by
  cases back <;> decide +kernel

theorem test_witness_WritePassesEnd_protected :
    let s := passing .erasePass .erase (.eraseSectors 16 [5])
    s.between = true ∧
      (LinkCommand.eraseSectors 16 [5]).accepts (.refused .writeProtected) = true ∧
      (LinkCommand.eraseSectors 16 [5]).accepts (.refused .seekError) = true ∧
      s.ctl.readOnly = .none ∧
      (after (.response 6 (.refused .writeProtected)) s).ctl.readOnly = .writeProtected := by
  decide +kernel

theorem test_witness_WritePassesEnd_seek_failed :
    let s := passing .erasePass .erase (.eraseSectors 16 [5])
    let t := { s with link := busyLink (.eraseSectors 16 [5]) .mediaEngine 40 2 }
    t.policy.mechRetries ≤ t.link.retryCount.getD 0 ∧ (t.findWork 0).isSome = true ∧
      (t.sched.openRun.map (fun r => r.work.id?)) = some (some 0) ∧
      ((after (.response 6 (.refused .seekError)) t).port .A).outbox.map (fun b => b.status) =
        [0x15] ∧ ([5].Nodup) := by decide +kernel

/-- The fetch of LSN 5 for a READ, in flight. -/
def fetching (left tries rereads : Nat) (frames : List (Nat × SectorFrame)) : State :=
  let s := fetchDue none
  let t := s.setSlot 0 { s.slotAt 0 with fetchBegun := true }
  { t with
    engine := some { kind := .fetch, work := .read .A 0, run := run5, reread := none,
                     outcomes := [{ sector := 5, lsn := some 5, outcome := none, settled := false,
                                    rereads := rereads }] }
    link := { busyLink (.readSectors 16 [5]) .mediaEngine left tries with received := frames } }

theorem test_witness_FetchesEnd (rereads : Nat) (h : rereads = 0 ∨ rereads = 3) :
    let s := fetching 40 2 rereads []
    let xs := decodeFirst 16 [] (match s.engine with
      | some op => op.outcomes
      | none => [])
    s.between = true ∧ s.link.outstanding.map (fun o => o.sender) = some .mediaEngine ∧
      s.engine.map (fun op => op.kind) = some .fetch ∧
      (nextReread s.policy.readRetries xs).2 = (if rereads = 0 then some (5, 1) else none) ∧
      s.policy.mechRetries ≤ s.link.retryCount.getD 0 ∧ s.fetchSlot 5 = some 0 := by
  rcases h with rfl | rfl <;> decide +kernel

theorem test_witness_FetchesEnd_outcomes :
    decodeFrame 16 5 (some frame5) = .clean [(0, 0x55)] ∧
      decodeFrame 16 5 (some { frame5 with errors2 := 6 }) = .corrected 6 [(0, 0x55)] ∧
      decodeFrame 16 5 (some { frame5 with errors2 := 7 }) = .uncorrectable ∧
      decodeFrame 16 6 (some frame5) = .uncorrectable ∧
      decodeFrame 16 6 (some { frame5 with erasedPattern := true }) = .blank ∧
      (after (.response 6 (.done atSpeed)) (fetching 40 0 0 [(5, frame5)])).engine = none ∧
      ((after (.response 6 (.done atSpeed)) (fetching 40 0 0 [(5, frame5)])).slotAt 0).state =
        .clean := by decide +kernel

/-- An INDEX FETCH of a track, in flight in MOUNTING, an eject pending or not. -/
def indexFetching (track : Nat) (eject : Bool) : State :=
  let s := inState .mounting
  { s with
    ctl := { s.ctl with ejectPending := eject }
    engine := some { kind := .indexFetch, work := .mount, run := indexRun track, reread := none,
                     outcomes := (List.range 16).map (fun i =>
                       { sector := i, lsn := none, outcome := none, settled := true,
                         rereads := 0 }) }
    link := busyLink (.readSectors track (List.range 16)) .mediaEngine 40 0 }

theorem test_witness_FetchesEnd_index (track : Nat) (eject : Bool) (h : track = 0 ∨ track = 1) :
    (indexFetching track eject).between = true ∧
      (indexFetching track eject).engine.map (fun op => (op.kind, op.run.track)) =
        some (.indexFetch, track) ∧
      (indexFetching track eject).rescue = none ∧ (inState .mounting).link.outstanding = none := by
  rcases h with rfl | rfl <;> cases eject <;> decide +kernel

theorem test_witness_FetchesEnd_work (k : WorkKind) (h : k = .rescue ∨ k = .reassign) :
    let name : Work := if k = .rescue then .rescue 0 else .reassign 0
    let w := { work .dataStep (some 0) with kind := k, owner := none }
    let s := (fetching 40 0 0 [])
    let t := { s.setSlot 0 { s.slotAt 0 with work := some name, bindings := [] } with works := [w] }
    t.findWork 0 = some w ∧ (t.slotAt 0).work = some name ∧ t.fetchSlot 5 = some 0 ∧
      (s.findReq .A 0).isSome = true ∧ (s.slotAt 0).bindings.map (fun b => b.id) = [0] := by
  rcases h with rfl | rfl <;> decide +kernel

theorem test_witness_FetchesEnd_offers :
    let o : Offer := { lsn := 5, load := 4, readers := [{ ch := .A, id := 0, waiting := false }] }
    let full := { ready with dm := { ready.dm with
      rescueList := (List.range 16).map (fun i => (i + 40, 4)) } }
    ready.policy.rescueThreshold ≤ o.load ∧
      ({ o with load := 3 } : Offer).load < ready.policy.rescueThreshold ∧
      ready.ctl.readOnly = .none ∧ (¬∃ e ∈ ready.dm.rescueList, e.1 = o.lsn) ∧
      (∃ e ∈ rescueDue.dm.rescueList, e.1 = o.lsn) ∧ (rescueWork 1 5).firstLsn = o.lsn ∧
      full.dm.rescueList.length = 16 ∧ (¬∃ e ∈ full.dm.rescueList, e.1 = o.lsn) ∧
      ready.dm.rescueList.length < 16 := by decide +kernel

theorem test_witness_MediaInIsTaken_protected (st : CartridgeState) (h : st ≠ .empty) :
    let s := holding (inState st) (request .flushMap .queued)
    s.between = true ∧ s.link.lastEvent ≠ some 4 ∧ s.ctl.state ≠ .empty ∧
      s.ctl.readOnly = .none ∧ s.sched.openRun = none ∧ s.findWork 0 = none ∧
      (filling 0 5).findWork 0 = some (work .filling (some 3)) ∧
      (filling 0 5).sched.openRun = none := by
  cases st <;> first | exact absurd rfl h | decide +kernel

/-- The mechanism EJECT is outstanding for an EJECT of Port A. -/
def ejecting (dirty : Bool) : State :=
  let s := holding (inState .ejecting) (request .eject .queued)
  { s with
    link := busyLink .eject .cartridgeController 40 0
    dm := { s.dm with dirty := dirty }
    ctl := { s.ctl with ejectRequesters := [(.A, 9)] } }

theorem test_witness_MediaOutEmptiesTheMachine_eject (dirty : Bool) :
    let s := ejecting dirty
    s.between = true ∧ s.link.law7 = true ∧
      s.link.outstanding =
        some { number := 6, command := .eject, sender := .cartridgeController } ∧
      s.reqByTag .A 9 = some (request .eject .queued) ∧ (.A, 9) ∈ s.ctl.ejectRequesters ∧
      (.A, 9) ∉ s.ctl.mountRequesters ∧
      ((after (.response 6 (.done noMedia)) s).port .A).outbox.head?.map
        (fun b => (b.tag, b.status)) = some (9, if dirty then 0x17 else 0x00) := by
  cases dirty <;> decide +kernel

theorem test_witness_MediaOutEmptiesTheMachine_no_media :
    (reading 40 0).between = true ∧ (reading 40 0).link.law7 = true ∧
      LinkCommand.readSectors 16 [5] ≠ .reportState ∧ (reading 40 0).ctl.state ≠ .empty := by
  decide +kernel

/-- The header of a cartridge with one band of two tracks and one slip. -/
def header : Memory :=
  ((Memory.writeBytes [] 0 [1, 1, 0, 2, 0, 2, 18, 1]).writeBytes 98 [0, 1]).withCheck

/-- The sectors of track 0 with that header and its slip list. -/
def track0 : List DecoderOutcome :=
  [.clean header, .corrected 2 (Memory.writeBytes [] 0 [0, 0, 0, 4]).withCheck]

theorem test_witness_StagedListReadsBack_track0 :
    goodRecord track0 0 = some header ∧ headerValid header = true ∧ header.field16 98 = 1 ∧
      (goodRecord track0 1).isSome = true ∧ goodRecord track0 2 = none ∧
      track0Verdict track0 = some ([{ firstTrack := 2, trackCount := 2, sectorsPerTrack := 18,
                                      spareTracks := 1 }], [(0, 4)]) ∧
      track0Verdict (track0.take 1) = none ∧ track0Verdict [] = none ∧
      headerValid (header.writeByte 0 2) = false := by decide +kernel

theorem test_witness_StagedListReadsBack_track1 :
    let d := { ready.dm with replacement := [.moved 0 5 0, .retired 0 1] }
    let ms := d.stage.staging
    let outs := ms.map DecoderOutcome.clean
    ms.length = 16 ∧ (∀ i < 16, goodRecord outs i = ms[i]?) ∧ (ms.getD 0 []).field16 6 = 2 ∧
      replacementEntry (ms.getD 0 []) 0 = some (.moved 0 5 0) ∧
      replacementEntry (ms.getD 0 []) 1 = some (.retired 0 1) ∧
      replacementEntry (ms.getD 0 []) 2 = none ∧ goodRecord outs 16 = none ∧
      (goodRecord (outs.set 3 .blank) 3) = none := by decide +kernel

theorem test_witness_kept_laws :
    State.reset.law5 = true ∧ State.reset.phased = true ∧ State.reset.pool.placed = true ∧
      State.reset.dm.mapForm = true ∧ State.reset.worksOwned = true ∧
      State.reset.noticesOrdered = true ∧ (filling 0 5).pool.placed = true ∧
      (filling 0 5).phased = true ∧ (filling 0 5).law5 = true ∧ (writing .erase).phased = true ∧
      (lastByteDue 1).noticesOrdered = true ∧ (noSpares ready).dm.mapForm = true ∧
      completes .timebaseTick (writing .erase) = true := by decide +kernel

/-! ### Notices, completions and the drain -/

/-- Port A has pending notices and n blocks in its outbox. -/
def pendingTwo (n : Nat) : State :=
  (withOutbox n ready).updPort .A (fun p => { p with pendingNotices := [.readOnly, .mapLost] })

theorem test_witness_PendingNoticesArePosted_bound (n : Nat) (h : n = 14 ∨ n = 15 ∨ n = 16) :
    let u := after (.pendingNoticePost .A) (pendingTwo n)
    (pendingTwo n).between = true ∧ ((pendingTwo n).port .A).pendingNotices.Nodup ∧
      (u.port .A).pendingNotices = [Notice.readOnly, .mapLost].drop (16 - n) ∧
      (u.port .A).outbox.length = 16 ∧ u.noticeRoom .A = false := by
  rcases h with rfl | rfl | rfl <;> decide +kernel

theorem test_witness_PendingNoticesArePosted_raised :
    (pendingTwo 15).noticeRoom .A = true ∧ (pendingTwo 16).noticeRoom .A = false ∧
      (((pendingTwo 16).postNotice .A .cartridgeGone).port .A).pendingNotices =
        [.cartridgeGone, .readOnly, .mapLost] ∧
      ((pendingTwo 16).raise .cartridgeGone).raised = [.cartridgeGone] ∧ ready.raised = [] := by
  decide +kernel

theorem test_completion_bytes :
    (noticeBlock .mapLost 0x01020304).bytes =
        [0, 0, 0x85, 0, 0, 0xFF, 0xFF, 0xFF, 0xFF, 1, 2, 3, 4] ∧
      (({ readFrom0 4 with
          late := true, short := true, worstLoad := some 3, firstFailing := some 5
          result := some .blank } : Request).completion 9).bytes =
        [9, 1, 0x10, 0x11, 0, 3, 0, 0, 5, 0, 0, 0, 9] := by decide +kernel

theorem test_witness_DrainsEndAsksForTheMap_draining :
    ready.draining = false ∧ (holding ready (request .reportMap .delivering)).draining = true ∧
      (holding ready (request .status .delivering)).draining = false ∧
      (writing .erase).draining = true ∧ (rescuing ready).draining = true := by decide +kernel

/-! ### Places, runs and reassignment -/

/-- A map as a VALID track 0 and track 1 give it: a slip at position 4, and position 5 MOVED. -/
def soundMap (entries : List MapEntry) : DefectManager :=
  { DefectManager.reset with
    bands := [{ band0 with firstTrack := 2 }], slips := [(0, 4)], replacement := entries }

theorem test_witness_ValidLsnsHaveAPlace_sound :
    (soundMap [.moved 0 5 0, .retired 0 1]).mapSound = true ∧
      (soundMap [.moved 0 4 0]).mapSound = false ∧
      (soundMap []).translate 4 = some (2, 5) ∧
      (soundMap [.moved 0 5 0]).translate 4 = some (11, 0) ∧
      (soundMap [.moved 0 5 0]).home 4 = some { band := 0, pos := 5, spare := some 0 } ∧
      (soundMap []).home 4 = some { band := 0, pos := 5, spare := none } ∧
      (soundMap []).translate 161 = none ∧ (soundMap []).chooseBand 160 = some (0, 160) := by
  decide +kernel

theorem test_witness_ValidLsnsHaveAPlace_runs :
    let d := soundMap [.moved 0 5 0]
    (d.formRuns [3, 4, 5]).map (fun r => (r.track, r.lsns)) = [(2, [3]), (11, [4]), (2, [5])] ∧
      (d.followUpRuns [3, 4, 5]).map (fun r => (r.track, r.lsns)) = [(2, [3, 5]), (11, [4])] ∧
      (d.formRuns [5, 3]).map (fun r => (r.track, r.lsns)) = [(2, [5]), (2, [3])] ∧
      (([3, 4, 5].filterMap d.translate)).Nodup := by decide +kernel

theorem test_witness_SparesAndReassignment_reassign :
    let full := soundMap ((List.range 1024).map (fun i => .moved 9 i i))
    let used := soundMap ((List.range 18).map (fun i => .retired 0 i))
    (soundMap []).translate 4 ≠ some (2, 4) ∧ (soundMap []).translate 4 = some (2, 5) ∧
      (soundMap []).lowestFree 0 = some 0 ∧ full.lowestFree 0 = some 0 ∧
      1024 ≤ full.replacement.length ∧ full.translate 4 = some (2, 5) ∧
      used.lowestFree 0 = none ∧ used.translate 4 = some (2, 5) ∧
      (soundMap [.moved 0 5 0]).lowestFree 0 = some 1 ∧
      (match (soundMap [.moved 0 5 0]).reassign 4 (11, 0) 7 with
        | .done e => e.replacement == [.moved 0 5 1, .retired 0 0]
        | _ => false) = true := by decide +kernel

/-! ### REASSIGN at acceptance -/

theorem test_witness_ReassignAccepted_slots (n : Nat) (h : n = 0 ∨ n = 15 ∨ n = 16 ∨ n = 32) :
    let s := busyPool n
    s.between = true ∧ s.worksOwned = true ∧ s.accepts .A (reassignBlock 1 5) = true ∧
      s.works = [] ∧ takeable s = 32 - n ∧ chargedToA s = n ∧ s.currentSlot 5 = none ∧
      (after (.reassign .A 1 5) s).works.map (fun w => w.phase) =
        [if n ≤ 15 then .dataStep else .slotWait] := by
  rcases h with rfl | rfl | rfl | rfl <;> decide +kernel

theorem test_witness_ReassignAccepted_held :
    let s := filling 0 5
    s.between = true ∧ s.worksOwned = true ∧ s.accepts .A (reassignBlock 1 5) = true ∧
      s.works.map (fun w => w.sectors.map (fun x => x.lsn)) = [[5]] ∧
      (after (.reassign .A 1 5) s).works.map (fun w => w.phase) = [.filling, .overlapWait] := by
  decide +kernel

theorem test_witness_ReassignAccepted_takeover (full : Bool) :
    let s := if full then noSpares (cleanAt 0 ready) else cleanAt 0 ready
    s.between = true ∧ s.worksOwned = true ∧ s.accepts .A (reassignBlock 1 5) = true ∧
      s.works = [] ∧ s.currentSlot 5 = some 0 ∧ (s.slotAt 0).replaceable = true ∧
      (match s.dm.reassign 5 ((s.dm.translate 5).getD (0, 0)) s.policy.settleDelay with
        | .done _ => !full
        | .refused st => full && st == .sparesExhausted
        | .mismatch => false) = true ∧
      (after (.reassign .A 1 5) s).works.map (fun w => w.phase) = (if full then [] else [.runs]) ∧
      ((after (.reassign .A 1 5) s).port .A).outbox.map (fun b => b.status) =
        (if full then [0x13] else []) := by
  cases full <;> decide +kernel

/-! ### Frames of a record pass, read-ahead moments, and the stages of a run -/

theorem test_witness_HeadSchedulerChoice_frames :
    let s := writing .record
    let r : OpenRun := { run := run5, work := .write 0, pass := .record, insertions := 0,
                         eraseOnly := false }
    r.work.id? = some 0 ∧ (s.findWork 0).map (fun w => w.sectors) =
        some [{ workSector (some 3) with covered := true }] ∧
      s.recordFrames r = [{ track := 16, sector := 5, data := [(0, 0x55)] }] ∧
      (savingMap true).recordData .writeback { sector := 15, lsn := none } =
        (savingMap true).dm.staging.getD 15 [] := by decide +kernel

/-- A SEQUENTIAL READ of LSN 5 served from slot 0, CLEAN, its read-ahead moment still to come. -/
def momentDue (window : Nat) : State :=
  let s := delivering 4 5
  let t := { s with requests :=
    { a := [{ readFrom0 4 with sequential := true }], b := [] } }
  t.updPort .A (fun p => { p with settings := { p.settings with readAheadWindow := window } })

theorem test_witness_HeadSchedulerChoice_moment (window : Nat) (h : window = 0 ∨ window = 8) :
    (momentDue window).findReq .A 0 = some { readFrom0 4 with sequential := true } ∧
      ((momentDue window).slotAt 0).state = .clean ∧
      ((momentDue window).readAheadMoment .A 0).sched.readAhead.a =
        (if window = 0 then none else some { windowEnd := 14, next := 6 }) ∧
      (fetchDue none).findReq .A 0 ≠ none ∧ ((fetchDue none).slotAt 0).state = .fetching := by
  rcases h with rfl | rfl <;> decide +kernel

theorem test_witness_WritePassesEnd_stages :
    let e := passing .erasePass .erase (.eraseSectors 16 [5])
    let r := passing .recordPass .record
      (.recordSectors 16 [{ track := 16, sector := 5, data := [(0, 0x55)] }])
    e.between = true ∧ r.between = true ∧ e.ctl.unmountAnswer = none ∧
      (e.slotAt 3).workId = some 0 ∧ 3 < e.pool.slots.length ∧ 5 ∈ run5.lsns ∧
      ((after (.response 6 (.done atSpeed)) e).slotAt 3).stage = some .erased ∧
      ((after (.response 6 (.done atSpeed)) r).slotAt 3).stage = some .recorded := by
  decide +kernel

/-- The erase-only run of a REASSIGN of LSN 5, in flight, for Port A or discarded. -/
def erasingOnly (owner : Option Channel) (marked : Bool) : State :=
  let s := passing .erasePass .erase (.eraseSectors 16 [5])
  { s with
    requests := { a := if owner = some .A then [request .reassign .active] else [], b := [] }
    works := [{ work .runs none with kind := .reassign, owner := owner, reassigned := true,
                                     abortMark := marked, eraseOnly := true }]
    sched := { s.sched with openRun := some { run := run5, work := .reassign 0, pass := .erase,
                                              insertions := 0, eraseOnly := true } } }

theorem test_witness_WritePassesEnd_erase_only (owner : Option Channel) (marked : Bool)
    (h : owner = none ∨ owner = some .A) :
    let s := erasingOnly owner marked
    s.between = true ∧ s.engine.map (fun op => op.kind) = some .erasePass ∧
      s.link.outstanding.map (fun o => (o.number, o.sender)) = some (6, .mediaEngine) ∧
      s.ctl.unmountAnswer = none ∧
      (s.findWork 0).map (fun w => (w.kind, w.owner, w.sectors)) =
        some (.reassign, owner, [workSector none]) ∧
      (owner = some .A → s.findReq .A 0 = some (request .reassign .active)) ∧
      ((after (.response 6 (.done atSpeed)) s).port .A).outbox.map (fun b => (b.status, b.flags)) =
        (if owner = none then [] else [(if marked then 0x0D else 0x11, 0x08)]) := by
  rcases h with rfl | rfl <;> cases marked <;> decide +kernel

/-! ### The requests that an event ends -/

/-- A state with a command outstanding whose retries have run out. -/
def failing (cmd : LinkCommand) (who : Sender) (s : State) : State :=
  { s with link := busyLink cmd who 0 2 }

/-- The premises of the statements on a link fault, a MECH FAULT and a MEDIA OUT. -/
def mayFault (s : State) : Bool :=
  let t := failing .spinUp .cartridgeController s
  s.between && s.link.law7 && s.link.lastEvent != some 4 && !s.ctl.recovering &&
    s.ctl.state != .empty && s.ctl.state != .faulted && t.between && t.link.law7

/-- What Port A's outbox holds after a command: each block's tag and status. -/
def told (i : Instr) (s : State) : List (Byte × Byte) :=
  ((after i s).port .A).outbox.map (fun b => (b.tag, b.status))

/-- A request of Port A that a requesters list names, in a cartridge state. -/
def listed (k : RequestKind) (st : CartridgeState) : State :=
  let s := holding (inState st) (request k .queued)
  { s with ctl := { s.ctl with
      ejectRequesters := if k = .eject then [(.A, 9)] else []
      mountRequesters := if k = .mount then [(.A, 9)] else [] } }

theorem test_witness_LinkFaultEntersFaulted_reads :
    let s := fetchDue none
    let t := delivering 4 5
    mayFault s = true ∧ mayFault t = true ∧ s.findWork 0 = none ∧ t.findWork 0 = none ∧
      s.reqs .A = [{ request .read .active with sectors := [{ st := .bound 0, load := none }] }] ∧
      (s.slotAt 0).state = .fetching ∧ (t.slotAt 0).state = .clean ∧
      told .damagedFrame (failing .spinUp .cartridgeController s) = [(9, 0x16), (0, 0x86)] ∧
      told (.mechFault 4) t = [(0, 0x86)] ∧
      (after (.mechFault 4) t).reqs .A = t.reqs .A := by decide +kernel

theorem test_witness_LinkFaultEntersFaulted_work :
    let s := filling 4 5
    mayFault s = true ∧ s.findWork 0 = some (work .filling (some 3)) ∧
      told (.mechFault 4) s = [(9, 0x16), (0, 0x86)] ∧
      told (.mediaOut 4) s = [(9, 0x06), (0, 0x82)] ∧
      told .commandTimeout (failing .spinUp .cartridgeController s) =
        [(9, 0x16), (0, 0x86)] := by decide +kernel

theorem test_witness_LinkFaultEntersFaulted_flush :
    mayFault flushing = true ∧ flushing.findWork 0 = none ∧
      told (.mechFault 4) flushing = [(9, 0x16), (0, 0x86)] ∧
      told (.mediaOut 4) flushing = [(9, 0x06), (0, 0x85), (0, 0x82)] := by decide +kernel

theorem test_witness_LinkFaultEntersFaulted_listed :
    let e := listed .eject .unmounting
    let m := listed .mount .spinning
    let k := listed .mount .unreadable
    mayFault e = true ∧ mayFault m = true ∧ mayFault k = true ∧
      e.reqByTag .A 9 = some (request .eject .queued) ∧
      m.reqByTag .A 9 = some (request .mount .queued) ∧
      told (.mechFault 4) e = [(9, 0x16), (0, 0x86)] ∧
      told (.mechFault 4) m = [(9, 0x16), (0, 0x86)] ∧
      told (.mechFault 4) k = [(0, 0x86)] ∧ (after (.mechFault 4) k).reqs .A = k.reqs .A ∧
      told (.mediaOut 4) e = [(9, 0x00), (0, 0x82)] ∧
      told (.mediaOut 4) m = [(9, 0x06), (0, 0x82)] := by decide +kernel

theorem test_witness_MediaOutEmptiesTheMachine_ends :
    let s := moving (holding ready (request .reportMap .delivering))
      (transfer .outward 22 0 (ready.mapRecord 0)) 5
    let t := reporting 1
    mayFault s = true ∧ mayFault t = true ∧ mayFault (fetchDue none) = true ∧
      told (.mediaOut 4) s = [(9, 0x06), (0, 0x82)] ∧
      told (.mediaOut 4) t = [(0, 0x82)] ∧ (after (.mediaOut 4) t).reqs .A = t.reqs .A ∧
      told (.mediaOut 4) (fetchDue none) = [(9, 0x06), (0, 0x82)] ∧
      told (.response 6 (.refused .noMedia)) (failing .spinUp .cartridgeController t) =
        [(0, 0x82)] := by decide +kernel

theorem test_witness_MediaOutEmptiesTheMachine_map_lost :
    let s := ejecting true
    let t := { s with ctl := { s.ctl with unmountAnswer := some .notSaved } }
    s.between = true ∧ t.between = true ∧ s.dm.dirty = true ∧ t.ctl.state = .ejecting ∧
      told (.response 6 (.done noMedia)) s = [(9, 0x17), (0, 0x85), (0, 0x82)] ∧
      told (.response 6 (.done noMedia)) t = [(9, 0x17), (0, 0x82)] := by decide +kernel

theorem test_witness_mapSound :
    State.reset.dm.mapSound = true ∧ (soundMap [.moved 0 5 0]).mapSound = true ∧
      completes .timebaseTick { ready with dm := soundMap [.moved 0 5 0] } = true := by
  decide +kernel

/-! ### Link faults, recoveries and mounts -/

theorem test_witness_Aborts_idle :
    let s := (reporting 1).updPort .A (fun p => { p with
      transfers := p.transfers ++ [{ transfer .outward 2 0 [1, 2] with request := 8 }] })
    let t := { s with nextId := 9 }
    t.between = true ∧ t.accepts .A (abortBlock 1 9) = true ∧
      (t.reqs .A).filter (fun x => x.tag == 9) = [request .status .delivering] ∧
      ((after (.abort .A 1 9) t).port .A).transfers.map (fun x => x.request) = [8] ∧
      ((after (.abort .A 1 9) t).port .A).idle = idleCount t.ports.a.settings.idleLimit ∧
      ((after (.abort .A 1 9) (reporting 1)).port .A).idle = none ∧
      ((after (.abort .A 1 9) t).port .A).counters.completed = 2 := by decide +kernel

/-- The last tries of a link fault's five causes on a command with number 6. -/
def lastTries : List Instr :=
  [.damagedFrame, .commandTimeout, .response 6 (.refused .badFrame),
    .response 6 (.refused .seekError), .mechDataFrame 6 5 frame5]

theorem test_witness_LinkFaultEntersFaulted_causes :
    let s := failing .spinUp .cartridgeController (listed .mount .spinning)
    let t := failing (.readSectors 16 [5]) .mediaEngine ready
    s.between = true ∧ t.between = true ∧ s.link.remaining = some 0 ∧
      LinkCommand.spinUp.accepts (.refused .seekError) = false ∧
      wellPlaced [5] t.link.received 6 = false ∧ wellPlaced [5] [(5, frame5)] 5 = false ∧
      (∀ i ∈ lastTries, told i s = [(9, 0x16), (0, 0x86)] ∧
        (after i s).ctl.state = .faulted) ∧
      told (.mechDataFrame 6 6 frame5) t = [(0, 0x86)] ∧
      told (.mechDataFrame 6 5 frame5) t = [] := by decide +kernel

/-- A recovery with a MOUNT listed, its command's retries run out, an eject pending or not. -/
def failingRecovery (cmd : LinkCommand) (held eject : Bool) : State :=
  let s := holding (recovering cmd held eject) (request .mount .queued)
  { s with
    link := busyLink cmd .cartridgeController 0 2
    ctl := { s.ctl with mountRequesters := [(.A, 9)] } }

theorem test_witness_LinkFaultEntersFaulted_recovery (eject : Bool) :
    let s := failingRecovery .spinUp true eject
    s.between = true ∧ s.link.law7 = true ∧ s.ctl.recovering = true ∧ s.ctl.state = .faulted ∧
      s.policy.mechRetries ≤ s.link.retryCount.getD 0 ∧ s.link.state = .awaitingResponse ∧
      s.link.lastEvent ≠ some 4 ∧ s.reqByTag .A 9 = some (request .mount .queued) ∧
      ∀ i ∈ .mechFault 4 :: lastTries, told i s = [(9, 0x16), (0, 0x86)] ∧
        (after i s).ctl.state = (if eject then .ejecting else .faulted) := by
  cases eject <;> decide +kernel

theorem test_witness_StartupReportEnds_mounts :
    let faulty := { atSpeed with faultPresent := true, writeProtected := true }
    let s := failingRecovery .reportState true false
    s.between = true ∧ s.ctl.unmountAnswer = none ∧ s.ctl.unmountAsked = false ∧
      told (.response 6 (.done atSpeed)) s = [(9, 0x00), (0, 0x80)] ∧
      told (.response 6 (.done { atSpeed with writeProtected := true })) s =
        [(9, 0x00), (0, 0x84), (0, 0x80)] ∧
      told (.response 6 (.done faulty)) s = [(9, 0x16), (0, 0x84), (0, 0x86)] ∧
      told (.response 6 (.done noMedia)) s = [(9, 0x06), (0, 0x85), (0, 0x82)] ∧
      told (.response 6 (.done atSpeed)) (failingRecovery .spinUp false false) = [] := by
  decide +kernel

/-- The start-up report outstanding in a cartridge state, a MOUNT listed. -/
def startingUp (st : CartridgeState) : State :=
  let s := failing .reportState .cartridgeController (listed .mount st)
  { s with ctl := { s.ctl with startupReport := true } }

theorem test_witness_StartupReportEnds_fault (media : Bool) (st : CartridgeState)
    (h : st = .empty ∨ st = .spinning) :
    let rec' := { atSpeed with faultPresent := true, mediaPresent := media, writeProtected := true }
    let s := startingUp st
    s.between = true ∧ s.ctl.startupReport = true ∧ s.ctl.state = st ∧ s.works = [] ∧
      (after (.response 6 (.done rec')) s).ctl.state = .faulted ∧
      (after (.response 6 (.done rec')) s).ctl.writeProtect = true ∧
      told (.response 6 (.done rec')) s =
        (if st = .empty then [(0, 0x86)] else [(9, 0x16), (0, 0x86)]) := by
  rcases h with rfl | rfl <;> cases media <;> decide +kernel

theorem test_witness_StartupReportEnds_spinning :
    let s := startingUp .spinning
    (after (.response 6 (.done noMedia)) s).link.outstanding.map (fun c => c.command) =
        some .spinUp ∧
      (after (.response 6 (.done noMedia)) s).ctl.state = .spinning ∧
      (after (.response 6 (.done noMedia)) s).ctl.startupReport = false := by decide +kernel

/-- An INDEX FETCH whose outcomes are known, a MOUNT listed, the retries run out. -/
def mounting (track : Nat) (outs : List DecoderOutcome) : State :=
  let s := holding (indexFetching track false) (request .mount .queued)
  { s with
    link := busyLink (.readSectors track [0]) .mediaEngine 40 2
    ctl := { s.ctl with mountRequesters := [(.A, 9)] }
    engine := s.engine.map (fun op => { op with
      outcomes := outs.zipIdx.map (fun x =>
        { sector := x.2, lsn := none, outcome := some x.1, settled := true, rereads := 0 }) }) }

theorem test_witness_StagedListReadsBack_mounts :
    let listed1 := ready.dm.stage.staging.map DecoderOutcome.clean
    (mounting 0 track0).between = true ∧
      (LinkCommand.readSectors 0 [0]).accepts (.refused .seekError) = true ∧
      (mounting 0 track0).policy.mechRetries ≤ (mounting 0 track0).link.retryCount.getD 0 ∧
      told (.response 6 (.refused .seekError)) (mounting 0 []) = [(9, 0x11), (0, 0x81)] ∧
      told (.response 6 (.done atSpeed)) (mounting 0 track0) = [] ∧
      told (.response 6 (.refused .seekError)) (mounting 0 track0) = [] ∧
      told (.response 6 (.refused .seekError)) (mounting 1 listed1) = [(9, 0x00), (0, 0x80)] ∧
      told (.response 6 (.refused .seekError)) (mounting 1 []) =
        [(9, 0x00), (0, 0x80), (0, 0x84)] := by decide +kernel

theorem test_witness_WritePassesEnd_protected_unmounting (asked answered : Bool) :
    let s := savingMap false
    let t := { s with
      engine := s.engine.map (fun op => { op with kind := .erasePass })
      link := busyLink (.eraseSectors 1 (List.range 16)) .mediaEngine 40 0
      ctl := { s.ctl with state := .unmounting, unmountAsked := asked,
                          unmountAnswer := if answered then some .saved else none } }
    t.between = true ∧
      (after (.response 6 (.refused .writeProtected)) t).ctl.state =
        (if asked || answered then .ejecting else .unmounting) ∧
      (after (.response 6 (.refused .writeProtected)) t).link.outstanding.map (fun c => c.command) =
        (if asked || answered then some .eject else none) := by
  cases asked <;> cases answered <;> decide +kernel

/-! ### What becomes of discarded requests and of slots given up -/

/-- A slot of LSN 5 with a work, held by the READs with some numbers. -/
def heldSlot (st : SlotState) (wk : Option Work) (begun : Bool) (reads : List Nat) : Slot :=
  { Slot.reset with
    state := st, lsn := some 5, work := wk, fetchBegun := begun
    bindings := reads.map (fun id => { ch := .A, id := id, waiting := st == .filling })
    holdCount := if reads = [] then 0 else 1
    charged := .channel .A, chargedFor := some 0
    stage := if st = .writing then some .queued else none }

/-- That slot as slot 3, which it is once work 0 has given it up, or READ 0 has left it. -/
def givenUp (x : Slot) : Slot := ((ready.setSlot 3 x).giveUpSlot 0 3).slotAt 3

def leftBy0 (x : Slot) : Slot := ((ready.setSlot 3 x).releaseBinding 0 3 false).slotAt 3

theorem test_witness_PortControl_giveUp :
    let w := some (Work.write 0)
    (∀ st ∈ [SlotState.writing, .filling, .fetching],
      (heldSlot st w false []).workId = some 0 ∧ (givenUp (heldSlot st w false [])).state = .free) ∧
      (givenUp (heldSlot .writing w false [7])).stale = true ∧
      (givenUp (heldSlot .filling w false [7, 8])).work = some (.read .A 7) ∧
      (givenUp (heldSlot .filling w false [7, 8])).state = .fetching ∧
      (givenUp (heldSlot .fetching w false [7, 8])).work = some (.read .A 7) ∧
      givenUp (heldSlot .fetching w true []) = heldSlot .fetching w true [] ∧
      givenUp (heldSlot .clean none false [7]) = heldSlot .clean none false [7] := by decide +kernel

theorem test_witness_PortControl_release :
    let r := some (Work.read .A 0)
    (leftBy0 (heldSlot .fetching r false [0])).state = .free ∧
      (leftBy0 (heldSlot .fetching r false [0, 7])).work = some (.read .A 7) ∧
      (leftBy0 { heldSlot .clean none false [0] with stale := true }).state = .free ∧
      (leftBy0 { heldSlot .fetching r true [0] with stale := true }).state = .fetching ∧
      (leftBy0 (heldSlot .clean none false [0])).charged = .none ∧
      (leftBy0 (heldSlot .clean none false [0, 7])).charged = .internal ∧
      (leftBy0 (heldSlot .fetching r true [0])).charged = .channel .A := by decide +kernel

theorem test_witness_PortControl_discards :
    let r := readFrom0 0
    let w := work .filling (some 3)
    r.kind = .read ∧ (r.sectors.filterMap ReadSector.slot?) = [0] ∧
      (((delivering 0 5).discardRequest r).slotAt 0).bindings = [] ∧
      (filling 0 5).discardRequest (request .flushMap .queued) = filling 0 5 ∧
      (filling 0 5).findWork 0 = some w ∧ (w.sectors.filterMap (fun x => x.slot)).Nodup ∧
      ((filling 0 5).discardRequest (request .write .filling)).works = [] ∧
      ((writing .erase).discardRequest (request .write .active)).works.map (fun v => v.owner) =
        [none] ∧
      (((writing .erase).discardRequest (request .write .active)).slotAt 3).charged = .internal ∧
      (runDue (some .A) [run5]).works.map (fun v => v.followUps) = [[run5]] ∧
      ((runDue (some .A) [run5]).discardRequest (request .write .active)).works.map
        (fun v => (v.owner, v.followUps)) = [(none, [run5])] := by decide +kernel

theorem test_witness_DataWriteCompletesFill_readers :
    let s := filling 1023 5
    let t := s.setSlot 3 { s.slotAt 3 with bindings := [{ ch := .B, id := 7, waiting := true }] }
    t.between = true ∧ (t.findReq .A 0).map (fun r => r.kind) = some .write ∧
      ((after (.dataWrite .A 9) t).slotAt 3).bindings = [{ ch := .B, id := 7, waiting := false }] ∧
      ((after (.dataWrite .A 9) t).findReq .A 0).map (fun r => r.state) = some .active := by
  decide +kernel

theorem test_witness_WriteAccepted_current (begun : Bool) :
    let held := (cleanAt 0 ready).setSlot 0 (heldSlot .fetching (some (.read .A 0)) begun [0])
    (cleanAt 0 ready).currentSlot 5 = some 0 ∧ ((cleanAt 0 ready).slotAt 0).claimed = false ∧
      (after (.write .A 1 5 1) (cleanAt 0 ready)).currentSlot 5 = some 0 ∧
      held.between = true ∧ held.worksOwned = true ∧ held.pool.placed = true ∧
      held.currentSlot 5 = some 0 ∧ (held.slotAt 0).bindings ≠ [] ∧
      (after (.write .A 1 5 1) held).currentSlot 5 = some 1 ∧
      ((after (.write .A 1 5 1) held).slotAt 0).stale = true := by
  cases begun <;> decide +kernel

/-! ### The end of a step, and the ends of pieces of work -/

theorem test_witness_PendingNoticesArePosted_order :
    let s := { holding ready (request .flushMap .done) with raised := [.readOnly, .mapLost] }
    ((State.finish ready s).port .A).outbox.map (fun b => (b.tag, b.status)) =
        [(9, 0x00), (0, 0x84), (0, 0x85)] ∧
      ((State.finish ready s).port .B).outbox.map (fun b => b.status) = [0x84, 0x85] := by
  decide +kernel

theorem test_witness_HeadSchedulerChoice_taken :
    let s := rescueDue.beginRescue.examineRescue
    let w := { work .runs (some 3) with followUps := [run5] }
    s.dm.firstRun (s.unbegunLsns (.rescue 1)) = some run5 ∧
      (s.takeOffered (.fetch (.rescue 1))).engine.map (fun op => op.kind) = some .fetch ∧
      (s.takeOffered (.fetch (.rescue 1))).sched = s.sched ∧
      (w.takeRun run5).followUps = [] ∧
      ((work .runs (some 3)).takeRun run5).sectors.map (fun x => x.covered) = [true] := by
  decide +kernel

/-- The write work of request 0 with results for LSNs 5 and 6, its slots given back. -/
def resolved (k : WorkKind) (second : SectorResult) : WriteWork :=
  { work .runs none with
    kind := k, worstLoad := some 3, owner := if k = .rescue then none else some .A
    sectors := [{ workSector none with result := some .passed },
                { workSector none with lsn := 6, result := some second }] }

/-- READY with that work and its request. -/
def ending (k : WorkKind) (second : SectorResult) : State :=
  { holding ready (request .write .active) with works := [resolved k second] }

theorem test_witness_WritePassesEnd_work (k : WorkKind)
    (second : SectorResult) (h : second = .passed ∨ second = .failed .writeFailed) :
    let s := ending k second
    s.findWork 0 = some (resolved k second) ∧ s.idsInOrder = true ∧
      (resolved k second).followUps = [] ∧ s.sched.openRun = none ∧
      s.findReq .A 0 = some (request .write .active) ∧ (s.checkWorkEnd 0).works = [] ∧
      ((s.checkWorkEnd 0).dm.rescuesDone, (s.checkWorkEnd 0).dm.rescuesDropped) =
        (if k = .rescue then (if second = .passed then (1, 0) else (0, 1)) else (0, 0)) ∧
      ((State.finish s (s.checkWorkEnd 0)).port .A).outbox.map
          (fun b => (b.status, b.result, b.lsn, b.load, b.flags)) =
        (if k = .rescue then [] else if second = .passed then [(0x00, 2, 0xFFFFFF, 3, 2)]
          else [(0x12, 1, 6, 3, 2)]) := by
  rcases h with rfl | rfl <;> cases k <;> decide +kernel

theorem test_witness_WritePassesEnd_work_stays :
    (writing .verify).findWork 0 ≠ none ∧ (writing .verify).checkWorkEnd 0 = writing .verify ∧
      (runDue (some .A) [run5]).findWork 0 ≠ none ∧
      (runDue (some .A) [run5]).checkWorkEnd 0 = runDue (some .A) [run5] ∧
      ((writing .verify).addFollowUps 0 [5]).works.map (fun w => w.followUps.length) = [1] := by
  decide +kernel

theorem test_witness_WritePassesEnd_unmount (back : Bool) :
    let s := savingMap back
    let t := { s with ctl := { s.ctl with state := .unmounting, unmountAsked := true } }
    t.between = true ∧ t.ctl.unmountAnswer = none ∧
      (after (.response 6 (.done atSpeed)) t).ctl.unmountAnswer =
        some (if back then .saved else .notSaved) ∧
      (after (.response 6 (.done atSpeed)) t).ctl.state = .ejecting := by
  cases back <;> decide +kernel

/-- READY with the run of a WRITE at its erase pass and a FLUSH MAP waiting behind it. -/
def writingAndFlushing : State :=
  let s := passing .erasePass .erase (.eraseSectors 16 [5])
  { s with
    requests := { s.requests with
      a := s.requests.a ++ [{ request .flushMap .queued with id := 1, tag := 8 }] }
    nextId := 2 }

theorem test_witness_WritePassesEnd_protected_requests :
    writingAndFlushing.between = true ∧ writingAndFlushing.findWork 1 = none ∧
      writingAndFlushing.findWork 0 ≠ none ∧
      told (.response 6 (.refused .writeProtected)) writingAndFlushing =
        [(9, 0x08), (8, 0x17), (0, 0x84)] := by decide +kernel

theorem test_witness_MediaInIsTaken_requests :
    (filling 0 5).between = true ∧ (filling 0 5).findWork 0 ≠ none ∧
      (filling 0 5).sched.openRun = none ∧
      told (.mediaIn 4 true) (filling 0 5) = [(9, 0x08), (0, 0x84)] ∧
      told (.mediaIn 4 true) writingAndFlushing = [(8, 0x17), (0, 0x84)] := by decide +kernel

theorem test_witness_events_cancel_the_startup_report :
    let s := failing .reportState .cartridgeController (inState .empty)
    let t := { s with ctl := { s.ctl with startupReport := true } }
    t.between = true ∧ t.link.lastEvent ≠ some 4 ∧ t.ctl.recovering = false ∧
      completes (.mediaOut 4) t = true ∧ after (.mediaOut 4) t = t.eventCancels 4 ∧
      (t.eventCancels 4).ctl.startupReport = false ∧ (t.eventCancels 4).link.outstanding = none ∧
      told (.mechFault 4) t = [(0, 0x86)] ∧
      (after (.mechFault 4) t).link = (t.eventCancels 4).link := by decide +kernel

theorem test_witness_DataIdleLimitExpires_values :
    told (.dataTimeout .A) (filling 5 0) = [(9, 0x0F)] ∧
      ((after (.dataTimeout .A) (filling 5 0)).slotAt 3).state = .free ∧
      ((after (.dataTimeout .A) (delivering 4 0)).port .A).outbox.map
        (fun b => (b.status, b.result, b.flags)) = [(0x0F, 0, 16)] := by decide +kernel

end Sys2Proof.Tests
end

section
/-! SUPPORT AND PROOF. The slip walk, the bands' capacities, and the home of an LSN (R20 to R26); O50. -/

namespace Sys2Proof.Proofs.LogicalAddressing

open Sys2Proof.Machine

/-! ### The slip walk (R24) -/

/-- The walk steps once past each slip below its end. -/
theorem slipWalk_eq_add_slips_below {es : List Nat} (h : es.Pairwise (· < ·)) (p : Nat) :
    slipWalk es p = p + es.countP (fun e => decide (e < slipWalk es p)) := by
  induction es generalizing p with
  | nil => rfl
  | cons e es ih =>
    obtain ⟨hlt, hes⟩ := List.pairwise_cons.mp h
    by_cases hep : e ≤ p
    · have hstep : slipWalk (e :: es) p = slipWalk es (p + 1) := if_pos hep
      have hpassed : e < slipWalk es (p + 1) := by
        have := (slipWalk_le es (p + 1)).1
        omega
      rw [hstep, List.countP_cons_of_pos (by simpa using hpassed), ← Nat.add_assoc,
        Nat.add_right_comm]
      exact ih hes (p + 1)
    · have hstop : slipWalk (e :: es) p = p := if_neg hep
      have hnone : (e :: es).countP (fun x => decide (x < p)) = 0 := by
        rw [List.countP_eq_zero]
        intro x hx
        rcases List.mem_cons.mp hx with rfl | hx
        · simpa using Nat.le_of_lt (Nat.lt_of_not_le hep)
        · have := hlt x hx
          simp only [decide_eq_true_eq]
          omega
      rw [hstop, hnone, Nat.add_zero]

/-- The positions below n divide into the slipped and the unslipped ones. -/
theorem unslipped_below_add_slips_below {es : List Nat} (h : es.Nodup) (n : Nat) :
    ((List.range n).filter (fun p => decide (p ∉ es))).length +
      es.countP (fun e => decide (e < n)) = n := by
  have hperm : ((List.range n).filter (fun p => decide (p ∈ es))).Perm
      (es.filter (fun e => decide (e < n))) := by
    rw [List.perm_ext_iff_of_nodup (List.nodup_range.filter _) (h.filter _)]
    intro p
    simp [and_comm]
  have hsplit := List.length_eq_countP_add_countP (l := List.range n) (fun p => decide (p ∈ es))
  rw [List.length_range, List.countP_eq_length_filter, hperm.length_eq,
    ← List.countP_eq_length_filter] at hsplit
  rw [← List.countP_eq_length_filter]
  simp only [decide_eq_true_eq] at hsplit
  omega

/-- The walk ends with exactly o unslipped positions below it (R24). -/
theorem slipWalk_unslipped_below {es : List Nat} (h : es.Pairwise (· < ·)) (o : Nat) :
    ((List.range (slipWalk es o)).filter (fun p => decide (p ∉ es))).length = o := by
  have hdivided := unslipped_below_add_slips_below (h.imp Nat.ne_of_lt) (slipWalk es o)
  have hwalk := slipWalk_eq_add_slips_below h o
  omega

/-- Two offsets have two positions (R24). -/
theorem slipWalk_injective {es : List Nat} (h : es.Pairwise (· < ·)) {o q : Nat}
    (he : slipWalk es o = slipWalk es q) : o = q := by
  rw [← slipWalk_unslipped_below h o, he, slipWalk_unslipped_below h q]

/-! ### The band's lists and the LSN's home (R9, R23–R26) -/

theorem mem_slipsOf (d : DefectManager) (b p : Nat) : p ∈ d.slipsOf b ↔ (b, p) ∈ d.slips := by
  simp [DefectManager.slipsOf]

theorem mem_dataSlips (d : DefectManager) (b p : Nat) :
    p ∈ d.dataSlips b ↔ (b, p) ∈ d.slips ∧ p < (d.band b).dataPositions := by
  rw [DefectManager.dataSlips, List.mem_filter, mem_slipsOf, decide_eq_true_eq]

/-- A home is the slip walk's position for the band and offset of the LSN, with the spare that a MOVED
entry for that position names (R23, R24, R26). -/
theorem home_eq_some_iff (d : DefectManager) (lsn : Nat) (h : Home) : d.home lsn = some h ↔
    ∃ o, d.chooseBand lsn = some (h.band, o) ∧ h.pos = slipWalk (d.dataSlips h.band) o ∧
      h.spare = d.movedTo h.band h.pos := by
  obtain ⟨b, p, x⟩ := h
  simp only [DefectManager.home, Option.map_eq_some_iff, Home.mk.injEq, Prod.exists]
  constructor
  · rintro ⟨_, o, hc, rfl, rfl, rfl⟩
    exact ⟨o, hc, rfl, rfl⟩
  · rintro ⟨o, hc, rfl, rfl⟩
    exact ⟨b, o, hc, rfl, rfl, rfl⟩

/-! ### Capacity, and the band and offset of an LSN (R20, R21, R23) -/

theorem chooseBandFrom_eq_some_iff (caps : List Nat) (b₀ lsn b o : Nat) :
    chooseBandFrom caps b₀ lsn = some (b, o) ↔
      ∃ i, b = b₀ + i ∧ (∃ cap, caps[i]? = some cap ∧ o < cap) ∧ (caps.take i).sum + o = lsn := by
  induction caps generalizing b₀ lsn with
  | nil => simp [chooseBandFrom]
  | cons cap caps ih =>
    rw [chooseBandFrom]
    split
    case isTrue hhere =>
      rw [Option.some.injEq, Prod.mk.injEq]
      constructor
      · rintro ⟨rfl, rfl⟩
        exact ⟨0, rfl, ⟨cap, rfl, hhere⟩, by simp⟩
      · rintro ⟨i, rfl, ⟨c, hc, hlt⟩, hsum⟩
        cases i with
        | zero => exact ⟨rfl, by simpa using hsum.symm⟩
        | succ i =>
          rw [List.take_succ_cons, List.sum_cons] at hsum
          omega
    case isFalse hbeyond =>
      rw [ih]
      constructor
      · rintro ⟨i, rfl, hcap, hsum⟩
        refine ⟨i + 1, by omega, hcap, ?_⟩
        rw [List.take_succ_cons, List.sum_cons]
        omega
      · rintro ⟨i, rfl, ⟨c, hc, hlt⟩, hsum⟩
        cases i with
        | zero =>
          obtain rfl : cap = c := by simpa using hc
          simp only [List.take_zero, List.sum_nil] at hsum
          omega
        | succ i =>
          rw [List.take_succ_cons, List.sum_cons] at hsum
          exact ⟨i, by omega, ⟨c, hc, hlt⟩, by omega⟩

theorem chooseBandFrom_isSome_iff (caps : List Nat) (b lsn : Nat) :
    (chooseBandFrom caps b lsn).isSome ↔ lsn < caps.sum := by
  induction caps generalizing b lsn with
  | nil => simp [chooseBandFrom]
  | cons cap caps ih =>
    rw [chooseBandFrom, List.sum_cons]
    split
    · simp only [Option.isSome_some, true_iff]
      omega
    · rw [ih]
      omega

/-- The band and offset of an LSN (R23). -/
theorem chooseBand_eq_some_iff (d : DefectManager) (lsn b o : Nat) :
    d.chooseBand lsn = some (b, o) ↔ b < d.bands.length ∧ o < d.bandCapacity b ∧
      ((List.range b).map d.bandCapacity).sum + o = lsn := by
  have hcap : ∀ i c, d.bandCapacities[i]? = some c ↔ i < d.bands.length ∧ d.bandCapacity i = c := by
    intro i c
    simp only [DefectManager.bandCapacities, List.getElem?_map, Option.map_eq_some_iff,
      List.getElem?_eq_some_iff, List.length_range, List.getElem_range]
    constructor
    · rintro ⟨_, ⟨hi, rfl⟩, hc⟩
      exact ⟨hi, hc⟩
    · rintro ⟨hi, hc⟩
      exact ⟨i, ⟨hi, rfl⟩, hc⟩
  have htake : ∀ i ≤ d.bands.length,
      d.bandCapacities.take i = (List.range i).map d.bandCapacity := by
    intro i hi
    rw [DefectManager.bandCapacities, ← List.map_take, List.take_range, Nat.min_eq_left hi]
  rw [DefectManager.chooseBand, chooseBandFrom_eq_some_iff]
  constructor
  · rintro ⟨i, rfl, ⟨c, hc, hlt⟩, hsum⟩
    obtain ⟨hi, rfl⟩ := (hcap i c).mp hc
    rw [Nat.zero_add, ← htake i (Nat.le_of_lt hi)]
    exact ⟨hi, hlt, hsum⟩
  · rintro ⟨hb, ho, hsum⟩
    exact ⟨b, (Nat.zero_add b).symm, ⟨_, (hcap b _).mpr ⟨hb, rfl⟩, ho⟩,
      by rwa [htake b (Nat.le_of_lt hb)]⟩

/-- Data positions less the slip entries below them (R20). -/
theorem bandCapacity_eq (d : DefectManager) (b : Nat) :
    d.bandCapacity b = (d.band b).dataPositions -
      (d.slips.filter (fun e => e.1 == b && decide (e.2 < (d.band b).dataPositions))).length := by
  simp only [DefectManager.bandCapacity, DefectManager.dataSlips, DefectManager.slipsOf,
    List.filter_map, List.filter_filter, List.length_map, Function.comp_def, Bool.and_comm]

theorem home_band_capacity_ne_zero {d : DefectManager} {lsn : Nat} {h : Home}
    (hhome : d.home lsn = some h) : d.bandCapacity h.band ≠ 0 := by
  obtain ⟨o, hband, -, -⟩ := (home_eq_some_iff d lsn h).mp hhome
  obtain ⟨-, ho, -⟩ := (chooseBand_eq_some_iff d lsn h.band o).mp hband
  omega

/-- An LSN has a place exactly below the capacity (R21). -/
theorem translate_isSome_iff (d : DefectManager) (lsn : Nat) :
    (d.translate lsn).isSome ↔ lsn < d.capacity := by
  rw [DefectManager.translate, Option.isSome_map, DefectManager.home, Option.isSome_map]
  exact chooseBandFrom_isSome_iff d.bandCapacities 0 lsn

theorem translate_of_home {d : DefectManager} {lsn : Nat} {h : Home}
    (hhome : d.home lsn = some h) : d.translate lsn = some (d.placeOf h) := by
  rw [DefectManager.translate, hhome, Option.map_some]

theorem home_of_translate {d : DefectManager} {lsn : Nat} {p : Place}
    (hp : d.translate lsn = some p) : ∃ h, d.home lsn = some h ∧ d.placeOf h = p :=
  Option.map_eq_some_iff.mp hp

/-! ### The statement of the slip walk -/

/-- Settles O50: the walk by induction on the slips it passes. -/
theorem slipWalk : Obligations.SlipWalk := by
  refine ⟨fun _ => rfl, fun _ _ _ => rfl,
    fun es o h => ⟨slipWalk_not_mem h o, slipWalk_unslipped_below h o⟩,
    fun d lsn h hhome => ?_, fun d b h => dataSlips_ascend h b, mem_dataSlips⟩
  obtain ⟨o, hband, hpos, -⟩ := (home_eq_some_iff d lsn h).mp hhome
  exact ⟨o, hband, hpos⟩

end Sys2Proof.Proofs.LogicalAddressing
end

section
/-! SUPPORT. Places in a sound map (R27, R28): one place has one home. -/

namespace Sys2Proof.Proofs.LogicalAddressing

open Sys2Proof.Machine

/-- The place of an LSN that lives at its data position (R27). -/
theorem placeOf_data {d : DefectManager} {h : Home} (hx : h.spare = none) :
    d.placeOf h = ((d.band h.band).firstTrack + h.pos / (d.band h.band).sectorsPerTrack,
      h.pos % (d.band h.band).sectorsPerTrack) := by
  rw [DefectManager.placeOf, hx]
  rfl

/-- The place of an LSN that lives at a spare (R27). -/
theorem placeOf_spare {d : DefectManager} {h : Home} {x : Nat} (hx : h.spare = some x) :
    d.placeOf h = ((d.band h.band).firstTrack +
        ((d.band h.band).trackCount - (d.band h.band).spareTracks) +
          x / (d.band h.band).sectorsPerTrack,
      x % (d.band h.band).sectorsPerTrack) := by
  rw [DefectManager.placeOf, hx]
  rfl

/-- Contiguous bands begin at their first track or above it, and a later band begins where an earlier one
has ended. -/
theorem bandsContiguous_getElem {first : Nat} {bs : List BandRecord}
    (h : bandsContiguous first bs = true) {i : Nat} {b : BandRecord} (hi : bs[i]? = some b) :
    first ≤ b.firstTrack ∧
      ∀ j c, i < j → bs[j]? = some c → b.firstTrack + b.trackCount ≤ c.firstTrack := by
  induction bs generalizing first i b with
  | nil => simp at hi
  | cons x xs ih =>
    simp only [bandsContiguous, Bool.and_eq_true, beq_iff_eq] at h
    obtain ⟨hx, hxs⟩ := h
    cases i with
    | zero =>
      obtain rfl : x = b := by simpa using hi
      refine ⟨Nat.le_of_eq hx.symm, fun j c hj hc => ?_⟩
      obtain ⟨k, rfl⟩ : ∃ k, j = k + 1 := ⟨j - 1, by omega⟩
      rw [hx]
      exact (ih hxs (by simpa using hc)).1
    | succ i =>
      obtain ⟨hfirst, hlater⟩ := ih hxs hi
      refine ⟨by omega, fun j c hj hc => ?_⟩
      obtain ⟨k, rfl⟩ : ∃ k, j = k + 1 := ⟨j - 1, by omega⟩
      exact hlater k c (by omega) (by simpa using hc)

theorem band_getElem? {d : DefectManager} {b : Nat} (hb : b < d.bands.length) :
    d.bands[b]? = some (d.band b) := by
  rw [DefectManager.band, List.getD_eq_getElem?_getD, List.getElem?_eq_getElem hb]
  rfl

/-- A band of a sound map has its spare tracks among its own tracks, and stands behind the index tracks
(R12). -/
theorem mapSound_band {d : DefectManager} (w : d.mapSound = true) {b : Nat}
    (hb : b < d.bands.length) :
    (d.band b).spareTracks ≤ (d.band b).trackCount ∧ 2 ≤ (d.band b).firstTrack := by
  obtain ⟨⟨hrange, hcontiguous⟩, -⟩ := (mapSound_iff d).mp w
  have hin := List.all_eq_true.mp hrange _ (List.mem_of_getElem? (band_getElem? hb))
  simp only [BandRecord.inRange, Bool.and_eq_true, decide_eq_true_eq] at hin
  exact ⟨by omega, (bandsContiguous_getElem hcontiguous (band_getElem? hb)).1⟩

/-- A later band of a sound map begins where an earlier one has ended (R12). -/
theorem mapSound_bands_apart {d : DefectManager} (w : d.mapSound = true) {b c : Nat} (hbc : b < c)
    (hc : c < d.bands.length) :
    (d.band b).firstTrack + (d.band b).trackCount ≤ (d.band c).firstTrack := by
  obtain ⟨⟨-, hcontiguous⟩, -⟩ := (mapSound_iff d).mp w
  have hb := band_getElem? (Nat.lt_trans hbc hc)
  exact (bandsContiguous_getElem hcontiguous hb).2 c _ hbc (band_getElem? hc)

/-- Where no spare is used twice, one spare has one entry (R16). -/
theorem eq_of_spareUsed_eq {es : List MapEntry} (h : (es.map MapEntry.spareUsed).Nodup)
    {m n : MapEntry} (hm : m ∈ es) (hn : n ∈ es) (he : m.spareUsed = n.spareUsed) : m = n := by
  induction es with
  | nil => cases hm
  | cons e es ih =>
    rw [List.map_cons, List.nodup_cons] at h
    obtain ⟨hfirst, hrest⟩ := h
    rcases List.mem_cons.mp hm with rfl | hmlater
    · rcases List.mem_cons.mp hn with rfl | hnlater
      · rfl
      · exact absurd (he ▸ List.mem_map_of_mem hnlater) hfirst
    · rcases List.mem_cons.mp hn with rfl | hnlater
      · exact absurd (he ▸ List.mem_map_of_mem hmlater) hfirst
      · exact ih hrest hmlater hnlater

/-- The spare of a home is one a MOVED entry names, a spare position of its band, not slipped, and not
RETIRED (R16, R26). -/
theorem mapSound_spare {d : DefectManager} (w : d.mapSound = true) {lsn : Nat} {h : Home}
    (hhome : d.home lsn = some h) {x : Nat} (hx : h.spare = some x) :
    MapEntry.moved h.band h.pos x ∈ d.replacement ∧ x < (d.band h.band).sparePositions ∧
      (h.band, (d.band h.band).dataPositions + x) ∉ d.slips ∧
        MapEntry.retired h.band x ∉ d.replacement := by
  obtain ⟨-, -, hvalid, -, hspares⟩ := (mapSound_iff d).mp w
  have hmoved : MapEntry.moved h.band h.pos x ∈ d.replacement := movedTo_some (home_spare hhome ▸ hx)
  have hentry := hvalid _ hmoved
  simp only [DefectManager.entryValid, Bool.and_eq_true, decide_eq_true_eq, Bool.not_eq_true',
    List.contains_eq_mem, decide_eq_false_iff_not, mem_slipsOf] at hentry
  obtain ⟨⟨⟨⟨-, hposition⟩, -⟩, -⟩, hslip⟩ := hentry
  refine ⟨hmoved, hposition, hslip, fun hretired => ?_⟩
  have := eq_of_spareUsed_eq hspares hmoved hretired rfl
  cases this

/-- A data position lies on one of the data tracks (R27). -/
theorem div_lt_dataTracks {b : BandRecord} {p : Nat} (hp : p < b.dataPositions) :
    p / b.sectorsPerTrack < b.dataTracks :=
  Nat.div_lt_of_lt_mul (by rwa [Nat.mul_comm])

/-- A spare lies on one of the spare tracks (R27). -/
theorem div_lt_spareTracks {b : BandRecord} {x : Nat} (hx : x < b.sparePositions) :
    x / b.sectorsPerTrack < b.spareTracks :=
  Nat.div_lt_of_lt_mul (by rwa [Nat.mul_comm])

/-- Where the place of an LSN in a sound map stands: on the data tracks of its band at its position, or on
the spare tracks at its spare (R27). -/
theorem mapSound_place_track {d : DefectManager} (w : d.mapSound = true) {lsn : Nat} {h : Home}
    (hhome : d.home lsn = some h) :
    (d.band h.band).firstTrack ≤ (d.placeOf h).1 ∧
      (d.placeOf h).1 < (d.band h.band).firstTrack + (d.band h.band).trackCount ∧
        (h.spare = none ↔
          (d.placeOf h).1 < (d.band h.band).firstTrack + (d.band h.band).dataTracks) := by
  obtain ⟨hspare, -⟩ := mapSound_band w (home_band_lt hhome)
  have hpos := div_lt_dataTracks (home_pos hhome ((mapSound_iff d).mp w).2.1).1
  have htracks : (d.band h.band).dataTracks + (d.band h.band).spareTracks =
      (d.band h.band).trackCount := Nat.sub_add_cancel hspare
  cases hx : h.spare with
  | none =>
    rw [placeOf_data hx]
    generalize h.pos / (d.band h.band).sectorsPerTrack = q at hpos ⊢
    simp only [true_iff]
    omega
  | some x =>
    have hlt := div_lt_spareTracks (mapSound_spare w hhome hx).2.1
    rw [placeOf_spare hx]
    generalize x / (d.band h.band).sectorsPerTrack = q at hlt ⊢
    simp only [reduceCtorEq, false_iff]
    unfold BandRecord.dataTracks
    omega

theorem home_ext {h k : Home} (hb : h.band = k.band) (hp : h.pos = k.pos)
    (hs : h.spare = k.spare) : h = k := by
  cases h
  cases k
  cases hb
  cases hp
  cases hs
  rfl

/-- In a sound map one place has one home (R28). -/
theorem mapSound_home_eq {d : DefectManager} (w : d.mapSound = true) {l m : Nat} {h k : Home}
    (hl : d.home l = some h) (hm : d.home m = some k) (he : d.placeOf h = d.placeOf k) : h = k := by
  obtain ⟨hlow, hhigh, hdata⟩ := mapSound_place_track w hl
  obtain ⟨klow, khigh, kdata⟩ := mapSound_place_track w hm
  have hband : h.band = k.band := by
    rcases Nat.lt_trichotomy h.band k.band with hlt | heq | hlt
    · have := mapSound_bands_apart w hlt (home_band_lt hm)
      rw [he] at hhigh
      omega
    · exact heq
    · have := mapSound_bands_apart w hlt (home_band_lt hl)
      rw [he] at hlow
      omega
  have hkind : h.spare = none ↔ k.spare = none := by rw [hdata, kdata, he, hband]
  cases hx : h.spare with
  | none =>
    have ky := hkind.mp hx
    have hplaces := he
    rw [placeOf_data hx, placeOf_data ky, hband, Prod.mk.injEq] at hplaces
    have hpos : h.pos = k.pos := Nat.ext_div_mod (Nat.add_left_cancel hplaces.1) hplaces.2
    exact home_ext hband hpos (hx.trans ky.symm)
  | some x =>
    cases ky : k.spare with
    | none => exact absurd (hkind.mpr ky) (by simp [hx])
    | some y =>
      have hplaces := he
      rw [placeOf_spare hx, placeOf_spare ky, hband, Prod.mk.injEq] at hplaces
      obtain rfl : x = y := Nat.ext_div_mod (Nat.add_left_cancel hplaces.1) hplaces.2
      obtain ⟨-, -, -, -, hspares⟩ := (mapSound_iff d).mp w
      have hentry := eq_of_spareUsed_eq hspares (mapSound_spare w hl hx).1
        (mapSound_spare w hm ky).1 (by rw [MapEntry.spareUsed, MapEntry.spareUsed, hband])
      rw [MapEntry.moved.injEq] at hentry
      exact home_ext hband hentry.2.1 (hx.trans ky.symm)

/-- Two LSNs have two homes, since the slip walk gives two offsets two positions (R23, R24). -/
theorem home_injective {d : DefectManager} (ha : ascending slipLt d.slips = true) {l m : Nat}
    {h : Home} (hl : d.home l = some h) (hm : d.home m = some h) : l = m := by
  obtain ⟨o, hband, hpos, -⟩ := (home_eq_some_iff d l h).mp hl
  obtain ⟨q, kband, kpos, -⟩ := (home_eq_some_iff d m h).mp hm
  obtain rfl : o = q := slipWalk_injective (dataSlips_ascend ha h.band) (hpos ▸ kpos)
  obtain ⟨-, -, hl⟩ := (chooseBand_eq_some_iff d l h.band o).mp hband
  obtain ⟨-, -, hm⟩ := (chooseBand_eq_some_iff d m h.band o).mp kband
  rw [← hl, hm]

theorem mapSound_translate_injective {d : DefectManager} (w : d.mapSound = true) {l m : Nat}
    {p : Place} (hl : d.translate l = some p) (hm : d.translate m = some p) : l = m := by
  obtain ⟨h, hh, hp⟩ := home_of_translate hl
  obtain ⟨k, hk, kp⟩ := home_of_translate hm
  obtain rfl : h = k := mapSound_home_eq w hh hk (hp.trans kp.symm)
  exact home_injective ((mapSound_iff d).mp w).2.1 hh hk

theorem mapSound_two_le_track {d : DefectManager} (w : d.mapSound = true) {l : Nat} {p : Place}
    (hl : d.translate l = some p) : 2 ≤ p.1 := by
  obtain ⟨h, hh, rfl⟩ := home_of_translate hl
  exact Nat.le_trans (mapSound_band w (home_band_lt hh)).2 (mapSound_place_track w hh).1

theorem mapSound_home_unslipped {d : DefectManager} (w : d.mapSound = true) {l : Nat} {h : Home}
    (hh : d.home l = some h) : (d.band h.band).dataPositions > h.pos ∧ (h.band, h.pos) ∉ d.slips ∧
      ∀ x, h.spare = some x → .retired h.band x ∉ d.replacement ∧
        (h.band, (d.band h.band).dataPositions + x) ∉ d.slips := by
  obtain ⟨hpos, hslip⟩ := home_pos hh ((mapSound_iff d).mp w).2.1
  refine ⟨hpos, fun hm => hslip ((mem_slipsOf d h.band h.pos).mpr hm), fun x hx => ?_⟩
  obtain ⟨-, -, hspare, hretired⟩ := mapSound_spare w hh hx
  exact ⟨hretired, hspare⟩

end Sys2Proof.Proofs.LogicalAddressing
end

section
/-! SUPPORT AND PROOF. The runs of an ordered list of LSNs, and the follow-up runs (R31 to R34); O49. -/

namespace Sys2Proof.Proofs.LogicalAddressing

open Sys2Proof.Machine

/-! ### Runs (R31, R32, R34) -/

/-- The places that runs hold, with their LSNs, in the order in which the runs hold them. -/
def heldPlaces (rs : List Run) : List (Nat × Nat × Option Nat) :=
  rs.flatMap (fun r => r.sectors.map (fun x => (r.track, x.sector, x.lsn)))

/-- A placed LSN as a run holds it. -/
def heldPlace (p : Placed) : Nat × Nat × Option Nat := (p.place.1, p.place.2, some p.lsn)

/-- The run is not empty, and its sectors ascend (R31). -/
def Ascends (r : Run) : Prop :=
  r.sectors ≠ [] ∧ (r.sectors.map (fun x => x.sector)).Pairwise (· < ·)

/-- The run q does not go on where r ends: where it is on r's track, its first sector is not above r's last
(R31). -/
def Breaks (r q : Run) : Prop :=
  r.track = q.track → ∀ x y, r.sectors.getLast? = some x → q.sectors.head? = some y →
    y.sector ≤ x.sector

/-- Runs as R31 divides places. -/
def Divided (rs : List Run) : Prop :=
  (∀ r ∈ rs, Ascends r) ∧ ∀ i r q, rs[i]? = some r → rs[i + 1]? = some q → Breaks r q

/-- The place x stands before y, or is y: by track, then by sector (R34). -/
def NotAfter (x y : Place) : Prop := x.1 < y.1 ∨ (x.1 = y.1 ∧ x.2 ≤ y.2)

/-- The place x stands before y: by track, then by sector. -/
def Before (x y : Place) : Prop := x.1 < y.1 ∨ (x.1 = y.1 ∧ x.2 < y.2)

theorem map_heldPlace_placed (d : DefectManager) (lsns : List Nat) :
    (d.placed lsns).map heldPlace =
      lsns.filterMap (fun l => (d.translate l).map (fun p => (p.1, p.2, some l))) := by
  rw [DefectManager.placed, List.map_filterMap]
  simp only [Option.map_map, Function.comp_def, heldPlace]

theorem heldPlaces_runsFrom (ps : List Placed) (track last : Nat) (sectors : List RunSector) :
    heldPlaces (runsFrom track last sectors ps) =
      sectors.map (fun x => (track, x.sector, x.lsn)) ++ ps.map heldPlace := by
  induction ps generalizing track last sectors with
  | nil => simp [runsFrom, heldPlaces]
  | cons p ps ih =>
    rw [runsFrom]
    split
    case isTrue hjoins =>
      rw [ih]
      simp [Placed.runSector, heldPlace, hjoins.1]
    case isFalse =>
      rw [heldPlaces, List.flatMap_cons, ← heldPlaces, ih]
      rfl

/-- The runs of places hold them in list order (R31). -/
theorem heldPlaces_runsOf (ps : List Placed) : heldPlaces (runsOf ps) = ps.map heldPlace := by
  cases ps with
  | nil => rfl
  | cons p ps => exact heldPlaces_runsFrom ps ..

/-- The first of the runs formed on from a current run is on its track and begins with its sectors. -/
theorem runsFrom_head (ps : List Placed) (track last : Nat) (sectors : List RunSector) :
    ∃ q rest more, runsFrom track last sectors ps = q :: rest ∧ q.track = track ∧
      q.sectors = sectors ++ more := by
  induction ps generalizing last sectors with
  | nil => exact ⟨_, [], [], rfl, rfl, (List.append_nil _).symm⟩
  | cons p ps ih =>
    rw [runsFrom]
    split
    · obtain ⟨q, rest, more, hruns, htrack, hsectors⟩ := ih p.place.2 (sectors ++ [p.runSector])
      exact ⟨q, rest, _, hruns, htrack, by rw [hsectors, List.append_assoc]⟩
    · exact ⟨_, _, [], rfl, rfl, (List.append_nil _).symm⟩

theorem divided_singleton {r : Run} (hr : Ascends r) : Divided [r] :=
  ⟨by simpa using hr, by simp⟩

theorem divided_cons_cons {r q : Run} {rs : List Run} (hr : Ascends r) (hbreak : Breaks r q)
    (h : Divided (q :: rs)) : Divided (r :: q :: rs) := by
  obtain ⟨hascend, hbreaks⟩ := h
  refine ⟨List.forall_mem_cons.mpr ⟨hr, hascend⟩, fun i x y hx hy => ?_⟩
  cases i with
  | zero =>
    obtain rfl : r = x := by simpa using hx
    obtain rfl : q = y := by simpa using hy
    exact hbreak
  | succ i => exact hbreaks i x y hx hy

/-- The runs formed on from a current run are divided, where its sectors ascend to the last one given. -/
theorem runsFrom_divided (ps : List Placed) {track last : Nat} {sectors : List RunSector}
    {before : List Nat} (hsectors : sectors.map (fun x => x.sector) = before ++ [last])
    (hascend : (before ++ [last]).Pairwise (· < ·)) : Divided (runsFrom track last sectors ps) := by
  induction ps generalizing track last sectors before with
  | nil =>
    exact divided_singleton ⟨by rintro rfl; simp at hsectors, hsectors ▸ hascend⟩
  | cons p ps ih =>
    rw [runsFrom]
    split
    case isTrue hjoins =>
      refine ih (before := before ++ [last]) (by simp [hsectors, Placed.runSector]) ?_
      rw [List.pairwise_append] at hascend ⊢
      refine ⟨List.pairwise_append.mpr hascend, List.pairwise_singleton .., fun x hx y hy => ?_⟩
      obtain rfl := List.mem_singleton.mp hy
      rcases List.mem_append.mp hx with hx | hx
      · exact Nat.lt_trans (hascend.2.2 x hx last (List.mem_singleton_self last)) hjoins.2
      · obtain rfl := List.mem_singleton.mp hx
        exact hjoins.2
    case isFalse hbreaks =>
      obtain ⟨q, rest, more, hruns, htrack, hq⟩ :=
        runsFrom_head ps p.place.1 p.place.2 [p.runSector]
      have hrest := ih (track := p.place.1) (last := p.place.2) (sectors := [p.runSector])
        (before := []) rfl (List.pairwise_singleton ..)
      rw [hruns] at hrest ⊢
      refine divided_cons_cons ⟨by rintro rfl; simp at hsectors, hsectors ▸ hascend⟩ ?_ hrest
      intro hsame x y hx hy
      have hlast : x.sector = last := by
        have := congrArg List.getLast? hsectors
        rw [List.getLast?_map, hx] at this
        simpa using this
      obtain rfl : p.runSector = y := by simpa [hq] using hy
      rw [hlast]
      exact Nat.le_of_not_lt (fun hlt => hbreaks ⟨(hsame.trans htrack).symm, hlt⟩)

/-- The runs of places are divided as R31 says. -/
theorem runsOf_divided (ps : List Placed) : Divided (runsOf ps) := by
  cases ps with
  | nil => exact ⟨by simp [runsOf], by simp [runsOf]⟩
  | cons p ps => exact runsFrom_divided ps (before := []) rfl (List.pairwise_singleton ..)

/-- Where each place comes after the one before it, every new run is on a later track. -/
theorem runsFrom_tracks_ascend {ps : List Placed} {track last : Nat} (sectors : List RunSector)
    (hafter : ∀ p ∈ ps, Before (track, last) p.place)
    (hps : ps.Pairwise (fun x y => Before x.place y.place)) :
    ((runsFrom track last sectors ps).map (fun r => r.track)).Pairwise (· < ·) ∧
      ∀ r ∈ runsFrom track last sectors ps, track ≤ r.track := by
  induction ps generalizing track last sectors with
  | nil => simp [runsFrom]
  | cons p ps ih =>
    obtain ⟨hp, hlater⟩ := List.forall_mem_cons.mp hafter
    obtain ⟨hpfirst, hps⟩ := List.pairwise_cons.mp hps
    rw [runsFrom]
    split
    case isTrue hjoins => exact ih _ (hjoins.1 ▸ hpfirst) hps
    case isFalse hbreaks =>
      have htrack : track < p.place.1 := by
        rcases hp with hlt | ⟨hsame, hlt⟩
        · exact hlt
        · exact absurd ⟨hsame.symm, hlt⟩ hbreaks
      obtain ⟨hascend, hle⟩ := ih [p.runSector] hpfirst hps
      refine ⟨?_, ?_⟩
      · rw [List.map_cons, List.pairwise_cons]
        refine ⟨List.forall_mem_map.mpr fun r hr => ?_, hascend⟩
        exact Nat.lt_of_lt_of_le htrack (hle r hr)
      · refine List.forall_mem_cons.mpr ⟨Nat.le_refl _, fun r hr => ?_⟩
        exact Nat.le_trans (Nat.le_of_lt htrack) (hle r hr)

theorem runsOf_tracks_ascend {ps : List Placed}
    (hps : ps.Pairwise (fun x y => Before x.place y.place)) :
    ((runsOf ps).map (fun r => r.track)).Pairwise (· < ·) := by
  cases ps with
  | nil => exact List.Pairwise.nil
  | cons p ps =>
    obtain ⟨hafter, hps⟩ := List.pairwise_cons.mp hps
    exact (runsFrom_tracks_ascend _ hafter hps).1

/-! ### The order of the follow-up runs (R34) -/

theorem insertPlaced_perm (x : Placed) (ps : List Placed) : (insertPlaced x ps).Perm (x :: ps) := by
  induction ps with
  | nil => exact List.Perm.refl _
  | cons p ps ih =>
    rw [insertPlaced]
    split
    · exact List.Perm.refl _
    · exact (ih.cons p).trans (List.Perm.swap x p ps)

theorem insertPlaced_sorted {x : Placed} {ps : List Placed}
    (h : ps.Pairwise (fun x y => NotAfter x.place y.place)) :
    (insertPlaced x ps).Pairwise (fun x y => NotAfter x.place y.place) := by
  induction ps with
  | nil => exact List.pairwise_singleton ..
  | cons p ps ih =>
    obtain ⟨hp, hps⟩ := List.pairwise_cons.mp h
    rw [insertPlaced]
    split
    case isTrue hbefore =>
      refine List.pairwise_cons.mpr ⟨List.forall_mem_cons.mpr ⟨?_, fun q hq => ?_⟩, h⟩
      · unfold NotAfter
        omega
      · have := hp q hq
        unfold NotAfter at this ⊢
        omega
    case isFalse hnot =>
      refine List.pairwise_cons.mpr ⟨fun q hq => ?_, ih hps⟩
      rcases List.mem_cons.mp ((insertPlaced_perm x ps).mem_iff.mp hq) with rfl | hq
      · unfold NotAfter
        omega
      · exact hp q hq

/-- The places of reassigned LSNs in the order in which the follow-up runs take them. -/
def sortedPlaces (ps : List Placed) : List Placed := ps.foldr insertPlaced []

theorem followUpRuns_eq (d : DefectManager) (lsns : List Nat) :
    d.followUpRuns lsns = runsOf (sortedPlaces (d.placed lsns)) := rfl

theorem sortedPlaces_perm (ps : List Placed) : (sortedPlaces ps).Perm ps := by
  induction ps with
  | nil => exact List.Perm.refl _
  | cons p ps ih => exact (insertPlaced_perm p _).trans (ih.cons p)

theorem sortedPlaces_sorted (ps : List Placed) :
    (sortedPlaces ps).Pairwise (fun x y => NotAfter x.place y.place) := by
  induction ps with
  | nil => exact List.Pairwise.nil
  | cons p ps ih => exact insertPlaced_sorted ih

/-- Places that differ, sorted, stand each before the next. -/
theorem sortedPlaces_before {ps : List Placed} (h : (ps.map (fun p => p.place)).Nodup) :
    (sortedPlaces ps).Pairwise (fun x y => Before x.place y.place) := by
  have hdiffer : (sortedPlaces ps).Pairwise (fun x y => x.place ≠ y.place) :=
    List.pairwise_map.mp (((sortedPlaces_perm ps).map _).nodup_iff.mpr h)
  refine (List.Pairwise.and (sortedPlaces_sorted ps) hdiffer).imp ?_
  rintro x y ⟨hle, hne⟩
  have : ¬ (x.place.1 = y.place.1 ∧ x.place.2 = y.place.2) := fun h => hne (Prod.ext h.1 h.2)
  unfold NotAfter at hle
  unfold Before
  omega

/-! ### The statement of capacity, places and runs -/

/-- Settles O49: the bands' capacities by induction on the list of bands; one place has one home by the
bands' tracks, the division of a position by the sectors per track, the list's spares, and the slip walk;
the runs by induction on the places. -/
theorem validLsnsHaveAPlace : Obligations.ValidLsnsHaveAPlace := by
  refine ⟨fun d b => ⟨bandCapacity_eq d b, fun hzero lsn h hhome hb => ?_⟩,
    fun d lsn => ⟨rfl, translate_isSome_iff d lsn⟩, chooseBand_eq_some_iff,
    fun d lsn h hhome => ⟨fun x hx => ?_, fun hnone => ?_, ?_⟩,
    fun d w => ⟨fun l m p => mapSound_translate_injective w, fun l p => mapSound_two_le_track w,
      fun l h => mapSound_home_unslipped w⟩, fun d lsns => ?_⟩
  · exact home_band_capacity_ne_zero hhome (hb ▸ hzero)
  · exact movedTo_some (home_spare hhome ▸ hx)
  · exact movedTo_none (home_spare hhome ▸ hnone)
  · rw [translate_of_home hhome]
    cases hx : h.spare with
    | none => exact congrArg some (placeOf_data hx)
    | some x => exact congrArg some (placeOf_spare hx)
  · dsimp only
    rw [← map_heldPlace_placed, List.map_map]
    refine ⟨heldPlaces_runsOf _, runsOf_divided _, rfl, ?_, runsOf_divided _, ?_, fun hdiffer => ?_⟩
    · change (heldPlaces (d.followUpRuns lsns)).Perm _
      rw [followUpRuns_eq, heldPlaces_runsOf]
      exact (sortedPlaces_perm _).map _
    · change (heldPlaces (d.followUpRuns lsns)).Pairwise _
      rw [followUpRuns_eq, heldPlaces_runsOf]
      exact List.pairwise_map.mpr (sortedPlaces_sorted _)
    · exact runsOf_tracks_ascend (sortedPlaces_before hdiffer)

end Sys2Proof.Proofs.LogicalAddressing
end

section
/-! SUPPORT AND PROOF. Free spares and reassignment (R35 to R42); O52. -/

namespace Sys2Proof.Proofs.LogicalAddressing

open Sys2Proof.Machine

/-! ### Free spares (R35) -/

theorem spareFree_iff (d : DefectManager) (b s : Nat) : d.spareFree b s = true ↔
    (b, (d.band b).dataPositions + s) ∉ d.slips ∧
      (∀ p, MapEntry.moved b p s ∉ d.replacement) ∧ MapEntry.retired b s ∉ d.replacement := by
  have htargets : s ∈ d.movedTargets b ↔ ∃ p, MapEntry.moved b p s ∈ d.replacement :=
    mem_targetsIn b s d.replacement
  have hretired : s ∈ d.retiredSpares b ↔ MapEntry.retired b s ∈ d.replacement :=
    mem_retiredIn b s d.replacement
  simp only [DefectManager.spareFree, Bool.and_eq_true, Bool.not_eq_true', List.contains_eq_mem,
    decide_eq_false_iff_not, mem_slipsOf, htargets, hretired, not_exists, and_assoc]

theorem lowestFree_eq_some_iff (d : DefectManager) (b s : Nat) : d.lowestFree b = some s ↔
    s < (d.band b).sparePositions ∧ d.spareFree b s = true ∧ ∀ x < s, d.spareFree b x = false := by
  rw [DefectManager.lowestFree, List.find?_range_eq_some]
  simp only [List.mem_range, Bool.not_eq_true']
  exact and_left_comm

theorem lowestFree_eq_none_iff (d : DefectManager) (b : Nat) : d.lowestFree b = none ↔
    ∀ x < (d.band b).sparePositions, d.spareFree b x = false := by
  rw [DefectManager.lowestFree, List.find?_range_eq_none]
  simp only [Bool.not_eq_true']

/-! ### What a reassignment answers (R39–R42) -/

/-- The map after a reassignment to a new spare (R39, R40, R42). -/
def reassigned (d : DefectManager) (h : Home) (new delay : Nat) : DefectManager :=
  { d with replacement := reassignList h new d.replacement }.countChange delay

/-- A place where the LSN does not live is a mismatch (R40). -/
theorem reassign_elsewhere {d : DefectManager} {lsn : Nat} {place : Place}
    (h : d.translate lsn ≠ some place) (delay : Nat) : d.reassign lsn place delay = .mismatch := by
  unfold DefectManager.reassign
  cases hhome : d.home lsn with
  | none => rfl
  | some home =>
    have hplace : d.placeOf home ≠ place := fun he => h (he ▸ translate_of_home hhome)
    exact if_pos hplace

/-- The answer for a place where the LSN lives: a refusal, or the map with the new spare (R39–R41). -/
theorem reassign_at_home {d : DefectManager} {lsn : Nat} {place : Place} {h : Home}
    (hhome : d.home lsn = some h) (hplace : d.translate lsn = some place) (delay : Nat) :
    d.reassign lsn place delay = match d.lowestFree h.band with
      | none => .refused .sparesExhausted
      | some new => if 1024 ≤ d.replacement.length then .refused .defectListFull
        else .done (reassigned d h new delay) := by
  have hhere : d.placeOf h = place := by
    rw [translate_of_home hhome] at hplace
    exact Option.some.inj hplace
  unfold DefectManager.reassign
  simp only [hhome, hhere, ne_eq, not_true_eq_false, if_false]
  rfl

/-- A reassignment that is carried out was one at the LSN's place, with a free spare in its band and a place
in the list (R39–R41). -/
theorem reassign_eq_done {d e : DefectManager} {lsn delay : Nat} {place : Place}
    (h : d.reassign lsn place delay = .done e) : ∃ home new, d.home lsn = some home ∧
      d.lowestFree home.band = some new ∧ d.replacement.length < 1024 ∧
        e = reassigned d home new delay := by
  have hplace : d.translate lsn = some place := Decidable.byContradiction fun hne => by
    rw [reassign_elsewhere hne] at h
    cases h
  obtain ⟨home, hhome, -⟩ := home_of_translate hplace
  rw [reassign_at_home hhome hplace] at h
  cases hfree : d.lowestFree home.band with
  | none => simp [hfree] at h
  | some new =>
    simp only [hfree] at h
    split at h
    · cases h
    · next hroom =>
      cases h
      exact ⟨home, new, hhome, hfree, Nat.lt_of_not_le hroom, rfl⟩

/-- What stands in the list with one position's MOVED entry changed to another spare: the changed entry, and
the entries of other positions (R40). -/
theorem mem_retarget_iff {b p old : Nat} {es : List MapEntry} (hm : MapEntry.moved b p old ∈ es)
    (new : Nat) (m : MapEntry) : m ∈ retarget b p new es ↔
      m = .moved b p new ∨ (m ∈ es ∧ ∀ x, m ≠ .moved b p x) := by
  rw [retarget, List.mem_map]
  constructor
  · rintro ⟨e, he, rfl⟩
    cases e with
    | moved b' p' s =>
      by_cases hsame : b' = b ∧ p' = p
      · simp [hsame]
      · refine Or.inr ?_
        simp only [Bool.and_eq_true, beq_iff_eq, hsame, if_false]
        exact ⟨he, fun x hx => hsame (by cases hx; exact ⟨rfl, rfl⟩)⟩
    | retired b' s => exact Or.inr ⟨he, fun x hx => by cases hx⟩
  · rintro (rfl | ⟨he, hother⟩)
    · exact ⟨_, hm, by simp⟩
    · refine ⟨m, he, ?_⟩
      cases m with
      | moved b' p' s =>
        have hdiffers : ¬ (b' = b ∧ p' = p) := fun ⟨hb, hp⟩ => hother s (by rw [hb, hp])
        simp only [Bool.and_eq_true, beq_iff_eq, hdiffers, if_false]
      | retired b' s => rfl

/-- The list after the reassignment of an LSN that lived at its data position (R39). -/
theorem mem_reassignList_data {h : Home} (hnone : h.spare = none) (new : Nat) (es : List MapEntry)
    (m : MapEntry) : m ∈ reassignList h new es ↔ m = .moved h.band h.pos new ∨ m ∈ es := by
  rw [reassignList, hnone]
  exact mem_insertEntry ..

/-- The list after the reassignment of an LSN that lived at a spare (R40). -/
theorem mem_reassignList_spare {h : Home} {old : Nat} (hold : h.spare = some old) (new : Nat)
    {es : List MapEntry} (hm : MapEntry.moved h.band h.pos old ∈ es) (m : MapEntry) :
    m ∈ reassignList h new es ↔ m = .moved h.band h.pos new ∨ m = .retired h.band old ∨
      (m ∈ es ∧ ∀ x, m ≠ .moved h.band h.pos x) := by
  rw [reassignList, hold]
  change m ∈ insertEntry _ _ ↔ _
  rw [mem_insertEntry, mem_retarget_iff hm]
  exact or_left_comm

/-- A reassignment keeps law 8 and the list's order, and adds one entry (R38–R42). -/
theorem reassign_keeps_form {d e : DefectManager} {lsn delay : Nat} {place : Place}
    (hlaw : d.law8 = true)
    (horder : ascending (fun x y : MapEntry => keyLt x.key y.key) d.replacement = true)
    (h : d.reassign lsn place delay = .done e) :
    e.law8 = true ∧ ascending (fun x y => keyLt x.key y.key) e.replacement = true ∧
      e.replacement.length = d.replacement.length + 1 ∧ d.replacement.length < 1024 ∧
        e.changeCount = d.changeCount + 1 ∧ e.dirty = true ∧ e.settle = .running delay := by
  obtain ⟨hlaw', horder'⟩ :=
    (mapForm_iff e).mp (reassign_form h ((mapForm_iff d).mpr ⟨hlaw, (order_iff _).mp horder⟩))
  obtain ⟨home, new, -, -, hroom, rfl⟩ := reassign_eq_done h
  exact ⟨hlaw', (order_iff _).mpr horder', reassignList_length .., hroom, rfl, rfl, rfl⟩

/-- Settles O52, from what makes a spare free, the one equation of a reassignment's answer, and what each
case of the list change puts into the list. -/
theorem sparesAndReassignment : Obligations.SparesAndReassignment := by
  refine ⟨fun d b s => ⟨spareFree_iff d b s, lowestFree_eq_some_iff d b s, lowestFree_eq_none_iff d b⟩,
    fun d e lsn delay place => reassign_keeps_form, fun d lsn delay place =>
      ⟨fun hne => reassign_elsewhere hne delay, fun h hhome hplace => ?_⟩⟩
  rw [reassign_at_home hhome hplace]
  refine ⟨fun hnone => by rw [hnone], fun new hnew => ?_⟩
  simp only [hnew]
  refine ⟨fun hfull => if_pos hfull, fun hroom =>
    ⟨reassigned d h new delay, if_neg (Nat.not_le_of_lt hroom), rfl,
      fun hnone => mem_reassignList_data hnone new _, fun old hold => ?_⟩⟩
  exact mem_reassignList_spare hold new (movedTo_some (home_spare hhome ▸ hold))

end Sys2Proof.Proofs.LogicalAddressing
end

section
/-! PROOF. The range checks of intake (R29, R30); O51. -/

namespace Sys2Proof.Proofs.LogicalAddressing

open Sys2Proof.Machine

/-- A READ or WRITE whose form check passes is for at least one sector (R154, 11.6). -/
theorem count_pos_of_wellFormed {b : RequestBlock} {k : RequestKind} (hk : k = .read ∨ k = .write)
    (h : b.malformed k = false) : 1 ≤ b.count := by
  rcases hk with rfl | rfl
  all_goals
    simp only [RequestBlock.malformed, RequestBlock.badValue, Bool.or_eq_false_iff,
      Bool.not_eq_false', Bool.and_eq_true, decide_eq_true_eq] at h
    omega

theorem rangePasses_sectors_iff (s : State) (b : RequestBlock) {k : RequestKind}
    (hk : k = .read ∨ k = .write) :
    s.rangePasses b k = true ↔ b.lsn + b.count ≤ s.dm.capacity := by
  rcases hk with rfl | rfl
  all_goals exact decide_eq_true_iff

/-- Outside the capacity no well formed READ or WRITE passes (R29). -/
theorem rangePasses_sectors_beyond {s : State} {b : RequestBlock} {k : RequestKind}
    (hk : k = .read ∨ k = .write) (hform : b.malformed k = false) (h : s.dm.capacity ≤ b.lsn) :
    s.rangePasses b k = false := by
  rw [← Bool.not_eq_true, rangePasses_sectors_iff s b hk]
  have := count_pos_of_wellFormed hk hform
  omega

/-- Check 6, failed by a block that passes the checks before it (R29, R30, R154). -/
theorem refusalOf_outOfRange {s : State} {c : Channel} {b : RequestBlock} {k : RequestKind}
    (hform : b.malformed k = false) (htag : s.reqByTag c b.tag = none)
    (hroom : (s.reqs c).length < (s.port c).settings.queueDepth) (hadmits : s.admits c k = true)
    (hrange : s.rangePasses b k = false) : s.refusalOf c b k = some .outOfRange := by
  have hqueue : ¬ (s.port c).settings.queueDepth ≤ (s.reqs c).length := Nat.not_le_of_lt hroom
  simp [State.refusalOf, hform, htag, hqueue, hadmits, hrange]

/-- A RESERVE takes no more than the capacity leaves from its LSN (R30). -/
theorem reserveCount_within {s : State} {b : RequestBlock} (h : b.lsn < s.dm.capacity) :
    b.lsn + s.reserveCount b ≤ s.dm.capacity := by
  rw [State.reserveCount]
  omega

/-- Settles O51, kind by kind; the refusal is the same for every kind. -/
theorem rangeChecks : Obligations.RangeChecks := by
  refine ⟨fun s c b k hk => ⟨rangePasses_sectors_iff s b hk, rangePasses_sectors_beyond hk,
      fun hform hzero => rangePasses_sectors_beyond hk hform (hzero ▸ Nat.zero_le _),
      refusalOf_outOfRange⟩,
    fun s c b => ⟨decide_eq_true_iff, decide_eq_true_iff,
      fun h => ⟨rfl, reserveCount_within (of_decide_eq_true h)⟩, decide_eq_true_iff,
      fun k hk => ?_, fun k _ => refusalOf_outOfRange⟩⟩
  rcases hk with rfl | rfl | rfl | rfl | rfl | rfl | rfl | rfl
  all_goals rfl

end Sys2Proof.Proofs.LogicalAddressing
end

section
/-! SUPPORT AND PROOF. RESERVE and the reservation table (R169, R171); O19. -/

namespace Sys2Proof.Proofs.LogicalAddressing

open Sys2Proof.Machine

/-- The search for a free id, over the ids of a table (R169). -/
theorem freeReservationId_eq (es : List Reservation) : freeReservationId es =
    (List.range' 1 8).find? (fun i => !es.any (fun e => e.id == i)) := rfl

/-- The id a RESERVE takes: the lowest of 1 to 8 that no entry holds (R171). -/
theorem freeReservationId_eq_some_iff (es : List Reservation) (i : Nat) :
    freeReservationId es = some i ↔ 1 ≤ i ∧ i ≤ 8 ∧ (∀ e ∈ es, e.id ≠ i) ∧
      ∀ j, 1 ≤ j → j < i → ∃ e ∈ es, e.id = j := by
  rw [freeReservationId_eq, List.find?_range'_eq_some]
  simp only [List.mem_range'_1, Bool.not_eq_true', Bool.not_not, List.any_eq_false, List.any_eq_true,
    beq_iff_eq]
  constructor
  · rintro ⟨hfree, ⟨hlow, hhigh⟩, hheld⟩
    exact ⟨hlow, by omega, hfree, hheld⟩
  · rintro ⟨hlow, hhigh, hfree, hheld⟩
    exact ⟨hfree, ⟨hlow, by omega⟩, hheld⟩

/-- The ids of a table are 1 to 8, each held at most once, so they are all held exactly when it has 8
entries (R169). -/
theorem freeReservationId_none_iff_full {es : List Reservation} (h : tableForm es = true) :
    freeReservationId es = none ↔ es.length = 8 := by
  obtain ⟨hrange, hascend⟩ := (tableForm_iff es).mp h
  have hdistinct : (es.map (fun e => e.id)).Nodup :=
    (List.pairwise_map.mpr hascend).imp Nat.ne_of_lt
  have hids : ((List.range' 1 8).filter (fun i => es.any (fun e => e.id == i))).Perm
      (es.map (fun e => e.id)) := by
    rw [List.perm_ext_iff_of_nodup ((List.nodup_range' 1).filter _) hdistinct]
    intro i
    simp only [List.mem_filter, List.mem_range'_1, List.any_eq_true, beq_iff_eq, List.mem_map]
    refine ⟨fun hi => hi.2, fun hi => ⟨?_, hi⟩⟩
    obtain ⟨e, he, rfl⟩ := hi
    obtain ⟨hlow, hhigh⟩ := hrange e he
    exact ⟨hlow, by omega⟩
  have hlength := hids.length_eq
  rw [List.length_map] at hlength
  have hheld : ((List.range' 1 8).filter (fun i => es.any (fun e => e.id == i))).length = 8 ↔
      ∀ i ∈ List.range' 1 8, es.any (fun e => e.id == i) = true :=
    List.length_filter_eq_length_iff
  rw [freeReservationId_eq, List.find?_eq_none, ← hlength, hheld]
  simp only [Bool.not_eq_true', Bool.not_eq_false]

/-- The mode of an entry by its code (11.6). -/
theorem reserveMode_ofByte (mode : Byte) : (ReserveMode.ofCode mode.toNat).getD .shared =
    if mode = 0x02 then .exclusive else .shared := by
  unfold ReserveMode.ofCode
  by_cases hmode : mode = 0x02
  · subst hmode
    rfl
  · have hcode : mode.toNat ≠ 2 := fun h => hmode (BitVec.eq_of_toNat_eq h)
    rw [if_neg hmode, if_neg hcode]
    split <;> rfl

/-- A channel's RESERVE request that has its result. -/
def settledReserve (s : State) (b : RequestBlock) (st : Status) (id : Option Nat) : Request :=
  { s.newRequest b .reserve with state := .done, result := some st, reservationId := id }

/-- The state in which a RESERVE has been handed over and the table is the one given. -/
def handedTable (s : State) (c : Channel) (es : List Reservation) : State :=
  { s.handed c with reservations := es }

theorem handedTable_aside {s : State} (hb : s.between = true) (c : Channel) (es : List Reservation) :
    Aside s (handedTable s c es) :=
  have h := handed_aside hb c
  ⟨⟨h.reads.slots, h.reads.reqs, h.reads.transfers⟩, h.nextId, h.idle, h.ejectDue⟩

/-- The entry that a RESERVE's block asks for, under an id (R171). -/
def reserveEntry (s : State) (c : Channel) (b : RequestBlock) (id : Nat) : Reservation :=
  { id := id, owner := c, first := b.lsn, count := s.reserveCount b,
    mode := (ReserveMode.ofCode b.reserveMode).getD .shared }

theorem acceptReserve_of_none {s : State} (h : freeReservationId s.reservations = none) (c : Channel)
    (id : Nat) (b : RequestBlock) : s.acceptReserve c id b = s.settleReq c id .tableFull := by
  rw [State.acceptReserve, h]

theorem acceptReserve_of_some {s : State} {i : Nat} (h : freeReservationId s.reservations = some i)
    (c : Channel) (id : Nat) (b : RequestBlock) : s.acceptReserve c id b =
      ({ s with reservations := insertReservation (reserveEntry s c b i) s.reservations }.updReq c id
        (fun r => { r with reservationId := some i })).settleReq c id .success := by
  rw [State.acceptReserve, h]
  rfl

theorem accept_reserve (s : State) (c : Channel) (b : RequestBlock) :
    (s.handed c).accept c b .reserve =
      ((s.handed c).withNew c (s.newRequest b .reserve)).acceptReserve c s.nextId b := by
  rw [← handed_addRequest]
  rfl

/-- With no free id the RESERVE is settled TABLE FULL, and the table stays (R171). -/
theorem accept_reserve_full {s : State} (hb : s.between = true) (c : Channel) (b : RequestBlock)
    (hfull : freeReservationId s.reservations = none) :
    (s.handed c).accept c b .reserve = (handedTable s c s.reservations).withNew c
      (settledReserve s b .tableFull none) := by
  have hfull' : freeReservationId ((s.handed c).withNew c (s.newRequest b .reserve)).reservations =
      none := hfull
  rw [accept_reserve, acceptReserve_of_none hfull']
  exact settle_new hb .tableFull rfl ((handed_aside hb c).reads.transfers c) rfl

/-- With a free id the RESERVE is settled SUCCESS with it, and its entry stands in the table (R171). -/
theorem accept_reserve_free {s : State} (hb : s.between = true) (c : Channel) (b : RequestBlock)
    {i : Nat} (hfree : freeReservationId s.reservations = some i) :
    (s.handed c).accept c b .reserve =
      (handedTable s c (insertReservation (reserveEntry s c b i) s.reservations)).withNew c
        (settledReserve s b .success (some i)) := by
  have hnamed : ((handedTable s c (insertReservation (reserveEntry s c b i) s.reservations)).withNew c
        (s.newRequest b .reserve)).updReq c s.nextId (fun r => { r with reservationId := some i }) =
      (handedTable s c (insertReservation (reserveEntry s c b i) s.reservations)).withNew c
        { s.newRequest b .reserve with reservationId := some i } :=
    updReq_new _ (fun q hq => Nat.ne_of_lt (between_ids hb c hq)) rfl
  have hfree' : freeReservationId ((s.handed c).withNew c (s.newRequest b .reserve)).reservations =
      some i := hfree
  rw [accept_reserve, acceptReserve_of_some hfree']
  refine (congrArg (fun t => State.settleReq t c s.nextId .success) hnamed).trans ?_
  exact settle_new hb .success rfl ((handed_aside hb c).reads.transfers c) rfl

/-- The step of an accepted RESERVE, from the table it leaves and the request it settles. -/
theorem exec_reserve {s : State} (hb : s.between = true) {c : Channel} {tag : Byte}
    {lsn count : BitVec 24} {mode : Byte} (ha : s.accepts c (reserveBlock tag lsn count mode) = true)
    {es : List Reservation} {st : Status} {id : Option Nat} (hst : st ≠ .expired)
    (he : (s.handed c).accept c (reserveBlock tag lsn count mode) .reserve =
      (handedTable s c es).withNew c
        (settledReserve s (reserveBlock tag lsn count mode) st id)) :
    exec (.reserve c tag lsn count mode) s = .next { s with
      nextId := s.nextId + 1
      ports := s.ports.set c ((s.port c).completed1
        (plainCompletion tag 0x10 st.code (BitVec.ofNat 8 (id.getD 0)) s.timebase))
      reservations := es } := by
  have hraised : (handedTable s c es).raised = [] := between_raised (s := s) hb
  have hstep := request_plain (i := .reserve c tag lsn count mode) hb rfl ha rfl he
    (handedTable_aside hb c es) rfl hraised rfl rfl (by rintro ⟨⟩) (by rintro ⟨⟩) (by rintro ⟨⟩)
    (fun h => hst (Option.some.inj h)) rfl
  exact hstep

/-- Settles O19, by whether the table has a free id; which ids are free by counting the ids held. -/
theorem reserveAccepted : Obligations.ReserveAccepted := by
  refine ⟨fun c tag lsn count mode s hb ha => ?_, fun es h =>
    ⟨freeReservationId_none_iff_full h, fun i => (freeReservationId_eq_some_iff es i).mp⟩⟩
  obtain ⟨hlsn, hcount, hmode⟩ := reserveBlock_fields tag lsn count mode
  cases hid : freeReservationId s.reservations with
  | none => exact exec_reserve hb ha (by rintro ⟨⟩) (accept_reserve_full hb c _ hid)
  | some i =>
    have hstep := exec_reserve hb ha (by rintro ⟨⟩) (accept_reserve_free hb c _ hid)
    rw [reserveEntry, State.reserveCount, hlsn, hcount, hmode, reserveMode_ofByte] at hstep
    exact hstep

end Sys2Proof.Proofs.LogicalAddressing
end

section
/-! SUPPORT AND PROOF. The entry to FAULTED where one READ's end takes the slot of another (R66, R104,
R147); O35 and O42 fail. -/

namespace Sys2Proof.Proofs.MediaOperations

open Sys2Proof.Machine

/-! ### A READ that should go on -/

/-- A READ whose one sector is bound to a CLEAN slot has no sector still to come (R147). -/
theorem not_stillToCome_of_clean {s : State} {q : Request} {i : Nat} {load : Option Nat}
    (hsectors : q.sectors = [{ st := .bound i, load := load }])
    (hclean : (s.slotAt i).state = .clean) : ¬ s.stillToCome q := by
  rintro ⟨k, x, hx, -, hx'⟩
  rw [hsectors, List.getElem?_singleton] at hx
  split at hx
  · obtain rfl := Option.some.inj hx
    rcases hx' with hwaiting | ⟨j, hbound, hnotClean, -⟩
    · cases hwaiting
    · obtain rfl := ReadSectorState.bound.inj hbound
      exact hnotClean hclean
  · cases hx

/-- The entry to FAULTED keeps a READ with no sector still to come, so a state without it is not one
that such an entry may leave (R147). -/
theorem not_becomesFaulted_of_read_gone {s u : State} {c : Channel} {q : Request}
    (hq : q ∈ s.reqs c) (hunlisted : s.unlisted c q) (hwork : s.findWork q.id = none)
    (hread : q.kind = .read) (hcome : ¬ s.stillToCome q) (hgone : u.reqs c = []) :
    ¬ s.becomesFaulted u := by
  rintro ⟨-, -, -, -, -, -, -, -, -, -, -, -, -, -, -, -, hends⟩
  obtain ⟨hfree, -⟩ := hends c q hq
  obtain ⟨-, hstays, -⟩ := hfree hunlisted hwork
  obtain ⟨b, hb⟩ := hstays hread hcome
  rw [hgone] at hb
  cases hb

/-! ### Two READs of one stale slot, one of them on its binding list -/

/-- Port A's READ of LSNs 5 and 6: sector 5 is bound to slot 0, sector 6 still waits for a slot. -/
def endedRead : Request :=
  { id := 0, tag := 9, kind := .read, lsn := 5, count := 2, sequential := false, deadline := none,
    state := .delivering, sectorsDone := 0, worstLoad := none, firstFailing := none, result := none,
    late := false, corrected := false, rescueQueued := false, reassigned := false, short := false,
    abortMark := false, reservationId := none, started := false,
    sectors := [{ st := .bound 0, load := some 0 }, { st := .waiting, load := none }],
    readAheadPassed := false, served := false }

/-- Port B's READ of LSN 5 alone, bound to slot 0 too. -/
def lastingRead : Request :=
  { endedRead with
    id := 1, tag := 7, count := 1, sectors := [{ st := .bound 0, load := some 0 }] }

/-- The transfer of a READ that is being delivered, none of its bytes moved yet. -/
def firstTransfer (r : Request) : Transfer :=
  { request := r.id, tag := r.tag, dir := .outward, length := r.count * sectorBytes, moved := 0,
    record := [] }

/-- The CLEAN stale slot 0 of LSN 5, whose binding list names Port A's READ alone. -/
def staleSlot : Slot :=
  { Slot.reset with
    state := .clean, lsn := some 5, stale := true, holdCount := 1, charged := .internal,
    bindings := [{ ch := .A, id := 0, waiting := false }] }

/-- READY with the two READs being delivered out of slot 0. -/
def twoReadsOfOneSlot (l : Link) : State :=
  { State.resetValues with
    ports := {
      a := { Port.reset with transfers := [firstTransfer endedRead] }
      b := { Port.reset with transfers := [firstTransfer lastingRead] } }
    requests := { a := [endedRead], b := [lastingRead] }
    pool := {
      slots := staleSlot :: List.replicate 31 Slot.reset
      directory := []
      slotWait := [0] }
    link := l
    ctl := { Controller.reset with state := .ready, startupReport := false }
    nextId := 2 }

/-- A READ SECTORS with number 6. -/
def readCommand : OutstandingCommand :=
  { number := 6, command := .readSectors 16 [5], sender := .mediaEngine }

/-- A link whose READ SECTORS has been sent again as often as the default policy allows. -/
def exhaustedLink : Link :=
  { Link.reset with
    state := .awaitingResponse, outstanding := some readCommand, remaining := some 0,
    retryCount := some 2, nextNumber := 7 }

/-- The end of Port A's READ empties the binding list, so the stale slot becomes FREE, and Port B's
READ, which the list does not name, now has a sector that is not available (R59, R66). -/
theorem lastingRead_pending_after_endedRead (l : Link) :
    (twoReadsOfOneSlot l).sectorsPending lastingRead.sectors = false ∧
      (((twoReadsOfOneSlot l).faultRequest .A endedRead).slotAt 0).state = .free ∧
      ((twoReadsOfOneSlot l).faultRequest .A endedRead).sectorsPending lastingRead.sectors = true :=
  ⟨rfl, rfl, rfl⟩

/-- The state keeps every law that Safety.lean names; none of them ties a READ's bound sectors to the
binding lists of the slots. -/
theorem twoReadsOfOneSlot_lawful :
    let s := twoReadsOfOneSlot exhaustedLink
    s.between = true ∧ s.law1 = true ∧ s.law3 = true ∧ s.law4 = true ∧ s.law5 = true ∧
      s.link.law7 = true ∧ s.dm.mapForm = true ∧ s.dm.mapSound = true ∧ s.dm.bounded = true ∧
      law10 s.reservations = true ∧ tableForm s.reservations = true ∧ s.phased = true ∧
      s.pool.placed = true ∧ s.pool.sized = true ∧ s.policy.inRange = true ∧
      s.settingsInRange = true ∧ s.memoryWf = true ∧ s.tagsDistinct = true ∧
      s.noticesOrdered = true ∧ s.worksOwned = true := by
  decide +kernel

/-- Port B's READ is one that the entry to FAULTED should keep, and it is gone. -/
theorem twoReadsOfOneSlot_not_becomesFaulted (l : Link) {u : State} (hgone : u.reqs .B = []) :
    ¬ (twoReadsOfOneSlot l).becomesFaulted u :=
  not_becomesFaulted_of_read_gone (c := .B) (q := lastingRead) (List.mem_singleton.mpr rfl)
    ⟨List.not_mem_nil, List.not_mem_nil⟩ rfl rfl (not_stillToCome_of_clean rfl rfl) hgone

theorem damagedFrame_ends_lastingRead :
    (State.finish (twoReadsOfOneSlot exhaustedLink)
      (twoReadsOfOneSlot exhaustedLink).damagedTaken).reqs .B = [] := by
  decide +kernel

theorem mechFault_ends_lastingRead :
    (State.finish (twoReadsOfOneSlot Link.reset)
      ((twoReadsOfOneSlot Link.reset).eventTaken 4
        (fun t => t.cancelCommand.mechFaultTaken))).reqs .B = [] := by
  decide +kernel

/-! ### The statements fail -/

/-- Refutes O35: a damaged frame with the retries run out, in READY. Port A's READ ends MECHANISM FAULT,
and its end frees the stale slot that Port B's READ is bound to without standing on its binding list;
so Port B's READ ends too, although all it waits for was available when the command came. -/
theorem not_linkFaultEntersFaulted : ¬ Obligations.LinkFaultEntersFaulted := by
  intro h
  obtain ⟨houtside, -⟩ := h (twoReadsOfOneSlot exhaustedLink) readCommand twoReadsOfOneSlot_lawful.1 rfl
    rfl (Nat.le_refl 2) .damagedFrame (.inl rfl)
  obtain ⟨u, hnext, hfaulted, -⟩ := houtside rfl
  obtain rfl := Host.Outcome.next.inj ((exec_damagedFrame _).symm.trans hnext)
  exact twoReadsOfOneSlot_not_becomesFaulted exhaustedLink damagedFrame_ends_lastingRead hfaulted

/-- Refutes O42, by the same two READs: a MECH FAULT in READY with the link IDLE. -/
theorem not_mechFaultEntersFaulted : ¬ Obligations.MechFaultEntersFaulted := by
  rintro ⟨houtside, -⟩
  obtain ⟨-, -, hready⟩ := houtside 4 (twoReadsOfOneSlot Link.reset) (by decide +kernel) rfl
    (by rintro ⟨⟩) rfl
  obtain ⟨u, hnext, hfaulted, -⟩ := hready (by rintro ⟨⟩) (by rintro ⟨⟩)
  obtain rfl := Host.Outcome.next.inj ((exec_mechFault 4 _).symm.trans hnext)
  exact twoReadsOfOneSlot_not_becomesFaulted Link.reset mechFault_ends_lastingRead hfaulted

end Sys2Proof.Proofs.MediaOperations
end

section
/-! SUPPORT AND PROOF. SET CHANNEL: the clamped settings, and what they do to the channel's read-ahead and
idle remaining (R117, R181, R185); O26. -/

namespace Sys2Proof.Proofs.SchedulingTheHead

open Sys2Proof.Machine

/-! ### The state with a channel's settings taken -/

/-- The read-ahead records after a channel has taken settings: a window of 0 cancels its own (R117). -/
def readAheadUnder (ra : PerChannel (Option ReadAhead)) (c : Channel) (t : Settings) :
    PerChannel (Option ReadAhead) :=
  if t.readAheadWindow = 0 then ra.set c none else ra

/-- The state with a channel's settings taken, and nothing else of a SET CHANNEL done (R185). -/
def withSettings (s : State) (c : Channel) (t : Settings) : State :=
  { s with
    sched := { s.sched with readAhead := readAheadUnder s.sched.readAhead c t }
    ports := s.ports.set c ((s.port c).takeSettings t) }

theorem port_withSettings (s : State) (c d : Channel) (t : Settings) :
    (withSettings s c t).port d = if d = c then (s.port c).takeSettings t else s.port d :=
  port_setPorts _ _ _ _

theorem port_withSettings_same (s : State) (c : Channel) (t : Settings) :
    (withSettings s c t).port c = (s.port c).takeSettings t := by
  rw [port_withSettings, if_pos rfl]

/-- A field of the ports that no settings touch is the one it was. -/
theorem portField_withSettings {α : Type} (f : Port → α) {s : State} {c : Channel} {t : Settings}
    (h : f ((s.port c).takeSettings t) = f (s.port c)) (d : Channel) :
    f ((withSettings s c t).port d) = f (s.port d) := by
  rw [port_withSettings]
  split
  · next hd => rw [hd, h]
  · rfl

theorem withSettings_sameReads (s : State) (c : Channel) (t : Settings) :
    SameReads s (withSettings s c t) :=
  ⟨fun _ => rfl, rfl, portField_withSettings Port.transfers rfl⟩

/-- Settings set idle remaining to nothing but absent, so a port without a transfer keeps it absent. -/
theorem withSettings_quiet {s : State} (h : s.quiet = true) (c : Channel) (t : Settings) :
    (withSettings s c t).quiet = true := by
  obtain ⟨hraised, hreqs, heject, hidle⟩ := (quiet_iff s).mp h
  refine (quiet_iff _).mpr ⟨hraised, hreqs, heject, fun d hnone => ?_⟩
  rw [(withSettings_sameReads s c t).transfers] at hnone
  rw [port_withSettings]
  split
  · next hd =>
    subst hd
    unfold Port.takeSettings
    split
    · rfl
    · exact hidle d hnone
  · exact hidle d hnone

theorem withSettings_between {s : State} (h : s.between = true) (c : Channel) (t : Settings) :
    (withSettings s c t).between = true := by
  obtain ⟨hquiet, hids, hformed, howned⟩ := (between_iff s).mp h
  refine (between_iff _).mpr ⟨withSettings_quiet hquiet c t, hids,
    (portsFormed_iff _).mpr fun d => ?_, (transfersOwned_iff _).mpr fun d => ?_⟩
  · rw [portField_withSettings Port.formed rfl]
    exact (portsFormed_iff s).mp hformed d
  · rw [(withSettings_sameReads s c t).transfers]
    exact (transfersOwned_iff s).mp howned d

/-- What a step sets idle remaining by is which transfer was current and whether DATA READY was true, so
states that agree in these begin the same end of a step (R181). -/
theorem finish_of_sameReads {s t : State} (h : SameReads s t) (v : State) :
    State.finish s v = State.finish t v := by
  have hcurrent : ∀ c, t.currentTransfer c = s.currentTransfer c := fun c => by
    unfold State.currentTransfer
    rw [h.transfers]
  unfold State.finish State.refreshIdle
  simp only [hcurrent, dataReady_congr h]

/-! ### The acceptance and its step -/

/-- A channel's SET CHANNEL request that has its result. -/
def settledSetChannel (s : State) (b : RequestBlock) : Request :=
  { s.newRequest b .setChannel with state := .done, result := some .success }

/-- Before its completion, an accepted SET CHANNEL does what taking the settings first would have left to
it (R185). -/
theorem accept_setChannel_taken (s : State) (c : Channel) (b : RequestBlock) :
    (s.handed c).accept c b .setChannel =
      (((withSettings s c b.settings).handed c).withNew c
        (s.newRequest b .setChannel)).settleReq c s.nextId .success := by
  show State.settleReq _ c s.nextId .success = _
  congr 1
  unfold withSettings readAheadUnder
  by_cases hwindow : b.settings.readAheadWindow = 0
  · rw [if_pos hwindow, if_pos hwindow]
    cases c <;> rfl
  · rw [if_neg hwindow, if_neg hwindow]
    cases c <;> rfl

theorem accept_setChannel {s : State} (hb : s.between = true) (c : Channel) (b : RequestBlock) :
    (s.handed c).accept c b .setChannel =
      ((withSettings s c b.settings).handed c).withNew c (settledSetChannel s b) := by
  have hb' := withSettings_between hb c b.settings
  rw [accept_setChannel_taken]
  exact settle_new hb' .success rfl ((handed_aside hb' c).reads.transfers c) rfl

/-- The step of an accepted SET CHANNEL is the step of a request that only completes, taken in the state
that has the settings already. -/
theorem exec_setChannel {s : State} (hb : s.between = true) {c : Channel} {tag depth : Byte}
    {limit : BitVec 16} {window enables : Byte} {t : Settings}
    (ht : (setChannelBlock tag depth limit window enables).settings = t)
    (ha : s.accepts c (setChannelBlock tag depth limit window enables) = true) :
    exec (.setChannel c tag depth limit window enables) s = .next { s with
      nextId := s.nextId + 1
      sched := { s.sched with readAhead := readAheadUnder s.sched.readAhead c t }
      ports := s.ports.set c (((s.port c).takeSettings t).completed1
        (plainCompletion tag 0x41 0x00 0 s.timebase)) } := by
  have hb' := withSettings_between hb c t
  have hraised : ((withSettings s c t).handed c).raised = [] := between_raised (s := s) hb
  rw [exec_request (i := .setChannel c tag depth limit window enables) rfl,
    (takeBlock_accepted ha rfl).1, accept_setChannel hb, ht,
    finish_of_sameReads (withSettings_sameReads s c t),
    finish_new_silent hb' (handed_aside hb' c) rfl rfl (by rintro ⟨⟩) hraised,
    handed_port, if_pos rfl,
    posted_plain (between_counters hb' c) (by rintro ⟨⟩) (by rintro ⟨⟩) (by rintro ⟨⟩)
      (by rintro ⟨⟩) rfl,
    port_withSettings_same]
  cases c <;> rfl

/-! ### The values -/

/-- The settings of a SET CHANNEL's block, each cut off at the ends of its range (R185). -/
theorem setChannelBlock_clamped (tag depth : Byte) (limit : BitVec 16) (window enables : Byte) :
    (setChannelBlock tag depth limit window enables).settings =
      { queueDepth := max 1 (min depth.toNat 12)
        idleLimit := min limit.toNat 10000
        readAheadWindow := min window.toNat 16
        completionEnable := enables.getLsbD 0
        dataEnable := enables.getLsbD 1 } := by
  rw [setChannelBlock_settings]
  simp only [clamp, Nat.zero_max, Nat.min_comm, BitVec.getLsbD]

/-- A value cut off above 0 is 0 only where the value given is 0: no clamp switches a setting off. -/
theorem min_toNat_eq_zero_iff {w hi : Nat} (x : BitVec w) (h : 0 < hi) :
    min x.toNat hi = 0 ↔ x = 0 := by
  rw [BitVec.toNat_eq, BitVec.ofNat_eq_ofNat, BitVec.toNat_zero]
  omega

/-- Settles O26: an accepted SET CHANNEL leaves what its clamped settings say, and a clamped window or
idle limit is 0 exactly when the one given is. -/
theorem setChannelAccepted : Obligations.SetChannelAccepted := by
  intro c tag depth limit window enables s hb ha
  have hwindow := min_toNat_eq_zero_iff (hi := 16) window (by decide)
  have hlimit := min_toNat_eq_zero_iff (hi := 10000) limit (by decide)
  rw [exec_setChannel hb (setChannelBlock_clamped tag depth limit window enables) ha]
  simp only [readAheadUnder, Port.takeSettings, hwindow, hlimit]
  rfl

end Sys2Proof.Proofs.SchedulingTheHead
end
